-- ==== Sys2Proof/Word.lean ====
section
/-! DEFINITION. Words of the machine: granules, instruction words, registers, vectors (R2, R33, R188). -/
namespace Sys2Proof

/-- One byte of memory. -/
abbrev Byte := BitVec 8

/-- A granule of instruction memory (R32). -/
abbrev Gran := BitVec 32

/-- An instruction word: three granules, the lowest holding bits [31:0] (R33). -/
abbrev Word96 := BitVec 96

/-- A Helm general register or an operand-queue entry (R113, R20). -/
abbrev X64 := BitVec 64

/-- A vector: 512 bytes, lane i at bits [32i+31:32i] (R188). -/
abbrev Vec := BitVec 4096

/-- A tile register: 128 rows of 128 bytes, row-major (R168). -/
abbrev TileBits := BitVec 131072

/-- A predicate or mask-stack entry: bit j for byte j of a vector (R204). -/
abbrev Pred := BitVec 512

end Sys2Proof
end

