-- ==== Sys2Proof/Syntax.lean ====
section
/-! DEFINITION. The abstract syntax: one constructor of `Instr` for each row of the opcode table.
Instruction rows carry decoded operands; event rows carry what names the agent or the outside input they act on. -/
namespace Sys2Proof

abbrev XReg := BitVec 6
abbrev CReg := BitVec 3
abbrev BReg := BitVec 3
abbrev HReg := BitVec 5
abbrev TReg := BitVec 4
abbrev KReg := BitVec 5
abbrev VReg := BitVec 6
abbrev OQ := BitVec 2
abbrev CQ := BitVec 2

/-- The five streams of a core (R12). -/
inductive Stream where
  | h | l | s | v | m
  deriving DecidableEq, Repr

/-- Type codes 0x0 to 0xC of Table 2.8 (R50). -/
inductive Ty where
  | f32 | f16 | bf16 | e4m3 | e5m2 | i8 | i16 | i32 | i64 | n8 | n16 | n32 | n64
  deriving DecidableEq, Repr

/-- Rounding codes of Table 2.9 (R50). -/
inductive Rnd where
  | rne | rz | ru | rd
  deriving DecidableEq, Repr

/-- Relations of Table 5.10 (R135). -/
inductive Rel where
  | eq | ne | lt | ge | ltn | gen
  deriving DecidableEq, Repr

/-- Combinations of Table 5.10 (R135). -/
inductive CombOp where
  | and | or | xor | andn | orn
  deriving DecidableEq, Repr

/-- Relations of VCMP, Table 7.7 (R211). -/
inductive VRel where
  | eq | ne | lt | le | gt | ge | un
  deriving DecidableEq, Repr

/-- Helm access widths (Table 2.6). -/
inductive Width where
  | b1 | b2 | b4 | b8
  deriving DecidableEq, Repr

/-- HGET selectors (Table 5.11). -/
inductive HSel where
  | base | length | rights | world | serial | shape | format
  deriving DecidableEq, Repr

/-- Shift amount: a register (fn 0) or an immediate (fn 1) (R133). -/
inductive ShAmt where
  | reg (xb : XReg)
  | imm (n : BitVec 6)
  deriving DecidableEq, Repr

/-- Operations of Table 10.5 (R294). -/
inductive AmoOp where
  | add | fadd | min | minn | max | maxn | and | or | xor | swap | cas
  deriving DecidableEq, Repr

/-- Operand widths of Table 10.5. -/
inductive AmoWidth where
  | w4 | w8 | w16
  deriving DecidableEq, Repr

/-- Group end and issue control of a format A word (R43, R47). -/
structure Ctl where
  g : Bool
  f : Bool
  l : Bool
  deriving DecidableEq, Repr

/-- Predicate register and negate bit of a V word (R205). -/
structure PSel where
  k : KReg
  neg : Bool
  deriving DecidableEq, Repr

/-- A vector source: queue, stream register, or latch (R46, R45). -/
inductive VSrc where
  | q (v : VReg) (keep : Bool)
  | sr (n : BitVec 3) (keep : Bool)
  | lat (j : BitVec 4)
  deriving DecidableEq, Repr

/-- A vector destination: a queue, possibly short-lived, or none (R46). -/
inductive VDst where
  | q (v : VReg) (short : Bool)
  | nul
  deriving DecidableEq, Repr

/-- A scalar-capable source under sfrm (R196). -/
inductive VOpd where
  | vec (src : VSrc)
  | imm (i : BitVec 30)
  | oq (q : OQ) (keep : Bool)
  deriving DecidableEq, Repr

/-- Memory operand of an Access word (R163, Table 6.2). -/
structure AMem where
  h : HReg
  race : Bool
  idx : Option OQ
  off : BitVec 26
  deriving DecidableEq, Repr

/-- Edge operation of PADAPPLY (R173). -/
inductive PadOp where
  | col (q : OQ)
  | row (q : OQ)
  | reset
  deriving DecidableEq, Repr

/-- Operands of a two-source elementwise V word (Table 7.4). -/
structure VBin where
  ctl : Ctl
  pred : PSel
  dst : VDst
  a : VSrc
  b : VOpd
  ty : Ty
  rnd : Rnd
  sat : Bool
  deriving DecidableEq, Repr

/-- Operands of a one-source V word. -/
structure VUn where
  ctl : Ctl
  pred : PSel
  dst : VDst
  a : VSrc
  ty : Ty
  rnd : Rnd
  sat : Bool
  deriving DecidableEq, Repr

/-- The base of VINDEX: an immediate or an operand-queue head (R213). -/
inductive IdxBase where
  | imm (b : BitVec 15)
  | oq (q : OQ) (keep : Bool)
  deriving DecidableEq, Repr

/-- The count of KSET (R216). -/
inductive KCnt where
  | imm (n : BitVec 10)
  | oq (q : OQ) (keep : Bool)
  deriving DecidableEq, Repr

/-- Position fields of matrix words that name accumulator rows (Table 9.4). -/
structure MPos where
  acc : BitVec 10
  pos : Option OQ
  deriving DecidableEq, Repr

/-- The scale of MLDW and MLDS (R256). -/
inductive MScale where
  | imm (i : BitVec 30)
  | oq (q : OQ)
  deriving DecidableEq, Repr

/-- Wait and signal fields of a copy (Table 8.3); barrier mode and units (R223). -/
structure Compl where
  we : Bool
  ws : BitVec 8
  se : Bool
  ss : BitVec 8
  deriving DecidableEq, Repr

/-- Barrier count that a completion lowers (R223). -/
inductive BarMode where
  | none | inb | outb
  deriving DecidableEq, Repr

/-- Barrier mode with the record number. -/
structure BarCnt where
  mode : BarMode
  unit : BitVec 15
  deriving DecidableEq, Repr

/-- Semaphore operands of SWAIT and SSIG (R286): immediates, or registers with R = 1. -/
inductive SemArg where
  | imm (n : BitVec 8) (k : BitVec 16)
  | reg (xa xb : XReg)
  deriving DecidableEq, Repr

/-- Target of TLWAIT (R298): registers in H, an operand queue elsewhere. -/
inductive TlArg where
  | h (xa xc : XReg)
  | oq (q : OQ)
  deriving DecidableEq, Repr

/-- Link or host session of SPDM messages (R356, R364). -/
inductive Sess where
  | port (p : Nat)
  | host (tdi : Nat)
  | owner (world role : Nat)
  deriving DecidableEq, Repr

/-- Agents that a revocation sweep reaches (R371 step 2). -/
inductive SweepAgent where
  | coreRegs (core : Nat)
  | copyEngine (core : Nat)
  | fabricQueue (core : Nat)
  | followOns (core : Nat)
  | syncWaiters (die : Nat)
  | taskEngine (die : Nat)
  | windows
  deriving DecidableEq, Repr

/-- Request identifier of a remote operation (R345). -/
structure ReqId where
  dev : Nat
  core : Nat
  seq : Nat
  deriving DecidableEq, Repr

/-- The window that a request names: source world, target world, window, and the incarnation of the target that its source knew at the
first attempt (R338, R345). -/
structure WinRef where
  srcWorld : Nat
  world : Nat
  win : Nat
  inc : Nat
  deriving DecidableEq, Repr

/-- A pair of a sparse reduction on its way: the element's offset in the window, the value, and the operations that contributed to it,
each with the pair's place in its source buffer (R352, R353). -/
structure SPair where
  off : Nat
  value : BitVec 32
  ops : List (ReqId × Nat)
  deriving DecidableEq, Repr

/-- One member's part of an aggregated multicast reply (R349, R351): refusal reason 0 means accepted. -/
structure MemberReply where
  dev : Nat
  reason : Nat
  data : List Byte
  deriving DecidableEq, Repr

/-- A reply to a remote operation (R340, R345). -/
inductive Reply where
  | ok (data : List Byte)
  | nak (reason : Nat)
  | stale
  | members (rs : List MemberReply)
  deriving DecidableEq, Repr

/-- A remote operation's kind with its x-register operands (R342 to R353). -/
inductive Machine.FabKind where
  | rmst (len : Nat) (flag : Int)
  | rmld (len : Nat)
  | rmamo (op : AmoOp) (w : AmoWidth) (operand compare : X64) (res : Int)
  | mcst (len rec : Nat) (flag : Int)
  | mcld (op : AmoOp) (w : AmoWidth) (len rec : Nat)
  | spred (count : Nat) (fadd det : Bool) (flag : Int)
  deriving DecidableEq, Repr

/-- What a router of this device passes on (R336, R348, R349, R352): a packet for one device, a copy of a multicast operation with the
members that it is for, a pair of a sparse reduction, or the replies of members on their way back. -/
inductive Transit where
  | packet (dst : Nat)
  | copy (id : ReqId) (here : Bool) (members : List Nat) (w : WinRef) (what : Machine.FabKind) (off : Int) (data : List Byte)
  | pairs (dst : Nat) (w : WinRef) (fadd det : Bool) (ps : List SPair)
  | replies (id : ReqId) (rs : List MemberReply)
  deriving DecidableEq, Repr

/-- A unit that can fail (R402, R419). -/
inductive HwUnit where
  | core (c : Nat)
  | cluster (k : Nat)
  | hbmChannel (n : Nat)
  | port (p : Nat)
  | lodestar
  deriving DecidableEq, Repr

/-- What a unit reports of itself (R402, R417 to R419): an error that its ECC corrected, one that it could not, a failed self-test, a
failure that one access cannot confine. -/
inductive UnitErr where
  | corrected | uncorrectable | selfTest | fatal
  deriving DecidableEq, Repr

/-- Device registers without a row of their own that a host function writes (R408): the power limit and the owner of a virtual function at
function 0, a base address register, a register at an address of BAR 0. -/
inductive DevReg where
  | powerLimit
  | vfOwner (vf : Nat)
  | bar (n : Nat)
  | other (addr : Nat)
  deriving DecidableEq, Repr

/-- What relayed SPDM messages bring about (R406 to R408): nothing here, the key of an IDE stream, the end of a restore on another device,
the refusal of one. -/
inductive RelayNote where
  | none
  | ideKey (stream : Nat)
  | restored (world : Nat)
  | refused (world : Nat)
  deriving DecidableEq, Repr

/-- A window's admission question of a peer Lodestar (R425 IMPORT). -/
structure WinQuery where
  dev : Nat
  srcWorld : Nat
  world : Nat
  win : Nat
  deriving DecidableEq, Repr

/-- Where a task of a manifest has its record: through a handle image, at an address of the world, or nowhere. -/
inductive ManRec where
  | none
  | handle (image : BitVec 256) (off : Int) (core : Nat)
  | world (va : Nat)
  deriving DecidableEq, Repr

/-- A task as a restore manifest carries it (R406): its TCB bytes, loop record, code handle, identity, position, references, live handles
and result; `done` marks one that has completed. `phaseRegs` are the registers that come back at its next start (R321, R407). -/
structure ManTask where
  die : Nat
  index : Nat
  inc : Nat
  future : Bool
  tcb : List Byte
  pro : Nat
  ker : Nat
  epi : Nat
  stages : Nat
  code : BitVec 256
  recAt : ManRec
  reach : Nat
  refs : List (X64 × Nat)
  gpos : X64
  phase : Nat
  run : Nat
  handles : List (List (BitVec 256))
  done : Option (Nat × Nat × Nat × Nat × X64)
  pub : Option X64
  phaseRegs : List (List X64 × List Pred)
  deriving DecidableEq, Repr

/-- A restore manifest (R406). Lines are the re-encrypted share, as (berth physical address, byte); `written` are the lines that the world
wrote, each with whether its tag fails. -/
structure Manifest where
  srcDev : Nat
  world : Nat
  prk : BitVec 256
  gen : Nat
  root : Nat
  floor : Nat
  ranges : List (Nat × Nat)
  frozen : List (Nat × Nat × BitVec 256)
  nextSerial : Nat
  trT : BitVec 256
  trCount : Nat
  moored : Nat
  share : Nat
  owners : Nat
  nonce : BitVec 256
  tasks : List ManTask
  lines : List (Nat × Byte)
  written : List (Nat × Bool)
  deriving DecidableEq, Repr

/-- One constructor per row of the opcode table. -/
inductive Instr where
  -- Helm integer arithmetic (R133, R134)
  | add (c : CReg) (xd xa xb : XReg)
  | addi (c : CReg) (xd xa : XReg) (imm : BitVec 48)
  | sub (c : CReg) (xd xa xb : XReg)
  | mul (c : CReg) (xd xa xb : XReg)
  | mulh (c : CReg) (xd xa xb : XReg)
  | mulhn (c : CReg) (xd xa xb : XReg)
  | div (c : CReg) (xd xa xb : XReg)
  | divn (c : CReg) (xd xa xb : XReg)
  | rem (c : CReg) (xd xa xb : XReg)
  | remn (c : CReg) (xd xa xb : XReg)
  | and (c : CReg) (xd xa xb : XReg)
  | andi (c : CReg) (xd xa : XReg) (imm : BitVec 48)
  | or (c : CReg) (xd xa xb : XReg)
  | ori (c : CReg) (xd xa : XReg) (imm : BitVec 48)
  | xor (c : CReg) (xd xa xb : XReg)
  | xori (c : CReg) (xd xa : XReg) (imm : BitVec 48)
  | shl (c : CReg) (xd xa : XReg) (amt : ShAmt)
  | shr (c : CReg) (xd xa : XReg) (amt : ShAmt)
  | sra (c : CReg) (xd xa : XReg) (amt : ShAmt)
  | min (c : CReg) (nat : Bool) (xd xa xb : XReg)
  | max (c : CReg) (nat : Bool) (xd xa xb : XReg)
  | clz (c : CReg) (xd xa : XReg)
  | movi (c : CReg) (xd : XReg) (imm : BitVec 48)
  -- Helm conditions (R135)
  | cmp (c : CReg) (rel : Rel) (cd : CReg) (xa xb : XReg)
  | cmpi (c : CReg) (rel : Rel) (cd : CReg) (xa : XReg) (imm : BitVec 48)
  | ccomb (c : CReg) (op : CombOp) (cd ca cb : CReg)
  -- Helm control transfer (R136 to R141)
  | slate (c : CReg) (b : BReg) (imm : BitVec 48)
  | slatex (c : CReg) (b : BReg) (xa : XReg)
  | cut (c : CReg) (b : BReg)
  | cutl (c : CReg) (b bl : BReg)
  | bsel (c : CReg) (b : BReg) (xd xa : XReg) (imm : BitVec 48)
  | slinv (c : CReg) (b : BReg)
  | slinvAll (c : CReg)
  -- Helm memory and handles (R142 to R149)
  | ld (c : CReg) (w : Width) (race acq : Bool) (xd : XReg) (h : HReg) (xa : XReg) (imm : BitVec 48)
  | st (c : CReg) (w : Width) (race rel : Bool) (h : HReg) (xa : XReg) (imm : BitVec 48) (xb : XReg)
  | hld (c : CReg) (race acq : Bool) (hd hm : HReg) (xa : XReg) (imm : BitVec 48)
  | hst (c : CReg) (race rel : Bool) (hm : HReg) (xa : XReg) (imm : BitVec 48) (hs : HReg)
  | hnarrow (c : CReg) (hd hs : HReg) (xa xb : XReg) (mask : BitVec 8) (shape : Option (BitVec 27))
  | hmov (c : CReg) (hd hs : HReg)
  | hget (c : CReg) (sel : HSel) (xd : XReg) (hs : HReg)
  | hclr (c : CReg) (hd : HReg)
  | hchk (c : CReg) (cd : CReg) (hs : HReg) (xa xb : XReg) (rights : BitVec 8)
  -- Helm streams and system (R151 to R159)
  | fork (c : CReg) (imm : BitVec 48)
  | join (c : CReg)
  | joinAbandon (c : CReg)
  | qmap (c : CReg) (imm : BitVec 48)
  | oqsend (c : CReg) (st : BitVec 2) (q : OQ) (xa : XReg)
  | halt (c : CReg)
  | trap (c : CReg) (value : BitVec 48)
  | tret (c : CReg)
  | csrr (c : CReg) (xd : XReg) (sel : BitVec 12)
  | csrw (c : CReg) (sel : BitVec 12) (xa : XReg)
  | brk (c : CReg) (value : BitVec 48)
  | waiti (c : CReg) (xa : XReg)
  | nop (c : CReg)
  -- Access engine (R170 to R176)
  | tld (ctl : Ctl) (mode : BitVec 2) (pad : Bool) (t : TReg) (mem : AMem)
  | vld (ctl : Ctl) (len : BitVec 2) (dst : VDst) (mem : AMem) (ty : Ty)
  | vlds (ctl : Ctl) (dst : VDst) (mem : AMem) (sq : OQ) (ty : Ty)
  | vgather (ctl : Ctl) (dst : VDst) (mem : AMem) (idx : VSrc) (ty : Ty)
  | tfullL (ctl : Ctl) (t : TReg)
  | temptyL (ctl : Ctl) (t : TReg)
  | padapplyL (ctl : Ctl) (op : PadOp)
  | tst (ctl : Ctl) (mode : BitVec 2) (pad keep : Bool) (t : TReg) (mem : AMem)
  | vst (ctl : Ctl) (len : BitVec 2) (mem : AMem) (src : VSrc) (ty : Ty)
  | vsts (ctl : Ctl) (mem : AMem) (src : VSrc) (sq : OQ) (ty : Ty)
  | vscatter (ctl : Ctl) (mem : AMem) (src idx : VSrc) (ty : Ty)
  | tfullS (ctl : Ctl) (t : TReg)
  | temptyS (ctl : Ctl) (t : TReg)
  | padapplyS (ctl : Ctl) (op : PadOp)
  -- Vector engine (Tables 7.4 to 7.9)
  | vadd (w : VBin)
  | vsub (w : VBin)
  | vmul (w : VBin)
  | vfma (w : VBin) (cc : VSrc)
  | vfms (w : VBin) (cc : VSrc)
  | vdiv (w : VBin)
  | vsqrt (w : VUn)
  | vrsq (w : VUn)
  | vrcp (w : VUn)
  | vmin (w : VBin)
  | vmax (w : VBin)
  | vabs (w : VUn)
  | vneg (w : VUn)
  | vexp2 (w : VUn)
  | vlog2 (w : VUn)
  | viadd (w : VBin)
  | visub (w : VBin)
  | vimul (w : VBin)
  | vimulh (w : VBin)
  | vand (w : VBin)
  | vor (w : VBin)
  | vxor (w : VBin)
  | vshl (w : VBin)
  | vshr (w : VBin)
  | vsra (w : VBin)
  | vimin (w : VBin)
  | vimax (w : VBin)
  | vcmp (ctl : Ctl) (pred : PSel) (kd : Option KReg) (a : VSrc) (b : VOpd) (ty : Ty) (rel : VRel)
  | vsel (w : VBin) (ks : KReg)
  | vcvt (ctl : Ctl) (pred : PSel) (dst : VDst) (a : VSrc) (dty sty : Ty) (rnd : Rnd) (sat : Bool) (part : BitVec 2)
  | vscale (w : VBin)
  | vmov (ctl : Ctl) (pred : PSel) (dst : VDst) (b : VOpd) (ty : Ty)
  | vperm (ctl : Ctl) (pred : PSel) (dst : VDst) (a idx : VSrc) (ty : Ty)
  | vslide (ctl : Ctl) (pred : PSel) (dst : VDst) (a b : VSrc) (ty : Ty) (n : BitVec 11)
  | vcompress (ctl : Ctl) (pred : PSel) (dst : VDst) (a : VSrc) (ty : Ty)
  | vexpand (ctl : Ctl) (pred : PSel) (dst : VDst) (a : VSrc) (ty : Ty)
  | vbcast (ctl : Ctl) (pred : PSel) (dst : VDst) (a : VSrc) (ty : Ty) (j : BitVec 10)
  | vindex (ctl : Ctl) (pred : PSel) (dst : VDst) (base : IdxBase) (step : BitVec 15) (ty : Ty) (sat : Bool)
  | vredsum (w : VUn)
  | vredmax (w : VUn)
  | vredmin (w : VUn)
  | vscansum (w : VUn)
  | vscanmax (w : VUn)
  | kand (ctl : Ctl) (inv : Bool) (kd : KReg) (ka kb : KReg)
  | kor (ctl : Ctl) (inv : Bool) (kd : KReg) (ka kb : KReg)
  | kxor (ctl : Ctl) (inv : Bool) (kd : KReg) (ka kb : KReg)
  | kset (ctl : Ctl) (kd : KReg) (n : KCnt) (ty : Ty)
  | kcount (ctl : Ctl) (dst : VDst) (ka : KReg) (ty : Ty)
  | mpush (ctl : Ctl) (ka : KReg)
  | minv (ctl : Ctl)
  | mpop (ctl : Ctl)
  -- Matrix engine (Table 9.3)
  | mldw (ctl : Ctl) (kp : Bool) (ws : Bool) (t : TReg) (sc : MScale)
  | mlds (ctl : Ctl) (ws : Bool) (sc : MScale)
  | mma (ctl : Ctl) (cons : Bool) (row0 : BitVec 7) (t : TReg) (sq : OQ) (n1 : BitVec 7) (fent : Option (BitVec 4))
      (ws : Bool) (cbm : BitVec 4) (pos : MPos)
  | mmag (ctl : Ctl) (n1 : BitVec 7) (h : HReg) (sq : OQ) (idx : VSrc) (fent : Option (BitVec 4)) (ws : Bool)
      (cbm : BitVec 4) (pos : MPos) (race : Bool)
  | mzero (ctl : Ctl) (n1 : BitVec 7) (cbm : BitVec 4) (pos : MPos)
  | mrd (ctl : Ctl) (dst : VDst) (ty : Ty) (rnd : Rnd) (sat : Bool) (pos : MPos)
  | mwr (ctl : Ctl) (src : VSrc) (ty : Ty) (cbm : BitVec 4) (pos : MPos)
  | mfmt (ctl : Ctl) (fixed : Bool) (arg : BitVec 4)
  | mbud (ctl : Ctl) (cls : BitVec 2)
  | mstat (ctl : Ctl) (dst : VDst)
  | msync (ctl : Ctl) (arg : MScale)
  -- stream control (Table 6.5)
  | loop (q : Option OQ) (imm : BitVec 30)
  | endloop
  | skipz (q : OQ) (n : BitVec 12)
  | skipzMask (n : BitVec 12)
  | nopStream (ctl : Ctl)
  | rdv (ctl : Ctl) (q : OQ)
  -- Copy engine (Table 8.4)
  | cpy (q : CQ) (bar : BarCnt) (race : Bool) (ha hb : HReg) (xa xb xc : XReg) (k : Compl)
  | cpyt (q : CQ) (bar : BarCnt) (race x16 : Bool) (ha hb : HReg) (xa xb xc : XReg) (k : Compl)
  | cpymIn (q : CQ) (bar : BarCnt) (race : Bool) (mode : BitVec 2) (ha : HReg) (t : TReg) (xa xb xc : XReg) (k : Compl)
  | cpymOut (q : CQ) (bar : BarCnt) (race : Bool) (mode : BitVec 2) (ha : HReg) (t : TReg) (xa xb xc : XReg) (keep : Bool)
      (k : Compl)
  | cchain (q : CQ) (ha : HReg) (xa : XReg) (k : Compl)
  | qpush (q : CQ) (xa : XReg) (cd : CReg)
  | strbind (q : CQ) (bar : BarCnt) (race : Bool) (sn : BitVec 3) (ha : HReg) (xa xc : XReg) (k : Compl)
  | cfill (q : CQ) (bar : BarCnt) (race : Bool) (hb : HReg) (xa xb xc : XReg) (k : Compl)
  | cstat (q : CQ) (xa xc : XReg) (sel : BitVec 2)
  | ccancel (q : CQ) (xc : XReg)
  | ctlread (q : CQ) (xc : XReg) (sel : Bool)
  -- Synchronisation engine (Table 10.2)
  | swait (arg : SemArg) (die : BitVec 4)
  | ssig (arg : SemArg) (die : BitVec 4)
  | sset (n : BitVec 8) (xb xc : XReg) (die : BitVec 4)
  | barrArrive (h : HReg) (xa xc : XReg) (imm : BitVec 32)
  | barrWait (h : HReg) (xa xc : XReg) (imm : BitVec 32)
  | barrInit (h : HReg) (xa xb xc : XReg) (imm : BitVec 32)
  | barrReset (h : HReg) (xa xc : XReg) (imm : BitVec 32)
  | bwait (h : HReg) (xa xb xc : XReg) (imm : BitVec 32)
  | amo (op : AmoOp) (w : AmoWidth) (acq rel : Bool) (h : HReg) (xa xb xc : XReg) (imm : BitVec 32)
  | vamo (op : AmoOp) (w : AmoWidth) (acq rel ret : Bool) (ha hb : HReg) (xa xb xc : XReg)
  | fence (scope : BitVec 3)
  | fenceTranslation (scope : BitVec 3) (xa xb : XReg)
  | tlwait (ctx : BitVec 4) (arg : TlArg)
  | flwait (rel : Rel) (h : HReg) (xa xb xc : XReg) (imm : BitVec 32)
  | heapalloc (xa xc : XReg)
  | heapfree (xa : XReg)
  -- Task engine (Table 11.8)
  | spawn (h : HReg) (xa xc : XReg) (carry : BitVec 5) (imm : BitVec 32)
  | fref (xa : XReg)
  | fdrop (xa : XReg)
  | fget (drop : Bool) (xa xc : XReg)
  | fdone (xa : XReg)
  | rpoint
  | tlaunch (h : HReg) (xa xc : XReg) (carry : BitVec 5) (imm : BitVec 32)
  | tarm (h : HReg) (xa xb : XReg) (imm : BitVec 32)
  | tcancel (xa xc : XReg)
  | requeue (xa xb xc : XReg)
  | yield (xa : XReg)
  | gpos (xc : XReg)
  | gang (xa xc : XReg)
  | tstat (sel : BitVec 2) (xa xc : XReg)
  -- Fabric engine (Table 12.4)
  | rmst (ha hb : HReg) (xa xb xc : XReg) (sig : Option (BitVec 8)) (flag : BitVec 32)
  | rmld (ha hb : HReg) (xa xb xc : XReg) (sig : Option (BitVec 8))
  | rmamo (op : AmoOp) (w : AmoWidth) (ha hb : HReg) (xa xb xc : XReg) (sig : Option (BitVec 8)) (res : BitVec 32)
  | mcst (ha hb : HReg) (xa xb xc : XReg) (sig : Option (BitVec 8)) (flag : BitVec 32)
  | mcld (op : AmoOp) (w : AmoWidth) (ha hb : HReg) (xa xb xc : XReg) (sig : Option (BitVec 8))
  | spred (fadd det : Bool) (ha hb : HReg) (xa xb xc : XReg) (sig : Option (BitVec 8)) (flag : BitVec 32)
  | rfence (xc : XReg)
  | gjoin (ha : HReg) (xa xb xc : XReg)
  | gleave (xb : XReg)
  | linkst (xa xc : XReg) (sel : BitVec 3)
  -- Lodestar requests (Table 13.8)
  | lmint (ha hd : HReg) (xa xc : XReg)
  | lseal (hd : HReg) (xc : XReg)
  | lrevoke (ha : HReg) (xa xb xc : XReg) (imm : BitVec 32)
  | lshare (ha : HReg) (xa xb xc : XReg)
  | lrotate (xc : XReg) (sig : Option (BitVec 8))
  | lscrub (xc : XReg) (mask : BitVec 4)
  | lfreeze (ha hb : HReg) (xa xc : XReg)
  | lreport (ha hb : HReg) (xa xb xc : XReg)
  | ltrans (ha : HReg) (xa xc : XReg)
  | lworldState (xa xc : XReg)
  | lworldRoot (xa xc : XReg)
  | lworldProgress (xa xc : XReg)
  | lworldClock (xa xc : XReg)
  | lwindowExport (ha : HReg) (xa xb xc : XReg)
  | lwindowImport (xa xb xc : XReg)
  | lwindowClose (xa xb xc : XReg)
  -- events of a core
  | sectionIssue (core : Nat) (st : Stream)
  | hSectionHeader (core : Nat)
  | streamEnd (core : Nat) (st : Stream)
  | groupUnblock (core : Nat) (st : Stream)
  | stallMonitorExpiry (core : Nat)
  | takeTrap (core : Nat)
  | slateFillDone (core slot : Nat)
  | codeFill (core gran count : Nat)
  | sweepAgentMark (agent : SweepAgent)
  | copyStart (core q n : Nat)
  | copyBurst (core q n : Nat)
  | copyComplete (core q n : Nat)
  | streamElementDeliver (core q n : Nat)
  | chainCopy (core q n : Nat)
  | chainLoop (core q n : Nat)
  | chainIf (core q n : Nat)
  | chainSignal (core q n : Nat)
  | chainMatrix (core q n : Nat)
  | chainEnd (core q n : Nat)
  | followonAccept (core q n : Nat)
  | followonTake (core : Nat)
  | waiterWithdraw (core : Nat) (st : Stream)
  -- events of the Task engine
  | taskPlace (die world : Nat)
  | phaseStart (die idx : Nat)
  | taskComplete (die idx : Nat)
  | reclaim (die idx : Nat)
  | preempt (die idx : Nat)
  | taskRestore (die idx : Nat)
  | sliceEnd (berth : Nat)
  | gangYield (die idx : Nat)
  | sliceStart (berth : Nat)
  | overrunStop (die idx : Nat)
  | worldChangeScrub (core world : Nat)
  | bankDrowsy (core bank : Nat)
  -- events of the fabric
  | fabricStart (core n : Nat)
  | remoteStorePacket (id : ReqId) (w : WinRef) (off total : Nat) (data : List Byte) (flag : Option Nat)
  | remoteLoadRequest (id : ReqId) (w : WinRef) (off len : Nat)
  | remoteAtomicRequest (id : ReqId) (w : WinRef) (off : Nat) (op : AmoOp) (wd : AmoWidth) (operand compare : X64)
  | multicastDelivery (id : ReqId) (w : WinRef) (inc off : Nat) (data : List Byte) (flag : Nat)
  | multicastLoadRequest (id : ReqId) (w : WinRef) (off len : Nat)
  | spredPairs (id : ReqId) (w : WinRef) (total : Nat) (pairs : List SPair) (fadd det : Bool) (flag : Option Nat)
  | mergeEvict (n : Nat)
  | remoteReply (core n : Nat) (r : Reply)
  | resendTimeout (core n : Nat)
  | laneFail (port lane : Nat)
  | flitRetry (port : Nat)
  | keyRatchet (port : Nat) (tx : Bool)
  | linkRecovery (port : Nat)
  | linkRecoveryTimeout (port : Nat)
  | peerReset (dev : Nat) (sameMeasurements : Bool)
  | getVersion (s : Sess)
  | getCapabilities (s : Sess)
  | negotiateAlgorithms (s : Sess) (inSet : Bool)
  | getDigests (s : Sess)
  | getCertificate (s : Sess) (peer : Nat) (key : List Byte)
  | getMeasurements (s : Sess) (policyOk : Bool)
  | keyExchange (s : Sess) (mutAuth : Bool) (sid : Nat)
  | finish (s : Sess)
  | keyUpdate (s : Sess)
  | endSession (s : Sess)
  -- events of the Lodestar
  | rotationScrubLine (world region : Nat)
  | rotationEnd (world : Nat)
  | worldDestroy (world : Nat)
  | positionReport
  | lodestarTakeover
  -- host requests
  | spdmRelay (tdi seq : Nat) (msg : List Byte) (note : RelayNote)
  | create (tdi seq owners : Nat) (nonce : BitVec 256)
  | mbxShare (tdi seq : Nat) (blob : List Byte)
  | launch (tdi seq : Nat) (buf : List Byte)
  | destroy (tdi seq world : Nat)
  | exportWorld (tdi seq world : Nat)
  | restore (tdi seq : Nat) (man : Manifest)
  | report (tdi seq world : Nat) (nonce : BitVec 512) (owner : Option Nat)
  | lockInterface (tdi : Nat)
  | startInterface (tdi : Nat)
  | stopInterface (tdi : Nat)
  | tdiError (tdi : Nat)
  | berthDescriptorWrite (berth : Nat) (desc : BitVec 256)
  | fabricIdWrite (id : Nat)
  | errstatClear (fn : Nat) (mask : X64)
  | registerWrite (fn : Nat) (reg : DevReg) (value : X64)
  | functionLevelReset (fn : Nat)
  | deviceReset
  | powerGood (failedStage : Nat) (banks : List Nat) (units : List HwUnit)
  | portTrain (port : Nat)
  -- events of the partition controller and the package
  | lendCluster (cluster berth : Nat)
  | demandReturn (cluster : Nat)
  | lendReturnTimeout (cluster : Nat)
  | unitRetire (u : HwUnit) (why : UnitErr)
  | hbmRetire (berth line stack : Nat)
  | unitFence (u : HwUnit)
  | powerLimit
  | powerRelax
  | thermalAlarm
  | thermalShutdown
  | waitiDeadline (core : Nat)
  | bucketRefill (core : Nat)
  | arrayPassComplete (core : Nat)
  | packetForward (port : Nat) (what : Transit)
  | windowOpenQuery (q : WinQuery)
  | voltageAlarm
  | clockAlarm
  | powerLoss
  | endingScrubComplete (world : Nat)
  | freshScrubComplete (berth : Nat)
  deriving DecidableEq, Repr

end Sys2Proof
end

