-- ==== Sys2Proof/Machine/Bits.lean ====
section
/-! DEFINITION. Bit fields, sign extension, byte order and elements of vectors (R2, R4, R188). -/
namespace Sys2Proof.Machine

/-- Bits(x, hi, lo): the field x[hi:lo] as a natural number (R4). -/
def fieldOf (x hi lo : Nat) : Nat := (x >>> lo) % 2 ^ (hi + 1 - lo)

/-- The n-bit pattern read as two's complement (R60). -/
def signedOf (n x : Nat) : Int :=
  let y := x % 2 ^ n
  if y < 2 ^ (n - 1) then (y : Int) else (y : Int) - 2 ^ n

/-- The pattern of an integer modulo 2^n (R60). -/
def wrapTo (n : Nat) (v : Int) : Nat := (v % (2 : Int) ^ n).toNat

/-- A signed immediate as an integer. -/
def immInt {n : Nat} (b : BitVec n) : Int := b.toInt

/-- One bit of a natural number. -/
def bitOf (x i : Nat) : Bool := (x >>> i) % 2 == 1

/-- A Bool as 0 or 1. -/
def natOf (b : Bool) : Nat := if b then 1 else 0

/-- The bytes of a natural number, lowest first (R2). -/
def bytesOf : Nat → Nat → List Byte
  | 0, _ => []
  | n + 1, x => BitVec.ofNat 8 x :: bytesOf n (x >>> 8)

/-- The natural number that bytes hold, lowest first (R2). -/
def ofBytes : List Byte → Nat
  | [] => 0
  | b :: t => b.toNat + 256 * ofBytes t

/-- The naturals a, a+1, ..., a+n-1. -/
def upFrom (a : Nat) : Nat → List Nat
  | 0 => []
  | n + 1 => a :: upFrom (a + 1) n

/-- Element k of size e bytes of a wide pattern (R188). -/
def elemOf (v : Nat) (e k : Nat) : Nat := (v >>> (8 * e * k)) % 2 ^ (8 * e)

/-- A wide pattern from elements of e bytes, element 0 first (R188). -/
def packElems (e : Nat) : List Nat → Nat
  | [] => 0
  | x :: t => x % 2 ^ (8 * e) + 2 ^ (8 * e) * packElems e t

/-- The first n elements of e bytes of a pattern. -/
def elemsOf (v e : Nat) : Nat → List Nat
  | 0 => []
  | n + 1 => v % 2 ^ (8 * e) :: elemsOf (v >>> (8 * e)) e n

/-- All elements of a vector at an element size (R188). -/
def vecElems (v : Vec) (e : Nat) : List Nat := elemsOf v.toNat e (512 / e)

/-- A vector from its elements. -/
def vecOf (e : Nat) (xs : List Nat) : Vec := BitVec.ofNat 4096 (packElems e xs)

/-- A vector from bytes. -/
def vecOfBytes (bs : List Byte) : Vec := BitVec.ofNat 4096 (ofBytes bs)

/-- Repeat one element over a vector. -/
def vecSplat (e x : Nat) : Vec := vecOf e (List.replicate (512 / e) x)

end Sys2Proof.Machine

namespace Sys2Proof

/-- Element size in bytes of a type (Table 2.8). -/
def Ty.size : Ty → Nat
  | .e4m3 | .e5m2 | .i8 | .n8 => 1
  | .f16 | .bf16 | .i16 | .n16 => 2
  | .f32 | .i32 | .n32 => 4
  | .i64 | .n64 => 8

/-- A floating type that V arithmetic accepts: FP32, FP16, BF16 (R208). -/
def Ty.isFloat : Ty → Bool
  | .f32 | .f16 | .bf16 => true
  | _ => false

def Ty.isFp8 : Ty → Bool
  | .e4m3 | .e5m2 => true
  | _ => false

/-- One of the eight integer types (R208). -/
def Ty.isInt : Ty → Bool
  | .i8 | .i16 | .i32 | .i64 | .n8 | .n16 | .n32 | .n64 => true
  | _ => false

def Ty.isSigned : Ty → Bool
  | .i8 | .i16 | .i32 | .i64 => true
  | _ => false

/-- The code of a type (Table 2.8). -/
def Ty.code : Ty → Nat
  | .f32 => 0 | .f16 => 1 | .bf16 => 2 | .e4m3 => 3 | .e5m2 => 4 | .i8 => 5 | .i16 => 6 | .i32 => 7 | .i64 => 8
  | .n8 => 9 | .n16 => 10 | .n32 => 11 | .n64 => 12

/-- The type of a code; 0xD to 0xF name none (R50). -/
def Ty.ofCode (n : Nat) : Option Ty :=
  [Ty.f32, .f16, .bf16, .e4m3, .e5m2, .i8, .i16, .i32, .i64, .n8, .n16, .n32, .n64][n]?

end Sys2Proof

namespace Sys2Proof.Machine

/-- The integer value of a pattern of an integer type (R60). -/
def intVal (t : Ty) (x : Nat) : Int := if t.isSigned then signedOf (8 * t.size) x else ((x % 2 ^ (8 * t.size) : Nat) : Int)

/-- Ends of an integer type's range (R60). -/
def intMin (t : Ty) : Int := if t.isSigned then -(2 ^ (8 * t.size - 1)) else 0
def intMax (t : Ty) : Int := if t.isSigned then 2 ^ (8 * t.size - 1) - 1 else 2 ^ (8 * t.size) - 1

/-- Clamp to a range. -/
def clampTo (lo hi v : Int) : Int := if v < lo then lo else if hi < v then hi else v

/-- Fit an exact result to an integer type by wrap or saturation (R60). -/
def fitInt (t : Ty) (sat : Bool) (v : Int) : Nat :=
  wrapTo (8 * t.size) (if sat then clampTo (intMin t) (intMax t) v else v)

end Sys2Proof.Machine
end

