-- ==== Sys2Proof/WellFormed.lean ====
section
/-! DEFINITION. Which syntax has an encoding: the limits that the word formats and Table 2.14 put on operands. -/
namespace Sys2Proof

/-- Types of a 32-bit lane (Table 6.3). -/
def Ty.isLane : Ty → Bool
  | .f32 | .i32 | .n32 => true
  | _ => false

/-- Bits of an immediate broadcast that must be zero (Table 7.2). -/
def immFits (t : Ty) (i : BitVec 30) : Bool :=
  if t.size = 1 then decide (i.toNat < 256) else if t.size = 2 then decide (i.toNat < 65536) else true

/-- VCVT rounds nothing: integer to integer, and widening between float formats (R212). -/
def cvtRneOnly (s d : Ty) : Bool := if s.isInt then d.isInt else !d.isInt && decide (s.size < d.size)

/-- part below q = wide / narrow (R212). -/
def cvtPartOk (s d : Ty) (part : BitVec 2) : Bool :=
  if s.size ≤ d.size then decide (part.toNat < d.size / s.size) else decide (part.toNat < s.size / d.size)

/-- The sat bit of VCVT: 1 for float to integer, free for FP8 and integer to integer, else 0 (R50, R212). -/
def cvtSatOk (s d : Ty) (sat : Bool) : Bool :=
  if d.isFp8 then true else if d.isInt then (s.isInt || sat) else !sat

/-- VSLIDE's distance lies in -E to E (Table 7.8). -/
def slideOk (t : Ty) (n : BitVec 11) : Bool := decide (n.toInt.natAbs ≤ 512 / t.size)

/-- VBCAST's index lies below E (Table 7.8). -/
def bcastOk (t : Ty) (j : BitVec 10) : Bool := decide (j.toNat < 512 / t.size)

/-- Types of MRD (Table 9.3). -/
def mrdTy : Ty → Bool
  | .f32 | .i32 | .bf16 | .f16 | .e4m3 | .e5m2 => true
  | _ => false

/-- MRD rounds into BF16, FP16 and FP8 (R249). -/
def mrdRounds : Ty → Bool
  | .bf16 | .f16 | .e4m3 | .e5m2 => true
  | _ => false

def VSrc.wf (allowS : Bool) : VSrc → Bool
  | .q _ _ => true
  | .sr _ _ => allowS
  | .lat j => decide (1 ≤ j.toNat) && decide (j.toNat ≤ 8)

def VOpd.wf (raw : Bool) (t : Ty) : VOpd → Bool
  | .vec s => s.wf true
  | .imm i => raw || immFits t i
  | .oq _ _ => true

def VBin.wf (w : VBin) (types : Ty → Bool) (rounds sats raw : Bool) : Bool :=
  types w.ty && (rounds || w.rnd == .rne) && (sats || !w.sat) && w.a.wf true && w.b.wf raw w.ty

def VUn.wf (w : VUn) (types rounds sats : Ty → Bool) : Bool :=
  types w.ty && (rounds w.ty || w.rnd == .rne) && (sats w.ty || !w.sat) && w.a.wf true

/-- A writable predicate: k1 to k23 (R204). -/
def kDstOk (k : KReg) : Bool := decide (1 ≤ k.toNat) && decide (k.toNat ≤ 23)

def MPos.wf (p : MPos) (rows : Nat) : Bool := p.pos.isSome || decide (p.acc.toNat + rows ≤ 1024)

def dieOk (d : BitVec 4) : Bool := decide (d.toNat ≤ 5) || d == 15

def BarCnt.wf (_ : BarCnt) : Bool := true

/-- Codes of Table 10.5 that AMO takes (R294). -/
def amoOk (op : AmoOp) (w : AmoWidth) : Bool := (w != .w16 || op == .cas) && (op != .fadd || w == .w4)

/-- Words that stand in one stream only; the stream-control words, SWAIT and TLWAIT say the one whose form they take. -/
def Instr.stream : Instr → Stream
  | .tld .. | .vld .. | .vlds .. | .vgather .. | .tfullL .. | .temptyL .. | .padapplyL .. => .l
  | .tst .. | .vst .. | .vsts .. | .vscatter .. | .tfullS .. | .temptyS .. | .padapplyS .. => .s
  | .vadd .. | .vsub .. | .vmul .. | .vfma .. | .vfms .. | .vdiv .. | .vsqrt .. | .vrsq .. | .vrcp .. | .vmin ..
  | .vmax .. | .vabs .. | .vneg .. | .vexp2 .. | .vlog2 .. | .viadd .. | .visub .. | .vimul .. | .vimulh .. | .vand ..
  | .vor .. | .vxor .. | .vshl .. | .vshr .. | .vsra .. | .vimin .. | .vimax .. | .vcmp .. | .vsel .. | .vcvt ..
  | .vscale .. | .vmov .. | .vperm .. | .vslide .. | .vcompress .. | .vexpand .. | .vbcast .. | .vindex ..
  | .vredsum .. | .vredmax .. | .vredmin .. | .vscansum .. | .vscanmax .. | .kand .. | .kor .. | .kxor .. | .kset ..
  | .kcount .. | .mpush .. | .minv .. | .mpop .. | .skipzMask .. => .v
  | .mldw .. | .mlds .. | .mma .. | .mmag .. | .mzero .. | .mrd .. | .mwr .. | .mfmt .. | .mbud .. | .mstat ..
  | .msync .. => .m
  | .loop .. | .endloop | .skipz .. | .nopStream .. | .rdv .. | .tlwait _ (.oq _) => .l
  | _ => .h

/-- Operands within what the encoding admits; events have no encoding and are free. -/
def Instr.wf : Instr → Bool
  | .tld _ mode _ _ _ => mode != 3
  | .vld _ len _ _ t => !(len == 3 && t.size == 8)
  | .vgather _ _ _ ix t => t.isLane && ix.wf false
  | .tst _ mode _ _ _ _ => mode != 3
  | .vst _ len _ s t => !(len == 3 && t.size == 8) && s.wf false
  | .vsts _ _ s _ _ => s.wf false
  | .vscatter _ _ s ix t => t.isLane && s.wf false && ix.wf false
  | .vadd w | .vsub w | .vmul w | .vdiv w => w.wf Ty.isFloat true false false
  | .vfma w c | .vfms w c => w.wf Ty.isFloat true false false && c.wf true
  | .vsqrt w | .vrsq w | .vrcp w | .vexp2 w | .vlog2 w => w.wf Ty.isFloat (fun _ => true) (fun _ => false)
  | .vmin w | .vmax w => w.wf Ty.isFloat false false false
  | .vabs w | .vneg w => w.wf (fun t => t.isFloat || t.isSigned) (fun _ => false) Ty.isInt
  | .viadd w | .visub w | .vimul w | .vshl w => w.wf Ty.isInt false true false
  | .vimulh w | .vand w | .vor w | .vxor w | .vshr w | .vimin w | .vimax w => w.wf Ty.isInt false false false
  | .vsra w => w.wf Ty.isSigned false false false
  | .vcmp _ _ kd a b t r =>
    (t.isFloat || t.isInt) && kd.all kDstOk && a.wf true && b.wf false t && !(r == .un && t.isInt)
  | .vsel w _ => w.wf (fun _ => true) false false false
  | .vcvt _ _ _ a d s rnd sat part =>
    s != d && a.wf true && (!cvtRneOnly s d || rnd == .rne) && cvtPartOk s d part && cvtSatOk s d sat
  | .vscale w => w.wf Ty.isFloat true false true
  | .vmov _ _ _ b t => b.wf false t
  | .vperm _ _ _ a ix t => t.size != 1 && a.wf true && ix.wf true
  | .vslide _ _ _ a b t n => a.wf true && b.wf true && slideOk t n
  | .vcompress _ _ _ a _ | .vexpand _ _ _ a _ => a.wf true
  | .vbcast _ _ _ a t j => a.wf true && bcastOk t j
  | .vindex _ _ _ _ _ t _ => t.isInt
  | .vredsum w | .vscansum w => w.wf (fun t => t.isFloat || t.isInt) Ty.isFloat Ty.isInt
  | .vredmax w | .vredmin w | .vscanmax w => w.wf (fun t => t.isFloat || t.isInt) (fun _ => false) (fun _ => false)
  | .kand _ _ kd _ _ | .kor _ _ kd _ _ | .kxor _ _ kd _ _ | .kset _ kd _ _ => kDstOk kd
  | .mma _ _ row0 _ _ n1 _ _ _ p => decide (row0.toNat + n1.toNat + 1 ≤ 128) && p.wf (n1.toNat + 1)
  | .mmag _ n1 _ _ ix _ _ _ p _ => ix.wf false && p.wf (n1.toNat + 1)
  | .mzero _ n1 _ p => p.wf (n1.toNat + 1)
  | .mrd _ _ t rnd sat p => mrdTy t && (mrdRounds t || rnd == .rne) && (t.isFp8 || !sat) && p.wf 1
  | .mwr _ s t _ p => (t == .f32 || t == .i32) && s.wf false && p.wf 1
  | .mfmt _ fixed arg => fixed || decide (arg.toNat ≤ 5)
  | .skipz _ n | .skipzMask n => n != 0
  | .cpymIn _ _ _ mode _ _ _ xb xc _ => mode != 3 && (xb != 0 || xc == 0)
  | .cpymOut _ _ _ mode _ _ _ xb xc _ _ => mode != 3 && xb == 0 && xc == 0
  | .qpush _ xa _ => decide (xa.toNat ≤ 56)
  | .swait _ d | .ssig _ d | .sset _ _ _ d => dieOk d
  | .amo op w _ _ _ _ xb xc _ => amoOk op w && (w != .w16 || (!xb.getLsbD 0 && !xc.getLsbD 0))
  | .vamo op w _ _ _ _ _ _ _ _ => amoOk op w && op != .cas
  | .fence sc => decide (sc.toNat ≤ 4)
  | .fenceTranslation sc _ _ => decide (sc.toNat ≤ 3)
  | .tlwait ctx _ => decide (ctx.toNat ≤ 4)
  | .tstat sel _ _ => sel != 3
  | .rmamo op w _ _ _ _ xc _ _ => w != .w16 && (op != .fadd || w == .w4) && (op == .cas || xc == 0)
  | .mcld op w _ _ _ _ _ _ => w != .w16 && (op != .fadd || w == .w4) && op != .swap && op != .cas
  | .linkst _ _ sel => decide (sel.toNat ≤ 5)
  | _ => true

end Sys2Proof
end

