-- ==== Sys2Proof/Decode.lean ====
section
/-! DEFINITION. The three word formats (Tables 2.5 to 2.7), the decoder with the checks of Table 2.14, headers
(Tables 2.1, 2.2), and the encoder. -/
namespace Sys2Proof

open Sys2Proof.Machine

/-- Result of decoding one word: steps 2, 3 and 4 of Table 2.14, or the instruction. -/
inductive Parse where
  | illegal | mismatch | reserved
  | ok (i : Instr)
  deriving DecidableEq, Repr

/-- Step 2 before step 4 (R53). -/
def Parse.check (ill res : Bool) (i : Instr) : Parse := if ill then .illegal else if res then .reserved else .ok i

/-- Fields of format H (Table 2.6). -/
structure FmtH where
  op : BitVec 8 := 0
  fn : BitVec 6 := 0
  xd : BitVec 6 := 0
  xa : BitVec 6 := 0
  xb : BitVec 6 := 0
  cond : BitVec 3 := 0
  slate : BitVec 3 := 0
  hdl : BitVec 5 := 0
  width : BitVec 2 := 0
  race : Bool := false
  acq : Bool := false
  rel : Bool := false
  imm : BitVec 48 := 0
  deriving DecidableEq, Repr

/-- Fields of format C (Table 2.7). -/
structure FmtC where
  op : BitVec 8 := 0
  fn : BitVec 6 := 0
  ha : BitVec 5 := 0
  hb : BitVec 5 := 0
  xa : BitVec 6 := 0
  xb : BitVec 6 := 0
  xc : BitVec 6 := 0
  queue : BitVec 4 := 0
  scope : BitVec 3 := 0
  aux : BitVec 15 := 0
  imm : BitVec 32 := 0
  deriving DecidableEq, Repr

/-- Fields of format A (Table 2.5). -/
structure FmtA where
  op : BitVec 8 := 0
  fn : BitVec 5 := 0
  g : Bool := false
  f : Bool := false
  l : Bool := false
  pred : BitVec 5 := 0
  neg : Bool := false
  n : Bool := false
  e : Bool := false
  dest : BitVec 7 := 0
  ls1 : Bool := false
  k1 : Bool := false
  src1 : BitVec 7 := 0
  ls2 : Bool := false
  k2 : Bool := false
  src2 : BitVec 7 := 0
  ls3 : Bool := false
  k3 : Bool := false
  src3 : BitVec 7 := 0
  ty : BitVec 4 := 0
  rnd : BitVec 2 := 0
  sat : Bool := false
  rsv : Bool := false
  imm : BitVec 30 := 0
  deriving DecidableEq, Repr

/-- The fields of a word read as format H. -/
def FmtH.ofWord (w : Word96) : FmtH :=
  { op := w.extractLsb' 88 8, fn := w.extractLsb' 82 6, xd := w.extractLsb' 76 6, xa := w.extractLsb' 70 6,
    xb := w.extractLsb' 64 6, cond := w.extractLsb' 61 3, slate := w.extractLsb' 58 3, hdl := w.extractLsb' 53 5,
    width := w.extractLsb' 51 2, race := w.getLsbD 50, acq := w.getLsbD 49, rel := w.getLsbD 48,
    imm := w.extractLsb' 0 48 }

/-- The word with the given format H fields. -/
def FmtH.toWord (f : FmtH) : Word96 :=
  f.op ++ f.fn ++ f.xd ++ f.xa ++ f.xb ++ f.cond ++ f.slate ++ f.hdl ++ f.width ++ BitVec.ofBool f.race ++
    BitVec.ofBool f.acq ++ BitVec.ofBool f.rel ++ f.imm

/-- The fields of a word read as format C. -/
def FmtC.ofWord (w : Word96) : FmtC :=
  { op := w.extractLsb' 88 8, fn := w.extractLsb' 82 6, ha := w.extractLsb' 77 5, hb := w.extractLsb' 72 5,
    xa := w.extractLsb' 66 6, xb := w.extractLsb' 60 6, xc := w.extractLsb' 54 6, queue := w.extractLsb' 50 4,
    scope := w.extractLsb' 47 3, aux := w.extractLsb' 32 15, imm := w.extractLsb' 0 32 }

/-- The word with the given format C fields. -/
def FmtC.toWord (f : FmtC) : Word96 :=
  f.op ++ f.fn ++ f.ha ++ f.hb ++ f.xa ++ f.xb ++ f.xc ++ f.queue ++ f.scope ++ f.aux ++ f.imm

/-- The fields of a word read as format A. -/
def FmtA.ofWord (w : Word96) : FmtA :=
  { op := w.extractLsb' 88 8, fn := w.extractLsb' 83 5, g := w.getLsbD 82, f := w.getLsbD 81, l := w.getLsbD 80,
    pred := w.extractLsb' 75 5, neg := w.getLsbD 74, n := w.getLsbD 73, e := w.getLsbD 72, dest := w.extractLsb' 65 7,
    ls1 := w.getLsbD 64, k1 := w.getLsbD 63, src1 := w.extractLsb' 56 7, ls2 := w.getLsbD 55, k2 := w.getLsbD 54,
    src2 := w.extractLsb' 47 7, ls3 := w.getLsbD 46, k3 := w.getLsbD 45, src3 := w.extractLsb' 38 7,
    ty := w.extractLsb' 34 4, rnd := w.extractLsb' 32 2, sat := w.getLsbD 31, rsv := w.getLsbD 30,
    imm := w.extractLsb' 0 30 }

/-- The word with the given format A fields. -/
def FmtA.toWord (f : FmtA) : Word96 :=
  f.op ++ f.fn ++ BitVec.ofBool f.g ++ BitVec.ofBool f.f ++ BitVec.ofBool f.l ++ f.pred ++ BitVec.ofBool f.neg ++
    BitVec.ofBool f.n ++ BitVec.ofBool f.e ++ f.dest ++ BitVec.ofBool f.ls1 ++ BitVec.ofBool f.k1 ++ f.src1 ++
    BitVec.ofBool f.ls2 ++ BitVec.ofBool f.k2 ++ f.src2 ++ BitVec.ofBool f.ls3 ++ BitVec.ofBool f.k3 ++ f.src3 ++
    f.ty ++ f.rnd ++ BitVec.ofBool f.sat ++ BitVec.ofBool f.rsv ++ f.imm

/-! Codes of the small enumerations. -/

def relOf : Nat → Rel
  | 0 => .eq | 1 => .ne | 2 => .lt | 3 => .ge | 4 => .ltn | _ => .gen
def Rel.code : Rel → Nat
  | .eq => 0 | .ne => 1 | .lt => 2 | .ge => 3 | .ltn => 4 | .gen => 5
def combOf : Nat → CombOp
  | 0 => .and | 1 => .or | 2 => .xor | 3 => .andn | _ => .orn
def CombOp.code : CombOp → Nat
  | .and => 0 | .or => 1 | .xor => 2 | .andn => 3 | .orn => 4
def vrelOf : Nat → VRel
  | 0 => .eq | 1 => .ne | 2 => .lt | 3 => .le | 4 => .gt | 5 => .ge | _ => .un
def VRel.code : VRel → Nat
  | .eq => 0 | .ne => 1 | .lt => 2 | .le => 3 | .gt => 4 | .ge => 5 | .un => 6
def widthOf : Nat → Width
  | 0 => .b1 | 1 => .b2 | 2 => .b4 | _ => .b8
def Width.code : Width → Nat
  | .b1 => 0 | .b2 => 1 | .b4 => 2 | .b8 => 3
def hselOf : Nat → HSel
  | 0 => .base | 1 => .length | 2 => .rights | 3 => .world | 4 => .serial | 5 => .shape | _ => .format
def HSel.code : HSel → Nat
  | .base => 0 | .length => 1 | .rights => 2 | .world => 3 | .serial => 4 | .shape => 5 | .format => 6
def rndOf : Nat → Rnd
  | 0 => .rne | 1 => .rz | 2 => .ru | _ => .rd
def Rnd.code : Rnd → Nat
  | .rne => 0 | .rz => 1 | .ru => 2 | .rd => 3
def tyOf (n : Nat) : Ty := (Ty.ofCode n).getD .f32
def amoOf : Nat → AmoOp
  | 0 => .add | 1 => .fadd | 2 => .min | 3 => .minn | 4 => .max | 5 => .maxn | 6 => .and | 7 => .or | 8 => .xor
  | 9 => .swap | _ => .cas
def AmoOp.code : AmoOp → Nat
  | .add => 0 | .fadd => 1 | .min => 2 | .minn => 3 | .max => 4 | .maxn => 5 | .and => 6 | .or => 7 | .xor => 8
  | .swap => 9 | .cas => 10
def amoWOf : Nat → AmoWidth
  | 1 => .w16 | 2 => .w4 | _ => .w8
def AmoWidth.code : AmoWidth → Nat
  | .w16 => 1 | .w4 => 2 | .w8 => 3
def barOf : Nat → BarMode
  | 0 => .none | 1 => .inb | _ => .outb
def BarMode.code : BarMode → Nat
  | .none => 0 | .inb => 1 | .outb => 2

/-! Format H. -/

/-- Which fields a Helm instruction uses (Table 5.8). -/
structure HUse where
  xd : Bool := false
  xa : Bool := false
  xb : Bool := false
  slate : Bool := false
  hdl : Bool := false
  width : Bool := false
  race : Bool := false
  acq : Bool := false
  rel : Bool := false
  imm : Bool := false

/-- A field that is not used is nonzero (R132). -/
def FmtH.junk (f : FmtH) (u : HUse) : Bool :=
  (!u.xd && f.xd != 0) || (!u.xa && f.xa != 0) || (!u.xb && f.xb != 0) || (!u.slate && f.slate != 0) ||
  (!u.hdl && f.hdl != 0) || (!u.width && f.width != 0) || (!u.race && f.race) || (!u.acq && f.acq) ||
  (!u.rel && f.rel) || (!u.imm && f.imm != 0)

/-- A register field above a limit. -/
def above {n : Nat} (x : BitVec n) (k : Nat) : Bool := decide (k < x.toNat)

def pRRR (f : FmtH) (k : CReg → XReg → XReg → XReg → Instr) : Parse :=
  .check (f.fn != 0) (f.junk { xd := true, xa := true, xb := true }) (k f.cond f.xd f.xa f.xb)

def pRRI (f : FmtH) (k : CReg → XReg → XReg → BitVec 48 → Instr) : Parse :=
  .check (f.fn != 0) (f.junk { xd := true, xa := true, imm := true }) (k f.cond f.xd f.xa f.imm)

def pShift (f : FmtH) (k : CReg → XReg → XReg → ShAmt → Instr) : Parse :=
  if f.fn = 0 then .check false (f.junk { xd := true, xa := true, xb := true }) (k f.cond f.xd f.xa (.reg f.xb))
  else .check (f.fn != 1) (f.junk { xd := true, xa := true, imm := true } || above f.imm 63)
    (k f.cond f.xd f.xa (.imm (f.imm.setWidth 6)))

def pMinMax (f : FmtH) (k : CReg → Bool → XReg → XReg → XReg → Instr) : Parse :=
  .check (above f.fn 1) (f.junk { xd := true, xa := true, xb := true }) (k f.cond (f.fn == 1) f.xd f.xa f.xb)

def pNone (f : FmtH) (i : Instr) : Parse := .check (f.fn != 0) (f.junk { }) i

def pImm (f : FmtH) (k : CReg → BitVec 48 → Instr) : Parse :=
  .check (f.fn != 0) (f.junk { imm := true }) (k f.cond f.imm)

/-- A format H word, steps 2 and 4 (Table 5.8). -/
def parseH (f : FmtH) : Parse :=
  match f.op.toNat with
  | 0x01 => pRRR f .add
  | 0x02 => pRRI f .addi
  | 0x03 => pRRR f .sub
  | 0x04 => pRRR f .mul
  | 0x05 => pRRR f .mulh
  | 0x06 => pRRR f .mulhn
  | 0x07 => pRRR f .div
  | 0x08 => pRRR f .divn
  | 0x09 => pRRR f .rem
  | 0x0A => pRRR f .remn
  | 0x0B => pRRR f .and
  | 0x0C => pRRI f .andi
  | 0x0D => pRRR f .or
  | 0x0E => pRRI f .ori
  | 0x0F => pRRR f .xor
  | 0x10 => pRRI f .xori
  | 0x11 => pShift f .shl
  | 0x12 => pShift f .shr
  | 0x13 => pShift f .sra
  | 0x14 => pMinMax f .min
  | 0x15 => pMinMax f .max
  | 0x16 => .check (f.fn != 0) (f.junk { xd := true, xa := true }) (.clz f.cond f.xd f.xa)
  | 0x17 => .check (f.fn != 0) (f.junk { xd := true, imm := true }) (.movi f.cond f.xd f.imm)
  | 0x18 => .check (above f.fn 5) (f.junk { xd := true, xa := true, xb := true } || above f.xd 7)
      (.cmp f.cond (relOf f.fn.toNat) (f.xd.setWidth 3) f.xa f.xb)
  | 0x19 => .check (above f.fn 5) (f.junk { xd := true, xa := true, imm := true } || above f.xd 7)
      (.cmpi f.cond (relOf f.fn.toNat) (f.xd.setWidth 3) f.xa f.imm)
  | 0x1A => .check (above f.fn 4)
      (f.junk { xd := true, xa := true, xb := true } || above f.xd 7 || above f.xa 7 || above f.xb 7)
      (.ccomb f.cond (combOf f.fn.toNat) (f.xd.setWidth 3) (f.xa.setWidth 3) (f.xb.setWidth 3))
  | 0x1B => .check (f.fn != 0) (f.junk { slate := true, imm := true }) (.slate f.cond f.slate f.imm)
  | 0x1C => .check (f.fn != 0) (f.junk { slate := true, xa := true }) (.slatex f.cond f.slate f.xa)
  | 0x1D => .check (f.fn != 0) (f.junk { slate := true }) (.cut f.cond f.slate)
  | 0x1E => .check (f.fn != 0) (f.junk { slate := true, xd := true } || above f.xd 7)
      (.cutl f.cond f.slate (f.xd.setWidth 3))
  | 0x1F => .check (f.fn != 0) (f.junk { slate := true, xd := true, xa := true, imm := true })
      (.bsel f.cond f.slate f.xd f.xa f.imm)
  | 0x20 => if f.fn = 0 then .check false (f.junk { slate := true }) (.slinv f.cond f.slate)
      else .check (f.fn != 1) (f.junk { }) (.slinvAll f.cond)
  | 0x21 => .check (f.fn != 0)
      (f.junk { xd := true, xa := true, hdl := true, width := true, race := true, acq := true, imm := true })
      (.ld f.cond (widthOf f.width.toNat) f.race f.acq f.xd f.hdl f.xa f.imm)
  | 0x22 => .check (f.fn != 0)
      (f.junk { xa := true, xb := true, hdl := true, width := true, race := true, rel := true, imm := true })
      (.st f.cond (widthOf f.width.toNat) f.race f.rel f.hdl f.xa f.imm f.xb)
  | 0x23 => .check (f.fn != 0)
      (f.junk { xd := true, xa := true, hdl := true, race := true, acq := true, imm := true } || above f.xd 31)
      (.hld f.cond f.race f.acq (f.xd.setWidth 5) f.hdl f.xa f.imm)
  | 0x24 => .check (f.fn != 0)
      (f.junk { xa := true, xb := true, hdl := true, race := true, rel := true, imm := true } || above f.xb 31)
      (.hst f.cond f.race f.rel f.hdl f.xa f.imm (f.xb.setWidth 5))
  | 0x25 =>
    if f.fn = 0 then
      .check false (f.junk { xd := true, xa := true, xb := true, hdl := true, imm := true } || above f.xd 31 ||
          above f.imm 255)
        (.hnarrow f.cond (f.xd.setWidth 5) f.hdl f.xa f.xb (f.imm.setWidth 8) none)
    else
      .check (f.fn != 1) (f.junk { xd := true, xa := true, xb := true, hdl := true, imm := true } || above f.xd 31 ||
          f.imm.extractLsb' 35 13 != 0)
        (.hnarrow f.cond (f.xd.setWidth 5) f.hdl f.xa f.xb (f.imm.setWidth 8) (some (f.imm.extractLsb' 8 27)))
  | 0x26 => .check (f.fn != 0) (f.junk { xd := true, hdl := true } || above f.xd 31)
      (.hmov f.cond (f.xd.setWidth 5) f.hdl)
  | 0x27 => .check (above f.fn 6) (f.junk { xd := true, hdl := true }) (.hget f.cond (hselOf f.fn.toNat) f.xd f.hdl)
  | 0x28 => .check (f.fn != 0) (f.junk { hdl := true }) (.hclr f.cond f.hdl)
  | 0x29 => .check (f.fn != 0)
      (f.junk { xd := true, xa := true, xb := true, hdl := true, imm := true } || above f.xd 7 || above f.imm 255)
      (.hchk f.cond (f.xd.setWidth 3) f.hdl f.xa f.xb (f.imm.setWidth 8))
  | 0x2A => pImm f .fork
  | 0x2B => .check (f.fn != 0) (f.junk { imm := true } || above f.imm 1)
      (if f.imm = 1 then .joinAbandon f.cond else .join f.cond)
  | 0x2C => pImm f .qmap
  | 0x2D => .check false (f.junk { xa := true } || above f.fn 15)
      (.oqsend f.cond (f.fn.extractLsb' 2 2) (f.fn.extractLsb' 0 2) f.xa)
  | 0x2E => pNone f (.halt f.cond)
  | 0x2F => pImm f .trap
  | 0x30 => pNone f (.tret f.cond)
  | 0x31 => .check (f.fn != 0) (f.junk { xd := true, imm := true } || above f.imm 4095)
      (.csrr f.cond f.xd (f.imm.setWidth 12))
  | 0x32 => .check (f.fn != 0) (f.junk { xa := true, imm := true } || above f.imm 4095)
      (.csrw f.cond (f.imm.setWidth 12) f.xa)
  | 0x33 => pImm f .brk
  | 0x34 => .check (f.fn != 0) (f.junk { xa := true }) (.waiti f.cond f.xa)
  | 0x35 => pNone f (.nop f.cond)
  | _ => .illegal

/-! Format C. -/

/-- Which fields an engine command uses (Tables 8.4, 10.2, 11.8, 12.4, 13.8). -/
structure CUse where
  ha : Bool := false
  hb : Bool := false
  xa : Bool := false
  xb : Bool := false
  xc : Bool := false
  queue : Bool := false
  scope : Bool := false
  aux : Bool := false
  imm : Bool := false

/-- A field that is not used is nonzero, or the scope is 5 to 7 (R48, R49). -/
def FmtC.junk (f : FmtC) (u : CUse) : Bool :=
  (!u.ha && f.ha != 0) || (!u.hb && f.hb != 0) || (!u.xa && f.xa != 0) || (!u.xb && f.xb != 0) ||
  (!u.xc && f.xc != 0) || (!u.queue && f.queue != 0) || (!u.scope && f.scope != 0) || (!u.aux && f.aux != 0) ||
  (!u.imm && f.imm != 0) || above f.scope 4

/-- Completion fields of imm (Table 8.3). -/
def complOf (imm : BitVec 32) : Compl :=
  ⟨imm.getLsbD 16, imm.extractLsb' 0 8, imm.getLsbD 17, imm.extractLsb' 8 8⟩

/-- Reserved bits of the completion fields, without KP. -/
def complBad (imm : BitVec 32) : Bool := imm.extractLsb' 18 14 != 0

def barCntOf (f : FmtC) : BarCnt := ⟨barOf (f.fn.extractLsb' 0 2).toNat, f.aux⟩

/-- Barrier mode 3 (R223). -/
def barBad (f : FmtC) : Bool := f.fn.extractLsb' 0 2 == 3

/-- A queue field that names a die holds 0 to 5 or 15 (R283). -/
def dieBad (q : BitVec 4) : Bool := above q 5 && q != 15

/-- Completion signal of Fabric and Lodestar words: SE and SS in aux. -/
def sigOf (aux : BitVec 15) : Option (BitVec 8) := if aux.getLsbD 8 then some (aux.extractLsb' 0 8) else none

def semArgOf (f : FmtC) : SemArg :=
  if f.aux.getLsbD 0 then .reg f.xa f.xb else .imm (f.imm.extractLsb' 0 8) (f.imm.extractLsb' 8 16)

/-- Field checks of SWAIT and SSIG (Table 10.2, R283). -/
def semArgBad (helm : Bool) (f : FmtC) : Bool :=
  f.junk { xa := true, xb := true, queue := true, aux := true, imm := true } || dieBad f.queue || above f.aux 1 ||
  (if f.aux.getLsbD 0 then !helm || f.imm != 0 else f.xa != 0 || f.xb != 0 || f.imm.extractLsb' 24 8 != 0)

/-- Operation and width codes of Table 10.5 that AMO accepts (R294). -/
def amoBad (op w : Nat) : Bool := decide (10 < op) || w == 0 || (w == 1 && op != 10) || (op == 1 && w != 2)

/-- A format C word, steps 2 and 4. `helm` says that it stands in stream H. -/
def parseC (helm : Bool) (f : FmtC) : Parse :=
  let q : CQ := f.queue.setWidth 2
  let amo := f.fn.extractLsb' 0 4
  let amw := f.fn.extractLsb' 4 2
  match f.op.toNat with
  | 0xB0 => .check false
      (f.junk { ha := true, hb := true, xa := true, xb := true, xc := true, queue := true, aux := true, imm := true } ||
        above f.queue 3 || above f.fn 7 || barBad f || complBad f.imm)
      (.cpy q (barCntOf f) (f.fn.getLsbD 2) f.ha f.hb f.xa f.xb f.xc (complOf f.imm))
  | 0xB1 => .check false
      (f.junk { ha := true, hb := true, xa := true, xb := true, xc := true, queue := true, aux := true, imm := true } ||
        above f.queue 3 || above f.fn 15 || barBad f || complBad f.imm)
      (.cpyt q (barCntOf f) (f.fn.getLsbD 2) (f.fn.getLsbD 3) f.ha f.hb f.xa f.xb f.xc (complOf f.imm))
  | 0xB2 =>
    let common := f.junk {
        ha := true, hb := true, xa := true, xb := true, xc := true, queue := true, aux := true,
        imm := true } || above f.queue 3 || above f.hb 15 || barBad f || f.imm.extractLsb' 19 13 != 0
    if f.fn.getLsbD 5 then
      .check (f.fn.extractLsb' 3 2 == 3) (common || f.xb != 0 || f.xc != 0)
        (.cpymOut q (barCntOf f) (f.fn.getLsbD 2) (f.fn.extractLsb' 3 2) f.ha (f.hb.setWidth 4) f.xa f.xb f.xc
          (f.imm.getLsbD 18) (complOf f.imm))
    else
      .check (f.fn.extractLsb' 3 2 == 3) (common || f.imm.getLsbD 18 || (f.xb == 0 && f.xc != 0))
        (.cpymIn q (barCntOf f) (f.fn.getLsbD 2) (f.fn.extractLsb' 3 2) f.ha (f.hb.setWidth 4) f.xa f.xb f.xc
          (complOf f.imm))
  | 0xB3 => .check (f.fn != 0)
      (f.junk { ha := true, xa := true, queue := true, imm := true } || above f.queue 3 || complBad f.imm)
      (.cchain q f.ha f.xa (complOf f.imm))
  | 0xB4 => .check (f.fn != 0)
      (f.junk { xa := true, queue := true, aux := true } || above f.queue 3 || above f.aux 7 || above f.xa 56)
      (.qpush q f.xa (f.aux.setWidth 3))
  | 0xB5 => .check false
      (f.junk { ha := true, xa := true, xc := true, queue := true, aux := true, imm := true } || above f.queue 3 ||
        barBad f || complBad f.imm)
      (.strbind q (barCntOf f) (f.fn.getLsbD 2) (f.fn.extractLsb' 3 3) f.ha f.xa f.xc (complOf f.imm))
  | 0xB6 => .check false
      (f.junk { hb := true, xa := true, xb := true, xc := true, queue := true, aux := true, imm := true } ||
        above f.queue 3 || above f.fn 7 || barBad f || complBad f.imm)
      (.cfill q (barCntOf f) (f.fn.getLsbD 2) f.hb f.xa f.xb f.xc (complOf f.imm))
  | 0xB7 =>
    if f.fn = 0 then .check false (f.junk { xa := true, xc := true, queue := true, aux := true } || above f.queue 3 ||
        above f.aux 3) (.cstat q f.xa f.xc (f.aux.setWidth 2))
    else if f.fn = 1 then .check false (f.junk { xc := true, queue := true } || above f.queue 3) (.ccancel q f.xc)
    else .check (f.fn != 2) (f.junk { xc := true, queue := true, aux := true } || above f.queue 3 || above f.aux 1)
      (.ctlread q f.xc (f.aux.getLsbD 0))
  | 0xC0 => .check (f.fn != 0) (semArgBad helm f) (.swait (semArgOf f) f.queue)
  | 0xC1 => .check (f.fn != 0) (semArgBad true f) (.ssig (semArgOf f) f.queue)
  | 0xC2 => .check (f.fn != 0)
      (f.junk { xb := true, xc := true, queue := true, imm := true } || dieBad f.queue || above f.imm 255)
      (.sset (f.imm.setWidth 8) f.xb f.xc f.queue)
  | 0xC3 =>
    if f.fn = 0 then .check false (f.junk { ha := true, xa := true, xc := true, imm := true })
      (.barrArrive f.ha f.xa f.xc f.imm)
    else if f.fn = 1 then .check false (f.junk { ha := true, xa := true, xc := true, imm := true })
      (.barrWait f.ha f.xa f.xc f.imm)
    else if f.fn = 2 then .check false (f.junk { ha := true, xa := true, xb := true, xc := true, imm := true })
      (.barrInit f.ha f.xa f.xb f.xc f.imm)
    else .check (f.fn != 3) (f.junk { ha := true, xa := true, xc := true, imm := true })
      (.barrReset f.ha f.xa f.xc f.imm)
  | 0xC4 => .check (f.fn != 0) (f.junk { ha := true, xa := true, xb := true, xc := true, imm := true })
      (.bwait f.ha f.xa f.xb f.xc f.imm)
  | 0xC5 => .check (amoBad amo.toNat amw.toNat)
      (f.junk { ha := true, xa := true, xb := true, xc := true, aux := true, imm := true } || above f.aux 3 ||
        (amw == 1 && (f.xb.getLsbD 0 || f.xc.getLsbD 0)))
      (.amo (amoOf amo.toNat) (amoWOf amw.toNat) (f.aux.getLsbD 0) (f.aux.getLsbD 1) f.ha f.xa f.xb f.xc f.imm)
  | 0xC6 => .check (amoBad amo.toNat amw.toNat || amo == 10)
      (f.junk { ha := true, hb := true, xa := true, xb := true, xc := true, aux := true } || above f.aux 7)
      (.vamo (amoOf amo.toNat) (amoWOf amw.toNat) (f.aux.getLsbD 0) (f.aux.getLsbD 1) (f.aux.getLsbD 2) f.ha f.hb f.xa
        f.xb f.xc)
  | 0xC7 =>
    if f.fn = 0 then .check false (f.junk { scope := true }) (.fence f.scope)
    else .check (f.fn != 1) (f.junk { scope := true, xa := true, xb := true } || f.scope == 4)
      (.fenceTranslation f.scope f.xa f.xb)
  | 0xC8 =>
    if helm then .check (f.fn != 0) (f.junk { xa := true, xc := true, queue := true } || above f.queue 4)
      (.tlwait f.queue (.h f.xa f.xc))
    else .check (f.fn != 0) (f.junk { xa := true, queue := true } || above f.queue 4 || above f.xa 3)
      (.tlwait f.queue (.oq (f.xa.setWidth 2)))
  | 0xC9 => .check (above f.fn 5) (f.junk { ha := true, xa := true, xb := true, xc := true, imm := true })
      (.flwait (relOf f.fn.toNat) f.ha f.xa f.xb f.xc f.imm)
  | 0xCA => .check (f.fn != 0) (f.junk { xa := true, xc := true }) (.heapalloc f.xa f.xc)
  | 0xCB => .check (f.fn != 0) (f.junk { xa := true }) (.heapfree f.xa)
  | 0xD0 => .check (f.fn != 0) (f.junk { ha := true, xa := true, xc := true, aux := true, imm := true } || above f.aux 31)
      (.spawn f.ha f.xa f.xc (f.aux.setWidth 5) f.imm)
  | 0xD1 => .check (f.fn != 0) (f.junk { xa := true }) (.fref f.xa)
  | 0xD2 => .check (f.fn != 0) (f.junk { xa := true }) (.fdrop f.xa)
  | 0xD3 => .check (above f.fn 1) (f.junk { xa := true, xc := true }) (.fget (f.fn == 1) f.xa f.xc)
  | 0xD4 => .check (f.fn != 0) (f.junk { xa := true }) (.fdone f.xa)
  | 0xD5 => .check (f.fn != 0) (f.junk { }) .rpoint
  | 0xD6 => .check (f.fn != 0) (f.junk { ha := true, xa := true, xc := true, aux := true, imm := true } || above f.aux 31)
      (.tlaunch f.ha f.xa f.xc (f.aux.setWidth 5) f.imm)
  | 0xD7 => .check (f.fn != 0) (f.junk { ha := true, xa := true, xb := true, imm := true }) (.tarm f.ha f.xa f.xb f.imm)
  | 0xD8 => .check (f.fn != 0) (f.junk { xa := true, xc := true }) (.tcancel f.xa f.xc)
  | 0xD9 => .check (f.fn != 0) (f.junk { xa := true, xb := true, xc := true }) (.requeue f.xa f.xb f.xc)
  | 0xDA => .check (f.fn != 0) (f.junk { xa := true }) (.yield f.xa)
  | 0xDB => .check (f.fn != 0) (f.junk { xc := true }) (.gpos f.xc)
  | 0xDC => .check (f.fn != 0) (f.junk { xa := true, xc := true }) (.gang f.xa f.xc)
  | 0xDD => .check (above f.fn 2) (f.junk { xa := true, xc := true }) (.tstat (f.fn.setWidth 2) f.xa f.xc)
  | 0xE0 => .check (f.fn != 0)
      (f.junk { ha := true, hb := true, xa := true, xb := true, xc := true, aux := true, imm := true } || above f.aux 511)
      (.rmst f.ha f.hb f.xa f.xb f.xc (sigOf f.aux) f.imm)
  | 0xE1 => .check (f.fn != 0)
      (f.junk { ha := true, hb := true, xa := true, xb := true, xc := true, aux := true } || above f.aux 511)
      (.rmld f.ha f.hb f.xa f.xb f.xc (sigOf f.aux))
  | 0xE2 => .check (above amo 10 || !above amw 1 || (amo == 1 && amw == 3))
      (f.junk { ha := true, hb := true, xa := true, xb := true, xc := true, aux := true, imm := true } || above f.aux 511 ||
        (amo != 10 && f.xc != 0))
      (.rmamo (amoOf amo.toNat) (amoWOf amw.toNat) f.ha f.hb f.xa f.xb f.xc (sigOf f.aux) f.imm)
  | 0xE3 => .check (f.fn != 0)
      (f.junk { ha := true, hb := true, xa := true, xb := true, xc := true, aux := true, imm := true } || above f.aux 511)
      (.mcst f.ha f.hb f.xa f.xb f.xc (sigOf f.aux) f.imm)
  | 0xE4 => .check (above amo 8 || !above amw 1 || (amo == 1 && amw == 3))
      (f.junk { ha := true, hb := true, xa := true, xb := true, xc := true, aux := true } || above f.aux 511)
      (.mcld (amoOf amo.toNat) (amoWOf amw.toNat) f.ha f.hb f.xa f.xb f.xc (sigOf f.aux))
  | 0xE5 => .check false
      (f.junk { ha := true, hb := true, xa := true, xb := true, xc := true, aux := true, imm := true } || above f.aux 511 ||
        above f.fn 3)
      (.spred (f.fn.getLsbD 0) (f.fn.getLsbD 1) f.ha f.hb f.xa f.xb f.xc (sigOf f.aux) f.imm)
  | 0xE6 => .check (f.fn != 0) (f.junk { xc := true }) (.rfence f.xc)
  | 0xE7 =>
    if f.fn = 0 then .check false (f.junk { ha := true, xa := true, xb := true, xc := true }) (.gjoin f.ha f.xa f.xb f.xc)
    else if f.fn = 1 then .check false (f.junk { xb := true }) (.gleave f.xb)
    else .check (f.fn != 2) (f.junk { xa := true, xc := true, aux := true } || above f.aux 5)
      (.linkst f.xa f.xc (f.aux.setWidth 3))
  | 0xE8 => .check (f.fn != 0) (f.junk { ha := true, hb := true, xa := true, xc := true }) (.lmint f.ha f.hb f.xa f.xc)
  | 0xE9 => .check (f.fn != 0) (f.junk { hb := true, xc := true }) (.lseal f.hb f.xc)
  | 0xEA => .check (f.fn != 0) (f.junk { ha := true, xa := true, xb := true, xc := true, imm := true })
      (.lrevoke f.ha f.xa f.xb f.xc f.imm)
  | 0xEB => .check (f.fn != 0) (f.junk { ha := true, xa := true, xb := true, xc := true }) (.lshare f.ha f.xa f.xb f.xc)
  | 0xEC => .check (f.fn != 0) (f.junk { xc := true, aux := true } || above f.aux 511) (.lrotate f.xc (sigOf f.aux))
  | 0xED => .check (f.fn != 0) (f.junk { xc := true, imm := true } || above f.imm 15) (.lscrub f.xc (f.imm.setWidth 4))
  | 0xEE => .check (f.fn != 0) (f.junk { ha := true, hb := true, xa := true, xc := true }) (.lfreeze f.ha f.hb f.xa f.xc)
  | 0xEF =>
    if f.fn = 0 then .check false (f.junk { ha := true, hb := true, xa := true, xb := true, xc := true })
      (.lreport f.ha f.hb f.xa f.xb f.xc)
    else if f.fn = 1 then .check false (f.junk { ha := true, xa := true, xc := true }) (.ltrans f.ha f.xa f.xc)
    else if f.fn = 2 then .check false (f.junk { xa := true, xc := true, aux := true } || above f.aux 3)
      (if f.aux = 0 then .lworldState f.xa f.xc else if f.aux = 1 then .lworldRoot f.xa f.xc
        else if f.aux = 2 then .lworldProgress f.xa f.xc else .lworldClock f.xa f.xc)
    else if f.aux = 0 then .check (f.fn != 3) (f.junk { ha := true, xa := true, xb := true, xc := true })
      (.lwindowExport f.ha f.xa f.xb f.xc)
    else .check (f.fn != 3) (f.junk { xa := true, xb := true, xc := true, aux := true } || above f.aux 2)
      (if f.aux = 1 then .lwindowImport f.xa f.xb f.xc else .lwindowClose f.xa f.xb f.xc)
  | _ => .illegal


/-! Format A. -/

/-- Bad vector source: latch number 0 or above 8, K with a latch, register out of range (R45, R46). Stream registers
are sources in V alone (R165, R249). -/
def srcBad (allowS ls k : Bool) (r : BitVec 7) : Bool :=
  if ls then r == 0 || above r 8 || k else if allowS then above r 71 else above r 63

def srcOf (ls k : Bool) (r : BitVec 7) : VSrc :=
  if ls then .lat (r.setWidth 4) else if 63 < r.toNat then .sr (r.setWidth 3) k else .q (r.setWidth 6) k

/-- Bad vector destination (R46). -/
def FmtA.dstBad (f : FmtA) : Bool := if f.n then f.e || f.dest != 0 else above f.dest 63

def FmtA.dst (f : FmtA) : VDst := if f.n then .nul else .q (f.dest.setWidth 6) f.e

def FmtA.ctl (f : FmtA) : Ctl := ⟨f.g, f.f, f.l⟩
def FmtA.psel (f : FmtA) : PSel := ⟨f.pred, f.neg⟩
def FmtA.s1 (f : FmtA) : VSrc := srcOf f.ls1 f.k1 f.src1
def FmtA.s2 (f : FmtA) : VSrc := srcOf f.ls2 f.k2 f.src2
def FmtA.s3 (f : FmtA) : VSrc := srcOf f.ls3 f.k3 f.src3
def FmtA.bad1 (f : FmtA) (s : Bool) : Bool := srcBad s f.ls1 f.k1 f.src1
def FmtA.bad2 (f : FmtA) (s : Bool) : Bool := srcBad s f.ls2 f.k2 f.src2
def FmtA.bad3 (f : FmtA) (s : Bool) : Bool := srcBad s f.ls3 f.k3 f.src3

/-- A register field that holds a plain number up to a limit, or nothing at limit 0. -/
def FmtA.num1 (f : FmtA) (k : Nat) : Bool := f.ls1 || f.k1 || above f.src1 k
def FmtA.num2 (f : FmtA) (k : Nat) : Bool := f.ls2 || f.k2 || above f.src2 k
def FmtA.num3 (f : FmtA) (k : Nat) : Bool := f.ls3 || f.k3 || above f.src3 k
def FmtA.numD (f : FmtA) (k : Nat) : Bool := f.n || f.e || above f.dest k
def FmtA.predBad (f : FmtA) : Bool := f.pred != 0 || f.neg

/-- A predicate destination: k1 to k23 (R204). -/
def FmtA.kBad (f : FmtA) : Bool := f.n || f.e || f.dest == 0 || above f.dest 23

def FmtA.t (f : FmtA) : Ty := tyOf f.ty.toNat
def FmtA.rn (f : FmtA) : Rnd := rndOf f.rnd.toNat

/-- A word that takes no type and does not round (R50). -/
def FmtA.noTy (f : FmtA) : Bool := f.ty != 0 || f.rnd != 0

/-- Type code beyond 0xC, or not accepted (R50). -/
def FmtA.tyBad (f : FmtA) (p : Ty → Bool) : Bool := above f.ty 12 || !p f.t

def tyAny (_ : Ty) : Bool := true

/-- The memory operand of imm (Table 6.2). -/
def FmtA.mem (f : FmtA) : AMem :=
  ⟨f.src1.setWidth 5, f.imm.getLsbD 29, if f.imm.getLsbD 28 then some (f.imm.extractLsb' 26 2) else none,
    f.imm.extractLsb' 0 26⟩

def FmtA.memBad (f : FmtA) : Bool := f.num1 31 || (!f.imm.getLsbD 28 && f.imm.extractLsb' 26 2 != 0)

/-- Bad scalar-capable source 2 under sfrm, with what remains of imm (R196, R197). `raw`: any 30 bits are accepted. -/
def FmtA.opdBad (f : FmtA) (raw : Bool) : Bool :=
  let sf := f.fn.extractLsb' 3 2
  if sf = 0 then f.bad2 true || f.imm != 0
  else if sf = 1 then f.num2 0 || !(raw || immFits f.t f.imm)
  else f.ls2 || above f.src2 3 || f.imm != 0

def FmtA.opd (f : FmtA) : VOpd :=
  let sf := f.fn.extractLsb' 3 2
  if sf = 0 then .vec f.s2 else if sf = 1 then .imm f.imm else .oq (f.src2.setWidth 2) f.k2

def FmtA.sfrm3 (f : FmtA) : Bool := f.fn.extractLsb' 3 2 == 3

/-- Where an entry marks sfrm zero (R213 to R216): no form has sfrm 0b11 (R196), and a value of fn[2:0] that the entry does not list is
illegal (log 21); the other values of sfrm are nonzero values of a field marked zero (R52). -/
def FmtA.fnBad (f : FmtA) (lim : Nat) : Bool := f.sfrm3 || decide (lim < (f.fn.extractLsb' 0 3).toNat)
def FmtA.sfrmSet (f : FmtA) : Bool := f.fn.extractLsb' 3 2 != 0

def FmtA.bin (f : FmtA) : VBin := ⟨f.ctl, f.psel, f.dst, f.s1, f.opd, f.t, f.rn, f.sat⟩
def FmtA.un (f : FmtA) : VUn := ⟨f.ctl, f.psel, f.dst, f.s1, f.t, f.rn, f.sat⟩

/-- A two-source elementwise word of Table 7.4. -/
def pBin (f : FmtA) (types : Ty → Bool) (rounds sats raw : Bool) (k : VBin → Instr) : Parse :=
  .check (f.sfrm3 || f.tyBad types || (!rounds && f.rnd != 0))
    (f.rsv || f.fn.extractLsb' 0 3 != 0 || f.dstBad || f.bad1 true || f.opdBad raw || f.num3 0 || (!sats && f.sat))
    (k f.bin)

/-- VFMA and VFMS. -/
def pTri (f : FmtA) (k : VBin → VSrc → Instr) : Parse :=
  .check (f.sfrm3 || f.tyBad Ty.isFloat)
    (f.rsv || f.fn.extractLsb' 0 3 != 0 || f.dstBad || f.bad1 true || f.opdBad false || f.bad3 true || f.sat)
    (k f.bin f.s3)

/-- A one-source word: rounding and saturation allowed by type. -/
def pUn (f : FmtA) (types rounds sats : Ty → Bool) (k : VUn → Instr) : Parse :=
  .check (f.fn != 0 || f.tyBad types || (!rounds f.t && f.rnd != 0))
    (f.rsv || f.dstBad || f.bad1 true || f.num2 0 || f.num3 0 || f.imm != 0 || (!sats f.t && f.sat)) (k f.un)

def tyNone (_ : Ty) : Bool := false

/-- A reduction or a scan (R214, R215). -/
def pRed (f : FmtA) (rounds sats : Ty → Bool) (k : VUn → Instr) : Parse :=
  .check (f.fnBad 0 || f.tyBad (fun t => t.isFloat || t.isInt) || (!rounds f.t && f.rnd != 0))
    (f.rsv || f.sfrmSet || f.dstBad || f.bad1 true || f.num2 0 || f.num3 0 || f.imm != 0 || (!sats f.t && f.sat)) (k f.un)

/-- A rearranging word of Table 7.8. -/
def pMove (f : FmtA) (types : Ty → Bool) (bad : Bool) (i : Instr) : Parse :=
  .check (f.fnBad 0 || f.tyBad types || f.rnd != 0)
    (f.rsv || f.sfrmSet || f.dstBad || f.bad1 true || f.num3 0 || f.sat || bad) i

/-- KAND, KOR, KXOR. -/
def pK (f : FmtA) (k : Ctl → Bool → KReg → KReg → KReg → Instr) : Parse :=
  .check (f.fnBad 1 || f.noTy)
    (f.rsv || f.sfrmSet || f.predBad || f.kBad || f.num1 31 || f.num2 31 || f.num3 0 || f.sat || f.imm != 0)
    (k f.ctl (f.fn == 1) (f.dest.setWidth 5) (f.src1.setWidth 5) (f.src2.setWidth 5))

def FmtA.pos (f : FmtA) : MPos :=
  ⟨f.imm.extractLsb' 10 10, if f.imm.getLsbD 9 then some (f.imm.extractLsb' 7 2) else none⟩

/-- Position fields: PQ zero when X is 0, and the rows fit when X is 0 (Table 9.4). -/
def FmtA.posBad (f : FmtA) (rows : Nat) : Bool :=
  !f.imm.getLsbD 9 && (f.imm.extractLsb' 7 2 != 0 || decide (1024 < (f.imm.extractLsb' 10 10).toNat + rows))

def FmtA.cbm (f : FmtA) : BitVec 4 := f.imm.extractLsb' 20 4
def FmtA.fent (f : FmtA) : Option (BitVec 4) := if f.imm.getLsbD 29 then some (f.imm.extractLsb' 25 4) else none
def FmtA.fentBad (f : FmtA) : Bool := !f.imm.getLsbD 29 && f.imm.extractLsb' 25 4 != 0

/-- Fields that no matrix word uses. -/
def FmtA.mJunk (f : FmtA) : Bool := f.rsv || f.predBad

/-- The scale of MLDW and MLDS, the count of MSYNC: `a` says immediate. -/
def FmtA.mscale (f : FmtA) (a : Bool) : MScale := if a then .imm f.imm else .oq (f.src2.setWidth 2)
def FmtA.mscaleBad (f : FmtA) (a : Bool) : Bool := if a then f.num2 0 else f.num2 3 || f.imm != 0

/-- A format A word, steps 2 and 4, decoded in a stream. -/
def parseA (st : Stream) (f : FmtA) : Parse :=
  let noF := f.g == false || f.f || f.l
  match f.op.toNat with
  | 0x40 => .check (f.fn.extractLsb' 0 2 == 3 || f.noTy)
      (f.rsv || f.predBad || above f.fn 7 || f.numD 15 || f.memBad || f.num2 0 || f.num3 0 || f.sat)
      (.tld f.ctl (f.fn.extractLsb' 0 2) (f.fn.getLsbD 2) (f.dest.setWidth 4) f.mem)
  | 0x41 => .check (above f.fn 3 || f.tyBad tyAny || f.rnd != 0 || (f.fn == 3 && f.t.size == 8))
      (f.rsv || f.predBad || f.dstBad || f.memBad || f.num2 0 || f.num3 0 || f.sat)
      (.vld f.ctl (f.fn.setWidth 2) f.dst f.mem f.t)
  | 0x42 => .check (f.fn != 0 || f.tyBad tyAny || f.rnd != 0)
      (f.rsv || f.predBad || f.dstBad || f.memBad || f.num2 3 || f.num3 0 || f.sat)
      (.vlds f.ctl f.dst f.mem (f.src2.setWidth 2) f.t)
  | 0x43 => .check (f.fn != 0 || f.tyBad Ty.isLane || f.rnd != 0)
      (f.rsv || f.predBad || f.dstBad || f.memBad || f.num2 0 || f.bad3 false || f.sat)
      (.vgather f.ctl f.dst f.mem f.s3 f.t)
  | 0x44 => .check (f.fn != 0 || f.noTy)
      (f.rsv || f.predBad || f.numD 15 || f.num1 0 || f.num2 0 || f.num3 0 || f.sat || f.imm != 0)
      (.tfullL f.ctl (f.dest.setWidth 4))
  | 0x45 => .check (f.fn != 0 || f.noTy)
      (f.rsv || f.predBad || f.numD 15 || f.num1 0 || f.num2 0 || f.num3 0 || f.sat || f.imm != 0)
      (.temptyL f.ctl (f.dest.setWidth 4))
  | 0x46 => .check (above f.fn 2 || f.noTy)
      (f.rsv || f.predBad || f.numD 0 || f.num1 (if f.fn = 2 then 0 else 3) || f.num2 0 || f.num3 0 || f.sat ||
        f.imm != 0)
      (.padapplyL f.ctl (if f.fn = 0 then .col (f.src1.setWidth 2) else if f.fn = 1 then .row (f.src1.setWidth 2)
        else .reset))
  | 0x50 => .check (f.fn.extractLsb' 0 2 == 3 || f.noTy)
      (f.rsv || f.predBad || above f.fn 15 || f.numD 0 || f.memBad || f.num2 15 || f.num3 0 || f.sat)
      (.tst f.ctl (f.fn.extractLsb' 0 2) (f.fn.getLsbD 2) (f.fn.getLsbD 3) (f.src2.setWidth 4) f.mem)
  | 0x51 => .check (above f.fn 3 || f.tyBad tyAny || f.rnd != 0 || (f.fn == 3 && f.t.size == 8))
      (f.rsv || f.predBad || f.numD 0 || f.memBad || f.bad2 false || f.num3 0 || f.sat)
      (.vst f.ctl (f.fn.setWidth 2) f.mem f.s2 f.t)
  | 0x52 => .check (f.fn != 0 || f.tyBad tyAny || f.rnd != 0)
      (f.rsv || f.predBad || f.numD 0 || f.memBad || f.bad2 false || f.num3 3 || f.sat)
      (.vsts f.ctl f.mem f.s2 (f.src3.setWidth 2) f.t)
  | 0x53 => .check (f.fn != 0 || f.tyBad Ty.isLane || f.rnd != 0)
      (f.rsv || f.predBad || f.numD 0 || f.memBad || f.bad2 false || f.bad3 false || f.sat)
      (.vscatter f.ctl f.mem f.s2 f.s3 f.t)
  | 0x54 => .check (f.fn != 0 || f.noTy)
      (f.rsv || f.predBad || f.numD 15 || f.num1 0 || f.num2 0 || f.num3 0 || f.sat || f.imm != 0)
      (.tfullS f.ctl (f.dest.setWidth 4))
  | 0x55 => .check (f.fn != 0 || f.noTy)
      (f.rsv || f.predBad || f.numD 15 || f.num1 0 || f.num2 0 || f.num3 0 || f.sat || f.imm != 0)
      (.temptyS f.ctl (f.dest.setWidth 4))
  | 0x56 => .check (above f.fn 2 || f.noTy)
      (f.rsv || f.predBad || f.numD 0 || f.num1 (if f.fn = 2 then 0 else 3) || f.num2 0 || f.num3 0 || f.sat ||
        f.imm != 0)
      (.padapplyS f.ctl (if f.fn = 0 then .col (f.src1.setWidth 2) else if f.fn = 1 then .row (f.src1.setWidth 2)
        else .reset))
  | 0x60 => pBin f Ty.isFloat true false false .vadd
  | 0x61 => pBin f Ty.isFloat true false false .vsub
  | 0x62 => pBin f Ty.isFloat true false false .vmul
  | 0x63 => pTri f .vfma
  | 0x64 => pTri f .vfms
  | 0x65 => pBin f Ty.isFloat true false false .vdiv
  | 0x66 => pUn f Ty.isFloat tyAny tyNone .vsqrt
  | 0x67 => pUn f Ty.isFloat tyAny tyNone .vrsq
  | 0x68 => pUn f Ty.isFloat tyAny tyNone .vrcp
  | 0x69 => pBin f Ty.isFloat false false false .vmin
  | 0x6A => pBin f Ty.isFloat false false false .vmax
  | 0x6B => pUn f (fun t => t.isFloat || t.isSigned) tyNone Ty.isInt .vabs
  | 0x6C => pUn f (fun t => t.isFloat || t.isSigned) tyNone Ty.isInt .vneg
  | 0x6D => pUn f Ty.isFloat tyAny tyNone .vexp2
  | 0x6E => pUn f Ty.isFloat tyAny tyNone .vlog2
  | 0x6F => pBin f Ty.isInt false true false .viadd
  | 0x70 => pBin f Ty.isInt false true false .visub
  | 0x71 => pBin f Ty.isInt false true false .vimul
  | 0x72 => pBin f Ty.isInt false false false .vimulh
  | 0x73 => pBin f Ty.isInt false false false .vand
  | 0x74 => pBin f Ty.isInt false false false .vor
  | 0x75 => pBin f Ty.isInt false false false .vxor
  | 0x76 => pBin f Ty.isInt false true false .vshl
  | 0x77 => pBin f Ty.isInt false false false .vshr
  | 0x78 => pBin f Ty.isSigned false false false .vsra
  | 0x79 => pBin f Ty.isInt false false false .vimin
  | 0x7A => pBin f Ty.isInt false false false .vimax
  | 0x7B => .check (f.sfrm3 || f.tyBad (fun t => t.isFloat || t.isInt) || f.rnd != 0 || f.fn.extractLsb' 0 3 == 7 ||
        (f.fn.extractLsb' 0 3 == 6 && f.t.isInt))
      (f.rsv || (if f.n then f.e || f.dest != 0 else f.kBad) || f.bad1 true || f.opdBad false || f.num3 0 || f.sat)
      (.vcmp f.ctl f.psel (if f.n then none else some (f.dest.setWidth 5)) f.s1 f.opd f.t
        (vrelOf (f.fn.extractLsb' 0 3).toNat))
  | 0x7C => .check (f.sfrm3 || f.tyBad tyAny || f.rnd != 0)
      (f.rsv || f.fn.extractLsb' 0 3 != 0 || f.dstBad || f.bad1 true || f.opdBad false || f.num3 31 || f.sat)
      (.vsel f.bin (f.src3.setWidth 5))
  | 0x7D =>
    let s := tyOf (f.imm.extractLsb' 0 4).toNat
    .check (f.tyBad tyAny || above (f.imm.extractLsb' 0 4) 12 || s == f.t || (cvtRneOnly s f.t && f.rnd != 0))
      (f.rsv || above f.fn 3 || f.dstBad || f.bad1 true || f.num2 0 || f.num3 0 || f.imm.extractLsb' 4 26 != 0 ||
        !cvtPartOk s f.t (f.fn.extractLsb' 0 2) || !cvtSatOk s f.t f.sat)
      (.vcvt f.ctl f.psel f.dst f.s1 f.t s f.rn f.sat (f.fn.extractLsb' 0 2))
  | 0x7E => pBin f Ty.isFloat true false true .vscale
  | 0x7F => .check (f.sfrm3 || f.tyBad tyAny || f.rnd != 0)
      (f.rsv || f.fn.extractLsb' 0 3 != 0 || f.dstBad || f.num1 0 || f.opdBad false || f.num3 0 || f.sat)
      (.vmov f.ctl f.psel f.dst f.opd f.t)
  | 0x80 => pMove f (fun t => t.size != 1) (f.bad2 true || f.imm != 0) (.vperm f.ctl f.psel f.dst f.s1 f.s2 f.t)
  | 0x81 => pMove f tyAny (f.bad2 true || f.imm.extractLsb' 11 19 != 0 || !slideOk f.t (f.imm.extractLsb' 0 11))
      (.vslide f.ctl f.psel f.dst f.s1 f.s2 f.t (f.imm.extractLsb' 0 11))
  | 0x82 => pMove f tyAny (f.num2 0 || f.imm != 0) (.vcompress f.ctl f.psel f.dst f.s1 f.t)
  | 0x83 => pMove f tyAny (f.num2 0 || f.imm != 0) (.vexpand f.ctl f.psel f.dst f.s1 f.t)
  | 0x84 => pMove f tyAny (f.num2 0 || f.imm.extractLsb' 10 20 != 0 || !bcastOk f.t (f.imm.extractLsb' 0 10))
      (.vbcast f.ctl f.psel f.dst f.s1 f.t (f.imm.extractLsb' 0 10))
  | 0x85 => .check ((f.fn != 8 && f.fn != 16) || f.tyBad Ty.isInt || f.rnd != 0)
      (f.rsv || f.dstBad || f.num1 0 || f.num3 0 || (if f.fn = 8 then f.num2 0
        else f.ls2 || above f.src2 3 || f.imm.extractLsb' 15 15 != 0))
      (.vindex f.ctl f.psel f.dst
        (if f.fn = 8 then .imm (f.imm.extractLsb' 15 15) else .oq (f.src2.setWidth 2) f.k2)
        (f.imm.extractLsb' 0 15) f.t f.sat)
  | 0x86 => pRed f Ty.isFloat Ty.isInt .vredsum
  | 0x87 => pRed f tyNone tyNone .vredmax
  | 0x88 => pRed f tyNone tyNone .vredmin
  | 0x89 => pRed f Ty.isFloat Ty.isInt .vscansum
  | 0x8A => pRed f tyNone tyNone .vscanmax
  | 0x8B => pK f .kand
  | 0x8C => pK f .kor
  | 0x8D => pK f .kxor
  | 0x8E => .check ((f.fn != 8 && f.fn != 16) || f.tyBad tyAny || f.rnd != 0)
      (f.rsv || f.predBad || f.kBad || f.num1 0 || f.num3 0 || f.sat || (if f.fn = 8 then f.num2 0 || above f.imm 1023
        else f.ls2 || above f.src2 3 || f.imm != 0))
      (.kset f.ctl (f.dest.setWidth 5)
        (if f.fn = 8 then .imm (f.imm.extractLsb' 0 10) else .oq (f.src2.setWidth 2) f.k2) f.t)
  | 0x8F => .check (f.fnBad 0 || f.tyBad tyAny || f.rnd != 0)
      (f.rsv || f.sfrmSet || f.predBad || f.dstBad || f.num1 31 || f.num2 0 || f.num3 0 || f.sat || f.imm != 0)
      (.kcount f.ctl f.dst (f.src1.setWidth 5) f.t)
  | 0x90 => .check (f.fnBad 0 || f.noTy)
      (f.rsv || f.sfrmSet || f.predBad || f.numD 0 || f.num1 31 || f.num2 0 || f.num3 0 || f.sat || f.imm != 0)
      (.mpush f.ctl (f.src1.setWidth 5))
  | 0x91 => .check (f.fnBad 0 || f.noTy)
      (f.rsv || f.sfrmSet || f.predBad || f.numD 0 || f.num1 0 || f.num2 0 || f.num3 0 || f.sat || f.imm != 0) (.minv f.ctl)
  | 0x92 => .check (f.fnBad 0 || f.noTy)
      (f.rsv || f.sfrmSet || f.predBad || f.numD 0 || f.num1 0 || f.num2 0 || f.num3 0 || f.sat || f.imm != 0) (.mpop f.ctl)
  | 0xA0 =>
    let a := f.fn.extractLsb' 3 2 == 1
    .check ((f.fn.extractLsb' 3 2 != 1 && f.fn.extractLsb' 3 2 != 2) || f.noTy)
      (f.mJunk || f.fn.getLsbD 2 || f.numD 0 || f.num1 15 || f.mscaleBad a || f.num3 0 || f.sat)
      (.mldw f.ctl (f.fn.getLsbD 1) (f.fn.getLsbD 0) (f.src1.setWidth 4) (f.mscale a))
  | 0xA1 =>
    let a := f.fn.extractLsb' 3 2 == 1
    .check ((f.fn.extractLsb' 3 2 != 1 && f.fn.extractLsb' 3 2 != 2) || f.noTy)
      (f.mJunk || f.fn.extractLsb' 1 2 != 0 || f.numD 0 || f.num1 0 || f.mscaleBad a || f.num3 0 || f.sat)
      (.mlds f.ctl (f.fn.getLsbD 0) (f.mscale a))
  | 0xA2 => .check f.noTy
      (f.mJunk || above f.fn 1 || f.numD 127 || f.num1 15 || f.num2 3 || f.num3 127 || f.sat ||
        f.imm.extractLsb' 0 7 != 0 || f.fentBad || f.posBad (f.src3.toNat + 1) ||
        decide (128 < f.dest.toNat + f.src3.toNat + 1))
      (.mma f.ctl (f.fn.getLsbD 0) f.dest (f.src1.setWidth 4) (f.src2.setWidth 2) f.src3 f.fent (f.imm.getLsbD 24) f.cbm
        f.pos)
  | 0xA3 => .check (f.fn != 0 || f.noTy)
      (f.mJunk || f.numD 127 || f.num1 31 || f.num2 3 || f.bad3 false || f.sat || f.imm.extractLsb' 0 6 != 0 ||
        f.fentBad || f.posBad (f.dest.toNat + 1))
      (.mmag f.ctl f.dest (f.src1.setWidth 5) (f.src2.setWidth 2) f.s3 f.fent (f.imm.getLsbD 24) f.cbm f.pos
        (f.imm.getLsbD 6))
  | 0xA4 => .check (f.fn != 0 || f.noTy)
      (f.mJunk || f.numD 127 || f.num1 0 || f.num2 0 || f.num3 0 || f.sat || f.imm.extractLsb' 0 7 != 0 ||
        f.imm.extractLsb' 24 6 != 0 || f.posBad (f.dest.toNat + 1))
      (.mzero f.ctl f.dest f.cbm f.pos)
  | 0xA5 => .check (f.fn != 0 || f.tyBad mrdTy || (!mrdRounds f.t && f.rnd != 0))
      (f.mJunk || f.dstBad || f.num1 0 || f.num2 0 || f.num3 0 || (!f.t.isFp8 && f.sat) || f.imm.extractLsb' 0 7 != 0 ||
        f.imm.extractLsb' 20 10 != 0 || f.posBad 1)
      (.mrd f.ctl f.dst f.t f.rn f.sat f.pos)
  | 0xA6 => .check (f.fn != 0 || f.tyBad (fun t => t == .f32 || t == .i32) || f.rnd != 0)
      (f.mJunk || f.numD 0 || f.bad1 false || f.num2 0 || f.num3 0 || f.sat || f.imm.extractLsb' 0 7 != 0 ||
        f.imm.extractLsb' 24 6 != 0 || f.posBad 1)
      (.mwr f.ctl f.s1 f.t f.cbm f.pos)
  | 0xA7 => .check (above f.fn 1 || f.noTy)
      (f.mJunk || f.numD 0 || f.num1 0 || f.num2 0 || f.num3 0 || f.sat || above f.imm (if f.fn = 0 then 5 else 15))
      (.mfmt f.ctl (f.fn == 1) (f.imm.setWidth 4))
  | 0xA8 => .check (f.fn != 0 || f.noTy)
      (f.mJunk || f.numD 0 || f.num1 0 || f.num2 0 || f.num3 0 || f.sat || above f.imm 3)
      (.mbud f.ctl (f.imm.setWidth 2))
  | 0xA9 => .check (f.fn != 0 || f.noTy)
      (f.mJunk || f.dstBad || f.num1 0 || f.num2 0 || f.num3 0 || f.sat || f.imm != 0) (.mstat f.ctl f.dst)
  | 0xAA => .check (above f.fn 1 || f.noTy)
      (f.mJunk || f.numD 0 || f.num1 0 || f.mscaleBad (f.fn == 0) || f.num3 0 || f.sat)
      (.msync f.ctl (f.mscale (f.fn == 0)))
  | 0xF0 => .check (above f.fn 1 || f.noTy)
      (f.rsv || f.predBad || noF || f.numD 0 || f.num1 (if f.fn = 1 then 3 else 0) || f.num2 0 || f.num3 0 || f.sat)
      (.loop (if f.fn = 1 then some (f.src1.setWidth 2) else none) f.imm)
  | 0xF1 => .check (f.fn != 0 || f.noTy)
      (f.rsv || f.predBad || noF || f.numD 0 || f.num1 0 || f.num2 0 || f.num3 0 || f.sat || f.imm != 0) .endloop
  | 0xF2 => .check (above f.fn 1 || f.noTy || (f.fn == 0 && st != .v && st != .h))
      (f.rsv || f.predBad || noF || f.numD 0 || f.num1 (if f.fn = 1 then 3 else 0) || f.num2 0 || f.num3 0 || f.sat ||
        f.imm == 0 || above f.imm 4095)
      (if f.fn = 1 then .skipz (f.src1.setWidth 2) (f.imm.setWidth 12) else .skipzMask (f.imm.setWidth 12))
  | 0xF3 => .check (f.fn != 0 || f.noTy)
      (f.rsv || f.predBad || f.numD 0 || f.num1 0 || f.num2 0 || f.num3 0 || f.sat || f.imm != 0) (.nopStream f.ctl)
  | 0xF4 => .check (f.fn != 0 || f.noTy)
      (f.rsv || f.predBad || f.numD 0 || f.num1 3 || f.num2 0 || f.num3 0 || f.sat || f.imm != 0)
      (.rdv f.ctl (f.src1.setWidth 2))
  | _ => .illegal

/-- The streams in which an opcode is accepted (Table 2.10, R24). -/
def acceptedIn (op : Nat) (st : Stream) : Bool :=
  if op ≤ 0x3F then st == .h
  else if op ≤ 0x4F then st == .l
  else if op ≤ 0x5F then st == .s
  else if op ≤ 0x9F then st == .v
  else if op ≤ 0xAF then st == .m
  else if op = 0xC0 ∨ op = 0xC8 then true
  else if op ≤ 0xEF then st == .h
  else st != .h

/-- Decode one word in a stream: steps 2, 3 and 4 of Table 2.14, in that order. -/
def decodeWord (st : Stream) (w : Word96) : Parse :=
  let op := (w.extractLsb' 88 8).toNat
  let p :=
    if op < 0x40 then parseH (FmtH.ofWord w)
    else if 0xB0 ≤ op ∧ op ≤ 0xEF then parseC (st == .h) (FmtC.ofWord w)
    else parseA st (FmtA.ofWord w)
  match p with
  | .illegal => .illegal
  | q => if acceptedIn op st then q else .mismatch

/-- The stream that owns an opcode; commands shared by every stream are read as the Helm's, the mask form of SKIPZ as V's. -/
def ownerOf (w : Word96) : Stream :=
  let op := (w.extractLsb' 88 8).toNat
  if op ≤ 0x3F then .h
  else if op ≤ 0x4F then .l
  else if op ≤ 0x5F then .s
  else if op ≤ 0x9F then .v
  else if op ≤ 0xAF then .m
  else if op ≤ 0xEF then .h
  else if op = 0xF2 ∧ w.extractLsb' 83 5 = 0 then .v
  else .l

/-- The instruction that a table word decodes to, in the stream that owns it. -/
def decodeTableWord (_nbits w : Nat) : Option Instr :=
  let x := BitVec.ofNat 96 w
  match decodeWord (ownerOf x) x with
  | .ok i => some i
  | _ => none

/-- A section header or a stream-end header (Tables 2.1, 2.2). -/
inductive Header where
  | sect (len : Nat) (bk : Bool) (offs : List (BitVec 8))
  | endHdr (rep : Nat)
  | illegal | reserved
  deriving DecidableEq, Repr

/-- Read a header of a stream (R37, R39); in H the length is ignored and a stream end has no form (R35). -/
def decodeHeader (helm : Bool) (w : BitVec 64) : Header :=
  let kind := w.extractLsb' 60 4
  let n := (w.extractLsb' 48 12).toNat
  if kind = 0xA then
    if w.extractLsb' 41 7 != 0 || w.extractLsb' 0 8 != 0 || (n == 0 && !helm) then .reserved
    else .sect n (w.getLsbD 40) [w.extractLsb' 32 8, w.extractLsb' 24 8, w.extractLsb' 16 8, w.extractLsb' 8 8]
  else if kind = 0xB ∧ helm = false then (if w.extractLsb' 0 48 = 0 then .endHdr n else .reserved)
  else .illegal

/-- A 3-granule item of H that is a section header behind its pad granule (R35). -/
def isHelmHeader (w : Word96) : Bool := w.extractLsb' 92 4 == 0xA && w.extractLsb' 0 32 == 0

/-- A word that stands alone in its group (R44, R178). -/
def Instr.alone : Instr → Bool
  | .loop _ _ | .endloop | .skipz _ _ | .skipzMask _ | .swait _ _ | .tlwait _ _ => true
  | _ => false

/-- A word whose result a later word may name by latch (R45, R250). -/
def hasResult (w : Word96) : Bool :=
  let op := (w.extractLsb' 88 8).toNat
  (0x41 ≤ op && op ≤ 0x43) || (0x60 ≤ op && op ≤ 0x8F) || op == 0xA5 || op == 0xA9

/-- The latch numbers that a format A word names, in source order. -/
def latchesOf (w : Word96) : List Nat :=
  let f := FmtA.ofWord w
  let op := f.op.toNat
  if 0xB0 ≤ op ∧ op ≤ 0xEF then []
  else (if f.ls1 then [f.src1.toNat] else []) ++ (if f.ls2 then [f.src2.toNat] else []) ++
    (if f.ls3 then [f.src3.toNat] else [])

/-- The group-end bit; a format C word is a group of one (R43, R44). -/
def endsGroup (w : Word96) : Bool :=
  let op := (w.extractLsb' 88 8).toNat
  if 0xB0 ≤ op ∧ op ≤ 0xEF then true else w.getLsbD 82

/-! The encoder. -/

def VSrc.ls : VSrc → Bool
  | .lat _ => true
  | _ => false
def VSrc.keep : VSrc → Bool
  | .q _ k => k
  | .sr _ k => k
  | .lat _ => false
def VSrc.reg : VSrc → BitVec 7
  | .q v _ => v.setWidth 7
  | .sr n _ => 64 + n.setWidth 7
  | .lat j => j.setWidth 7
def VDst.n : VDst → Bool
  | .nul => true
  | .q _ _ => false
def VDst.e : VDst → Bool
  | .nul => false
  | .q _ s => s
def VDst.reg : VDst → BitVec 7
  | .nul => 0
  | .q v _ => v.setWidth 7
def VOpd.sfrm : VOpd → BitVec 2
  | .vec _ => 0
  | .imm _ => 1
  | .oq _ _ => 2
def VOpd.ls : VOpd → Bool
  | .vec s => s.ls
  | _ => false
def VOpd.keep : VOpd → Bool
  | .vec s => s.keep
  | .imm _ => false
  | .oq _ k => k
def VOpd.reg : VOpd → BitVec 7
  | .vec s => s.reg
  | .imm _ => 0
  | .oq q _ => q.setWidth 7
def VOpd.immBits : VOpd → BitVec 30
  | .imm i => i
  | _ => 0

def Ty.bits (t : Ty) : BitVec 4 := BitVec.ofNat 4 t.code
def Rnd.bits (r : Rnd) : BitVec 2 := BitVec.ofNat 2 r.code

/-- A format A word with its group and issue control. -/
def aWord (op : BitVec 8) (c : Ctl) : FmtA := { op := op, g := c.g, f := c.f, l := c.l }

def FmtA.withPred (f : FmtA) (p : PSel) : FmtA := { f with pred := p.k, neg := p.neg }
def FmtA.withDst (f : FmtA) (d : VDst) : FmtA := { f with n := d.n, e := d.e, dest := d.reg }
def FmtA.withS1 (f : FmtA) (s : VSrc) : FmtA := { f with ls1 := s.ls, k1 := s.keep, src1 := s.reg }
def FmtA.withS2 (f : FmtA) (s : VSrc) : FmtA := { f with ls2 := s.ls, k2 := s.keep, src2 := s.reg }
def FmtA.withS3 (f : FmtA) (s : VSrc) : FmtA := { f with ls3 := s.ls, k3 := s.keep, src3 := s.reg }
def FmtA.withOpd (f : FmtA) (b : VOpd) (low : BitVec 3) : FmtA :=
  { f with fn := b.sfrm ++ low, ls2 := b.ls, k2 := b.keep, src2 := b.reg, imm := b.immBits }
def FmtA.withMem (f : FmtA) (m : AMem) : FmtA :=
  { f with src1 := m.h.setWidth 7, imm := BitVec.ofBool m.race ++ BitVec.ofBool m.idx.isSome ++ m.idx.getD 0 ++ m.off }

/-- The position bits [19:7] of imm (Table 9.4). -/
def MPos.bits (p : MPos) : BitVec 13 := p.acc ++ BitVec.ofBool p.pos.isSome ++ p.pos.getD 0

def encBin (op : BitVec 8) (w : VBin) : Word96 :=
  FmtA.toWord { (((((aWord op w.ctl).withPred w.pred).withDst w.dst).withS1 w.a).withOpd w.b 0) with
    ty := Ty.bits w.ty, rnd := Rnd.bits w.rnd, sat := w.sat }

def encTri (op : BitVec 8) (w : VBin) (c : VSrc) : Word96 :=
  FmtA.toWord { ((((((aWord op w.ctl).withPred w.pred).withDst w.dst).withS1 w.a).withOpd w.b 0).withS3 c) with
    ty := Ty.bits w.ty, rnd := Rnd.bits w.rnd, sat := w.sat }

def encUn (op : BitVec 8) (w : VUn) : Word96 :=
  FmtA.toWord { ((((aWord op w.ctl).withPred w.pred).withDst w.dst).withS1 w.a) with
    ty := Ty.bits w.ty, rnd := Rnd.bits w.rnd, sat := w.sat }

/-- A predicated word of one type, source 1 and destination. -/
def encMove (op : BitVec 8) (c : Ctl) (p : PSel) (d : VDst) (a : VSrc) (t : Ty) : FmtA :=
  { ((((aWord op c).withPred p).withDst d).withS1 a) with ty := Ty.bits t }

def encK (op : BitVec 8) (c : Ctl) (inv : Bool) (kd ka kb : KReg) : Word96 :=
  FmtA.toWord { aWord op c with
    fn := if inv then 1 else 0, dest := kd.setWidth 7, src1 := ka.setWidth 7,
    src2 := kb.setWidth 7 }

def encTile (op : BitVec 8) (c : Ctl) (t : TReg) : Word96 := FmtA.toWord { aWord op c with dest := t.setWidth 7 }

def encPad (op : BitVec 8) (c : Ctl) : PadOp → Word96
  | .col q => FmtA.toWord { aWord op c with src1 := q.setWidth 7 }
  | .row q => FmtA.toWord { aWord op c with fn := 1, src1 := q.setWidth 7 }
  | .reset => FmtA.toWord { aWord op c with fn := 2 }

def encRRR (op : BitVec 8) (c : CReg) (xd xa xb : XReg) : Word96 :=
  FmtH.toWord { op := op, xd := xd, xa := xa, xb := xb, cond := c }

def encRRI (op : BitVec 8) (c : CReg) (xd xa : XReg) (imm : BitVec 48) : Word96 :=
  FmtH.toWord { op := op, xd := xd, xa := xa, imm := imm, cond := c }

def encShift (op : BitVec 8) (c : CReg) (xd xa : XReg) : ShAmt → Word96
  | .reg xb => encRRR op c xd xa xb
  | .imm n => FmtH.toWord { op := op, fn := 1, xd := xd, xa := xa, imm := n.setWidth 48, cond := c }

def encImm (op : BitVec 8) (c : CReg) (imm : BitVec 48) : Word96 := FmtH.toWord { op := op, imm := imm, cond := c }

/-- Table 8.3. -/
def complBits (k : Compl) (kp : Bool) : BitVec 32 :=
  (0 : BitVec 13) ++ BitVec.ofBool kp ++ BitVec.ofBool k.se ++ BitVec.ofBool k.we ++ k.ss ++ k.ws

/-- Barrier mode in fn[1:0] below the upper bits of fn. -/
def barFn (hi : BitVec 4) (b : BarCnt) : BitVec 6 := hi ++ BitVec.ofNat 2 b.mode.code

def sigBits : Option (BitVec 8) → BitVec 15
  | none => 0
  | some n => (1 : BitVec 7) ++ n

def encAmoFn (op : AmoOp) (w : AmoWidth) : BitVec 6 := BitVec.ofNat 2 w.code ++ BitVec.ofNat 4 op.code

def encSem (op : BitVec 8) (arg : SemArg) (die : BitVec 4) : Word96 :=
  match arg with
  | .imm n k => FmtC.toWord { op := op, queue := die, imm := (0 : BitVec 8) ++ k ++ n }
  | .reg xa xb => FmtC.toWord { op := op, queue := die, aux := 1, xa := xa, xb := xb }

/-- The word of an instruction; events have none. -/
def encode : Instr → Option Word96
  | .add c d a b => some (encRRR 0x01 c d a b)
  | .addi c d a i => some (encRRI 0x02 c d a i)
  | .sub c d a b => some (encRRR 0x03 c d a b)
  | .mul c d a b => some (encRRR 0x04 c d a b)
  | .mulh c d a b => some (encRRR 0x05 c d a b)
  | .mulhn c d a b => some (encRRR 0x06 c d a b)
  | .div c d a b => some (encRRR 0x07 c d a b)
  | .divn c d a b => some (encRRR 0x08 c d a b)
  | .rem c d a b => some (encRRR 0x09 c d a b)
  | .remn c d a b => some (encRRR 0x0A c d a b)
  | .and c d a b => some (encRRR 0x0B c d a b)
  | .andi c d a i => some (encRRI 0x0C c d a i)
  | .or c d a b => some (encRRR 0x0D c d a b)
  | .ori c d a i => some (encRRI 0x0E c d a i)
  | .xor c d a b => some (encRRR 0x0F c d a b)
  | .xori c d a i => some (encRRI 0x10 c d a i)
  | .shl c d a n => some (encShift 0x11 c d a n)
  | .shr c d a n => some (encShift 0x12 c d a n)
  | .sra c d a n => some (encShift 0x13 c d a n)
  | .min c nat d a b => some (FmtH.toWord { op := 0x14, fn := if nat then 1 else 0, xd := d, xa := a, xb := b, cond := c })
  | .max c nat d a b => some (FmtH.toWord { op := 0x15, fn := if nat then 1 else 0, xd := d, xa := a, xb := b, cond := c })
  | .clz c d a => some (FmtH.toWord { op := 0x16, xd := d, xa := a, cond := c })
  | .movi c d i => some (FmtH.toWord { op := 0x17, xd := d, imm := i, cond := c })
  | .cmp c r d a b =>
    some (FmtH.toWord { op := 0x18, fn := BitVec.ofNat 6 r.code, xd := d.setWidth 6, xa := a, xb := b, cond := c })
  | .cmpi c r d a i =>
    some (FmtH.toWord { op := 0x19, fn := BitVec.ofNat 6 r.code, xd := d.setWidth 6, xa := a, imm := i, cond := c })
  | .ccomb c o d a b =>
    some (FmtH.toWord {
      op := 0x1A, fn := BitVec.ofNat 6 o.code, xd := d.setWidth 6, xa := a.setWidth 6,
      xb := b.setWidth 6, cond := c })
  | .slate c b i => some (FmtH.toWord { op := 0x1B, slate := b, imm := i, cond := c })
  | .slatex c b a => some (FmtH.toWord { op := 0x1C, slate := b, xa := a, cond := c })
  | .cut c b => some (FmtH.toWord { op := 0x1D, slate := b, cond := c })
  | .cutl c b l => some (FmtH.toWord { op := 0x1E, slate := b, xd := l.setWidth 6, cond := c })
  | .bsel c b d a i => some (FmtH.toWord { op := 0x1F, slate := b, xd := d, xa := a, imm := i, cond := c })
  | .slinv c b => some (FmtH.toWord { op := 0x20, slate := b, cond := c })
  | .slinvAll c => some (FmtH.toWord { op := 0x20, fn := 1, cond := c })
  | .ld c w race acq d h a i =>
    some (FmtH.toWord {
      op := 0x21, xd := d, xa := a, hdl := h, width := BitVec.ofNat 2 w.code, race := race, acq := acq,
      imm := i, cond := c })
  | .st c w race rel h a i b =>
    some (FmtH.toWord {
      op := 0x22, xb := b, xa := a, hdl := h, width := BitVec.ofNat 2 w.code, race := race, rel := rel,
      imm := i, cond := c })
  | .hld c race acq d m a i =>
    some (FmtH.toWord { op := 0x23, xd := d.setWidth 6, xa := a, hdl := m, race := race, acq := acq, imm := i, cond := c })
  | .hst c race rel m a i s =>
    some (FmtH.toWord { op := 0x24, xb := s.setWidth 6, xa := a, hdl := m, race := race, rel := rel, imm := i, cond := c })
  | .hnarrow c d s a b m none =>
    some (FmtH.toWord { op := 0x25, xd := d.setWidth 6, xa := a, xb := b, hdl := s, imm := m.setWidth 48, cond := c })
  | .hnarrow c d s a b m (some sh) =>
    some (FmtH.toWord {
      op := 0x25, fn := 1, xd := d.setWidth 6, xa := a, xb := b, hdl := s,
      imm := (0 : BitVec 13) ++ sh ++ m, cond := c })
  | .hmov c d s => some (FmtH.toWord { op := 0x26, xd := d.setWidth 6, hdl := s, cond := c })
  | .hget c sel d s => some (FmtH.toWord { op := 0x27, fn := BitVec.ofNat 6 sel.code, xd := d, hdl := s, cond := c })
  | .hclr c d => some (FmtH.toWord { op := 0x28, hdl := d, cond := c })
  | .hchk c d s a b r =>
    some (FmtH.toWord { op := 0x29, xd := d.setWidth 6, xa := a, xb := b, hdl := s, imm := r.setWidth 48, cond := c })
  | .fork c i => some (encImm 0x2A c i)
  | .join c => some (encImm 0x2B c 0)
  | .joinAbandon c => some (encImm 0x2B c 1)
  | .qmap c i => some (encImm 0x2C c i)
  | .oqsend c st q a => some (FmtH.toWord { op := 0x2D, fn := (0 : BitVec 2) ++ st ++ q, xa := a, cond := c })
  | .halt c => some (encImm 0x2E c 0)
  | .trap c v => some (encImm 0x2F c v)
  | .tret c => some (encImm 0x30 c 0)
  | .csrr c d sel => some (FmtH.toWord { op := 0x31, xd := d, imm := sel.setWidth 48, cond := c })
  | .csrw c sel a => some (FmtH.toWord { op := 0x32, xa := a, imm := sel.setWidth 48, cond := c })
  | .brk c v => some (encImm 0x33 c v)
  | .waiti c a => some (FmtH.toWord { op := 0x34, xa := a, cond := c })
  | .nop c => some (encImm 0x35 c 0)
  | .tld c m p t mem =>
    some (FmtA.toWord (FmtA.withMem { aWord 0x40 c with fn := (0 : BitVec 2) ++ BitVec.ofBool p ++ m, dest := t.setWidth 7 } mem))
  | .vld c n d mem ty =>
    some (FmtA.toWord { (FmtA.withMem ((aWord 0x41 c).withDst d) mem) with fn := n.setWidth 5, ty := Ty.bits ty })
  | .vlds c d mem sq ty =>
    some (FmtA.toWord { (FmtA.withMem ((aWord 0x42 c).withDst d) mem) with src2 := sq.setWidth 7, ty := Ty.bits ty })
  | .vgather c d mem ix ty =>
    some (FmtA.toWord { ((FmtA.withMem ((aWord 0x43 c).withDst d) mem).withS3 ix) with ty := Ty.bits ty })
  | .tfullL c t => some (encTile 0x44 c t)
  | .temptyL c t => some (encTile 0x45 c t)
  | .padapplyL c o => some (encPad 0x46 c o)
  | .tst c m p k t mem =>
    some (FmtA.toWord (FmtA.withMem { aWord 0x50 c with
      fn := (0 : BitVec 1) ++ BitVec.ofBool k ++ BitVec.ofBool p ++ m, src2 := t.setWidth 7 } mem))
  | .vst c n mem s ty =>
    some (FmtA.toWord { ((FmtA.withMem (aWord 0x51 c) mem).withS2 s) with fn := n.setWidth 5, ty := Ty.bits ty })
  | .vsts c mem s sq ty =>
    some (FmtA.toWord { ((FmtA.withMem (aWord 0x52 c) mem).withS2 s) with src3 := sq.setWidth 7, ty := Ty.bits ty })
  | .vscatter c mem s ix ty =>
    some (FmtA.toWord { (((FmtA.withMem (aWord 0x53 c) mem).withS2 s).withS3 ix) with ty := Ty.bits ty })
  | .tfullS c t => some (encTile 0x54 c t)
  | .temptyS c t => some (encTile 0x55 c t)
  | .padapplyS c o => some (encPad 0x56 c o)
  | .vadd w => some (encBin 0x60 w)
  | .vsub w => some (encBin 0x61 w)
  | .vmul w => some (encBin 0x62 w)
  | .vfma w c => some (encTri 0x63 w c)
  | .vfms w c => some (encTri 0x64 w c)
  | .vdiv w => some (encBin 0x65 w)
  | .vsqrt w => some (encUn 0x66 w)
  | .vrsq w => some (encUn 0x67 w)
  | .vrcp w => some (encUn 0x68 w)
  | .vmin w => some (encBin 0x69 w)
  | .vmax w => some (encBin 0x6A w)
  | .vabs w => some (encUn 0x6B w)
  | .vneg w => some (encUn 0x6C w)
  | .vexp2 w => some (encUn 0x6D w)
  | .vlog2 w => some (encUn 0x6E w)
  | .viadd w => some (encBin 0x6F w)
  | .visub w => some (encBin 0x70 w)
  | .vimul w => some (encBin 0x71 w)
  | .vimulh w => some (encBin 0x72 w)
  | .vand w => some (encBin 0x73 w)
  | .vor w => some (encBin 0x74 w)
  | .vxor w => some (encBin 0x75 w)
  | .vshl w => some (encBin 0x76 w)
  | .vshr w => some (encBin 0x77 w)
  | .vsra w => some (encBin 0x78 w)
  | .vimin w => some (encBin 0x79 w)
  | .vimax w => some (encBin 0x7A w)
  | .vcmp c p kd a b ty r =>
    some (FmtA.toWord { ((((aWord 0x7B c).withPred p).withS1 a).withOpd b (BitVec.ofNat 3 r.code)) with
      n := kd.isNone, dest := (kd.getD 0).setWidth 7, ty := Ty.bits ty })
  | .vsel w ks =>
    some (FmtA.toWord { (((((aWord 0x7C w.ctl).withPred w.pred).withDst w.dst).withS1 w.a).withOpd w.b 0) with
      src3 := ks.setWidth 7, ty := Ty.bits w.ty, rnd := Rnd.bits w.rnd, sat := w.sat })
  | .vcvt c p d a dty sty rnd sat part =>
    some (FmtA.toWord { encMove 0x7D c p d a dty with
      fn := part.setWidth 5, rnd := Rnd.bits rnd, sat := sat, imm := (Ty.bits sty).setWidth 30 })
  | .vscale w => some (encBin 0x7E w)
  | .vmov c p d b ty =>
    some (FmtA.toWord { ((((aWord 0x7F c).withPred p).withDst d).withOpd b 0) with ty := Ty.bits ty })
  | .vperm c p d a ix ty => some (FmtA.toWord ((encMove 0x80 c p d a ty).withS2 ix))
  | .vslide c p d a b ty n => some (FmtA.toWord { (encMove 0x81 c p d a ty).withS2 b with imm := n.setWidth 30 })
  | .vcompress c p d a ty => some (FmtA.toWord (encMove 0x82 c p d a ty))
  | .vexpand c p d a ty => some (FmtA.toWord (encMove 0x83 c p d a ty))
  | .vbcast c p d a ty j => some (FmtA.toWord { encMove 0x84 c p d a ty with imm := j.setWidth 30 })
  | .vindex c p d (.imm b) step ty sat =>
    some (FmtA.toWord { (((aWord 0x85 c).withPred p).withDst d) with
      fn := 8, ty := Ty.bits ty, sat := sat, imm := b ++ step })
  | .vindex c p d (.oq q k) step ty sat =>
    some (FmtA.toWord { (((aWord 0x85 c).withPred p).withDst d) with
      fn := 16, k2 := k, src2 := q.setWidth 7, ty := Ty.bits ty, sat := sat, imm := step.setWidth 30 })
  | .vredsum w => some (encUn 0x86 w)
  | .vredmax w => some (encUn 0x87 w)
  | .vredmin w => some (encUn 0x88 w)
  | .vscansum w => some (encUn 0x89 w)
  | .vscanmax w => some (encUn 0x8A w)
  | .kand c inv d a b => some (encK 0x8B c inv d a b)
  | .kor c inv d a b => some (encK 0x8C c inv d a b)
  | .kxor c inv d a b => some (encK 0x8D c inv d a b)
  | .kset c d (.imm n) ty =>
    some (FmtA.toWord { aWord 0x8E c with fn := 8, dest := d.setWidth 7, ty := Ty.bits ty, imm := n.setWidth 30 })
  | .kset c d (.oq q k) ty =>
    some (FmtA.toWord { aWord 0x8E c with
      fn := 16, dest := d.setWidth 7, ty := Ty.bits ty, k2 := k, src2 := q.setWidth 7 })
  | .kcount c d ka ty => some (FmtA.toWord { (aWord 0x8F c).withDst d with src1 := ka.setWidth 7, ty := Ty.bits ty })
  | .mpush c ka => some (FmtA.toWord { aWord 0x90 c with src1 := ka.setWidth 7 })
  | .minv c => some (FmtA.toWord (aWord 0x91 c))
  | .mpop c => some (FmtA.toWord (aWord 0x92 c))
  | .mldw c kp ws t (.imm i) =>
    some (FmtA.toWord { aWord 0xA0 c with
      fn := (1 : BitVec 2) ++ (0 : BitVec 1) ++ BitVec.ofBool kp ++ BitVec.ofBool ws, src1 := t.setWidth 7, imm := i })
  | .mldw c kp ws t (.oq q) =>
    some (FmtA.toWord { aWord 0xA0 c with
      fn := (2 : BitVec 2) ++ (0 : BitVec 1) ++ BitVec.ofBool kp ++ BitVec.ofBool ws, src1 := t.setWidth 7,
      src2 := q.setWidth 7 })
  | .mlds c ws (.imm i) => some (FmtA.toWord { aWord 0xA1 c with fn := (4 : BitVec 4) ++ BitVec.ofBool ws, imm := i })
  | .mlds c ws (.oq q) =>
    some (FmtA.toWord { aWord 0xA1 c with fn := (8 : BitVec 4) ++ BitVec.ofBool ws, src2 := q.setWidth 7 })
  | .mma c cons row0 t sq n1 fent ws cbm p =>
    some (FmtA.toWord { aWord 0xA2 c with
      fn := if cons then 1 else 0, dest := row0, src1 := t.setWidth 7, src2 := sq.setWidth 7, src3 := n1,
      imm := BitVec.ofBool fent.isSome ++ fent.getD 0 ++ BitVec.ofBool ws ++ cbm ++ p.bits ++ (0 : BitVec 7) })
  | .mmag c n1 h sq ix fent ws cbm p race =>
    some (FmtA.toWord { (aWord 0xA3 c).withS3 ix with
      dest := n1, src1 := h.setWidth 7, src2 := sq.setWidth 7,
      imm := BitVec.ofBool fent.isSome ++ fent.getD 0 ++ BitVec.ofBool ws ++ cbm ++ p.bits ++ BitVec.ofBool race ++
        (0 : BitVec 6) })
  | .mzero c n1 cbm p =>
    some (FmtA.toWord { aWord 0xA4 c with dest := n1, imm := (0 : BitVec 6) ++ cbm ++ p.bits ++ (0 : BitVec 7) })
  | .mrd c d ty rnd sat p =>
    some (FmtA.toWord { (aWord 0xA5 c).withDst d with
      ty := Ty.bits ty, rnd := Rnd.bits rnd, sat := sat, imm := (0 : BitVec 10) ++ p.bits ++ (0 : BitVec 7) })
  | .mwr c s ty cbm p =>
    some (FmtA.toWord { (aWord 0xA6 c).withS1 s with
      ty := Ty.bits ty, imm := (0 : BitVec 6) ++ cbm ++ p.bits ++ (0 : BitVec 7) })
  | .mfmt c fixed arg => some (FmtA.toWord { aWord 0xA7 c with fn := if fixed then 1 else 0, imm := arg.setWidth 30 })
  | .mbud c cls => some (FmtA.toWord { aWord 0xA8 c with imm := cls.setWidth 30 })
  | .mstat c d => some (FmtA.toWord ((aWord 0xA9 c).withDst d))
  | .msync c (.imm n) => some (FmtA.toWord { aWord 0xAA c with imm := n })
  | .msync c (.oq q) => some (FmtA.toWord { aWord 0xAA c with fn := 1, src2 := q.setWidth 7 })
  | .loop none i => some (FmtA.toWord { op := 0xF0, g := true, imm := i })
  | .loop (some q) i => some (FmtA.toWord { op := 0xF0, g := true, fn := 1, src1 := q.setWidth 7, imm := i })
  | .endloop => some (FmtA.toWord { op := 0xF1, g := true })
  | .skipz q n => some (FmtA.toWord { op := 0xF2, g := true, fn := 1, src1 := q.setWidth 7, imm := n.setWidth 30 })
  | .skipzMask n => some (FmtA.toWord { op := 0xF2, g := true, imm := n.setWidth 30 })
  | .nopStream c => some (FmtA.toWord (aWord 0xF3 c))
  | .rdv c q => some (FmtA.toWord { aWord 0xF4 c with src1 := q.setWidth 7 })
  | .cpy q b race ha hb xa xb xc k =>
    some (FmtC.toWord {
      op := 0xB0, fn := barFn ((0 : BitVec 3) ++ BitVec.ofBool race) b, ha := ha, hb := hb, xa := xa,
      xb := xb, xc := xc, queue := q.setWidth 4, aux := b.unit, imm := complBits k false })
  | .cpyt q b race x16 ha hb xa xb xc k =>
    some (FmtC.toWord {
      op := 0xB1, fn := barFn ((0 : BitVec 2) ++ BitVec.ofBool x16 ++ BitVec.ofBool race) b, ha := ha,
      hb := hb, xa := xa, xb := xb, xc := xc, queue := q.setWidth 4, aux := b.unit, imm := complBits k false })
  | .cpymIn q b race mode ha t xa xb xc k =>
    some (FmtC.toWord {
      op := 0xB2, fn := barFn ((0 : BitVec 1) ++ mode ++ BitVec.ofBool race) b, ha := ha,
      hb := t.setWidth 5, xa := xa, xb := xb, xc := xc, queue := q.setWidth 4, aux := b.unit, imm := complBits k false })
  | .cpymOut q b race mode ha t xa xb xc kp k =>
    some (FmtC.toWord {
      op := 0xB2, fn := barFn ((1 : BitVec 1) ++ mode ++ BitVec.ofBool race) b, ha := ha,
      hb := t.setWidth 5, xa := xa, xb := xb, xc := xc, queue := q.setWidth 4, aux := b.unit, imm := complBits k kp })
  | .cchain q ha xa k =>
    some (FmtC.toWord { op := 0xB3, ha := ha, xa := xa, queue := q.setWidth 4, imm := complBits k false })
  | .qpush q xa cd => some (FmtC.toWord { op := 0xB4, xa := xa, queue := q.setWidth 4, aux := cd.setWidth 15 })
  | .strbind q b race sn ha xa xc k =>
    some (FmtC.toWord {
      op := 0xB5, fn := barFn (sn ++ BitVec.ofBool race) b, ha := ha, xa := xa, xc := xc,
      queue := q.setWidth 4, aux := b.unit, imm := complBits k false })
  | .cfill q b race hb xa xb xc k =>
    some (FmtC.toWord {
      op := 0xB6, fn := barFn ((0 : BitVec 3) ++ BitVec.ofBool race) b, hb := hb, xa := xa, xb := xb,
      xc := xc, queue := q.setWidth 4, aux := b.unit, imm := complBits k false })
  | .cstat q xa xc sel =>
    some (FmtC.toWord { op := 0xB7, xa := xa, xc := xc, queue := q.setWidth 4, aux := sel.setWidth 15 })
  | .ccancel q xc => some (FmtC.toWord { op := 0xB7, fn := 1, xc := xc, queue := q.setWidth 4 })
  | .ctlread q xc sel =>
    some (FmtC.toWord { op := 0xB7, fn := 2, xc := xc, queue := q.setWidth 4, aux := if sel then 1 else 0 })
  | .swait arg die => some (encSem 0xC0 arg die)
  | .ssig arg die => some (encSem 0xC1 arg die)
  | .sset n xb xc die => some (FmtC.toWord { op := 0xC2, xb := xb, xc := xc, queue := die, imm := n.setWidth 32 })
  | .barrArrive h xa xc i => some (FmtC.toWord { op := 0xC3, ha := h, xa := xa, xc := xc, imm := i })
  | .barrWait h xa xc i => some (FmtC.toWord { op := 0xC3, fn := 1, ha := h, xa := xa, xc := xc, imm := i })
  | .barrInit h xa xb xc i => some (FmtC.toWord { op := 0xC3, fn := 2, ha := h, xa := xa, xb := xb, xc := xc, imm := i })
  | .barrReset h xa xc i => some (FmtC.toWord { op := 0xC3, fn := 3, ha := h, xa := xa, xc := xc, imm := i })
  | .bwait h xa xb xc i => some (FmtC.toWord { op := 0xC4, ha := h, xa := xa, xb := xb, xc := xc, imm := i })
  | .amo op w acq rel h xa xb xc i =>
    some (FmtC.toWord {
      op := 0xC5, fn := encAmoFn op w, ha := h, xa := xa, xb := xb, xc := xc,
      aux := (0 : BitVec 13) ++ BitVec.ofBool rel ++ BitVec.ofBool acq, imm := i })
  | .vamo op w acq rel ret ha hb xa xb xc =>
    some (FmtC.toWord {
      op := 0xC6, fn := encAmoFn op w, ha := ha, hb := hb, xa := xa, xb := xb, xc := xc,
      aux := (0 : BitVec 12) ++ BitVec.ofBool ret ++ BitVec.ofBool rel ++ BitVec.ofBool acq })
  | .fence sc => some (FmtC.toWord { op := 0xC7, scope := sc })
  | .fenceTranslation sc xa xb => some (FmtC.toWord { op := 0xC7, fn := 1, scope := sc, xa := xa, xb := xb })
  | .tlwait ctx (.h xa xc) => some (FmtC.toWord { op := 0xC8, xa := xa, xc := xc, queue := ctx })
  | .tlwait ctx (.oq q) => some (FmtC.toWord { op := 0xC8, xa := q.setWidth 6, queue := ctx })
  | .flwait r h xa xb xc i =>
    some (FmtC.toWord { op := 0xC9, fn := BitVec.ofNat 6 r.code, ha := h, xa := xa, xb := xb, xc := xc, imm := i })
  | .heapalloc xa xc => some (FmtC.toWord { op := 0xCA, xa := xa, xc := xc })
  | .heapfree xa => some (FmtC.toWord { op := 0xCB, xa := xa })
  | .spawn h xa xc cy i =>
    some (FmtC.toWord { op := 0xD0, ha := h, xa := xa, xc := xc, aux := cy.setWidth 15, imm := i })
  | .fref xa => some (FmtC.toWord { op := 0xD1, xa := xa })
  | .fdrop xa => some (FmtC.toWord { op := 0xD2, xa := xa })
  | .fget d xa xc => some (FmtC.toWord { op := 0xD3, fn := if d then 1 else 0, xa := xa, xc := xc })
  | .fdone xa => some (FmtC.toWord { op := 0xD4, xa := xa })
  | .rpoint => some (FmtC.toWord { op := 0xD5 })
  | .tlaunch h xa xc cy i =>
    some (FmtC.toWord { op := 0xD6, ha := h, xa := xa, xc := xc, aux := cy.setWidth 15, imm := i })
  | .tarm h xa xb i => some (FmtC.toWord { op := 0xD7, ha := h, xa := xa, xb := xb, imm := i })
  | .tcancel xa xc => some (FmtC.toWord { op := 0xD8, xa := xa, xc := xc })
  | .requeue xa xb xc => some (FmtC.toWord { op := 0xD9, xa := xa, xb := xb, xc := xc })
  | .yield xa => some (FmtC.toWord { op := 0xDA, xa := xa })
  | .gpos xc => some (FmtC.toWord { op := 0xDB, xc := xc })
  | .gang xa xc => some (FmtC.toWord { op := 0xDC, xa := xa, xc := xc })
  | .tstat sel xa xc => some (FmtC.toWord { op := 0xDD, fn := sel.setWidth 6, xa := xa, xc := xc })
  | .rmst ha hb xa xb xc sig i =>
    some (FmtC.toWord { op := 0xE0, ha := ha, hb := hb, xa := xa, xb := xb, xc := xc, aux := sigBits sig, imm := i })
  | .rmld ha hb xa xb xc sig =>
    some (FmtC.toWord { op := 0xE1, ha := ha, hb := hb, xa := xa, xb := xb, xc := xc, aux := sigBits sig })
  | .rmamo op w ha hb xa xb xc sig i =>
    some (FmtC.toWord {
      op := 0xE2, fn := encAmoFn op w, ha := ha, hb := hb, xa := xa, xb := xb, xc := xc,
      aux := sigBits sig, imm := i })
  | .mcst ha hb xa xb xc sig i =>
    some (FmtC.toWord { op := 0xE3, ha := ha, hb := hb, xa := xa, xb := xb, xc := xc, aux := sigBits sig, imm := i })
  | .mcld op w ha hb xa xb xc sig =>
    some (FmtC.toWord {
      op := 0xE4, fn := encAmoFn op w, ha := ha, hb := hb, xa := xa, xb := xb, xc := xc,
      aux := sigBits sig })
  | .spred fadd det ha hb xa xb xc sig i =>
    some (FmtC.toWord {
      op := 0xE5, fn := (0 : BitVec 4) ++ BitVec.ofBool det ++ BitVec.ofBool fadd, ha := ha, hb := hb,
      xa := xa, xb := xb, xc := xc, aux := sigBits sig, imm := i })
  | .rfence xc => some (FmtC.toWord { op := 0xE6, xc := xc })
  | .gjoin ha xa xb xc => some (FmtC.toWord { op := 0xE7, ha := ha, xa := xa, xb := xb, xc := xc })
  | .gleave xb => some (FmtC.toWord { op := 0xE7, fn := 1, xb := xb })
  | .linkst xa xc sel => some (FmtC.toWord { op := 0xE7, fn := 2, xa := xa, xc := xc, aux := sel.setWidth 15 })
  | .lmint ha hd xa xc => some (FmtC.toWord { op := 0xE8, ha := ha, hb := hd, xa := xa, xc := xc })
  | .lseal hd xc => some (FmtC.toWord { op := 0xE9, hb := hd, xc := xc })
  | .lrevoke ha xa xb xc i => some (FmtC.toWord { op := 0xEA, ha := ha, xa := xa, xb := xb, xc := xc, imm := i })
  | .lshare ha xa xb xc => some (FmtC.toWord { op := 0xEB, ha := ha, xa := xa, xb := xb, xc := xc })
  | .lrotate xc sig => some (FmtC.toWord { op := 0xEC, xc := xc, aux := sigBits sig })
  | .lscrub xc m => some (FmtC.toWord { op := 0xED, xc := xc, imm := m.setWidth 32 })
  | .lfreeze ha hb xa xc => some (FmtC.toWord { op := 0xEE, ha := ha, hb := hb, xa := xa, xc := xc })
  | .lreport ha hb xa xb xc => some (FmtC.toWord { op := 0xEF, ha := ha, hb := hb, xa := xa, xb := xb, xc := xc })
  | .ltrans ha xa xc => some (FmtC.toWord { op := 0xEF, fn := 1, ha := ha, xa := xa, xc := xc })
  | .lworldState xa xc => some (FmtC.toWord { op := 0xEF, fn := 2, xa := xa, xc := xc })
  | .lworldRoot xa xc => some (FmtC.toWord { op := 0xEF, fn := 2, xa := xa, xc := xc, aux := 1 })
  | .lworldProgress xa xc => some (FmtC.toWord { op := 0xEF, fn := 2, xa := xa, xc := xc, aux := 2 })
  | .lworldClock xa xc => some (FmtC.toWord { op := 0xEF, fn := 2, xa := xa, xc := xc, aux := 3 })
  | .lwindowExport ha xa xb xc => some (FmtC.toWord { op := 0xEF, fn := 3, ha := ha, xa := xa, xb := xb, xc := xc })
  | .lwindowImport xa xb xc => some (FmtC.toWord { op := 0xEF, fn := 3, xa := xa, xb := xb, xc := xc, aux := 1 })
  | .lwindowClose xa xb xc => some (FmtC.toWord { op := 0xEF, fn := 3, xa := xa, xb := xb, xc := xc, aux := 2 })
  | _ => none

/-- A decoding that names the same instruction in the stream that owns the word. -/
def decodesTo (i : Instr) : Bool :=
  match encode i with
  | some w => decodeWord (i.stream) w == .ok i
  | none => false

end Sys2Proof
end

