-- ==== Sys2Proof/Machine/Num.lean ====
section
/-! DEFINITION. Floating-point formats, exact values and the rounding helpers (R61 to R70). -/
namespace Sys2Proof.Machine

/-- A format of Table 3.1: fraction bits, exponent bits, bias, largest finite code, infinity code, canonical NaN. -/
structure FFmt where
  fb : Nat
  eb : Nat
  bias : Nat
  maxC : Nat
  infC : Option Nat
  nanC : Nat
  deriving DecidableEq, Repr

def fFP32 : FFmt := ⟨23, 8, 127, 0x7F7FFFFF, some 0x7F800000, 0x7FC00000⟩
def fFP16 : FFmt := ⟨10, 5, 15, 0x7BFF, some 0x7C00, 0x7E00⟩
def fBF16 : FFmt := ⟨7, 8, 127, 0x7F7F, some 0x7F80, 0x7FC0⟩
def fE4M3 : FFmt := ⟨3, 4, 7, 0x7E, none, 0x7F⟩
def fE5M2 : FFmt := ⟨2, 5, 15, 0x7B, some 0x7C, 0x7E⟩

end Sys2Proof.Machine

open Sys2Proof.Machine in
/-- The format of a floating type (integer types never ask). -/
def Sys2Proof.Ty.fmt : Ty → FFmt
  | .f16 => fFP16
  | .bf16 => fBF16
  | .e4m3 => fE4M3
  | .e5m2 => fE5M2
  | _ => fFP32

namespace Sys2Proof.Machine

/-- Sign bit weight of a format. -/
def FFmt.signW (f : FFmt) : Nat := 2 ^ (f.fb + f.eb)

/-- An exact value: (-1)^neg * m * 2^e, or with `sticky` one strictly between m and m + 1 units of 2^e. -/
inductive FVal where
  | nan
  | inf (neg : Bool)
  | fin (neg : Bool) (m : Nat) (e : Int) (sticky : Bool)
  deriving DecidableEq, Repr

/-- The value of an encoding (R61, R62). -/
def decodeF (f : FFmt) (x : Nat) : FVal :=
  let neg := bitOf x (f.fb + f.eb)
  let c := x % f.signW
  let fr := x % 2 ^ f.fb
  let ex := c / 2 ^ f.fb
  if f.maxC < c then (if f.infC = some c then .inf neg else .nan)
  else if ex = 0 then .fin neg fr (1 - (f.bias : Int) - f.fb) false
  else .fin neg (2 ^ f.fb + fr) ((ex : Int) - f.bias - f.fb) false

/-- Number of bits of a natural number. -/
def bitLen (n : Nat) : Nat := if n = 0 then 0 else n.log2 + 1

/-- RoundInt of R64 on n + rem/2^s (with sticky residue). -/
def roundInt (md : Rnd) (neg : Bool) (n rem half : Nat) (sticky : Bool) : Nat :=
  let inexact := rem != 0 || sticky
  match md with
  | .rne => if half < rem || (rem == half && half != 0 && (sticky || n % 2 == 1)) then n + 1 else n
  | .rz => n
  | .ru => if inexact && !neg then n + 1 else n
  | .rd => if inexact && neg then n + 1 else n

/-- The code of |v| rounded on the format's grid with the top exponent unbounded (R64, R66). -/
def roundCode (f : FFmt) (md : Rnd) (neg : Bool) (m : Nat) (e : Int) (sticky : Bool) : Nat :=
  let emin : Int := 1 - (f.bias : Int)
  let top : Int := (bitLen m : Int) - 1 + e
  let q : Int := (if top < emin then emin else top) - f.fb
  let base : Nat := (q - (emin - f.fb)).toNat
  let sh := q - e
  let n :=
    if sh ≤ 0 then m * 2 ^ (-sh).toNat
    else
      let s := sh.toNat
      roundInt md neg (m >>> s) (m % 2 ^ s) (2 ^ (s - 1)) sticky
  n + base * 2 ^ f.fb

/-- Put a sign on a code. -/
def FFmt.sgn (f : FFmt) (neg : Bool) (c : Nat) : Nat := if neg then f.signW + c else c

/-- Overflow of R64 for the formats with infinities. -/
def overflowC (f : FFmt) (md : Rnd) (neg : Bool) : Nat :=
  let inf := f.sgn neg (f.infC.getD f.maxC)
  let mx := f.sgn neg f.maxC
  match md with
  | .rne => inf
  | .rz => mx
  | .ru => if neg then mx else inf
  | .rd => if neg then inf else mx

/-- Round(v, FMT, mode) as an encoding (R64). -/
def roundF (f : FFmt) (md : Rnd) : FVal → Nat
  | .nan => f.nanC
  | .inf neg => f.sgn neg (f.infC.getD f.maxC)
  | .fin neg m e st =>
    if m = 0 then f.sgn neg 0
    else
      let c := roundCode f md neg m e st
      if f.maxC < c then overflowC f md neg else f.sgn neg c

/-- Narrow8 (R66), followed as its pseudocode stands in every mode (log 13). -/
def narrow8 (f : FFmt) (md : Rnd) (sat : Bool) : FVal → Nat
  | .nan => f.nanC
  | .inf neg =>
    match f.infC with
    | some c => f.sgn neg c
    | none => if sat then f.sgn neg f.maxC else f.nanC
  | .fin neg m e st =>
    if m = 0 then f.sgn neg 0
    else
      let c := roundCode f md neg m e st
      if f.maxC < c then (if sat then f.sgn neg f.maxC else f.nanC) else f.sgn neg c

/-- Below the smallest normal of a format, exactly (R69). -/
def FVal.tiny (f : FFmt) : FVal → Bool
  | .fin _ m e _ => m != 0 && decide ((bitLen m : Int) - 1 + e < 1 - (f.bias : Int))
  | _ => false

/-- Round under VFTZ (R69): a tiny result becomes a zero of its sign. -/
def roundFtz (f : FFmt) (md : Rnd) (ftz : Bool) (v : FVal) : Nat :=
  match v with
  | .fin neg _ _ _ => if ftz && v.tiny f then f.sgn neg 0 else roundF f md v
  | _ => roundF f md v

/-- An operand as read: under VFTZ a subnormal reads as a zero of its sign (R69). -/
def readFtz (f : FFmt) (ftz : Bool) (x : Nat) : Nat :=
  let c := x % f.signW
  if ftz && c < 2 ^ f.fb then x - c else x

def negF : FVal → FVal
  | .nan => .nan
  | .inf n => .inf !n
  | .fin n m e s => .fin (!n) m e s

/-- The signed integer of a finite value at a lower exponent. -/
def scaleInt (neg : Bool) (m : Nat) (e e0 : Int) : Int :=
  let v : Int := (m * 2 ^ (e - e0).toNat : Nat)
  if neg then -v else v

/-- Exact sum of two exact values; the sign of a zero sum follows R64. -/
def addF (md : Rnd) : FVal → FVal → FVal
  | .nan, _ => .nan
  | _, .nan => .nan
  | .inf a, .inf b => if a = b then .inf a else .nan
  | .inf a, _ => .inf a
  | _, .inf b => .inf b
  | .fin n1 m1 e1 _, .fin n2 m2 e2 _ =>
    if m1 = 0 ∧ m2 = 0 then .fin (if n1 = n2 then n1 else md == .rd) 0 0 false
    else if m1 = 0 then .fin n2 m2 e2 false
    else if m2 = 0 then .fin n1 m1 e1 false
    else
      let e := if e1 < e2 then e1 else e2
      let s := scaleInt n1 m1 e1 e + scaleInt n2 m2 e2 e
      if s = 0 then .fin (md == .rd) 0 0 false else .fin (decide (s < 0)) s.natAbs e false

/-- Exact product (R64). -/
def mulF : FVal → FVal → FVal
  | .nan, _ => .nan
  | _, .nan => .nan
  | .inf a, .inf b => .inf (a != b)
  | .inf a, .fin b m _ _ => if m = 0 then .nan else .inf (a != b)
  | .fin a m _ _, .inf b => if m = 0 then .nan else .inf (a != b)
  | .fin a m e _, .fin b k g _ => .fin (a != b) (m * k) (e + g) false

/-- The quotient to more than a hundred bits, with the remainder in `sticky` (R210). -/
def divF : FVal → FVal → FVal
  | .nan, _ => .nan
  | _, .nan => .nan
  | .inf _, .inf _ => .nan
  | .inf a, .fin b _ _ _ => .inf (a != b)
  | .fin a _ _ _, .inf b => .fin (a != b) 0 0 false
  | .fin a m e _, .fin b k g _ =>
    if k = 0 then (if m = 0 then .nan else .inf (a != b))
    else if m = 0 then .fin (a != b) 0 0 false
    else
      let s := 128 + bitLen k
      let n := m * 2 ^ s
      .fin (a != b) (n / k) (e - g - s) (n % k != 0)

/-- Floor square root by digits: `k` steps of the binary method on n. -/
def isqrtGo : Nat → Nat → Nat → Nat
  | 0, _, r => r
  | k + 1, n, r =>
    let t := r + 2 ^ k
    isqrtGo k n (if t * t ≤ n then t else r)

/-- Floor(sqrt n). -/
def isqrt (n : Nat) : Nat := isqrtGo (bitLen n / 2 + 1) n 0

/-- VSQRT (Table 7.6). -/
def sqrtF : FVal → FVal
  | .nan => .nan
  | .inf neg => if neg then .nan else .inf false
  | .fin neg m e _ =>
    if m = 0 then .fin neg 0 0 false
    else if neg then .nan
    else
      let odd := e % 2 != 0
      let m1 := if odd then m * 2 else m
      let e1 := if odd then e - 1 else e
      let n := m1 * 2 ^ 256
      let r := isqrt n
      .fin false r ((e1 - 256) / 2) (r * r != n)

/-- VRSQ (Table 7.6): floor of sqrt(2^512 / m), with the remainder in `sticky`. -/
def rsqF : FVal → FVal
  | .nan => .nan
  | .inf neg => if neg then .nan else .fin false 0 0 false
  | .fin neg m e _ =>
    if m = 0 then .inf neg
    else if neg then .nan
    else
      let odd := e % 2 != 0
      let m1 := if odd then m * 2 else m
      let e1 := if odd then e - 1 else e
      let r := isqrt (2 ^ 512 / m1)
      .fin false r (-(e1 / 2) - 256) (r * r * m1 != 2 ^ 512)

/-- VRCP (Table 7.6). -/
def rcpF (v : FVal) : FVal :=
  match v with
  | .fin neg m _ _ => if m = 0 then .inf neg else divF (.fin false 1 0 false) v
  | _ => divF (.fin false 1 0 false) v

/-- Working precision of the transcendental results, in bits (log 12). -/
def tprec : Nat := 320

/-- ln 2 scaled by 2^320: the sum of 1 / (k 2^k). -/
def ln2Go : Nat → Nat → Nat
  | 0, _ => 0
  | n + 1, k => 2 ^ tprec / (k * 2 ^ k) + ln2Go n (k + 1)
def ln2 : Nat := ln2Go 330 1

/-- exp of y scaled by 2^320, by its series. -/
def expGo : Nat → Nat → Nat → Nat → Nat
  | 0, _, _, _ => 0
  | n + 1, y, k, term => term + expGo n y (k + 1) (term * y / (k * 2 ^ tprec))
def expFix (y : Nat) : Nat := expGo 80 y 1 (2 ^ tprec)

/-- 2 atanh z scaled by 2^320, by its series: ln((1 + z) / (1 - z)). -/
def atanhGo : Nat → Nat → Nat → Nat → Nat
  | 0, _, _, _ => 0
  | n + 1, z2, k, p => 2 * p / k + atanhGo n z2 (k + 2) (p * z2 / 2 ^ tprec)
def lnFix (z : Nat) : Nat := atanhGo 110 (z * z / 2 ^ tprec) 1 z

/-- VEXP2 (Table 7.6): exact for integers, else irrational and taken to 320 bits (log 12). -/
def exp2F : FVal → FVal
  | .nan => .nan
  | .inf neg => if neg then .fin false 0 0 false else .inf false
  | .fin neg m e _ =>
    if m = 0 then .fin false 1 0 false
    else if 10 ≤ (bitLen m : Int) + e then (if neg then .fin false 1 (-600) false else .fin false 1 600 false)
    else
      let u : Int := scaleInt neg m e (-256)
      let i := u / 2 ^ 256
      let fr := (u % 2 ^ 256).toNat
      if fr = 0 then .fin false 1 i false
      else .fin false (expFix (fr * ln2 / 2 ^ 256)) (i - tprec) true

/-- VLOG2 (Table 7.6): exact for powers of two, else irrational and taken to 320 bits (log 12). -/
def log2F : FVal → FVal
  | .nan => .nan
  | .inf neg => if neg then .nan else .inf false
  | .fin neg m e _ =>
    if m = 0 then .inf true
    else if neg then .nan
    else
      let l := bitLen m - 1
      let i : Int := (l : Int) + e
      if m = 2 ^ l then (if i = 0 then .fin false 0 0 false else .fin (decide (i < 0)) i.natAbs 0 false)
      else
        let z := (m - 2 ^ l) * 2 ^ tprec / (m + 2 ^ l)
        let v : Int := i * 2 ^ tprec + ((lnFix z * 2 ^ tprec / ln2 : Nat) : Int)
        .fin (decide (v < 0)) v.natAbs (-(tprec : Int)) true

/-- a × 2^n; the exponent is clamped where every format has already overflowed or vanished. -/
def scaleF (v : FVal) (n : Int) : FVal :=
  match v with
  | .fin s m e st => .fin s m (e + clampTo (-1200) 1200 n) st
  | _ => v

/-- Order of two values: none when unordered; zeros compare equal (R68). -/
def cmpF : FVal → FVal → Option Ordering
  | .nan, _ => none
  | _, .nan => none
  | .inf a, .inf b => some (if a = b then .eq else if a then .lt else .gt)
  | .inf a, _ => some (if a then .lt else .gt)
  | _, .inf b => some (if b then .gt else .lt)
  | .fin n1 m1 e1 _, .fin n2 m2 e2 _ =>
    let e := if e1 < e2 then e1 else e2
    let a := scaleInt n1 m1 e1 e
    let b := scaleInt n2 m2 e2 e
    some (if a < b then .lt else if a = b then .eq else .gt)

/-- VMIN and VMAX on encodings (R68): NaN wins, -0 below +0, the chosen encoding unchanged. -/
def minmaxF (f : FFmt) (mx : Bool) (x y : Nat) : Nat :=
  let nx := bitOf x (f.fb + f.eb)
  match cmpF (decodeF f x) (decodeF f y) with
  | none => f.nanC
  | some .lt => if mx then y else x
  | some .gt => if mx then x else y
  | some .eq => if nx = mx then y else x

/-- rn32 of an exact value (R65). -/
def rn32 (v : FVal) : Nat := roundF fFP32 .rne v

/-- rn32 of the sum of two FP32 patterns (R76). -/
def fadd32 (a b : Nat) : Nat := rn32 (addF .rne (decodeF fFP32 a) (decodeF fFP32 b))

/-- A value rounded to an integer under a mode (R67). -/
def toIntF (md : Rnd) : FVal → Int → Int → Int
  | .nan, _, _ => 0
  | .inf neg, lo, hi => if neg then lo else hi
  | .fin neg m e st, lo, hi =>
    let n : Nat :=
      if 0 ≤ e then m * 2 ^ e.toNat
      else
        let s := (-e).toNat
        roundInt md neg (m >>> s) (m % 2 ^ s) (2 ^ (s - 1)) st
    clampTo lo hi (if neg then -(n : Int) else n)

/-- An integer as an exact value. -/
def ofIntF (v : Int) : FVal := .fin (decide (v < 0)) v.natAbs 0 false

/-- Conv of VCVT (R66, R67, R212) between two types, on patterns. -/
def convElem (s d : Ty) (md : Rnd) (sat : Bool) (x : Nat) : Nat :=
  if s.isInt then
    if d.isInt then fitInt d sat (intVal s x)
    else if d.isFp8 then narrow8 d.fmt md sat (ofIntF (intVal s x))
    else roundF d.fmt md (ofIntF (intVal s x))
  else
    let v := decodeF s.fmt x
    if d.isInt then wrapTo (8 * d.size) (toIntF md v (intMin d) (intMax d))
    else if d.isFp8 then narrow8 d.fmt md sat v
    else roundF d.fmt md v

end Sys2Proof.Machine
end

