-- ==== Sys2Proof/Config.lean ====
section
/-! DEFINITION. What an implementation or an outside standard fixes, and the free values: constants without bodies. -/
namespace Sys2Proof.Config

/-- Cycles that pass with a step; the argument is the state's counter of free values (log 3). -/
opaque elapsed : Nat → Nat

/-- What CTR_DRBG gives at a draw: a veil key, the zero-line key of a berth (R97, R375). -/
opaque drbg : Nat → BitVec 256

/-- The application secret of an SPDM session, by the draw at its key exchange (R356, R365, log 7). -/
opaque sessionSecret : Nat → BitVec 256

/-- The HSS signature of 3,604 bytes over a report body, by signing Lodestar and leaf numbers (R381, R384, log 7). -/
opaque hssSign : (lodestar top bottom : Nat) → List Byte → Nat

/-- The identity public key of a Lodestar, an HSS public key of 60 bytes (R381, log 7). -/
opaque identityKey : (lodestar : Nat) → BitVec 480

/-- The P-384 alias public key of a Lodestar, 96 bytes (R381, log 7). -/
opaque aliasKey : (lodestar : Nat) → BitVec 768

/-- SHA-256 over the firmware measurements, in the order of SPDM (R384, log 7). -/
opaque measurementDigest : BitVec 256

/-- A free byte for a value that the manual leaves open; the argument is the state's counter (log 14). -/
opaque freeWord : Nat → BitVec 64

/-- The value of ETVAL where the manual states none; the argument is the state's counter (log 16). -/
opaque freeEtval : Nat → BitVec 64

/-- Base and length of a heap that a world's supervisor sets (R301, log 27). -/
opaque heapRange (draw die : Nat) : Nat × Nat

/-- The HBM channel that holds a line, which the partition controller never shows (R398, R419, log 38). -/
opaque channelOf : (line : Nat) → Nat

/-- Does the partition controller place lines of a berth's share on a channel (R398, R404, log 38)? -/
opaque placed : (channel berth : Nat) → Bool

/-- The HBM stack of a channel (R404, log 38). -/
opaque stackOf : (channel : Nat) → Nat

/-- Does a flag increment that has come back follow an operation of this device's own, by what other devices did (R112, log 19)? -/
opaque follows : (draw core n : Nat) → Bool

/-- Spare banks of an HBM stack (R404, log 38). -/
opaque spareBanks : (stack : Nat) → Nat

/-- What the cycle counter of a spare core is ahead of the counter that it replaces (R120, log 38). -/
opaque spareCycles : Nat → Int

/-- Does a neighbour reach a device by its own tables, as the Lodestars tell one another when the tables are loaded (R335, log 32)? -/
opaque reaches : (draw neighbour dev : Nat) → Bool

/-- Flits queued at a port when a packet chooses its first hop (R336, log 32). -/
opaque queuedFlits : (draw port : Nat) → Nat

/-- The header of a packet, which travels in the clear, by draw: its layout the manual does not give (R357, log 33). -/
opaque packetHeader : Nat → List (BitVec 8)

/-- The rest of a packet before it is encrypted, by draw (R357, log 33). -/
opaque packetBody : Nat → List (BitVec 8)

/-- The 32-bit salt of a direction of a link, by the secret of its session (R357, log 33). -/
opaque linkSalt : (secret dir : Nat) → BitVec 32

/-- Packets of a retry buffer that the peer has acknowledged, by draw (R358, R359, log 33). -/
opaque linkAcks : Nat → Nat

/-- The open port by which a packet comes in, by draw (R357, log 33). -/
opaque arrivalPort : Nat → Nat

/-- How many packets a packet that comes in is behind the next in order, by draw: the link sends again what was lost (R357, R358, log 33). -/
opaque lateBy : Nat → Nat

/-- The entry of a full replay cache that its source has confirmed, by draw (R345, log 32). -/
opaque confirmed : Nat → Nat

/-- Does a pair of a sparse reduction find no room in a router's merge table (R352, log 32)? -/
opaque noRoom : Nat → Bool

end Sys2Proof.Config
end

