-- ==== Sys2Proof/Machine/Crypto.lean ====
section
/-! DEFINITION. The algorithms that R365 to R394 name: SHA-256, HMAC, HKDF, AES-256, CMAC and GCM.
The manual names them and leaves their definitions to their standards: FIPS 180-4, RFC 2104, RFC 5869, FIPS 197,
SP 800-38B and SP 800-38D (PRESUMED, log 7). A string of bytes is a list, its first byte first. -/
namespace Sys2Proof.Machine

/-- The natural number that bytes hold, highest first. -/
def beOf (bs : List Byte) : Nat := ofBytes bs.reverse

/-- n bytes of a natural number, highest first. -/
def beBytes (n x : Nat) : List Byte := (bytesOf n x).reverse

/-- Cut a list into pieces of n items; the fuel bounds their count. -/
def pieces {α : Type} (n : Nat) : Nat → List α → List (List α)
  | 0, _ => []
  | f + 1, xs => if xs.isEmpty then [] else xs.take n :: pieces n f (xs.drop n)

/-- Bytewise exclusive or of two strings. -/
def xorBytes (a b : List Byte) : List Byte := List.zipWith (fun x y => x ^^^ y) a b

/-- A digest or key of 32 bytes as it stands in a register of State, its first byte lowest. -/
def digestOf (bs : List Byte) : BitVec 256 := BitVec.ofNat 256 (ofBytes bs)
def digestBytes (d : BitVec 256) : List Byte := bytesOf 32 d.toNat

/-! SHA-256 (FIPS 180-4) -/

/-- The 64 round constants, 32 bits each, constant 0 lowest. -/
def shaK : Nat :=
  0xc67178f2bef9a3f7a4506ceb90befffa8cc7020884c8781478a5636f748f82ee682e6ff35b9cca4f4ed8aa4a391c0cb334b0bcb52748774c1e376c0819a4c116106aa070f40e3585d6990624d192e819c76c51a3c24b8b70a81a664ba2bfe8a192722c8581c2c92e766a0abb650a735453380d134d2c6dfc2e1b213827b70a851429296706ca6351d5a79147c6e00bf3bf597fc7b00327c8a831c66d983e515276f988da5cb0a9dc4a7484aa2de92c6f240ca1cc0fc19dc6efbe4786e49b69c1c19bf1749bdc06a780deb1fe72be5d74550c7dc3243185be12835b01d807aa98ab1c5ed5923f82a459f111f13956c25be9b5dba5b5c0fbcf71374491428a2f98

/-- The initial hash value. -/
def shaInit : List Nat :=
  [0x6a09e667, 0xbb67ae85, 0x3c6ef372, 0xa54ff53a, 0x510e527f, 0x9b05688c, 0x1f83d9ab, 0x5be0cd19]

/-- A rotation of 32 bits to the right. -/
def rotr32 (x n : Nat) : Nat := (x >>> n) ||| ((x <<< (32 - n)) % 2 ^ 32)

def shaSmall0 (x : Nat) : Nat := rotr32 x 7 ^^^ rotr32 x 18 ^^^ (x >>> 3)
def shaSmall1 (x : Nat) : Nat := rotr32 x 17 ^^^ rotr32 x 19 ^^^ (x >>> 10)
def shaBig0 (x : Nat) : Nat := rotr32 x 2 ^^^ rotr32 x 13 ^^^ rotr32 x 22
def shaBig1 (x : Nat) : Nat := rotr32 x 6 ^^^ rotr32 x 11 ^^^ rotr32 x 25

/-- One round on the eight working variables, with its schedule word. -/
def shaRound (k w : Nat) : List Nat → List Nat
  | [a, b, c, d, e, f, g, h] =>
    let t := h + shaBig1 e + ((e &&& f) ^^^ ((2 ^ 32 - 1 - e) &&& g)) + k + w
    [(t + shaBig0 a + ((a &&& b) ^^^ (a &&& c) ^^^ (b &&& c))) % 2 ^ 32, a, b, c, (d + t) % 2 ^ 32, e, f, g]
  | v => v

/-- The rounds that are left: fuel n, the next 16 schedule words, the working variables. -/
def shaRounds : Nat → List Nat → List Nat → List Nat
  | 0, _, v => v
  | n + 1, ws, v =>
    let w := ws.headD 0
    let next := (shaSmall1 (ws.getD 14 0) + ws.getD 9 0 + shaSmall0 (ws.getD 1 0) + w) % 2 ^ 32
    shaRounds n (ws.drop 1 ++ [next]) (shaRound ((shaK >>> (32 * (63 - n))) % 2 ^ 32) w v)

/-- One block of 64 bytes. -/
def shaBlock (h : List Nat) (blk : List Byte) : List Nat :=
  List.zipWith (fun x y => (x + y) % 2 ^ 32) h (shaRounds 64 ((pieces 4 16 blk).map beOf) h)

/-- The message with its padding: 0x80, zeros, its length in bits. -/
def shaPad (m : List Byte) : List Byte :=
  m ++ 0x80 :: List.replicate ((119 - m.length % 64) % 64) 0 ++ beBytes 8 (8 * m.length)

/-- SHA-256 of a string. -/
def sha256 (m : List Byte) : List Byte :=
  let p := shaPad m
  ((pieces 64 p.length p).foldl shaBlock shaInit).flatMap (beBytes 4)

/-! HMAC and HKDF (RFC 2104, RFC 5869) -/

/-- HMAC-SHA-256. -/
def hmac (key m : List Byte) : List Byte :=
  let k := if 64 < key.length then sha256 key else key
  let k := k ++ List.replicate (64 - k.length) 0
  sha256 (k.map (· ^^^ 0x5C) ++ sha256 (k.map (· ^^^ 0x36) ++ m))

/-- HKDF-Extract. -/
def hkdfExtract (salt ikm : List Byte) : List Byte := hmac salt ikm

/-- HKDF-Expand to 32 bytes, which is its first block. -/
def hkdfExpand (prk info : List Byte) : List Byte := hmac prk (info ++ [1])

/-! AES-256 (FIPS 197) -/

/-- The substitution box, entry 0 lowest. -/
def aesBox : Nat :=
  0x16bb54b00f2d99416842e6bf0d89a18cdf2855cee9871e9b948ed9691198f8e19e1dc186b95735610ef6034866b53e708a8bbd4b1f74dde8c6b4a61c2e2578ba08ae7a65eaf4566ca94ed58d6d37c8e779e4959162acd3c25c2406490a3a32e0db0b5ede14b8ee4688902a22dc4f816073195d643d7ea7c41744975fec130ccdd2f3ff1021dab6bcf5389d928f40a351a89f3c507f02f94585334d43fbaaefd0cf584c4a39becb6a5bb1fc20ed00d153842fe329b3d63b52a05a6e1b1a2c830975b227ebe28012079a059618c323c7041531d871f1e5a534ccf73f362693fdb7c072a49cafa2d4adf04759fa7dc982ca76abd7fe2b670130c56f6bf27b777c63

def aesSub (x : Byte) : Byte := BitVec.ofNat 8 (aesBox >>> (8 * x.toNat))

/-- Multiplication by two in the field of AES. -/
def aesTwice (x : Byte) : Byte := (x <<< 1) ^^^ (if x.getLsbD 7 then 0x1B else 0)

/-- The key words that are left: fuel, word number, round constant, the last eight words (the oldest first). -/
def aesExpand : Nat → Nat → Byte → List (List Byte) → List (List Byte)
  | 0, _, _, _ => []
  | f + 1, i, rc, ws =>
    let p := ws.getD 7 []
    let t :=
      if i % 8 = 0 then xorBytes ((p.drop 1 ++ p.take 1).map aesSub) [rc, 0, 0, 0]
      else if i % 8 = 4 then p.map aesSub
      else p
    let w := xorBytes (ws.headD []) t
    w :: aesExpand f (i + 1) (if i % 8 = 0 then aesTwice rc else rc) (ws.drop 1 ++ [w])

/-- The fifteen round keys of a key of 32 bytes. -/
def aesKeys (key : List Byte) : List (List Byte) :=
  let ws := pieces 4 8 key
  pieces 16 15 (ws ++ aesExpand 52 8 1 ws).flatten

/-- Rows shifted: byte i comes from byte i + 4 (i mod 4). -/
def aesShift (s : List Byte) : List Byte := (upFrom 0 16).map fun i => s.getD ((i + 4 * (i % 4)) % 16) 0

/-- One column mixed. -/
def aesMix : List Byte → List Byte
  | [a, b, c, d] =>
    let t := a ^^^ b ^^^ c ^^^ d
    [a ^^^ t ^^^ aesTwice (a ^^^ b), b ^^^ t ^^^ aesTwice (b ^^^ c), c ^^^ t ^^^ aesTwice (c ^^^ d), d ^^^ t ^^^ aesTwice (d ^^^ a)]
  | s => s

/-- The rounds that are left; the last mixes no column. -/
def aesRounds (s : List Byte) : List (List Byte) → List Byte
  | [] => s
  | [k] => xorBytes (aesShift (s.map aesSub)) k
  | k :: t => aesRounds (xorBytes ((pieces 4 4 (aesShift (s.map aesSub))).flatMap aesMix) k) t

/-- AES-256 of one block of 16 bytes. -/
def aes256 (key blk : List Byte) : List Byte :=
  match aesKeys key with
  | [] => blk
  | k :: t => aesRounds (xorBytes blk k) t

/-! CMAC (SP 800-38B) -/

/-- Doubling in the field of CMAC. -/
def cmacTwice (b : List Byte) : List Byte :=
  let x := beOf b
  beBytes 16 (((2 * x) % 2 ^ 128) ^^^ (if 2 ^ 127 ≤ x then 0x87 else 0))

/-- The chain over the blocks; the last is joined with its subkey and padded where it is short. -/
def cmacGo (key k1 k2 : List Byte) : List Byte → List (List Byte) → List Byte
  | acc, [] => acc
  | acc, [b] =>
    let last :=
      if b.length = 16 then xorBytes b k1
      else xorBytes (b ++ 0x80 :: List.replicate (15 - b.length) 0) k2
    aes256 key (xorBytes acc last)
  | acc, b :: t => cmacGo key k1 k2 (aes256 key (xorBytes acc b)) t

/-- AES-256-CMAC. -/
def cmac (key m : List Byte) : List Byte :=
  let k1 := cmacTwice (aes256 key (List.replicate 16 0))
  cmacGo key k1 (cmacTwice k1) (List.replicate 16 0) (if m.isEmpty then [[]] else pieces 16 m.length m)

/-! GCM (SP 800-38D) -/

/-- A product in the field of GCM: bit 127 of a number is the coefficient of 1. -/
def ghashMul : Nat → Nat → Nat → Nat → Nat
  | 0, _, _, z => z
  | n + 1, x, v, z =>
    ghashMul n x (if v % 2 = 1 then (v >>> 1) ^^^ (0xE1 <<< 120) else v >>> 1) (if bitOf x n then z ^^^ v else z)

/-- GHASH over blocks. -/
def ghash (h : Nat) (blocks : List (List Byte)) : Nat :=
  blocks.foldl (fun y b => ghashMul 128 (y ^^^ beOf b) h 0) 0

/-- A string padded with zeros to whole blocks. -/
def gcmPad (m : List Byte) : List (List Byte) :=
  pieces 16 m.length (m ++ List.replicate ((16 - m.length % 16) % 16) 0)

/-- Counter mode from a counter block, block i under counter i. -/
def gcmCtr (key nonce : List Byte) : Nat → List (List Byte) → List Byte
  | _, [] => []
  | i, b :: t => xorBytes b (aes256 key (nonce ++ beBytes 4 i)) ++ gcmCtr key nonce (i + 1) t

/-- The tag over additional data and ciphertext. -/
def gcmTag (key nonce aad ct : List Byte) : List Byte :=
  let h := beOf (aes256 key (List.replicate 16 0))
  let y := ghash h (gcmPad aad ++ gcmPad ct ++ [beBytes 8 (8 * aad.length) ++ beBytes 8 (8 * ct.length)])
  xorBytes (beBytes 16 y) (aes256 key (nonce ++ beBytes 4 1))

/-- Opening: the plaintext, or none where the tag fails. -/
def gcmOpen (key nonce aad ct tag : List Byte) : Option (List Byte) :=
  if gcmTag key nonce aad ct = tag then some (gcmCtr key nonce 2 (pieces 16 ct.length ct)) else none

/-- Sealing: the ciphertext and its tag. -/
def gcmSeal (key nonce aad pt : List Byte) : List Byte × List Byte :=
  let ct := gcmCtr key nonce 2 (pieces 16 pt.length pt)
  (ct, gcmTag key nonce aad ct)

end Sys2Proof.Machine
end

