-- ==== Sys2Proof/Machine/Tab.lean ====
section
/-! DEFINITION. Sparse tables by natural key, and the byte memory in canonical form. -/
namespace Sys2Proof.Machine

/-- A sparse table: entries by key, rising. -/
abbrev Tab (α : Type) := List (Nat × α)

/-- The entry listed at a key. -/
def tabFind {α : Type} : Tab α → Nat → Option α
  | [], _ => none
  | (k, v) :: t, a => if a = k then some v else tabFind t a

/-- Put an entry at a key, keeping keys in rising order. -/
def tabSet {α : Type} : Tab α → Nat → α → Tab α
  | [], a, v => [(a, v)]
  | (k, w) :: t, a, v =>
    if a = k then (a, v) :: t
    else if a < k then (a, v) :: (k, w) :: t
    else (k, w) :: tabSet t a v

/-- Drop every entry at a key. -/
def tabDrop {α : Type} (t : Tab α) (a : Nat) : Tab α := t.filter fun e => e.1 != a

/-- The byte an address reads as; an unlisted address reads as zero (log 4, R97). -/
def memGet (m : Tab Byte) (a : Nat) : Byte := (tabFind m a).getD 0

/-- Write one byte, keeping the canonical form: a zero byte is not listed. -/
def memPut (m : Tab Byte) (a : Nat) (b : Byte) : Tab Byte := if b = 0 then tabDrop m a else tabSet m a b

/-- Write a list of bytes in order. -/
def memPuts (m : Tab Byte) : List (Nat × Byte) → Tab Byte
  | [] => m
  | (a, b) :: t => memPuts (memPut m a b) t

/-- The canonical form: keys strictly rising and no byte listed that reads the same unlisted. -/
def memCanon : Tab Byte → Bool
  | [] => true
  | [(_, b)] => b != 0
  | (a, b) :: (a', b') :: t => b != 0 && decide (a < a') && memCanon ((a', b') :: t)

/-- Replace the element at an index of a list, leaving shorter lists alone. -/
def listPut {α : Type} : List α → Nat → α → List α
  | [], _, _ => []
  | _ :: t, 0, v => v :: t
  | h :: t, n + 1, v => h :: listPut t n v

end Sys2Proof.Machine
end

