-- ==== Sys2Proof/Machine/State.lean ====
section
/-! DEFINITION. The state of one package as plain data, its faults and refusals, and the state after reset. -/
namespace Sys2Proof.Machine

/-- How a step can stop the whole machine. Every fault of the manual is a trap or a status (R126), so the one stop
is the absence of power. -/
inductive Fault where
  /-- Raised by `step` while the package has no power (R421, R382) and the next turn is not POWER_GOOD. Safe: nothing runs. -/
  | poweredDown
  deriving DecidableEq, Repr

/-- Reasons for which an instruction has no meaning. -/
inductive Refusal where
  /-- The dispatcher of an instruction without a meaning yet, by its mnemonic. Safe. -/
  | notModelled (mnemonic : String)
  deriving DecidableEq, Repr

/-- Fault codes of Table 0.2 (R6). -/
inductive Code where
  | illegalOp | reservedField | streamMismatch | unslated | latchRange | queueUnderflow | queueOverflow | expired
  | privilege | arith | handleBounds | handleRights | handleSeal | handleRevoked | handleWorld | translation | align
  | integrity | mmRace | watchdog | syncOverflow | futureInvalid | remoteNak | linkDown | remoteStale | trapSw | debug
  deriving DecidableEq, Repr

/-- A fault about to be raised: code, subcode, value (R4, R118). -/
structure Flt where
  code : Code
  sub : Nat
  value : X64
  deriving DecidableEq, Repr

/-- A handle register or snapshot (R78, Table 13.3). -/
structure Handle where
  format : BitVec 8
  rights : BitVec 8
  world : BitVec 12
  serial : BitVec 32
  base : BitVec 57
  length : BitVec 48
  shape : BitVec 27
  sealv : BitVec 64
  isSealed : Bool
  revoked : Bool
  deriving DecidableEq, Repr

/-- What HCLR leaves (R147). -/
def Handle.cleared : Handle := ⟨0, 0, 0, 0, 0, 0, 0, 0, false, false⟩

/-- Whoever makes accesses that happens-before orders (R98): a stream, one operation of a queue, or every operation
of a queue up to a number (R110). Queue 4 is the fabric queue. The last is no accessor: its number is the newest epoch of a gang from
whose barrier departure a core's Helm has gone on (R106). -/
inductive Agent where
  | strm (core : Nat) (st : Stream)
  | op (core q n : Nat)
  | upto (core q : Nat)
  | departed (core gang : Nat)
  deriving DecidableEq, Repr

/-- Happens-before knowledge: the newest region of each agent known to precede (log 9). -/
abbrev Clock := List (Agent × Nat)

/-- A stamp of a race-detection record (R105, R106). -/
structure Stamp where
  agent : Agent
  region : Nat
  core : Nat
  epoch : Nat
  gang : Nat
  atomic : Bool
  deriving DecidableEq, Repr

/-- A reader summary of a sector (R105, R106): the gang, its epoch, and the rank-0 core with its detection epoch. -/
structure Summary where
  gang : Nat
  epoch : Nat
  mixed : Bool
  core : Nat
  coreEpoch : Nat
  deriving DecidableEq, Repr

/-- Race-detection state of a 32-byte sector (R105). -/
structure Sector where
  writer : Option Stamp
  readers : List Stamp
  summary : Option Summary
  deriving DecidableEq, Repr

def Sector.none : Sector := ⟨Option.none, [], Option.none⟩

/-- Metadata of a 256-byte line (R96, R97, R374, log 8): fresh, or the world and generation that wrote it and whether
its tag fails, under the world's keys or under the transfer key of a restore that moves the world away (R406). The key-slot bit is the
generation's parity (R374). -/
inductive Line where
  | fresh
  | written (world gen : Nat) (bad : Bool)
  | moved (world gen : Nat) (bad : Bool)
  deriving DecidableEq, Repr

/-- Run state of L, S, V or M (R13, R23, R39). -/
inductive RunSt where
  | absent | running | stopped | ended
  deriving DecidableEq, Repr

/-- An open loop level (R177). -/
structure Level where
  trip : BitVec 32
  count : BitVec 32
  body : BitVec 16
  strides : List (BitVec 32)
  deriving DecidableEq, Repr

/-- An operand-queue entry and the knowledge its sender had (R20). -/
structure OqEnt where
  val : X64
  clk : Clock
  deriving DecidableEq, Repr

/-- An effect that a group holds back until it commits (R15). -/
inductive Eff where
  | push (q : Nat) (v : Vec) (short : Bool)
  | write (bytes : List (Nat × Byte))
  | tile (t : Nat) (bits : TileBits)
  | tileState (t : Nat) (full : Bool)
  | pred (k : Nat) (v : Pred)
  | mpush (v : Pred)
  | minv
  | mpop
  | cedge (n : Nat)
  | redge (n : Nat)
  | present (gran : Nat)
  deriving DecidableEq, Repr

/-- A weight slot (R247): row k at bytes 256k; type code 0 empty. -/
structure Slot where
  w : BitVec 262144
  ty : BitVec 4
  scale : BitVec 32
  deriving DecidableEq, Repr

/-- The format-table selector (R254). -/
inductive MSel where
  | fixed (e : Nat)
  | level (l : Nat)
  deriving DecidableEq, Repr

/-- The part of the Matrix engine that items of work change (Table 9.1, R271). The bucket counts fifths of a unit. -/
structure Mx where
  ws0 : Slot
  ws1 : Slot
  ftab : List (BitVec 16)
  sel : MSel
  acc : Tab Vec
  cls : Nat
  bucket : Nat
  charged : Nat
  waited : Nat
  refilled : Nat
  waitSince : Option Nat
  deriving DecidableEq, Repr

/-- A follow-on word with its copy's handles (R268). -/
structure FollowOn where
  word : Word96
  snap : List (Nat × Handle)
  agent : Agent
  clk : Clock
  deriving DecidableEq, Repr

/-- An issue group being issued: what its words have read and staged so far (R15, R192). -/
structure Grp where
  start : BitVec 16
  pops : List Nat
  spops : List Nat
  opops : List Nat
  lats : List (Option Vec)
  effs : List Eff
  mx : Option Mx
  charge : Nat
  clk : Clock
  tab : Option (Tab Sector)
  pcs : List (Nat × Nat × Nat)
  edge : Bool
  deriving DecidableEq, Repr

/-- What a stalled stream waits on (R280, R281). -/
inductive WaitKind where
  | sem (key k : Nat)
  | bar (key gen : Nat)
  | flag (key : Nat) (rel : Rel) (cmp : X64)
  | future (die idx : Nat)
  | ended (status : Nat)
  | request
  deriving DecidableEq, Repr

/-- A request in flight and, once the engine has served it, its result (R280). -/
structure Wait where
  kind : WaitKind
  done : Bool
  value : X64
  clk : Clock
  seen : Nat
  deriving DecidableEq, Repr

/-- The channels that a group needs before it may issue: stream-register reads, operand-queue reads that take entries in turn, entries
that a queue must hold, tiles it writes, tiles it reads, tiles that must not be held, follow-ons done (R166, R201, R275). -/
structure Needs where
  sregs : List (Nat × Bool) := []
  oqs : List (Nat × Bool) := []
  heads : List (Nat × Nat) := []
  tw : List Nat := []
  tr : List Nat := []
  free : List Nat := []
  syncs : List Nat := []
  deriving DecidableEq, Repr

/-- State of one stream (Tables 5.1, 6.1, 7.1, 9.1; R40). `sec` holds the section's end granule while an instance is
open; `blocked` is what the group at the pc was found to wait for (R19). -/
structure StreamSt where
  run : RunSt
  pc : BitVec 16
  entry : BitVec 16
  passes : Nat
  count : BitVec 8
  early : Bool
  sec : Option Nat
  broke : Bool
  levels : List Level
  oqs : List (List OqEnt)
  cedge : Nat
  redge : Nat
  region : Nat
  seen : Nat
  clk : Clock
  rets : List (Nat × Clock)
  grp : Option Grp
  wait : Option Wait
  blocked : Option Needs
  deriving DecidableEq, Repr

/-- A stream that no FORK has started (R13, R114). -/
def StreamSt.idle : StreamSt :=
  { run := .absent, pc := 0, entry := 0, passes := 0, count := 0, early := true, sec := none, broke := false, levels := [],
    oqs := [[], [], [], []], cedge := 128, redge := 128, region := 0, seen := 0, clk := [], rets := [], grp := none, wait := none,
    blocked := none }

/-- Slate buffer of 24 granules (R122, R123). -/
inductive SlateBuf where
  | empty | filling
  | full (gs : List Gran)
  deriving DecidableEq, Repr

/-- A slate register (R122). -/
structure Slate where
  target : BitVec 16
  valid : Bool
  buf : SlateBuf
  deriving DecidableEq, Repr

/-- An entry of a vector queue (R192, R199). -/
structure VEnt where
  v : Vec
  short : Bool
  time : Nat
  expired : Bool
  deriving DecidableEq, Repr

/-- A tile register (R19, R232). -/
structure TileSt where
  bits : TileBits
  full : Bool
  held : Option (Nat × Nat)
  clk : Clock
  deriving DecidableEq, Repr

/-- An element that a copy has delivered to a stream register (R21). -/
structure SEnt where
  v : Vec
  clk : Clock
  deriving DecidableEq, Repr

/-- A fault pending on the Helm (R23, R127). -/
structure Pend where
  flt : Flt
  st : Stream
  group : BitVec 16
  deriving DecidableEq, Repr

/-- Status of a completed copy operation (Tables 8.1, 8.2). -/
structure CStat where
  code : Nat
  sub : Nat
  side : Nat
  entry : Nat
  off : Nat
  deriving DecidableEq, Repr

/-- What a byte-moving operation does (R229 to R235). -/
inductive JobKind where
  | copy
  | trans (esz : Nat)
  | fill (pat : X64)
  | tileIn
  | tileOut
  | bind (sn : Nat)
  deriving DecidableEq, Repr

/-- A byte-moving operation: register numbers of its handles, offsets, shape (R221, R225). -/
structure Job where
  kind : JobKind
  race : Bool
  src : Nat
  dst : Nat
  tile : Nat
  mode : Nat
  so : Int
  dOff : Int
  w : Nat
  r : Nat
  keep : Bool
  deriving DecidableEq, Repr

/-- What a numbered copy operation is (R219). -/
inductive OpBody where
  | job (j : Job)
  | chain (h : Nat) (off : Int)
  | record (bytes : List Byte)
  deriving DecidableEq, Repr

/-- Where an operation stands (R220, R222): queued, its wait entered, granted, in flight, landed with a status. -/
inductive OpPhase where
  | queued
  | waiting
  | granted
  | running
  | ending (st : CStat)
  deriving DecidableEq, Repr

/-- An open LOOP level of a chain (R238). -/
structure ChLevel where
  trip : Nat
  count : Nat
  first : Int
  last : Int
  ss : Int
  ds : Int
  deriving DecidableEq, Repr

/-- The entry a chain is executing (R236). -/
structure ChCur where
  job : Job
  k : Compl
  bar : BarCnt
  phase : OpPhase
  prog : Nat
  deriving DecidableEq, Repr

/-- A numbered operation of a copy queue (R219 to R221). -/
structure CopyOp where
  n : Nat
  body : OpBody
  k : Compl
  bar : BarCnt
  snap : List (Nat × Handle)
  fo : Option Word96
  pre : Option CStat
  phase : OpPhase
  prog : Nat
  p : Int
  levels : List ChLevel
  cur : Option ChCur
  clk : Clock
  seen : Nat
  home : Nat
  cut : Option Nat
  deriving DecidableEq, Repr

/-- A copy queue (R219, R222). -/
structure CopyQ where
  assigned : Nat
  completed : Nat
  firstFail : Nat
  ops : List CopyOp
  done : List Nat
  recs : List (Nat × CStat)
  clks : List (Nat × Clock)
  deriving DecidableEq, Repr

def CopyQ.empty : CopyQ := ⟨0, 0, 0, [], [], [], []⟩

/-- Status of a completed fabric operation (Table 12.3). -/
structure FStat where
  code : Nat
  sub : Nat
  side : Nat
  dev : Nat
  deriving DecidableEq, Repr

/-- Where a fabric operation stands (R339, R345). -/
inductive FabPhase where
  | queued
  | sent (seq resends since : Nat)
  deriving DecidableEq, Repr

/-- A numbered operation of the fabric queue (R339): with the first hops that its packets took, those that they keep away from when they are
sent again (R345), whether the packet that raises its flag has left (R362), and the replies of members that have come (R349). -/
structure FabOp where
  n : Nat
  kind : FabKind
  remote : Handle
  localH : Handle
  ro : Int
  lo : Int
  bad : Bool
  sig : Option Nat
  phase : FabPhase
  inc : Nat
  members : List (Nat × Nat)
  prog : Nat
  got : List Byte
  ports : List Nat
  avoid : List Nat
  flagOut : Bool
  acks : List MemberReply
  clk : Clock
  cut : Option Nat
  deriving DecidableEq, Repr

/-- The fabric queue of a core (R339, R340). -/
structure FabQ where
  assigned : Nat
  completed : Nat
  firstFail : Nat
  ops : List FabOp
  done : List Nat
  recs : List (Nat × FStat)
  clks : List (Nat × Clock)
  deriving DecidableEq, Repr

def FabQ.empty : FabQ := ⟨0, 0, 0, [], [], [], []⟩

/-- Run state of a core's Helm: no task, running, halted at the end of a phase, waiting in YIELD (R155, R320). -/
inductive HelmRun where
  | idle | running | halted | yielding
  deriving DecidableEq, Repr

/-- One core (Table 5.1 and the tables it names). `forked` and `dropped` say whether a FORK and a JOIN 1 came since the last restore, and
`touched` the queues and tiles that the groups committed in the newest cycle changed (R16); `ecc` names granules of tiles, accumulator
rows and queue slots that hold a double-bit error (R417). `numGen` counts the restores since the last change of world: the numbers of
operations go on from a save, so one number may name operations on either side of a restore (R246, log 9). -/
structure Core where
  hrun : HelmRun
  haltLine : Bool
  task : Option (Nat × Nat)
  x : Tab X64
  c : BitVec 8
  slates : List Slate
  h : Tab Handle
  status : X64
  cause : X64
  epc : X64
  etval : X64
  tvec : X64
  world : Nat
  gang : X64
  cycle0 : Int
  qmapbase : X64
  padm : X64
  ftbase : X64
  savebase : X64
  hs : StreamSt
  ls : StreamSt
  ss : StreamSt
  vs : StreamSt
  ms : StreamSt
  pend : List Pend
  progress : Nat
  depths : List Nat
  vq : Tab (List VEnt)
  heads : Tab Nat
  sr : Tab (List SEnt)
  binds : Tab (List (Nat × Nat))
  k : Tab Pred
  mask : List Pred
  drowsy : List Nat
  tiles : Tab TileSt
  mx : Mx
  minCls : Nat
  ftSnap : BitVec 16
  fos : List FollowOn
  foa : BitVec 32
  foc : BitVec 32
  passOver : Nat
  passFo : Nat
  offers : List (Nat × Nat × FollowOn)
  inFlight : List Bool
  cqs : List CopyQ
  fab : FabQ
  filled : List (Nat × Nat)
  absent : List Nat
  fillFrom : X64
  forked : Bool
  dropped : Bool
  touched : List (Nat × Stream × List Nat)
  ecc : List Nat
  veil : BitVec 256
  detEpoch : Nat
  numGen : Nat
  fenced : Bool
  deriving DecidableEq, Repr

def Slate.empty : Slate := ⟨0, false, .empty⟩

def Slot.empty : Slot := ⟨0, 0, 0⟩

/-- The Matrix engine at task start (R248): table entries 0x0033, full bucket of 4,096 units in fifths. -/
def Mx.init (acc : Tab Vec) : Mx :=
  { ws0 := .empty, ws1 := .empty, ftab := List.replicate 16 0x0033, sel := .fixed 0, acc := acc, cls := 0,
    bucket := 20480, charged := 0, waited := 0, refilled := 0, waitSince := none }

/-- STATUS at task start, in task mode: IE is 1 (Table 5.3). -/
def statusReset : X64 := 0b00100

/-- A core after device reset (log 5). -/
def Core.init : Core :=
  { hrun := .idle, haltLine := false, task := none, x := [], c := 0x80, slates := List.replicate 10 .empty, h := [],
    status := statusReset, cause := 0, epc := 0, etval := 0, tvec := 0, world := 0, gang := 0, cycle0 := 0, qmapbase := 0,
    padm := 0, ftbase := 0, savebase := 0, hs := .idle, ls := .idle, ss := .idle, vs := .idle, ms := .idle, pend := [],
    progress := 0, depths := List.replicate 64 16, vq := [], heads := [], sr := [], binds := [], k := [], mask := [], drowsy := [],
    tiles := [], mx := .init [], minCls := 0, ftSnap := 0, fos := [], foa := 0, foc := 0, passOver := 0, passFo := 0, offers := [], inFlight := [],
    cqs := List.replicate 4 .empty, fab := .empty, filled := [], absent := [], fillFrom := 0, forked := false, dropped := false, touched := [],
    ecc := [], veil := 0, detEpoch := 0, numGen := 0, fenced := false }

/-- Whoever waits on a semaphore (R284, R285). -/
inductive SemWaiter where
  | strm (core : Nat) (st : Stream) (k : Nat)
  | copy (core q n : Nat)
  | task (die idx inc : Nat)
  deriving DecidableEq, Repr

/-- A counting semaphore (R284). -/
structure Sem where
  value : BitVec 32
  waiters : List SemWaiter
  clk : Clock
  deriving DecidableEq, Repr

def Sem.zero : Sem := ⟨0, [], []⟩

/-- A waiter of a barrier generation (R291): record key, generation, core, whether it arrived (BARR fn 1), and where its arrival stamped the
race-detection sector of the record, that stamp and what the sector held before, to which a withdrawal takes it back (R281). -/
structure BarW where
  key : Nat
  gen : Nat
  core : Nat
  arrived : Bool
  was : Option (Stamp × Sector)
  deriving DecidableEq, Repr

/-- What the engine keeps of a record beside its bytes, from its initialisation on: the knowledge of each arrival of the open generation,
under the core that waits with it or under 768, and of the generations completed (R293), and the last epoch that one of them completed,
with its gang (R106). -/
structure BarClk where
  arrive : List (Nat × Clock)
  depart : Clock
  epoch : Nat
  gang : Nat
  deriving DecidableEq, Repr

def BarClk.none : BarClk := ⟨[], [], 0, 0⟩

/-- The sync heap of a world on a die (R301, R302). -/
structure Heap where
  base : Nat
  length : Nat
  runs : List (Nat × Nat)
  deriving DecidableEq, Repr

/-- Task states (Table 11.2). -/
inductive TaskSt where
  | free | waiting | ready | running | held | done | yielded
  deriving DecidableEq, Repr

/-- A task control block as read (Table 11.3). -/
structure Tcb where
  sup : Bool
  ten : Bool
  res : Bool
  fsig : Bool
  pri : Nat
  dpri : Nat
  hold : Bool
  gsize : Nat
  die : Nat
  narg : Nat
  nh : Nat
  lrec : Nat
  tvec : Nat
  resume : Nat
  ws : Nat
  wcount : Nat
  fs : Nat
  sigs : List Nat
  n : Nat
  save : Nat
  tok : X64
  args : List X64
  himg : List Handle
  pro : Nat
  ker : Nat
  epi : Nat
  stages : Nat
  deriving DecidableEq, Repr

/-- Where the engine writes RECORD (R305): through the launcher's snapshot, or at an address of the world (R423). -/
inductive RecAt where
  | none
  | viaHandle (h : Handle) (off : Int) (core : Nat)
  | viaWorld (va : Nat)
  deriving DecidableEq, Repr

/-- The outcome a record holds (Table 11.4). -/
structure TaskRec where
  status : Nat
  sub : Nat
  stream : Nat
  group : Nat
  value : X64
  deriving DecidableEq, Repr

/-- A task-table entry (R303 to R331). Phases: 0 prologue, 1 kernel, 2 epilogue, 3 none left. -/
structure Task where
  inc : BitVec 32
  st : TaskSt
  world : Nat
  future : Bool
  tcb : Tcb
  code : Handle
  recAt : RecAt
  pri : Nat
  waitsLeft : Nat
  carry : List (Nat × Nat × Nat)
  cores : List Nat
  gid : Nat
  phase : Nat
  run : Nat
  placed : Bool
  outcome : TaskRec
  pub : Option X64
  pubClk : Clock
  reach : Nat
  refs : List (X64 × Nat)
  gpos : X64
  live : List (List Handle)
  phaseRegs : List (List X64 × List Pred)
  marked : Bool
  yieldPend : Bool
  yieldAt : Nat
  yieldPos : X64
  yielded : List Nat
  bars : List Nat
  clk : Clock
  saved : Bool
  waitBad : Bool
  areas : List X64
  fabs : List FabQ
  copies : List (List CopyQ)
  startNo : Nat
  seens : List Nat
  deriving DecidableEq, Repr

/-- World states (Table 13.1). -/
inductive WorldSt where
  | none | awaiting | live | ending
  deriving DecidableEq, Repr

/-- A rotation in progress (R376): progress marks of twelve regions, and the semaphore to signal. -/
structure Rot where
  marks : List Nat
  q : Nat
  share : Nat
  sig : Option (Nat × Nat)
  left : Nat
  deriving DecidableEq, Repr

/-- A window that has been opened; a sweep that matches its handle closes it and leaves the handle revoked (R338, R371, R425). -/
structure Window where
  opened : Bool
  h : Handle
  sources : List (Nat × Nat)
  deriving DecidableEq, Repr

/-- An imported window (R425): device, world, window, length. -/
structure Import where
  dev : Nat
  world : Nat
  win : Nat
  len : Nat
  deriving DecidableEq, Repr

/-- A multicast group entry (R346). -/
structure Group where
  valid : Bool
  inc : BitVec 32
  win : Nat
  members : List (Nat × Nat)
  deriving DecidableEq, Repr

/-- A world as the Lodestar holds it (R363 to R396). -/
structure World where
  st : WorldSt
  berth : Nat
  owners : Nat
  guarM : Nat
  guarS : Nat
  nonce : BitVec 256
  shares : List (Nat × BitVec 256)
  prk : BitVec 256
  veils : List (BitVec 256)
  gen : Nat
  rot : Option Rot
  root : Nat
  floor : Nat
  ranges : List (Nat × Nat)
  frozen : List (Nat × Nat × BitVec 256)
  nextSerial : Nat
  sweepNo : Nat
  trT : BitVec 256
  trCount : Nat
  readSet : List Nat
  repSeq : Nat
  viol : List (Nat × Nat × Nat × Nat × Nat)
  violCount : Nat
  integ : Nat
  overruns : Nat
  rotated : Bool
  identity : Bool
  takeover : Bool
  late : Bool
  windows : Tab Window
  imports : List Import
  groups : Tab Group
  manifest : Option Manifest
  deriving DecidableEq, Repr

/-- What a sweep does: revoke serials, or freeze a region (R371, R394). -/
inductive SweepOp where
  | revoke (first count : Nat)
  | freeze (base len : Nat)
  deriving DecidableEq, Repr

/-- A request of a Helm to the Lodestar, with its operands as they were at issue (R389 to R396, R425). -/
inductive LReq where
  | mint (template : Handle) (off : Int) (hd : HReg)
  | reseal (hd : HReg)
  | revoke (record : Handle) (off : Int) (first count : Nat)
  | share (blob : Handle) (off : Int) (x : X64)
  | rotate (sig : Option (BitVec 8))
  | scrub (mask : BitVec 4)
  | freeze (region digest : Handle) (off : Int)
  | report (buf nonce : Handle) (off offn : Int)
  | trans (h : Handle) (off : Int)
  | worldState
  | worldRoot (pa : Nat)
  | worldProgress (j : Nat)
  | worldClock
  | exportWin (h : Handle) (xa xb : X64)
  | importWin (xa xb : X64)
  | closeWin (xa xb : X64)
  deriving DecidableEq, Repr

/-- Who asks the Lodestar: a Helm, the Task engine or the end of a world for a sweep, a TDI's mailbox (R317, R366, R372, R410). -/
inductive Asker where
  | core (c : Nat) (r : LReq)
  | sweep (world : Nat) (op : SweepOp)
  | host (tdi : Nat)
  deriving DecidableEq, Repr

/-- A request in the order of arrival: its clock at arrival, and whether its question to another device has gone out (R425, R426). -/
structure LodeAsk where
  who : Asker
  since : Nat
  asked : Bool
  deriving DecidableEq, Repr

/-- The sweep in progress (R371, R373): the agents still to report, the counts of its record, the core that asked for it and the
bytes that its result goes to. -/
structure Sweep where
  world : Nat
  op : SweepOp
  todo : List SweepAgent
  at0 : Nat
  regs : Nat
  before : Nat
  cut : Nat
  images : Nat
  wins : Nat
  who : Option Nat
  dst : List Nat
  marked : List SweepAgent
  deriving DecidableEq, Repr

/-- TDISP states (R409). -/
inductive TdiSt where
  | unlocked | locked | run | error
  deriving DecidableEq, Repr

/-- A function of the host link: its TDI state, mailbox, error register and base address registers, and whether a stop of its TDI is under
way (R408 to R412). -/
structure Tdi where
  st : TdiSt
  mbx : X64
  buf : List Byte
  err : X64
  bars : List X64
  stopping : Bool
  deriving DecidableEq, Repr

def Tdi.init : Tdi := ⟨.unlocked, 0, [], 0, List.replicate 6 0, false⟩

/-- Port states (Table 12.6). -/
inductive PortSt where
  | down | training | attesting | opened | recovery | closed | idle
  deriving DecidableEq, Repr

/-- Progress of an SPDM session (R356): the messages exchanged so far and what they showed, the peer's public key, the session identifier
(Table 13.2) and the number of the draw that gave its application secret. -/
structure Spdm where
  stage : Nat
  algs : Bool
  peer : Nat
  policy : Bool
  mutAuth : Bool
  key : List Byte
  sid : Nat
  secret : Nat
  deriving DecidableEq, Repr

def Spdm.none : Spdm := ⟨0, false, 1023, false, false, [], 0, 0⟩

/-- A remote request part-way through at this target (R342, R352, R353): the places of what has been applied or is held, the held pairs, the
first refusal, and the total and the flag once the packet that closes the operation has come. -/
structure Incoming where
  id : ReqId
  w : WinRef
  got : List (Nat × Nat)
  pairs : List (Nat × SPair)
  nak : Nat
  close : Option (Nat × Nat)
  deriving DecidableEq, Repr

/-- A pair in the merge table of a hub router, the device that it is bound for, and when it came (R352). -/
structure MergeEnt where
  hub : Nat
  dst : Nat
  w : WinRef
  fadd : Bool
  pair : SPair
  since : Nat
  deriving DecidableEq, Repr

/-- A branch of a replication tree at this device (R349): the port that the copy came by, the members still to answer, the replies. -/
structure Branch where
  id : ReqId
  back : Nat
  todo : List Nat
  got : List MemberReply
  deriving DecidableEq, Repr

/-- What left the device: packets with the port of their first hop, replies, reports (R336, R340, R386, R410; log 1). -/
inductive Out where
  | packet (port dev : Nat) (id : ReqId) (w : WinRef) (what : FabKind) (off : Int) (flag : Option Int) (data : List Byte)
  | reply (port : Nat) (id : ReqId) (off : Nat) (r : Reply)
  | confirm (port dev : Nat) (id : ReqId)
  | copies (port : Nat) (id : ReqId) (here : Bool) (members : List Nat) (w : WinRef) (what : FabKind) (off : Int) (data : List Byte)
  | forward (port : Nat) (what : Transit)
  | pairs (port dst : Nat) (w : WinRef) (fadd det : Bool) (ps : List SPair)
  | merged (port : Nat) (id : ReqId) (rs : List MemberReply)
  | position (world role : Nat) (body : List Byte) (mac : BitVec 256)
  | report (world role : Nat) (body : List Byte)
  | mailbox (tdi : Nat) (body : List Byte)
  | manifest (world : Nat) (m : Manifest)
  | interface (tdi : Nat) (desc : BitVec 256) (bars : List X64)
  | window (q : WinQuery) (admitted : Bool) (len : Nat)
  | ask (core : Nat) (q : WinQuery)
  deriving DecidableEq, Repr

/-- A packet on the wire of a port (R357): its counter and nonce, the header that is authenticated, what AES-256-GCM makes of the rest, and
the tag. -/
structure Wire where
  port : Nat
  counter : Nat
  nonce : List Byte
  header : List Byte
  body : List Byte
  tag : List Byte
  deriving DecidableEq, Repr

/-- A Stolor port (R333, R334, R357 to R361): with its traffic keys, the receiver's last key and the packets accepted under the present
one, the counters at which tags failed, what waits for the end of a recovery, the retry buffer, and whether it is fenced (R419). -/
structure Port where
  st : PortSt
  lanes : Nat
  spareUsed : Bool
  spareBad : Bool
  peer : Nat
  retry : Nat
  step : Nat
  tx : Nat
  rx : Nat
  txEpoch : Nat
  rxEpoch : Nat
  txKey : BitVec 256
  rxKey : BitVec 256
  rxOld : Option (BitVec 256)
  rxNew : Nat
  fails : List Nat
  hold : List Out
  buf : List Out
  spdm : Spdm
  since : Nat
  fenced : Bool
  deriving DecidableEq, Repr

def Port.init : Port :=
  { st := .down, lanes := 0, spareUsed := false, spareBad := false, peer := 1023, retry := 0, step := 0, tx := 0, rx := 0, txEpoch := 0,
    rxEpoch := 0, txKey := 0, rxKey := 0, rxOld := none, rxNew := 0, fails := [], hold := [], buf := [], spdm := .none, since := 0, fenced := false }

/-- A berth (R397, R399): its 256-bit descriptor, the worlds in the order they became LIVE, the world whose slice it is. `guarM` and `guarS`
are the moored clusters and the SHARE of the descriptor as function 0 wrote it, `degraded` says that it has not been rewritten since the
berth was DEGRADED (R403, R405), and `zeroKey` is the key of its fresh lines (R97). -/
structure Berth where
  desc : BitVec 256
  guarM : Nat
  guarS : Nat
  degraded : Bool
  zeroKey : BitVec 256
  order : List Nat
  cur : Nat
  inSlice : Bool
  sliceEnd : Nat
  freshDone : Bool
  deriving DecidableEq, Repr

def Berth.free : Berth := ⟨0, 0, 0, false, 0, [], 0, false, 0, false⟩

/-- A lent cluster (R400, R401). -/
structure Lend where
  cluster : Nat
  owner : Nat
  borrower : Nat
  demanded : Option Nat
  deriving DecidableEq, Repr

/-- Leaf counters of a Lodestar (R382): the top leaf in use and the next, the next bottom leaf, and the blocks stored. -/
structure Leaves where
  top : Nat
  topNext : Nat
  topStored : Nat
  bot : Nat
  botStored : Nat
  deriving DecidableEq, Repr

def Leaves.init : Leaves := ⟨0, 1, 1, 0, 0⟩

/-- A fence of the fence order (R104). -/
structure FenceRec where
  world : Nat
  core : Nat
  gang : Nat
  scope : Nat
  clk : Clock
  deriving DecidableEq, Repr

/-- A cached reply of a target (R345). -/
structure Cached where
  id : ReqId
  reply : Reply
  deriving DecidableEq, Repr

/-- A turn of the schedule (log 1): a stream of a core, or an event of the opcode table. -/
inductive Turn where
  | stream (core : Nat) (st : Stream)
  | event (e : Instr)
  deriving DecidableEq, Repr

/-- A translation that a TLB caches (R92): a page, and the number of the copy of its leaf, by address in units of what a copy serves
(R90). -/
structure TlbEnt where
  world : Nat
  va : Nat
  size : Nat
  copy : Nat
  pa : Nat
  w : Bool
  x : Bool
  deriving DecidableEq, Repr

/-- No world at an identifier (R363). -/
def World.blank : World :=
  { st := .none, berth := 0, owners := 0, guarM := 0, guarS := 0, nonce := 0, shares := [], prk := 0, veils := [], gen := 1, rot := none,
    root := 0, floor := 0, ranges := [], frozen := [], nextSerial := 1, sweepNo := 0, trT := 0, trCount := 0, readSet := [], repSeq := 0,
    viol := [], violCount := 0, integ := 0, overruns := 0, rotated := false, identity := false, takeover := false,
    late := false, windows := [], imports := [], groups := [], manifest := none }

/-- A control block of no task. -/
def Tcb.blank : Tcb :=
  { sup := false, ten := false, res := false, fsig := false, pri := 0, dpri := 0, hold := false, gsize := 0, die := 0,
    narg := 0, nh := 0, lrec := 0, tvec := 0, resume := 0, ws := 0, wcount := 0, fs := 0, sigs := [], n := 0, save := 0,
    tok := 0, args := [], himg := [], pro := 0, ker := 0, epi := 0, stages := 0 }

/-- A task-table entry that no task has taken (R303). -/
def Task.free : Task :=
  { inc := 0, st := .free, world := 0, future := false, tcb := .blank, code := .cleared, recAt := .none, pri := 0,
    waitsLeft := 0, carry := [], cores := [], gid := 0, phase := 0, run := 0, placed := false,
    outcome := ⟨0, 0, 0, 0, 0⟩, pub := none, pubClk := [], reach := 0, refs := [], gpos := 0, live := [], phaseRegs := [], marked := false,
    yieldPend := false, yieldAt := 0, yieldPos := 0, yielded := [], bars := [], clk := [], saved := false, waitBad := false,
    areas := [], fabs := [], copies := [], startNo := 0, seens := [] }

/-- The whole package. `flagClks` holds, by word, what an observer of the last flag increments learns (R112), `lost`
the lines of HBM that retired with no place to move to (R404), `deadChans` channels that did, `fencedChans` those that are cut off (R419),
`swapping` the cores that a core of the die's spare cluster replaces at their next change of world (R402), `semEcc` the semaphores whose word
holds a double-bit error (R417). -/
structure State where
  now : Nat
  fresh : Nat
  agenda : List Turn
  cur : Nat
  curSt : Stream
  power : Bool
  stage : Nat
  failed : Nat
  mem : List Host.Cell
  lines : Tab Line
  sectors : Tab Sector
  ecc2 : List Nat
  semEcc : List Nat
  releases : Tab Clock
  flagClks : Tab Clock
  tlb1 : Tab (List TlbEnt)
  tlb2 : Tab (List TlbEnt)
  cores : Tab Core
  sems : Tab Sem
  barWs : List BarW
  barClks : Tab BarClk
  heaps : Tab Heap
  tasks : Tab Task
  ready : Tab (List Nat)
  nextGid : Tab Nat
  epochs : Tab Nat
  fences : List FenceRec
  worlds : Tab World
  sweep : Option Sweep
  sweepDone : Option Sweep
  lodeQ : List LodeAsk
  berths : Tab Berth
  lends : List Lend
  deadClusters : List Nat
  spareCore : List Nat
  spareCluster : List Nat
  retiring : List HwUnit
  unitErrs : List (HwUnit × Nat)
  deadChans : List Nat
  fencedChans : List Nat
  swapping : List Nat
  banksUsed : Tab Nat
  hbmTaken : Nat
  lost : List Nat
  lodeFenced : List Nat
  tdis : Tab Tdi
  vfOwner : Tab Nat
  ide : Tab (Nat × Nat)
  owned : List (Nat × Nat × Spdm)
  hostSpdm : Tab Spdm
  ports : Tab Port
  routes : Tab (BitVec 32)
  fabId : Nat
  fabIdSet : Bool
  incarnation : Nat
  peerInc : Tab Nat
  seq : Nat
  cache : Tab (List Cached)
  incoming : List Incoming
  merge : List MergeEnt
  branches : List Branch
  out : List Out
  wire : List Wire
  leaves : Tab Leaves
  p384Leaf : Tab (Nat × Nat)
  reportAt : Nat
  standby : Bool
  alarms : Nat
  powerLimit : Nat
  powerAt : Nat
  startNo : Nat
  deriving DecidableEq, Repr

/-- The package right after power-on reset, before any bring-up stage has run (R413, log 5). -/
def State.reset : State :=
  { now := 0, fresh := 0, agenda := [], cur := 0, curSt := .h, power := true, stage := 0, failed := 0, mem := [], lines := [],
    sectors := [], ecc2 := [], semEcc := [], releases := [], flagClks := [], tlb1 := [], tlb2 := [], cores := [], sems := [], barWs := [],
    barClks := [], heaps := [], tasks := [], ready := [], nextGid := [], epochs := [], fences := [], worlds := [],
    sweep := none, sweepDone := none, lodeQ := [], berths := [], lends := [], deadClusters := [], spareCore := [], spareCluster := [],
    retiring := [], unitErrs := [], deadChans := [], fencedChans := [], swapping := [], banksUsed := [], hbmTaken := 0,
    lost := [], lodeFenced := [], tdis := [], vfOwner := [], ide := [], owned := [], hostSpdm := [], ports := [], routes := [],
    fabId := 0, fabIdSet := false, incarnation := 0, peerInc := [], seq := 0, cache := [], incoming := [], merge := [],
    branches := [], out := [], wire := [], leaves := [], p384Leaf := [], reportAt := 0,
    standby := false, alarms := 0, powerLimit := 2600, powerAt := 0, startNo := 0 }

end Sys2Proof.Machine
end

