-- ==== Sys2Proof/Machine/Get.lean ====
section
/-! DEFINITION. Accessors: cores, streams, registers, keys, happens-before clocks, the free counter. -/
namespace Sys2Proof.Machine

/-! Places. -/

/-- Compute die and cluster of a logical core (R8). -/
def dieOf (c : Nat) : Nat := c / 96
def clusterOf (c : Nat) : Nat := c / 8

/-- First key of a berth's physical space, of scratchpad space, of a core's instruction memory. -/
def hbmKey (berth pa : Nat) : Nat := berth * 2 ^ 40 + pa
def scrKey (a : Nat) : Nat := 2 ^ 48 + a
def imemKey (c b : Nat) : Nat := 2 ^ 49 + c * 196608 + b

/-- A core's scratchpad start in package scratchpad space (R79). -/
def scrBase (c : Nat) : Nat := c * 2097152

/-- Keys of the die tables. -/
def semKey (world die n : Nat) : Nat := world * 2048 + die * 256 + n
def heapKey (world die : Nat) : Nat := world * 8 + die
def taskKey (die idx : Nat) : Nat := die * 4096 + idx
def readyKey (die world pri : Nat) : Nat := (die * 4096 + world) * 16 + pri
def gangKey (die gid : Nat) : Nat := die * 65536 + gid

/-- Numbers of the streams in CAUSE (Table 5.4). -/
def streamNum : Stream → Nat
  | .h => 0 | .l => 1 | .s => 2 | .v => 3 | .m => 4

/-! Cores and streams. -/

def State.core (s : State) (c : Nat) : Core := (tabFind s.cores c).getD .init
def State.setCore (s : State) (c : Nat) (k : Core) : State := { s with cores := tabSet s.cores c k }
def State.modCore (s : State) (c : Nat) (f : Core → Core) : State := s.setCore c (f (s.core c))

def Core.strm (k : Core) : Stream → StreamSt
  | .h => k.hs
  | .l => k.ls
  | .s => k.ss
  | .v => k.vs
  | .m => k.ms

def Core.setStrm (k : Core) (st : Stream) (v : StreamSt) : Core :=
  match st with
  | .h => { k with hs := v }
  | .l => { k with ls := v }
  | .s => { k with ss := v }
  | .v => { k with vs := v }
  | .m => { k with ms := v }

def Core.modStrm (k : Core) (st : Stream) (f : StreamSt → StreamSt) : Core := k.setStrm st (f (k.strm st))

def State.strm (s : State) (c : Nat) (st : Stream) : StreamSt := (s.core c).strm st
def State.setStrm (s : State) (c : Nat) (st : Stream) (v : StreamSt) : State := s.modCore c fun k => k.setStrm st v
def State.modStrm (s : State) (c : Nat) (st : Stream) (f : StreamSt → StreamSt) : State :=
  s.modCore c fun k => k.modStrm st f

/-- The core and the stream that the step serves. -/
def State.me (s : State) : Core := s.core s.cur
def State.setMe (s : State) (k : Core) : State := s.setCore s.cur k
def State.modMe (s : State) (f : Core → Core) : State := s.modCore s.cur f

/-- x registers: x0 reads zero and discards writes (R113). -/
def Core.getX (k : Core) (r : XReg) : X64 := if r = 0 then 0 else (tabFind k.x r.toNat).getD 0
def Core.setX (k : Core) (r : XReg) (v : X64) : Core := if r = 0 then k else { k with x := tabSet k.x r.toNat v }

/-- c registers: c7 reads true and discards writes (R113). -/
def Core.getC (k : Core) (r : CReg) : Bool := if r = 7 then true else k.c.getLsbD r.toNat
def Core.setC (k : Core) (r : CReg) (v : Bool) : Core :=
  if r = 7 then k
  else { k with c := if v then k.c ||| ((1 : BitVec 8) <<< r.toNat) else k.c &&& ~~~((1 : BitVec 8) <<< r.toNat) }

def Core.getH (k : Core) (r : HReg) : Handle := (tabFind k.h r.toNat).getD .cleared
def Core.setH (k : Core) (r : HReg) (v : Handle) : Core := { k with h := tabSet k.h r.toNat v }

/-- The code handle (R32). -/
def Core.code (k : Core) : Handle := k.getH 2

/-- MODE of STATUS (Table 5.3): true in supervisor mode. -/
def Core.supervisor (k : Core) : Bool := k.status.getLsbD 0
/-- IE of STATUS. -/
def Core.ie (k : Core) : Bool := k.status.getLsbD 2
/-- VFTZ of STATUS (R69). -/
def Core.vftz (k : Core) : Bool := k.status.getLsbD 4

/-- Where a slate register lives: b6 and b7 are banked by mode (R115). -/
def Core.slateIx (k : Core) (b : BReg) : Nat := if b.toNat < 6 then b.toNat else if k.supervisor then b.toNat + 2 else b.toNat
def Core.slate (k : Core) (b : BReg) : Slate := k.slates.getD (k.slateIx b) .empty
def Core.setSlate (k : Core) (b : BReg) (v : Slate) : Core := { k with slates := listPut k.slates (k.slateIx b) v }

/-- Writing instruction memory empties every slate buffer and leaves targets and valid bits (R125). -/
def Core.dropBuffers (k : Core) : Core := { k with slates := k.slates.map fun b => { b with buf := .empty } }

/-- CodeLengthGranules of a code handle (R32). -/
def codeLenOf (h : Handle) : Nat := min (h.length.toNat / 4) 49152

def State.codeLen (s : State) : Nat := codeLenOf s.me.code

/-- GANG fields (Table 5.5). -/
def Core.gid (k : Core) : Nat := fieldOf k.gang.toNat 31 16
def Core.gsize (k : Core) : Nat := fieldOf k.gang.toNat 14 8
def Core.rank (k : Core) : Nat := fieldOf k.gang.toNat 6 0

def State.world (s : State) (w : Nat) : World := (tabFind s.worlds w).getD .blank
def State.setWorld (s : State) (w : Nat) (v : World) : State := { s with worlds := tabSet s.worlds w v }
def State.modWorld (s : State) (w : Nat) (f : World → World) : State := s.setWorld w (f (s.world w))

def State.berth (s : State) (b : Nat) : Berth := (tabFind s.berths b).getD .free
def State.setBerth (s : State) (b : Nat) (v : Berth) : State := { s with berths := tabSet s.berths b v }

def State.taskAt (s : State) (die idx : Nat) : Task := (tabFind s.tasks (taskKey die idx)).getD .free
def State.setTask (s : State) (die idx : Nat) (t : Task) : State := { s with tasks := tabSet s.tasks (taskKey die idx) t }
def State.modTask (s : State) (die idx : Nat) (f : Task → Task) : State := s.setTask die idx (f (s.taskAt die idx))

/-- The task of a core, with its die and index. -/
def State.taskOf (s : State) (c : Nat) : Option (Nat × Nat) := (s.core c).task

/-- Cores of the gang of a core, in rank order; a core alone when it runs no task. -/
def State.gangCores (s : State) (c : Nat) : List Nat :=
  match s.taskOf c with
  | some (d, i) => (s.taskAt d i).cores
  | none => [c]

/-- The rank-0 core of the gang: the home core of barrier records (R288). -/
def State.homeCore (s : State) (c : Nat) : Nat := (s.gangCores c).headD c

/-! Berth descriptor fields (Table 14.1). -/

def Berth.moored (b : Berth) : Nat := fieldOf b.desc.toNat 255 184
def Berth.slack (b : Berth) : Nat := fieldOf b.desc.toNat 183 112
def Berth.share (b : Berth) : Nat := fieldOf b.desc.toNat 111 102
def Berth.portw (b : Berth) : Nat := fieldOf b.desc.toNat 101 95
def Berth.rank (b : Berth) : Nat := fieldOf b.desc.toNat 94 87
def Berth.slice (b : Berth) : Nat := fieldOf b.desc.toNat 86 77
def Berth.wmax (b : Berth) : Nat := fieldOf b.desc.toNat 76 72
def Berth.tdi (b : Berth) : Nat := fieldOf b.desc.toNat 71 63
/-- 0 FREE, 1 ACTIVE, 2 DEGRADED. -/
def Berth.state (b : Berth) : Nat := fieldOf b.desc.toNat 62 61
def Berth.lend (b : Berth) : Bool := b.desc.getLsbD 60
/-- Set STATE. -/
def Berth.withState (b : Berth) (n : Nat) : Berth :=
  { b with desc := (b.desc &&& ~~~((3 : BitVec 256) <<< 61)) ||| (BitVec.ofNat 256 n <<< 61) }

/-- Bytes of a berth's HBM share (R88). -/
def Berth.shareBytes (b : Berth) : Nat := b.share * 2 ^ 30

/-! Free values and outcomes. -/

abbrev Out3 := Host.Outcome State Fault Refusal

/-- The next free value's index; the counter moves on. -/
def State.draw (s : State) : Nat × State := (s.fresh, { s with fresh := s.fresh + 1 })

def State.emit (s : State) (o : Out) : State := { s with out := s.out ++ [o] }

/-- The core has made progress (R22): its stall count starts anew. -/
def State.progressed (s : State) (c : Nat) : State := s.modCore c fun k => { k with progress := s.now }

/-! Happens-before knowledge (R98, R99, R106; log 9). -/

def clkGet (c : Clock) (a : Agent) : Option Nat := (c.find? fun e => e.1 == a).map (·.2)

def clkPut : Clock → Agent → Nat → Clock
  | [], a, n => [(a, n)]
  | (b, m) :: t, a, n => if b = a then (b, max m n) :: t else (b, m) :: clkPut t a n

def clkJoin (a b : Clock) : Clock := b.foldl (fun acc e => clkPut acc e.1 e.2) a

/-- Numbers of operations are kept apart by the detection epoch of their core and by its restores since (R106, R110, R246). -/
def Core.opNo (k : Core) (n : Nat) : Nat := (k.detEpoch * 2 ^ 32 + k.numGen) * 2 ^ 64 + n

/-- Does the knowledge include an agent's region? An operation is also known through a prefix of its queue (R110). -/
def clkKnows (c : Clock) (a : Agent) (r : Nat) : Bool :=
  match a with
  | .op core q n =>
    c.any fun e =>
      match e.1 with
      | .op core' q' n' => core' == core && q' == q && n' == n
      | .upto core' q' => core' == core && q' == q && decide (n ≤ e.2) && n / 2 ^ 64 == e.2 / 2 ^ 64
      | .strm _ _ | .departed _ _ => false
  | _ =>
    match clkGet c a with
    | some n => decide (r ≤ n)
    | none => false

/-- What a stream knows, its own present region included. -/
def State.clkOf (s : State) (c : Nat) (st : Stream) : Clock :=
  let v := s.strm c st
  clkPut v.clk (.strm c st) v.region

/-- The region advances at every source and destination of an edge (R106). -/
def State.tick (s : State) (c : Nat) (st : Stream) : State := s.modStrm c st fun v => { v with region := v.region + 1 }

/-- The destination of an edge: what its source knew joins, and the region advances. -/
def State.learn (s : State) (c : Nat) (st : Stream) (k : Clock) : State :=
  s.modStrm c st fun v => { v with clk := clkJoin v.clk k, region := v.region + 1 }

/-- The agent of operation n of a queue of a core; queue 4 is the fabric queue. -/
def State.opAgent (s : State) (c q n : Nat) : Agent := .op c q ((s.core c).opNo n)

/-- Knowledge of every operation of a queue up to n (R110): the operations and what they followed. -/
def State.uptoClk (s : State) (c q n : Nat) (clks : List (Nat × Clock)) : Clock :=
  (clks.filter fun e => decide (e.1 ≤ n)).foldl (fun acc e => clkJoin acc e.2)
    [(.upto c q, (s.core c).opNo n)]

/-! The sequencer (R34, R40). -/

/-- A stream's pc. -/
def State.setPc (s : State) (c : Nat) (st : Stream) (pc : BitVec 16) : State := s.modStrm c st fun v => { v with pc := pc }

/-- Retire the open section instance of L, S, V or M (R40). -/
def State.retireSection (s : State) (c : Nat) (st : Stream) : State :=
  let v := s.strm c st
  let n := v.count.toNat
  s.setStrm c st { v with
    sec := none
    broke := false
    count := v.count + 1
    early := v.early && decide (n + 1 ≠ 128)
    rets := (n, s.clkOf c st) :: v.rets.take 255
    region := v.region + 1 }

/-- After the sequencer moves to a granule: at the section's end the instance retires (R34, R40). -/
def State.sequence (s : State) (c : Nat) (st : Stream) (pc : BitVec 16) : State :=
  let s := (s.setPc c st pc).progressed c
  if (s.strm c st).sec = some pc.toNat then s.retireSection c st else s

/-- Would the sequencer leave the section from a granule with a level open (R180)? -/
def StreamSt.leavesOpen (v : StreamSt) (pc : BitVec 16) : Bool := v.sec == some pc.toNat && !v.levels.isEmpty

end Sys2Proof.Machine
end

