-- ==== Sys2Proof/Machine/Handle.lean ====
section
/-! DEFINITION. Handle images, seals, revocation and rights (R78 to R82, R367 to R370). -/
namespace Sys2Proof.Machine

/-- Rights bits of Table 4.2. -/
def Handle.r (h : Handle) : Bool := h.rights.getLsbD 7
def Handle.w (h : Handle) : Bool := h.rights.getLsbD 6
def Handle.a (h : Handle) : Bool := h.rights.getLsbD 5
def Handle.x (h : Handle) : Bool := h.rights.getLsbD 4
def Handle.f (h : Handle) : Bool := h.rights.getLsbD 3
def Handle.d (h : Handle) : Bool := h.rights.getLsbD 2
def Handle.z (h : Handle) : Bool := h.rights.getLsbD 1
def Handle.m (h : Handle) : Bool := h.rights.getLsbD 0

/-- Row pitch and element size of the shape (R81); codes above 0xC mean untyped bytes. -/
def Handle.pitch (h : Handle) : Nat := fieldOf h.shape.toNat 22 0
def Handle.elem (h : Handle) : Nat :=
  match Ty.ofCode (fieldOf h.shape.toNat 26 23) with
  | some t => t.size
  | none => 1
/-- Type code of the shape, codes above 0xC read as 0xF. -/
def Handle.tyCode (h : Handle) : Nat :=
  let c := fieldOf h.shape.toNat 26 23
  if c ≤ 12 then c else 15

/-- The 256-bit image of Table 13.3. -/
def Handle.image (h : Handle) : BitVec 256 :=
  h.format ++ h.rights ++ h.world ++ h.serial ++ h.base ++ h.length ++ h.shape ++ h.sealv

/-- A handle register from an image, with the sealed and revoked bits clear. -/
def Handle.ofImage (w : BitVec 256) : Handle :=
  { format := w.extractLsb' 248 8, rights := w.extractLsb' 240 8, world := w.extractLsb' 228 12,
    serial := w.extractLsb' 196 32, base := w.extractLsb' 139 57, length := w.extractLsb' 91 48,
    shape := w.extractLsb' 64 27, sealv := w.extractLsb' 0 64, isSealed := false, revoked := false }

def Handle.bytes (h : Handle) : List Byte := bytesOf 32 h.image.toNat
def Handle.ofBytes (bs : List Byte) : Handle := .ofImage (BitVec.ofNat 256 (Machine.ofBytes bs))

/-- Key(label, g) of a PRK (R365). -/
def worldKey (prk : BitVec 256) (label : List Byte) (g : Nat) : List Byte :=
  hkdfExpand (digestBytes prk) (label ++ beBytes 4 g)

/-- The labels of R365, in the characters of ASCII. -/
def sealLabel : List Byte := [0x73, 0x65, 0x61, 0x6C]
def reportLabel : List Byte := [0x72, 0x65, 0x70, 0x6F, 0x72, 0x74]

/-- Trunc64 of a MAC: its first eight bytes, the first of them lowest (log 7). -/
def trunc64 (mac : List Byte) : BitVec 64 := BitVec.ofNat 64 (Machine.ofBytes (mac.take 8))

/-- The seal of an image under a world's seal key (Table 13.3). -/
def World.sealOf (w : World) (h : Handle) : BitVec 64 :=
  trunc64 (cmac (worldKey w.prk sealLabel 0) (bytesOf 24 (h.image.extractLsb' 64 192).toNat))

/-- The image with its seal written and the register marked sealed. -/
def World.sealed (w : World) (h : Handle) : Handle := { h with sealv := w.sealOf h, isSealed := true }

/-- Revoked(serial) of R369; serial 0 never is. -/
def World.isRevoked (w : World) (serial : Nat) : Bool :=
  serial != 0 && (decide (serial < w.floor) || w.ranges.any fun r => decide (r.1 ≤ serial) && decide (serial < r.1 + r.2))

/-- SealValid(img) of R368. -/
def State.sealValid (s : State) (h : Handle) : Bool :=
  let w := s.world h.world.toNat
  w.st == .live && w.sealOf h == h.sealv

/-- Does a handle's range overlap a frozen region of its world (R370)? -/
def World.overlapsFrozen (w : World) (base len : Nat) : Bool :=
  w.frozen.any fun f => decide (base < f.1 + f.2.1) && decide (f.1 < base + len) && decide (0 < len)

/-- Clear W and set Z where an image with W or A overlaps a frozen region (R370). -/
def World.freezeRights (w : World) (h : Handle) : Handle :=
  if (h.format == 1 || h.format == 3) && (h.w || h.a) && w.overlapsFrozen h.base.toNat h.length.toNat then
    { h with rights := (h.rights &&& 0xBF) ||| 0x02 }
  else h

/-- Kinds of access (R84). -/
inductive Kind where
  | load | store | atomic | fetch
  deriving DecidableEq, Repr

/-- HasRights(h, kind) of R80. -/
def Handle.hasRights (h : Handle) : Kind → Bool
  | .load => h.r
  | .store => h.w && !h.z
  | .atomic => h.a && !h.z
  | .fetch => h.x

/-- A value of ETVAL: the sum taken modulo 2^64 (R84). -/
def etval (v : Int) : X64 := BitVec.ofInt 64 v

/-- Formats of an operand when a call omits them (R84). -/
def fmt123 : List Nat := [1, 2, 3]

/-- CheckHandle of R84: the steps before the bounds step. -/
def checkHandle (world : Nat) (h : Handle) (off : Int) (k : Kind) (formats : List Nat) : Except Flt Unit :=
  let v := etval (h.base.toNat + off)
  if h.format = 0 then .error ⟨.handleRights, 0, v⟩
  else if h.revoked then .error ⟨.handleRevoked, 0, v⟩
  else if h.world.toNat ≠ world then .error ⟨.handleWorld, 0, v⟩
  else if ¬ h.format.toNat ∈ formats then .error ⟨.handleRights, 0, v⟩
  else if !h.hasRights k then .error ⟨.handleRights, 0, v⟩
  else .ok ()

/-- The lowest byte of an access at an address that lies outside a range; none where all lie within. -/
def firstOut (lo hi a : Int) (size : Nat) : Option Int :=
  if a < lo ∨ hi < a + size then some (if a < lo ∨ hi ≤ a then a else hi) else none

/-- The bounds steps of R84: within the handle, within the scratchpads the access may reach, below 2^57. ETVAL is the lowest byte that lies
outside any of them. -/
def checkBounds (lo hi : Nat) (h : Handle) (off : Int) (size : Nat) : Except Flt Unit :=
  let a : Int := h.base.toNat + off
  let reach := if h.format = 2 ∧ 0 < size then firstOut lo hi a size else none
  match firstOut h.base.toNat (h.base.toNat + h.length.toNat) a size, reach with
  | some x, some y => .error ⟨.handleBounds, 0, etval (min x y)⟩
  | some x, none | none, some x => .error ⟨.handleBounds, 0, etval x⟩
  | none, none =>
    if (h.format = 1 ∨ h.format = 3) ∧ (2 : Int) ^ 57 < a + size then .error ⟨.handleBounds, 0, etval (max a (2 ^ 57))⟩
    else .ok ()

end Sys2Proof.Machine
end

