-- ==== Sys2Proof/Machine/Mem.lean ====
section
/-! DEFINITION. Memory through handles: translation, line tags, race detection, reads and writes (chapter Memory). -/
namespace Sys2Proof.Machine

/-- Whoever makes an access, and what is known of it (R98, R105). -/
structure Acc where
  core : Nat
  agent : Agent
  region : Nat
  clk : Clock
  gang : Nat
  seen : Nat
  world : Nat
  lo : Nat
  hi : Nat
  deriving DecidableEq, Repr

/-- A run of bytes contiguous in memory: its address in the handle's space, its key, its length. -/
structure Piece where
  va : Nat
  key : Nat
  len : Nat
  deriving DecidableEq, Repr

/-- Gang key of a core (R119). -/
def State.gangOf (s : State) (c : Nat) : Nat := gangKey (dieOf c) (s.core c).gid

/-- SeenEpoch: the newest epoch of the core's gang from whose departure what is known has gone on (R106). -/
def State.seenOf (s : State) (c : Nat) (clk : Clock) (seen : Nat) : Nat :=
  max seen ((clkGet clk (.departed c (s.gangOf c))).getD 0)

/-- The accessor that is a stream (R105); it reaches its own cluster's scratchpads (R82). -/
def State.accOf (s : State) (c : Nat) (st : Stream) : Acc :=
  let v := s.strm c st
  { core := c, agent := .strm c st, region := v.region, clk := s.clkOf c st, gang := s.gangOf c,
    seen := s.seenOf c v.clk v.seen,
    world := (s.core c).world, lo := clusterOf c * 16777216, hi := (clusterOf c + 1) * 16777216 }

/-- The accessor that is an operation of a queue of a core (R105). `seen` is the Helm's SeenEpoch at issue (R106, log 28). -/
def State.accOp (s : State) (c q n seen : Nat) (clk : Clock) : Acc :=
  { core := c, agent := s.opAgent c q n, region := 1, clk := clkPut clk (s.opAgent c q n) 1, gang := s.gangOf c,
    seen := s.seenOf c clk seen,
    world := (s.core c).world, lo := clusterOf c * 16777216, hi := (clusterOf c + 1) * 16777216 }

/-! Line tags (R96, R97, R377, log 8). -/

def World.lineOk (w : World) (wid : Nat) : Line → Bool
  | .fresh => true
  | .written w' g bad => !bad && w' == wid && (g == w.gen || (w.rot.isSome && g == w.gen + 1))
  | .moved _ _ _ => false

/-- The generation a write commits under (R377). -/
def World.writeGen (w : World) : Nat := if w.rot.isSome then w.gen + 1 else w.gen

def State.line (s : State) (l : Nat) : Line := (tabFind s.lines l).getD .fresh

/-- Does a channel hold a line of HBM? Which one does is never shown (R398). -/
def onChannel (l n : Nat) : Bool := Config.channelOf l == n && Config.placed n (l / 2 ^ 32)

/-- Does a line of HBM serve nothing: on a channel that is fenced, or retired with no place to move to (R404, R419)? -/
def State.lineGone (s : State) (l : Nat) : Bool := s.lost.contains l || (s.deadChans ++ s.fencedChans).any (onChannel l)

/-- Does a 256-byte line of HBM read without INTEGRITY? -/
def State.readable (s : State) (world l : Nat) : Bool := !s.lineGone l && (s.world world).lineOk world (s.line l)

/-! Translation (R88 to R93). -/

/-- Leaf level and page size of a size code (Table 4.4). -/
def leafLevel (sz : Nat) : Nat := if sz < 5 then 4 else if sz < 10 then 3 else 2
/-- Bytes that one copy of a leaf serves, by its page's size: what an entry of its level covers (R89, R90). -/
def copySpan (size : Nat) : Nat := if size < 2 ^ 21 then 2 ^ 12 else if size < 2 ^ 30 then 2 ^ 21 else 2 ^ 30
def pageSize (sz : Nat) : Nat := 2 ^ ([12, 14, 16, 18, 20, 21, 22, 24, 26, 28, 30, 32].getD sz 12)

/-- Index of a level of the page tree (R89). -/
def tableIndex (va lvl : Nat) : Nat := fieldOf va (56 - 9 * lvl) (48 - 9 * lvl)

/-- Eight bytes of memory from a key. -/
def State.word64 (s : State) (key : Nat) : Nat := ofBytes ((upFrom key 8).map (memGet s.mem))

/-- A leaf for an address, by the checks of Walk that do not depend on the kind of access (R91). A line of the table that fails its
tag gives INTEGRITY with the berth physical address of the line, which the manual does not state (log 29). -/
def walkGo (s : State) (world berth share va : Nat) : Nat → Nat → Nat → Except Flt TlbEnt
  | 0, _, _ => .error ⟨.translation, 3, BitVec.ofNat 64 va⟩
  | fuel + 1, lvl, a =>
    let bad (n : Nat) : Except Flt TlbEnt := .error ⟨.translation, n, BitVec.ofNat 64 va⟩
    let pa := a + 8 * tableIndex va lvl
    if !s.readable world (hbmKey berth pa / 256) then .error ⟨.integrity, 0, BitVec.ofNat 64 (pa / 256 * 256)⟩
    else
      let e := s.word64 (hbmKey berth pa)
      if !bitOf e 0 then bad 0
      else if fieldOf e 63 48 ≠ 0 ∨ fieldOf e 11 9 ≠ 0 ∨ bitOf e 2 then bad 3
      else if !bitOf e 1 then
        if lvl = 4 ∨ fieldOf e 8 3 ≠ 0 then bad 3
        else
          let next := fieldOf e 47 12 * 4096
          if share ≤ next then bad 4 else walkGo s world berth share va fuel (lvl + 1) next
      else
        let sz := fieldOf e 6 3
        let frame := fieldOf e 47 12 * 4096
        if 11 < sz ∨ leafLevel sz ≠ lvl then bad 3
        else if frame % pageSize sz ≠ 0 then bad 3
        else .ok ⟨world, va / pageSize sz * pageSize sz, pageSize sz, va / copySpan (pageSize sz), frame, bitOf e 8, bitOf e 7⟩

def State.walk (s : State) (world va : Nat) : Except Flt TlbEnt :=
  let w := s.world world
  walkGo s world w.berth (s.berth w.berth).shareBytes va 5 0 w.root

/-- The kind-dependent checks of Walk on a leaf, and the berth physical address (R91, R92). -/
def leafPa (share : Nat) (e : TlbEnt) (va : Nat) (k : Kind) : Except Flt Nat :=
  let v := BitVec.ofNat 64 va
  if (k = .store ∨ k = .atomic) ∧ !e.w then .error ⟨.translation, 1, v⟩
  else if k = .fetch ∧ !e.x then .error ⟨.translation, 2, v⟩
  else if share ≤ e.pa + va % e.size then .error ⟨.translation, 4, v⟩
  else .ok (e.pa + va % e.size)

/-- A cached translation of the copy that an address indexes (R90, R92). -/
def tlbHit (t : List TlbEnt) (world va : Nat) : Option TlbEnt :=
  t.find? fun e => e.world == world && decide (e.va ≤ va) && decide (va < e.va + e.size) && e.copy == va / copySpan e.size

/-- The leaf an access uses: a cached entry may be used or passed over, which only R93 makes visible (log 20). -/
def State.leafFor (s : State) (core world va : Nat) : Except Flt TlbEnt :=
  let pick := bitOf (Config.freeWord s.fresh).toNat (va / 4096 % 32)
  match (tlbHit ((tabFind s.tlb1 core).getD []) world va).or (tlbHit ((tabFind s.tlb2 (dieOf core)).getD []) world va) with
  | some e => if pick then .ok e else s.walk world va
  | none => s.walk world va

/-- Translate of R84: the berth physical address of a device virtual address. -/
def State.translate (s : State) (core world va : Nat) (k : Kind) : Except Flt Nat := do
  let e ← s.leafFor core world va
  leafPa (s.berth (s.world world).berth).shareBytes e va k

/-- Translate a range chunk by chunk; no page is smaller than 4 KiB (R86). -/
def State.translateRange (s : State) (core world : Nat) (k : Kind) : Nat → Nat → Nat → Except Flt (List Piece)
  | 0, _, _ => .ok []
  | fuel + 1, va, size =>
    if size = 0 then .ok []
    else do
      let n := min size (4096 - va % 4096)
      let pa ← s.translate core world va k
      let rest ← s.translateRange core world k fuel (va + n) (size - n)
      .ok (⟨va, hbmKey (s.world world).berth pa, n⟩ :: rest)

/-- The translations that an access leaves in the TLBs (R92); each holds the newest of its size. A hit in the first level leaves the second
as it is: a fence may have dropped the entry there (R93). -/
def State.cacheTlb (s : State) (core world : Nat) (ps : List Piece) : State :=
  ps.foldl (fun s p =>
    if 2 ^ 48 ≤ p.key then s
    else
      match s.leafFor core world p.va with
      | .error _ => s
      | .ok e =>
        let put (n : Nat) (t : List TlbEnt) := (e :: t.filter (· != e)).take n
        let first := (tabFind s.tlb1 core).getD []
        { s with
          tlb1 := tabSet s.tlb1 core (put 256 first)
          tlb2 := if tlbHit first world p.va = some e then s.tlb2
            else tabSet s.tlb2 (dieOf core) (put 8192 ((tabFind s.tlb2 (dieOf core)).getD [])) }) s

/-! Checks. -/

/-- Blocks of b bytes that a piece touches, with the address of each. -/
def Piece.blocks (b : Nat) (p : Piece) : List (Nat × Nat) :=
  if p.len = 0 then []
  else
    let k := p.key / b
    (upFrom k ((p.key + p.len - 1) / b - k + 1)).map fun j => (j, p.va - p.key % b + (j - k) * b)

/-- Do the pieces of an access or a burst together cover a whole line (R227)? -/
def coversLine (ps : List Piece) (l : Nat) : Bool :=
  (upFrom (l * 256) 256).all fun a => ps.any fun p => decide (p.key ≤ a) && decide (a < p.key + p.len)

/-- The lines of a piece that fail: in HBM by their tag, for a read or a write that covers them in part (R96, R227), or as lines that serve
nothing, and on chip by a word with a double-bit error that is read (R417, log 18). -/
def State.badLines (s : State) (world : Nat) (k : Kind) (ps : List Piece) (p : Piece) : List (Nat × Nat) :=
  if p.key < 2 ^ 48 then
    (p.blocks 256).filter fun l => s.lineGone l.1 || (!s.readable world l.1 && !(k == .store && coversLine ps l.1))
  else if k == .store then []
  else ((p.blocks 8).filter fun w => s.ecc2.contains w.1).map fun w => (w.1 / 32, w.2 / 256 * 256)

/-- Line tags and on-chip words of an access (R96, R417). -/
def State.checkLines (s : State) (world : Nat) (k : Kind) (ps : List Piece) : Except Flt Unit :=
  let fails := ps.flatMap (s.badLines world k ps)
  match fails with
  | [] => .ok ()
  | l :: _ => .error ⟨.integrity, 0, BitVec.ofNat 64 l.2⟩

/-- Where the pieces of an access lie, once its bounds hold. -/
def State.locate (s : State) (a : Acc) (h : Handle) (off : Int) (size : Nat) (k : Kind) : Except Flt (List Piece) :=
  let va := (h.base.toNat + off).toNat
  if h.format = 2 then .ok (if size = 0 then [] else [⟨va, scrKey va, size⟩])
  else s.translateRange a.core a.world k (size / 4096 + 2) va size

/-- CheckAccess of R84 up to INTEGRITY: the pieces of the access. `align` is AlignReq (R85). -/
def State.check (s : State) (a : Acc) (h : Handle) (off : Int) (size : Nat) (k : Kind) (align : Nat) (formats : List Nat) :
    Except Flt (List Piece) := do
  checkHandle a.world h off k formats
  checkBounds a.lo a.hi h off size
  if (h.base.toNat + off) % (align : Int) ≠ 0 then .error ⟨.align, 0, etval (h.base.toNat + off)⟩
  else
    let ps ← s.locate a h off size k
    s.checkLines a.world k ps
    .ok ps

/-! Race detection (R105, R106). -/

def State.stampLive (s : State) (t : Stamp) : Bool := t.epoch == (s.core t.core).detEpoch

def Acc.stamp (s : State) (a : Acc) (atomic : Bool) : Stamp :=
  ⟨a.agent, a.region, a.core, (s.core a.core).detEpoch, a.gang, atomic⟩

/-- HB(t, s): the stamped access happens before everything the accessor does now. -/
def Acc.knows (a : Acc) (t : Stamp) : Bool := clkKnows a.clk t.agent t.region

/-- One stream, or one copy queue (R105). -/
def sameSource : Agent → Agent → Bool
  | .strm c st, .strm c' st' => c == c' && st == st'
  | .op c q _, .op c' q' _ => c == c' && q == q'
  | _, _ => false

/-- A sector's state without stamps that read as absent (R106). -/
def State.sector (s : State) (tab : Tab Sector) (k : Nat) : Sector :=
  let v := (tabFind tab k).getD .none
  { writer := v.writer.filter s.stampLive
    readers := v.readers.filter s.stampLive
    summary := v.summary.filter fun m => m.coreEpoch == (s.core m.core).detEpoch }

/-- A read enters a sector's state: as a reader stamp, or in its summary, to which the fifth reader collapses it (R105). -/
def State.addReader (s : State) (v : Sector) (t : Stamp) : Sector :=
  match v.summary with
  | some m => if t.gang = m.gang then v else { v with summary := some { m with mixed := true } }
  | none =>
    let rs := v.readers.filter (fun r => !sameSource r.agent t.agent) ++ [t]
    if rs.length = 5 then
      let home := s.homeCore t.core
      { v with
        readers := []
        summary := some ⟨t.gang, (tabFind s.epochs t.gang).getD 0, !rs.all (fun r => r.gang == t.gang), home, (s.core home).detEpoch⟩ }
    else { v with readers := rs }

/-- DetectRead of R105; the error is the subcode. -/
def State.detectRead (s : State) (a : Acc) (v : Sector) : Except Nat Sector :=
  if v.writer.any fun w => !a.knows w then .error 0 else .ok (s.addReader v (a.stamp s false))

/-- DetectWrite of R105. Atomics check as writes, but never against one another (R108). -/
def State.detectWrite (s : State) (a : Acc) (atomic : Bool) (v : Sector) : Except Nat Sector :=
  if v.writer.any fun w => !(atomic && w.atomic) && !a.knows w then .error 0
  else if v.readers.any fun r => !a.knows r then .error 0
  else if v.summary.any fun m => m.mixed || a.gang != m.gang || decide (a.seen ≤ m.epoch) then .error 1
  else .ok ⟨some (a.stamp s atomic), [], none⟩

/-- The detection of one access over its sectors, lowest first (R105, R109). -/
def State.detectGo (s : State) (a : Acc) (k : Kind) : List (Nat × Nat) → Tab Sector → Except Flt (Tab Sector)
  | [], tab => .ok tab
  | (key, va) :: rest, tab =>
    match (if k = .load then s.detectRead a (s.sector tab key) else s.detectWrite a (k == .atomic) (s.sector tab key)) with
    | .error sub => .error ⟨.mmRace, sub, BitVec.ofNat 64 va⟩
    | .ok v => s.detectGo a k rest (tabSet tab key v)

/-- The race check of an access; `.race` accesses and handles without D are exempt (R108). -/
def State.detect (s : State) (a : Acc) (h : Handle) (race : Bool) (k : Kind) (ps : List Piece) (tab : Tab Sector) :
    Except Flt (Tab Sector) :=
  if race || !h.d || k == .fetch then .ok tab else s.detectGo a k (ps.flatMap (Piece.blocks 32)) tab

/-- CheckAccess whole, race check included: the pieces and the detection state after the access. -/
def State.access (s : State) (a : Acc) (h : Handle) (off : Int) (size : Nat) (k : Kind) (align : Nat) (race : Bool)
    (formats : List Nat) (tab : Tab Sector) : Except Flt (List Piece × Tab Sector) := do
  let ps ← s.check a h off size k align formats
  let tab ← s.detect a h race k ps tab
  .ok (ps, tab)

/-! Reading and writing. -/

def piecesKeys (ps : List Piece) : List Nat := ps.flatMap fun p => upFrom p.key p.len

/-- The bytes of an access, lowest offset first. -/
def State.readBytes (s : State) (ps : List Piece) : List Byte := (piecesKeys ps).map (memGet s.mem)

/-- Knowledge that releases attached to bytes (R103). -/
def State.releaseClk (s : State) (ps : List Piece) : Clock :=
  (piecesKeys ps).foldl (fun k a => clkJoin k ((tabFind s.releases a).getD [])) []

/-- What an observer learns of the flag increments that some bytes hold (R112). -/
def State.flagClk (s : State) (ps : List Piece) : Clock :=
  ((piecesKeys ps).map (· / 8)).eraseDups.foldl (fun k w => clkJoin k ((tabFind s.flagClks w).getD [])) []

/-- What a reader learns of the bytes it reads: of flag increments always, of releases by an acquire (R103, R112). -/
def State.readClk (s : State) (acq : Bool) (ps : List Piece) : Clock := clkJoin (s.flagClk ps) (if acq then s.releaseClk ps else [])

/-- Relations of Table 5.10 on 64-bit patterns (R135). -/
def Rel.holds (r : Rel) (a b : X64) : Bool :=
  match r with
  | .eq => a == b
  | .ne => a != b
  | .lt => BitVec.slt a b
  | .ge => !BitVec.slt a b
  | .ltn => BitVec.ult a b
  | .gen => !BitVec.ult a b

/-- A flag waiter whose word was written looks again (R299). -/
def State.wakeFlag (s : State) (keys : List Nat) (v : StreamSt) : StreamSt :=
  match v.wait with
  | some ⟨.flag key rel cmp, false, _, _, _⟩ =>
    if keys.any fun a => decide (key ≤ a) && decide (a < key + 8) then
      let x := BitVec.ofNat 64 (s.word64 key)
      if Rel.holds rel x cmp then
        { v with wait := some ⟨.flag key rel cmp, true, x, s.readClk true [⟨0, key, 8⟩], 0⟩ }
      else v
    else v
  | _ => v

def State.wakeFlags (s : State) (keys : List Nat) : State :=
  { s with cores := s.cores.map fun e =>
      (e.1, { e.2 with hs := s.wakeFlag keys e.2.hs, ls := s.wakeFlag keys e.2.ls, ss := s.wakeFlag keys e.2.ss,
                       vs := s.wakeFlag keys e.2.vs, ms := s.wakeFlag keys e.2.ms }) }

/-- Commit bytes: memory, the tags of the lines touched (R96, R97), and waiting flags. -/
def State.putMem (s : State) (world : Nat) (bytes : List (Nat × Byte)) : State :=
  let w := s.world world
  let lines := (bytes.map fun b => b.1 / 256).eraseDups.filter fun l => decide (l < 2 ^ 40)
  let s := { s with
    mem := memPuts s.mem bytes
    ecc2 := s.ecc2.filter fun w => !(upFrom (8 * w) 8).all fun a => bytes.any fun b => b.1 == a
    lines := lines.foldl (fun t l => tabSet t l (.written world w.writeGen false)) s.lines }
  s.wakeFlags (bytes.map (·.1))

/-- Commit bytes that are no flag increment: who reads them observes none that was there before. -/
def State.putBytes (s : State) (world : Nat) (bytes : List (Nat × Byte)) : State :=
  State.putMem { s with flagClks := s.flagClks.filter fun e => !bytes.any fun b => b.1 / 8 == e.1 } world bytes

/-- Attach what a release store knew to the bytes it wrote (R103). -/
def State.putRelease (s : State) (keys : List Nat) (k : Clock) : State :=
  { s with releases := keys.foldl (fun t a => tabSet t a (clkJoin ((tabFind t a).getD []) k)) s.releases }

def State.withSectors (s : State) (tab : Tab Sector) : State := { s with sectors := tab }

/-- Pair keys of pieces with bytes. -/
def zipBytes (ps : List Piece) (bs : List Byte) : List (Nat × Byte) := (piecesKeys ps).zip bs

/-- A load of one contiguous access by a stream: its bytes and the state with its traces. -/
def State.load (s : State) (a : Acc) (h : Handle) (off : Int) (size align : Nat) (race : Bool) (formats : List Nat) :
    Except Flt (List Byte × List Piece × State) := do
  let (ps, tab) ← s.access a h off size .load align race formats s.sectors
  .ok (s.readBytes ps, ps, (s.cacheTlb a.core a.world ps).withSectors tab)

/-- A store of one contiguous access. -/
def State.store (s : State) (a : Acc) (h : Handle) (off : Int) (bs : List Byte) (align : Nat) (race : Bool)
    (formats : List Nat) : Except Flt (List Piece × State) := do
  let (ps, tab) ← s.access a h off bs.length .store align race formats s.sectors
  .ok (ps, ((s.cacheTlb a.core a.world ps).withSectors tab).putBytes a.world (zipBytes ps bs))

end Sys2Proof.Machine
end

