-- ==== Sys2Proof/Machine/SyncOps.lean ====
section
/-! DEFINITION. What the Synchronisation engine does for other units: ready queues, semaphores, barrier records,
withdrawal (R281, R284, R285, R288 to R293, R311). -/
namespace Sys2Proof.Machine

/-- A copy operation of a queue. -/
def Core.cq (k : Core) (q : Nat) : CopyQ := k.cqs.getD q .empty
def Core.setCq (k : Core) (q : Nat) (v : CopyQ) : Core := { k with cqs := listPut k.cqs q v }
def Core.op (k : Core) (q n : Nat) : Option CopyOp := (k.cq q).ops.find? fun o => o.n == n
def Core.modOp (k : Core) (q n : Nat) (f : CopyOp → CopyOp) : Core :=
  let v := k.cq q
  k.setCq q { v with ops := v.ops.map fun o => if o.n = n then f o else o }

/-! Ready queues (R311). -/

/-- Insert by rising index. -/
def insertIdx (x : Nat × Nat) : List (Nat × Nat) → List (Nat × Nat)
  | [] => [x]
  | y :: t => if x.2 ≤ y.2 then x :: y :: t else y :: insertIdx x t

def sortIdx (xs : List (Nat × Nat)) : List (Nat × Nat) := xs.foldr insertIdx []

def State.readyQ (s : State) (die world pri : Nat) : List Nat := (tabFind s.ready (readyKey die world pri)).getD []

def State.setReadyQ (s : State) (die world pri : Nat) (q : List Nat) : State :=
  { s with ready := tabSet s.ready (readyKey die world pri) q }

/-- A task becomes READY at the tail of its level, or at the head after a yield or a pre-emption (R319, R321). -/
def State.makeReady (s : State) (die idx : Nat) (head : Bool) : State :=
  let t := s.taskAt die idx
  let q := s.readyQ die t.world t.pri
  (s.setTask die idx { t with st := .ready }).setReadyQ die t.world t.pri (if head then idx :: q else q ++ [idx])

/-- Tasks that become ready in one step enter in ascending INDEX order. -/
def State.readyAll (s : State) (ts : List (Nat × Nat)) : State :=
  (sortIdx ts).foldl (fun s t => s.makeReady t.1 t.2 false) s

/-- Take a task out of the ready queues. -/
def State.unready (s : State) (die idx : Nat) : State :=
  let t := s.taskAt die idx
  s.setReadyQ die t.world t.pri ((s.readyQ die t.world t.pri).filter (· != idx))

/-! Semaphores (R284, R285, R287). -/

def State.sem (s : State) (key : Nat) : Sem := (tabFind s.sems key).getD .zero
def State.setSem (s : State) (key : Nat) (v : Sem) : State := { s with sems := tabSet s.sems key v }

def SemWaiter.k : SemWaiter → Nat
  | .strm _ _ k => k
  | .copy _ _ _ => 1
  | .task _ _ _ => 1

/-- The result of a waiting request reaches its stream (R280). -/
def State.answer (s : State) (c : Nat) (st : Stream) (value : X64) (clk : Clock) (seen : Nat) : State :=
  s.modStrm c st fun v =>
    match v.wait with
    | some w => { v with wait := some { w with done := true, value := value, clk := clk, seen := seen } }
    | none => v

/-- A copy operation, or the chain entry it runs, has its wait granted (R223). -/
def CopyOp.grant (clk : Clock) (o : CopyOp) : CopyOp :=
  let o := { o with clk := clkJoin o.clk clk }
  match o.cur with
  | some e => if e.phase = .waiting then { o with cur := some { e with phase := .granted } } else o
  | none => if o.phase = .waiting then { o with phase := .granted } else o

/-- Release a granted waiter. The task waiters whose last wait this was come back in the list (R310). -/
def State.releaseSem (s : State) (key : Nat) (clk : Clock) (ready : List (Nat × Nat)) :
    SemWaiter → State × List (Nat × Nat)
  | .strm c st _ => (s.answer c st 0 clk 0, ready)
  | .copy c q n => (s.modCore c fun k => k.modOp q n (CopyOp.grant clk), ready)
  | .task die idx inc =>
    let t := s.taskAt die idx
    let s := s.setTask die idx { t with waitsLeft := t.waitsLeft - 1, clk := clkJoin t.clk clk }
    if t.waitsLeft ≤ 1 then (s, ready ++ [(die, idx)])
    else
      let m := s.sem key
      (s.setSem key { m with waiters := m.waiters ++ [.task die idx inc] }, ready)

/-- The status of an operation whose wait read a word with a double-bit error (R417). -/
def CStat.badWait : CStat := ⟨0x1A, 0, 0, 0, 0⟩

/-- A copy operation, or the chain entry it runs, ends at its wait (R417). -/
def CopyOp.failWait (o : CopyOp) : CopyOp :=
  match o.cur with
  | some e => if e.phase = .waiting then { o with cur := some { e with phase := .ending .badWait } } else o
  | none => if o.phase = .waiting then { o with phase := .ending .badWait } else o

/-- A waiter of a semaphore whose word has a double-bit error: a stream's instruction asks again and meets the error, a copy operation ends
with INTEGRITY, a task goes on to end with it (R417, log 18). -/
def State.failSem (r : State × List (Nat × Nat)) : SemWaiter → State × List (Nat × Nat)
  | .strm c st _ => (r.1.modStrm c st fun v => { v with wait := none }, r.2)
  | .copy c q n => (r.1.modCore c fun k => k.modOp q n CopyOp.failWait, r.2)
  | .task die idx _ => (r.1.setTask die idx { r.1.taskAt die idx with waitsLeft := 0, waitBad := true }, r.2 ++ [(die, idx)])

/-- Grant of R284, with the tasks that became ready. -/
def State.grantGo (key : Nat) : Nat → State → List (Nat × Nat) → State × List (Nat × Nat)
  | 0, s, ready => (s, ready)
  | fuel + 1, s, ready =>
    let m := s.sem key
    match m.waiters with
    | [] => (s, ready)
    | w :: ws =>
      if m.value.toNat < w.k then (s, ready)
      else
        let s := s.setSem key { m with value := m.value - BitVec.ofNat 32 w.k, waiters := ws }
        let r := s.releaseSem key m.clk ready w
        State.grantGo key fuel r.1 r.2

/-- The waiters that a semaphore releases now: all of them where its word has a double-bit error, which they meet (R284, R417). -/
def State.grantAll (s : State) (key : Nat) (ready : List (Nat × Nat)) : State × List (Nat × Nat) :=
  if s.semEcc.contains key then
    (s.sem key).waiters.foldl State.failSem (s.setSem key { s.sem key with waiters := [] }, ready)
  else State.grantGo key ((s.sem key).value.toNat + 1) s ready

def State.grant (s : State) (key : Nat) : State :=
  let r := s.grantAll key []
  r.1.readyAll r.2

/-- A signal field adds 1, stopping at 2^32 - 1 (R285); no grant yet. A word with a double-bit error stays as it is, and no signal field
faults (R417, log 18). -/
def State.bumpSem (s : State) (key : Nat) (clk : Clock) : State :=
  let m := s.sem key
  if s.semEcc.contains key then s
  else s.setSem key { m with value := if m.value = 0xFFFFFFFF then m.value else m.value + 1, clk := clkJoin m.clk clk }

/-- A signal field with its grants. -/
def State.signal (s : State) (key : Nat) (clk : Clock) : State := (s.bumpSem key clk).grant key

/-- The signal list of a task, applied in order as one step (R311, R312). -/
def State.signalAll (s : State) (keys : List Nat) (clk : Clock) : State :=
  let r := keys.foldl (fun (r : State × List (Nat × Nat)) key =>
    let s := r.1.bumpSem key clk
    s.grantAll key r.2) (s, [])
  r.1.readyAll r.2

/-- A waiter arrives at a semaphore's list (R284). -/
def State.enterSem (s : State) (key : Nat) (w : SemWaiter) : State :=
  let m := s.sem key
  (s.setSem key { m with waiters := m.waiters ++ [w] }).grant key

/-- Take waiters out of a semaphore's list and grant anew (R284). -/
def State.leaveSem (s : State) (key : Nat) (w : SemWaiter → Bool) : State :=
  let m := s.sem key
  (s.setSem key { m with waiters := m.waiters.filter fun x => !w x }).grant key

/-! Barrier records (R288 to R293). -/

/-- A barrier record (Table 10.4); `rsv` is its reserved bits in their places, which the engine leaves as they are. -/
structure BarRec where
  gen : Nat
  exp : Nat
  pend : Nat
  inn : Nat
  out : Nat
  inr : Nat
  outr : Nat
  rsv : Nat
  deriving DecidableEq, Repr

def BarRec.ofNat (x : Nat) : BarRec :=
  { gen := fieldOf x 127 124, exp := fieldOf x 123 116, pend := fieldOf x 115 108, inn := fieldOf x 103 80,
    out := fieldOf x 79 56, inr := fieldOf x 55 32, outr := fieldOf x 31 8,
    rsv := fieldOf x 107 104 * 2 ^ 104 + fieldOf x 7 0 }

def BarRec.toNat (r : BarRec) : Nat :=
  r.gen * 2 ^ 124 + r.exp * 2 ^ 116 + r.pend * 2 ^ 108 + r.inn * 2 ^ 80 + r.out * 2 ^ 56 + r.inr * 2 ^ 32 + r.outr * 2 ^ 8 + r.rsv

def BarRec.malformed (r : BarRec) : Bool := r.exp == 0 || decide (96 < r.exp) || decide (r.exp < r.pend) || r.rsv != 0

/-- The record at a key, and its write by the engine. -/
def State.barRec (s : State) (key : Nat) : BarRec := .ofNat (ofBytes ((upFrom key 16).map (memGet s.mem)))
def State.putBarRec (s : State) (key : Nat) (r : BarRec) : State :=
  s.putBytes 0 ((upFrom key 16).zip (bytesOf 16 r.toNat))

def State.barIdle (s : State) (key : Nat) (r : BarRec) : Bool :=
  r.pend == r.exp && r.inn == r.inr && r.out == r.outr && !s.barWs.any fun w => w.key == key

/-- The core whose scratchpad holds a key. -/
def homeOfKey (key : Nat) : Nat := (key - 2 ^ 48) / 2097152

def State.barClk (s : State) (key : Nat) : BarClk := (tabFind s.barClks key).getD .none
def State.setBarClk (s : State) (key : Nat) (v : BarClk) : State := { s with barClks := tabSet s.barClks key v }

/-- What a departure of a core from a barrier tells it: the arrivals' knowledge, and the epoch that it completed, if any (R106, R293). -/
def State.departClk (s : State) (c : Nat) (clk : Clock) (epoch : Nat) : Clock :=
  if epoch = 0 then clk else clkPut clk (.departed c (s.gangOf c)) epoch

/-- Release every waiter of a generation of a record (R290, R292). -/
def State.releaseBar (s : State) (key gen : Nat) (value : X64) (clk : Clock) (epoch : Nat) : State :=
  let s' := s.barWs.foldl (fun s w =>
    if w.key = key ∧ w.gen = gen then s.answer w.core .h value (s.departClk w.core clk epoch) 0 else s) s
  { s' with barWs := s'.barWs.filter fun w => !(w.key == key && w.gen == gen) }

/-- What all arrivals of a list knew. -/
def joinClks (as : List (Nat × Clock)) : Clock := as.foldl (fun k e => clkJoin k e.2) []

/-- Completion of a generation as soon as PEND, IN and OUT are zero (R290, R106). Its waiters learn what its own arrivals knew and the
epoch that it completes; who comes later departs from every generation so far (R293). -/
def State.completeBar (s : State) (key : Nat) : State :=
  let r := s.barRec key
  if r.pend = 0 ∧ r.inn = 0 ∧ r.out = 0 then
    let home := homeOfKey key
    let g := s.gangOf home
    let full := (s.core home).gsize == r.exp
    let s := if full then { s with epochs := tabSet s.epochs g ((tabFind s.epochs g).getD 0 + 1) } else s
    let epoch := if full then (tabFind s.epochs g).getD 0 else 0
    let b := s.barClk key
    let own := joinClks b.arrive
    let b' : BarClk := { b with arrive := [], depart := clkJoin b.depart own }
    let b' := if full then { b' with epoch := epoch, gang := g } else b'
    let s := (s.setBarClk key b').putBarRec key { r with gen := (r.gen + 1) % 16, pend := r.exp, inn := r.inr, out := r.outr }
    s.releaseBar key r.gen (BitVec.ofNat 64 r.gen) own epoch
  else s

/-- Whoever arrives without waiting: no core (R291). -/
def noWaiter : Nat := 768

/-- An arrival lowers PEND; the knowledge of the arriver joins the generation (R291, R293). -/
def State.arriveBar (s : State) (key who : Nat) (clk : Clock) : State :=
  let r := s.barRec key
  let b := s.barClk key
  ((s.putBarRec key { r with pend := r.pend - 1 }).setBarClk key { b with arrive := b.arrive ++ [(who, clk)] }).completeBar key

/-- Has a barrier record a word with a double-bit error (R417)? -/
def State.barBad (s : State) (key : Nat) : Bool := s.ecc2.contains (key / 8) || s.ecc2.contains (key / 8 + 1)

/-- A copy completion lowers IN or OUT; at zero, in a malformed record, or in one that cannot be read, it changes nothing (R290, R417). -/
def State.lowerBar (s : State) (key : Nat) (inb : Bool) (clk : Clock) : State :=
  let r := s.barRec key
  if s.barBad key ∨ r.malformed ∨ (if inb then r.inn else r.out) = 0 then s
  else
    let b := s.barClk key
    let r' := if inb then { r with inn := r.inn - 1 } else { r with out := r.out - 1 }
    ((s.putBarRec key r').setBarClk key { b with arrive := b.arrive ++ [(noWaiter, clk)] }).completeBar key

/-- ResetBarrier of R292: no edge, no epoch. -/
def State.resetBar (s : State) (key : Nat) : State :=
  let r := s.barRec key
  let b := s.barClk key
  let s := (s.putBarRec key { r with gen := (r.gen + 1) % 16, pend := r.exp, inn := r.inr, out := r.outr }).setBarClk key
    { b with arrive := [] }
  s.releaseBar key r.gen (BitVec.ofNat 64 r.gen ||| ((1 : X64) <<< 63)) [] 0

/-! Withdrawal (R281). -/

/-- What readers have made of a sector since a summary stood there, or since readers were stamped there. -/
def Sector.joinSummary (v : Sector) (m : Summary) : Sector :=
  match v.summary with
  | some old => { v with summary := some { old with mixed := old.mixed || m.mixed || old.gang != m.gang } }
  | .none => { v with readers := [], summary := some { m with mixed := m.mixed || v.readers.any fun r => r.gang != m.gang } }

/-- A sector as it was before an arrival stamped it, with what others have read since; one that another has stamped since stays. -/
def State.sectorBack (s : State) (t : Stamp) (was v : Sector) : Sector :=
  if v.writer = some t then
    match v.summary with
    | some m => was.joinSummary m
    | none => v.readers.foldl s.addReader was
  else v

/-- The stamp of an arrival leaves the record's sector, and what others that wait at a record there remember of it (R281). -/
def State.unstamp (s : State) (key : Nat) (t : Stamp) (was : Sector) : State :=
  { s with
    sectors := tabSet s.sectors (key / 32) (s.sectorBack t was ((tabFind s.sectors (key / 32)).getD .none))
    barWs := s.barWs.map fun b =>
      if b.key / 32 = key / 32 then { b with was := b.was.map fun v => (v.1, s.sectorBack t was v.2) } else b }

/-- A waiter leaves its barrier record; an arrival that it made is taken back with its knowledge and its stamp, so that it has had no
effect (R281). -/
def State.leaveBar (s : State) (key c : Nat) : State :=
  let back := s.barWs.find? fun b => b.key == key && b.core == c && b.arrived
  let s := { s with barWs := s.barWs.filter fun b => !(b.key == key && b.core == c) }
  let r := s.barRec key
  let b := s.barClk key
  match back with
  | some w =>
    let s := match w.was with
      | some v => s.unstamp key v.1 v.2
      | none => s
    (s.putBarRec key { r with pend := r.pend + 1 }).setBarClk key { b with arrive := b.arrive.filter fun e => e.1 != c }
  | none => s

/-- A stream's waiter leaves its engine unless it has been granted, in which case the instruction still retires. -/
def State.withdraw (s : State) (c : Nat) (st : Stream) : State :=
  match (s.strm c st).wait with
  | none => s
  | some w =>
    if w.done then s
    else
      let s' := s.modStrm c st fun v => { v with wait := none }
      match w.kind with
      | .sem key _ =>
        s'.leaveSem key fun x =>
          match x with
          | .strm c' st' _ => c' == c && st' == st
          | _ => false
      | .bar key _ => s'.leaveBar key c
      | .flag _ _ _ | .future _ _ | .ended _ => s'
      | .request => s

/-- A granted wait of L, S, V or M retires: its edge holds, and its word, alone in its group, is passed (R281, R286). -/
def State.retireWait (s : State) (c : Nat) (st : Stream) (w : Wait) : State :=
  let pc := (s.strm c st).pc + 3
  let s := s.learn c st w.clk
  if st = .h ∨ (s.strm c st).leavesOpen pc then s else s.sequence c st pc

/-- Drop a waiter, as JOIN 1 or a stop of the task does (R152, R317); one that has been granted retires first (R281). -/
def State.dropWait (s : State) (c : Nat) (st : Stream) : State :=
  let s := s.withdraw c st
  let w := (s.strm c st).wait
  let s := s.modStrm c st fun v => { v with wait := none }
  match w with
  | some w => if w.done then s.retireWait c st w else s
  | none => s

end Sys2Proof.Machine
end

