-- ==== Sys2Proof/Machine/QueueOps.lean ====
section
/-! DEFINITION. Operations of the copy queues and the fabric queue as other units see them: completion, cancellation,
drain (R110, R219 to R223, R242, R243, R339, R340). -/
namespace Sys2Proof.Machine

/-- Advance a completed value over the numbers done (R110). -/
def advanceDone : Nat → Nat → List Nat → Nat × List Nat
  | 0, c, d => (c, d)
  | fuel + 1, c, d => if d.contains (c + 1) then advanceDone fuel (c + 1) (d.filter (· != c + 1)) else (c, d)

/-- The lowest failed number kept (R222, R340); 0 means none. -/
def noteFail (first n : Nat) (code : Nat) : Nat :=
  if code = 0 ∨ code = 0x40 then first else if first = 0 then n else min first n

def CStat.ok : CStat := ⟨0, 0, 0, 0, 0⟩
def CStat.cancelled : CStat := ⟨0x40, 0, 0, 0, 0⟩
/-- A status without a place. -/
def CStat.bare (code : Nat) : CStat := ⟨code, 0, 0, 0, 0⟩

/-- An operation or its current chain entry has not started (R220). -/
def OpPhase.unstarted : OpPhase → Bool
  | .queued | .waiting | .granted => true
  | .running | .ending _ => false

/-- The knowledge a completed operation gives: its own and that of what it followed (R110). -/
def State.opClk (s : State) (c q n : Nat) (k : Clock) : Clock := clkPut k (s.opAgent c q n) 1

/-- Key of barrier record u of a home core (R223, R288). -/
def barKey (home u : Nat) : Nat := scrKey (scrBase home + 64 * u)

/-- Apply signal and barrier fields of a completion (R222, R223). -/
def State.completionFields (s : State) (c home : Nat) (k : Compl) (bar : BarCnt) (clk : Clock) : State :=
  let s := if k.se then s.signal (semKey (s.core c).world (dieOf c) k.ss.toNat) clk else s
  match bar.mode with
  | .none => s
  | .inb => s.lowerBar (barKey home bar.unit.toNat) true clk
  | .outb => s.lowerBar (barKey home bar.unit.toNat) false clk

def Core.tile (k : Core) (t : Nat) : TileSt := (tabFind k.tiles t).getD ⟨0, false, none, []⟩
def Core.setTile (k : Core) (t : Nat) (v : TileSt) : Core := { k with tiles := tabSet k.tiles t v }

/-- A copy ends its hold of a tile; on success the full bit changes in the same step, but for a tile-out copy that keeps (R19, R232).
What fills a tile happens before its next read, and nothing that empties it does (R99). -/
def Core.tileEnd (k : Core) (q n : Nat) (j : Job) (ok : Bool) (clk : Clock) : Core :=
  let v := k.tile j.tile
  if v.held ≠ some (q, n) then k
  else
    let v := { v with held := none }
    k.setTile j.tile <|
      match j.kind, ok with
      | .tileIn, true => { v with full := true, clk := clk }
      | .tileOut, true => if j.keep then v else { v with full := false }
      | _, _ => v

/-- Drop a bound copy from the order of its stream register (R235). -/
def Core.unbind (k : Core) (q n : Nat) : Core := { k with binds := k.binds.map fun e => (e.1, e.2.filter (· != (q, n))) }

/-- Count an INTEGRITY reported for a world (R387). -/
def State.noteIntegrity (s : State) (world : Nat) (code : Nat) : State :=
  if code = 0x1A then s.modWorld world fun w => { w with integ := w.integ + 1 } else s

/-- The status of an operation whose completion counts at a barrier: INTEGRITY where it would be OK and the record has a word with a
double-bit error, which then stays as it is (R417, log 18). -/
def State.barStatus (s : State) (home : Nat) (bar : BarCnt) (st : CStat) : CStat :=
  if st.code = 0 ∧ bar.mode ≠ .none ∧ s.barBad (barKey home bar.unit.toNat) then .badWait else st

/-- An operation completes once, with its status: record, timeline, tile hold, follow-on, signal, barrier count. -/
def State.copyFinish (s : State) (c q n : Nat) (st : CStat) : State :=
  match (s.core c).op q n with
  | none => s
  | some o =>
    let st := s.barStatus o.home o.bar st
    let k := s.core c
    let v := k.cq q
    let clk := s.opClk c q n o.clk
    let adv := advanceDone (v.done.length + 1) v.completed (n :: v.done)
    let v' : CopyQ := { v with
      completed := adv.1
      done := adv.2
      firstFail := noteFail v.firstFail n st.code
      ops := v.ops.filter fun x => x.n != n
      recs := (n, st) :: v.recs.filter fun r => decide (v.assigned < r.1 + 32)
      clks := (n, clk) :: v.clks }
    let k := (k.setCq q v').unbind q n
    let k :=
      match o.body with
      | .job j => k.tileEnd q n j (st.code == 0) clk
      | _ =>
        match o.cur with
        | some e => k.tileEnd q n e.job (st.code == 0) clk
        | none => k
    let k :=
      match o.fo, st.code with
      | some w, 0 => { k with offers := k.offers ++ [(q, n, (⟨w, o.snap, s.opAgent c q n, clk⟩ : FollowOn))] }
      | _, _ => k
    let s := ((s.setCore c { k with progress := s.now }).noteIntegrity k.world st.code)
    s.completionFields c o.home o.k o.bar clk

/-- Cancel an operation that has not started: its waiter leaves, its status is CANCELLED (R242, R243). -/
def State.cancelOp (s : State) (c q n : Nat) : State :=
  match (s.core c).op q n with
  | none => s
  | some o =>
    let key := semKey (s.core c).world (dieOf c) o.k.ws.toNat
    let s := if o.phase = .waiting then
        s.leaveSem key fun x =>
          match x with
          | .copy c' q' n' => c' == c && q' == q && n' == n
          | _ => false
      else s
    s.copyFinish c q n .cancelled

/-- Numbers of a queue's operations that have not started, ascending. -/
def CopyQ.unstarted (v : CopyQ) : List Nat := (v.ops.filter fun o => o.phase.unstarted).map (·.n)

/-- CCANCEL of a queue (R242): the state and how many operations it cancelled. -/
def State.cancelQueue (s : State) (c q : Nat) : State × Nat :=
  let ns := ((s.core c).cq q).unstarted
  (ns.foldl (fun s n => s.cancelOp c q n) s, ns.length)

/-- Elements waiting in a stream register (R195). -/
def Core.srq (k : Core) (n : Nat) : List SEnt := (tabFind k.sr n).getD []

/-- STRBIND operations in flight whose delivery waits on a full stream register (R243). -/
def Core.stuckBinds (k : Core) (q : Nat) : List Nat :=
  ((k.cq q).ops.filter fun o =>
    o.phase == .running &&
      (match o.body with
       | .job j =>
         (match j.kind with
          | .bind sn => decide (4 ≤ (k.srq sn).length)
          | _ => false)
       | _ => false)).map (·.n)

/-- The copy queues at reclamation (R243). -/
def State.reclaimQueues (s : State) (c : Nat) : State :=
  (List.range 4).foldl (fun s q =>
    let s := (s.cancelQueue c q).1
    ((s.core c).stuckBinds q).foldl (fun s n => s.copyFinish c q n .cancelled) s) s

/-! The fabric queue. -/

/-- The status of an operation that completed well. Table 12.3 calls DEVICE the target, and 0 for a local fault; R340 groups OK with SIDE 0,
and the model gives it DEVICE 0 (log 32). -/
def FStat.ok : FStat := ⟨0, 0, 0, 0⟩

/-- A fabric operation completes (R340). -/
def State.fabFinish (s : State) (c n : Nat) (st : FStat) : State :=
  let k := s.core c
  match k.fab.ops.find? fun o => o.n == n with
  | none => s
  | some o =>
    let v := k.fab
    let clk := s.opClk c 4 n o.clk
    let adv := advanceDone (v.done.length + 1) v.completed (n :: v.done)
    let v' : FabQ := { v with
      completed := adv.1
      done := adv.2
      firstFail := noteFail v.firstFail n st.code
      ops := v.ops.filter fun x => x.n != n
      recs := (n, st) :: v.recs.filter fun r => decide (v.assigned < r.1 + 64)
      clks := (n, clk) :: v.clks }
    let s := (s.setCore c { k with fab := v', progress := s.now }).noteIntegrity k.world st.code
    match o.sig with
    | some ss => s.signal (semKey k.world (dieOf c) ss) clk
    | none => s

def FabPhase.unstarted : FabPhase → Bool
  | .queued => true
  | .sent _ _ _ => false

/-- Fabric operations not yet started complete with CANCELLED (R317). -/
def State.reclaimFabric (s : State) (c : Nat) : State :=
  (((s.core c).fab.ops.filter fun o => o.phase.unstarted).map (·.n)).foldl
    (fun s n => s.fabFinish c n ⟨0x40, 0, 0, 0⟩) s

/-- Every engine queue fed by the core has drained (R155, R233). -/
def Core.drained (k : Core) : Bool :=
  k.cqs.all (fun v => v.ops.isEmpty) && k.offers.isEmpty && k.fab.ops.isEmpty

/-- The completed value of a timeline: copy queues 0 to 3, the fabric queue 4 (R110). -/
def Core.timeline (k : Core) (q : Nat) : Nat := if q = 4 then k.fab.completed else (k.cq q).completed

/-- What a wait for at least n on a timeline acquires (R110). -/
def State.timelineClk (s : State) (c q n : Nat) : Clock :=
  let k := s.core c
  s.uptoClk c q n (if q = 4 then k.fab.clks else (k.cq q).clks)

end Sys2Proof.Machine
end

