-- ==== Sys2Proof/Machine/TaskOps.lean ====
section
/-! DEFINITION. What the Task engine does for every caller: identifiers, control blocks, references, completion, the
stop of a gang, reclamation (R303 to R317, R95), and the start of a revocation sweep (R371). -/
namespace Sys2Proof.Machine

/-- The Lodestar clock in nanoseconds (R383): five per six cycles of 1.2 GHz (R11). -/
def State.lclock (s : State) : Nat := s.now * 5 / 6

/-- Set a bit of a function's ERRSTAT (Table 14.4). -/
def State.tdi (s : State) (f : Nat) : Tdi := (tabFind s.tdis f).getD .init
def State.setTdi (s : State) (f : Nat) (t : Tdi) : State := { s with tdis := tabSet s.tdis f t }
def State.errBit (s : State) (f bit : Nat) : State :=
  let t := s.tdi f
  s.setTdi f { t with err := t.err ||| ((1 : X64) <<< bit) }
/-- A berth's event: its TDI's function and function 0 (R411). -/
def State.errBerth (s : State) (b bit : Nat) : State := (s.errBit (s.berth b).tdi bit).errBit 0 bit

/-! Clusters of a berth (R397, R400, R403). -/

/-- Logical clusters a berth holds: those of its masks that have not retired for good (R403). -/
def State.clustersHeld (s : State) (b : Nat) : List Nat :=
  let d := (s.berth b).desc.toNat
  (List.range 72).filter fun c => (bitOf d (184 + c) || bitOf d (112 + c)) && !s.deadClusters.contains c

/-- Clusters whose cores a berth may use now: held and not lent out, or borrowed and not demanded back (R400, R401). -/
def State.clustersUsable (s : State) (b : Nat) : List Nat :=
  ((s.clustersHeld b).filter fun c => !s.lends.any fun l => l.cluster == c) ++
    (s.lends.filter fun l => l.borrower == b && l.demanded.isNone).map (·.cluster)

def coresOfCluster (c : Nat) : List Nat := upFrom (8 * c) 8

/-- Moored clusters that a berth holds. -/
def Berth.mooredCount (b : Berth) : Nat := ((List.range 72).filter fun c => bitOf b.moored c).length

/-- Does a world's guarantee exceed what remains of a DEGRADED berth (R405)? -/
def Berth.short (b : Berth) (guarM guarS : Nat) : Bool := b.state == 2 && (decide (b.mooredCount < guarM) || decide (b.share < guarS))

/-- Cores that a berth holds on a die (R306 step 4). -/
def State.coresHeld (s : State) (b die : Nat) : List Nat :=
  ((s.clustersHeld b).filter fun c => c / 12 == die).flatMap coresOfCluster

/-! Identifiers (Table 11.1, R315). -/

def taskId (world : Nat) (inc : BitVec 32) (die : Nat) (future : Bool) (idx : Nat) : X64 :=
  BitVec.ofNat 64 (world * 2 ^ 52 + inc.toNat * 2 ^ 20 + die * 2 ^ 16 + natOf future * 2 ^ 15 + idx)

def State.idOf (s : State) (die idx : Nat) : X64 :=
  let t := s.taskAt die idx
  taskId t.world t.inc die t.future idx

/-- The task an identifier names for an issuer of a world, if it is valid: a task of that world (R315). -/
def State.findTask (s : State) (world : Nat) (id : X64) : Option (Nat × Nat) :=
  let n := id.toNat
  let die := fieldOf n 19 16
  let idx := fieldOf n 11 0
  let t := s.taskAt die idx
  if fieldOf n 63 52 = world ∧ t.world = world ∧ die ≤ 5 ∧ t.inc.toNat = fieldOf n 51 20 ∧ t.st ≠ .free then some (die, idx) else none

/-! Revocation sweeps (R369, R371, R372). -/

/-- A range enters a revocation list; adjacent and overlapping ranges merge (R369). -/
def addRange (rs : List (Nat × Nat)) (first count : Nat) : List (Nat × Nat) :=
  let touch := rs.filter fun r => decide (r.1 ≤ first + count) && decide (first ≤ r.1 + r.2)
  let rest := rs.filter fun r => !(decide (r.1 ≤ first + count) && decide (first ≤ r.1 + r.2))
  let lo := touch.foldl (fun m r => min m r.1) first
  let hi := touch.foldl (fun m r => max m (r.1 + r.2)) (first + count)
  (rest.filter fun r => decide (r.1 < lo)) ++ (lo, hi - lo) :: rest.filter fun r => decide (lo < r.1)

/-- Every agent of the device that may hold a handle (R371 step 2). -/
def State.sweepAgents (s : State) : List SweepAgent :=
  s.cores.flatMap (fun e => [.coreRegs e.1, .copyEngine e.1, .fabricQueue e.1, .followOns e.1]) ++
    (List.range 6).flatMap (fun d => [.syncWaiters d, .taskEngine d]) ++ [.windows]

/-- Step 1 of a revocation: a range that reaches the floor raises it (R369, R392). -/
def raiseFloor : Nat → List (Nat × Nat) → Nat × List (Nat × Nat)
  | f, [] => (f, [])
  | f, r :: t => if r.1 ≤ f then raiseFloor (max f (r.1 + r.2)) t else (f, r :: t)

def World.addRevoked (w : World) (first count : Nat) : World :=
  let r := raiseFloor (max 1 w.floor) (addRange w.ranges first count)
  { w with floor := r.1, ranges := r.2 }

/-- Dispatch of a sweep that was asked for at a clock, its first step done. -/
def State.beginSweep (s : State) (world : Nat) (op : SweepOp) (since : Nat) (who : Option Nat) (dst : List Nat) : State :=
  let s := match op with
    | .revoke first count => s.modWorld world fun w => w.addRevoked first count
    | .freeze _ _ => s
  { s with sweep := some ⟨world, op, s.sweepAgents, since, 0, 0, 0, 0, 0, who, dst, []⟩ }

/-- A request joins the Lodestar's queue (R372, R426). -/
def State.askLode (s : State) (who : Asker) : State := { s with lodeQ := s.lodeQ ++ [⟨who, s.lclock, false⟩] }

/-- The Lodestar that serves is fenced, and the standby has not taken over (R388, R419). -/
def State.lodeDown (s : State) : Bool := s.lodeFenced.contains (natOf s.standby)

/-- The Lodestar is serving no request. -/
def State.lodeIdle (s : State) : Bool := s.lodeQ.isEmpty && s.sweep.isNone && !s.lodeDown

/-- Has a core a request at the Lodestar? It is never withdrawn (R389). -/
def State.asksLode (s : State) (c : Nat) : Bool :=
  s.lodeQ.any fun a =>
    match a.who with
    | .core c' _ => c' == c
    | .sweep _ _ | .host _ => false

/-- A sweep that a reclamation or the end of a world asks for takes its turn (R317, R366, R372). -/
def State.startSweep (s : State) (world : Nat) (op : SweepOp) : State :=
  let idle := s.lodeIdle
  let s := s.askLode (.sweep world op)
  if idle then s.beginSweep world op s.lclock none [] else s

/-- Does a sweep's operation match a handle (R371, R394)? -/
def SweepOp.hits (op : SweepOp) (world : Nat) (h : Handle) : Bool :=
  h.world.toNat == world && h.format != 0 &&
    (match op with
     | .revoke first count =>
       !h.revoked && h.serial != 0 && decide (first ≤ h.serial.toNat) && decide (h.serial.toNat < first + count)
     | .freeze base len =>
       (h.format == 1 || h.format == 3) && (h.w || h.a) && decide (h.base.toNat < base + len) &&
         decide (base < h.base.toNat + h.length.toNat))

/-- What it does to a handle that matches. -/
def SweepOp.mark (op : SweepOp) (h : Handle) : Handle :=
  match op with
  | .revoke _ _ => { h with revoked := true }
  | .freeze _ _ => { h with rights := (h.rights &&& 0xBF) ||| 0x02 }

/-- The status of an operation that it meets in flight: HANDLE_REVOKED or HANDLE_RIGHTS (R245, R362, R394). -/
def SweepOp.code : SweepOp → Nat
  | .revoke _ _ => 0x13
  | .freeze _ _ => 0x11

def SweepOp.sweepOne (op : SweepOp) (world : Nat) (h : Handle) : Handle := if op.hits world h then op.mark h else h

/-- An image that comes back into registers bears what sweeps have done since (R131, R144, R371, R394): its serial may be revoked, its
region frozen or being frozen. -/
def State.swept (s : State) (h : Handle) : Handle :=
  let v := s.world h.world.toNat
  let h := v.freezeRights (if v.isRevoked h.serial.toNat then { h with revoked := true } else h)
  match s.sweep with
  | some w => w.op.sweepOne w.world h
  | none => h

/-! The launch transcript (R385). -/

/-- A serial that a world reads joins its set, kept ascending. -/
def insertNat (x : Nat) : List Nat → List Nat
  | [] => [x]
  | y :: t => if x = y then y :: t else if x < y then x :: y :: t else y :: insertNat x t

def State.noteSerial (s : State) (world serial : Nat) : State :=
  s.modWorld world fun w => { w with readSet := insertNat serial w.readSet }

/-- Records of a position: full ones lead with 0x02, the last with 0x01. -/
def foldSet : Nat → BitVec 256 → X64 → List Nat → BitVec 256
  | 0, t, _, _ => t
  | fuel + 1, t, pos, set =>
    let more := decide (65536 < set.length)
    let now := set.take 65536
    let body := bytesOf 32 t.toNat ++ [if more then 2 else 1] ++ bytesOf 8 pos.toNat ++ bytesOf 4 now.length ++
      now.flatMap fun n => bytesOf 4 n
    let t := digestOf (sha256 body)
    if more then foldSet fuel t pos (set.drop 65536) else t

/-- A position of rank 0 enters the transcript. -/
def State.foldTranscript (s : State) (world : Nat) (pos : X64) : State :=
  s.modWorld world fun w =>
    { w with trT := foldSet (w.readSet.length / 65536 + 1) w.trT pos w.readSet, trCount := w.trCount + 1, readSet := [] }

/-! Control blocks (R305 to R307). -/

def byteAt (bs : List Byte) (i : Nat) : Nat := (bs.getD i 0).toNat
def natAt (bs : List Byte) (i n : Nat) : Nat := ofBytes ((bs.drop i).take n)

/-- The fields of Table 11.3; the loop record is read apart. -/
def Tcb.ofBytes (bs : List Byte) : Tcb :=
  let fl := byteAt bs 1
  let nh := byteAt bs 6 / 16
  let nsig := byteAt bs 0x13
  { sup := bitOf fl 0, ten := bitOf fl 1, res := bitOf fl 2, fsig := bitOf fl 3, pri := byteAt bs 2 % 16,
    dpri := byteAt bs 2 / 16, hold := byteAt bs 3 == 1, gsize := byteAt bs 4, die := byteAt bs 5,
    narg := byteAt bs 6 % 16, nh := nh, lrec := natAt bs 8 2, tvec := natAt bs 0xA 2, resume := natAt bs 0xC 2,
    ws := byteAt bs 0x10, wcount := byteAt bs 0x11, fs := byteAt bs 0x12,
    sigs := (List.range nsig).map fun m => byteAt bs (0x18 + m), n := natAt bs 0x14 4, save := natAt bs 0x20 8,
    tok := BitVec.ofNat 64 (natAt bs 0x28 8), args := (List.range 8).map fun m => BitVec.ofNat 64 (natAt bs (0x40 + 8 * m) 8),
    himg := (List.range nh).map fun m => Handle.ofBytes ((bs.drop (0x80 + 32 * m)).take 32),
    pro := 0xFFFF, ker := 0, epi := 0xFFFF, stages := 1 }

/-- Field faults of R306 step 2 that the bytes alone show. -/
def tcbBad (bs : List Byte) : Bool :=
  byteAt bs 0 != 1 || decide (15 < byteAt bs 1) || decide (1 < byteAt bs 3) || byteAt bs 4 == 0 || decide (96 < byteAt bs 4) ||
    (decide (5 < byteAt bs 5) && byteAt bs 5 != 15) || decide (8 < byteAt bs 6 % 16) || decide (8 < byteAt bs 6 / 16) ||
    byteAt bs 7 != 0 || natAt bs 0xE 2 != 0 || decide (8 < byteAt bs 0x13) ||
    ((List.range 8).any fun m => decide (byteAt bs 0x13 ≤ m) && byteAt bs (0x18 + m) != 0)

/-- The loop record of R307 from its two granules; none where it is malformed or out of range. -/
def loopRecord (len g0 g1 : Nat) (t : Tcb) : Option Tcb :=
  let pro := g0 % 65536
  let ker := g0 / 65536
  let epi := g1 % 65536
  if g1 / 2 ^ 19 ≠ 0 ∨ len ≤ ker ∨ (pro ≠ 0xFFFF ∧ len ≤ pro) ∨ (epi ≠ 0xFFFF ∧ len ≤ epi) then none
  else some { t with pro := pro, ker := ker, epi := epi, stages := fieldOf g1 18 16 + 1 }

/-- Read the loop record of a control block through a code handle, as the fetch agent reads code (R32, R307). -/
def State.readLoop (s : State) (a : Acc) (code : Handle) (t : Tcb) (addr : X64) : Except Flt Tcb :=
  let len := codeLenOf code
  let bad : Except Flt Tcb := .error ⟨.reservedField, 0, addr⟩
  if len < t.lrec + 2 ∨ len ≤ t.tvec then bad
  else do
    let ps ← s.check a code (4 * t.lrec : Nat) 8 .fetch 4 [1]
    let w := ofBytes (s.readBytes ps)
    match loopRecord len (w % 2 ^ 32) (w / 2 ^ 32) t with
    | some t => .ok t
    | none => bad

/-! Records (R305). -/

/-- The published result as the record shows it: a fault's record holds the fault's value instead (R305). -/
def Task.shown (t : Task) : Option X64 :=
  if t.outcome.status = 0 ∨ t.outcome.status = 0x40 ∨ t.outcome.status = 0x41 then t.pub else none

/-- The value word of RECORD (Table 11.4). -/
def Task.valueWord (t : Task) : X64 := t.shown.getD t.outcome.value

/-- The bytes of RECORD: status word and value (Table 11.4). -/
def Task.recordBytes (t : Task) : List Byte :=
  let o := t.outcome
  let status := o.status + o.sub * 2 ^ 8 + o.stream * 2 ^ 16 + natOf t.shown.isSome * 2 ^ 19 + o.group * 2 ^ 32
  bytesOf 8 status ++ bytesOf 8 t.valueWord.toNat

/-- The Task engine as an accessor of memory for a world. -/
def engineAcc (core world : Nat) : Acc := ⟨core, .strm core .h, 0, [], 0, 0, world, 0, 2 ^ 40⟩

/-- A handle that stands for the world's translation, as the Lodestar and the engine use it (R423). -/
def worldHandle (world : Nat) : Handle :=
  { format := 1, rights := 0xF0, world := BitVec.ofNat 12 world, serial := 0, base := 0, length := (2 ^ 48 - 1 : Nat),
    shape := 0, sealv := 0, isSealed := true, revoked := false }

/-- A worldHandle whose base is an address. -/
def worldHandleAt (world va : Nat) : Handle := { worldHandle world with base := BitVec.ofNat 57 va }

/-- RECORD is written under CheckAccess; where that fails nothing changes (R305). The write is neither checked for races nor stamped, whatever
D says: R105 stamps streams and queues alone, and no rule says it of the Task engine (log 30). -/
def State.writeRecord (s : State) (die idx : Nat) : State :=
  let t := s.taskAt die idx
  let go (h : Handle) (off : Int) (core : Nat) : State :=
    let a := { engineAcc core t.world with lo := clusterOf core * 16777216, hi := (clusterOf core + 1) * 16777216 }
    match s.store a h (off + 0x30) t.recordBytes 1 true fmt123 with
    | .ok (_, s') => s'
    | .error _ => s
  match t.recAt with
  | .none => s
  | .viaHandle h off core => go h off core
  | .viaWorld va => go (worldHandleAt t.world va) 0 0

/-! References (R314). -/

/-- Add to the count of a token in a list of references. -/
def addRef (rs : List (X64 × Nat)) (tok : X64) : List (X64 × Nat) :=
  if rs.any (fun r => r.1 == tok) then rs.map fun r => if r.1 = tok then (r.1, r.2 + 1) else r else rs ++ [(tok, 1)]

def dropRefOne (rs : List (X64 × Nat)) (tok : X64) : List (X64 × Nat) :=
  (rs.map fun r => if r.1 = tok then (r.1, r.2 - 1) else r).filter fun r => r.2 != 0

def holdsRef (rs : List (X64 × Nat)) (tok : X64) : Bool := rs.any fun r => r.1 == tok && r.2 != 0

/-! Stops. -/

/-- What the streams of a core know, joined: every access they committed. -/
def State.coreClk (s : State) (c : Nat) : Clock :=
  [Stream.h, .l, .s, .v, .m].foldl (fun k st => clkJoin k (s.clkOf c st)) []

/-- As coreClk, with every completed operation of the core's queues (R312). -/
def State.coreClkAll (s : State) (c : Nat) : Clock :=
  (List.range 5).foldl (fun k q => clkJoin k (s.timelineClk c q ((s.core c).timeline q))) (s.coreClk c)

/-- A stream other than H stops as under JOIN 1 (R152). That its open loop levels close at once is the model's choice (log 31). -/
def StreamSt.abandon (v : StreamSt) : StreamSt :=
  { v with run := if v.run = .absent then .absent else .ended, sec := none, grp := none, wait := none, oqs := [[], [], [], []],
           levels := [], blocked := none }

/-- JOIN 1 on a core: the streams that the last FORK started end, with their groups and pending faults discarded, and all operand
queues are emptied, restored entries not yet filled among them (R152). -/
def State.abandon (s : State) (c : Nat) : State :=
  let s := [Stream.l, .s, .v, .m].foldl (fun s st => s.dropWait c st) s
  s.modCore c fun k =>
    { k with ls := k.ls.abandon, ss := k.ss.abandon, vs := k.vs.abandon, ms := k.ms.abandon,
             pend := k.pend.filter fun p => p.st == .h || (k.strm p.st).run == .absent
             dropped := true }

/-- A core of a gang stops whole: streams, waits, the Helm (R313, R317 step 1). -/
def State.stopCore (s : State) (c : Nat) : State :=
  ((s.dropWait c .h).abandon c).modCore c fun k => { k with hrun := .idle, pend := [] }

/-- The cores that a task holds now. A pre-empted task keeps the list of its cores, which others may run on meanwhile (R319). -/
def State.heldCores (s : State) (die idx : Nat) : List Nat :=
  (s.taskAt die idx).cores.filter fun c => s.taskOf c == some (die, idx)

def State.stopGang (s : State) (die idx : Nat) : State := (s.heldCores die idx).foldl (fun s c => s.stopCore c) s

/-- The cores of a task are released (R312 step 4). -/
def State.releaseCores (s : State) (die idx : Nat) : State :=
  let s' := (s.heldCores die idx).foldl (fun s c =>
    s.modCore c fun k => { k with task := none, hrun := .idle, haltLine := false }) s
  s'.modTask die idx fun t => { t with cores := [], placed := false, yieldPend := false, yielded := [] }

/-- Answer every stream that waits for a future (R327, R328): a result, or the end without one. -/
def State.answerFgets (s : State) (die idx : Nat) (w : Wait) : State :=
  let f (v : StreamSt) : StreamSt :=
    match v.wait with
    | some x => if x.kind = .future die idx ∧ !x.done then { v with wait := some w } else v
    | none => v
  { s with cores := s.cores.map fun e => (e.1, { e.2 with hs := f e.2.hs }) }

/-- Waits of a task that is not running leave their engines. -/
def State.dropTaskWaits (s : State) (die idx : Nat) : State :=
  let t := s.taskAt die idx
  match t.st with
  | .waiting =>
    s.leaveSem (semKey t.world die t.tcb.ws) fun x =>
      match x with
      | .task d i _ => d == die && i == idx
      | _ => false
  | .ready => s.unready die idx
  | _ => s

/-- Drop n references to a future; at reach zero R316 applies, with `reclaim` for a task that does not run. -/
def State.dropRefs (s : State) (reclaim : State → Nat → Nat → State) (tok : X64) (n : Nat) : State :=
  match s.findTask (fieldOf tok.toNat 63 52) tok with
  | none => s
  | some (die, idx) =>
    let t := s.taskAt die idx
    let s := s.setTask die idx { t with reach := t.reach - n }
    if t.reach - n ≠ 0 then s
    else
      match t.st with
      | .done => s.modTask die idx fun t => { t with st := .free }
      | .running => s.modTask die idx fun t => { t with marked := true }
      | .free => s
      | _ => reclaim s die idx

/-- The barrier records of a reclaimed task are reset; one that cannot be read stays, and raises INTEGRITY in the world (R316, R417). -/
def State.resetBars (s : State) (world : Nat) (keys : List Nat) : State :=
  keys.foldl (fun s b => if s.barBad b then s.noteIntegrity world 0x1A else s.resetBar b) s

/-- Completion of R312, as one step: state and RECORD, held references, signals, cores. A task reclaimed on the way
that was not running completes with CANCELLED in the same step (R316, R317). -/
def completeGo : Nat → State → Nat → Nat → TaskRec → Clock → State
  | 0, s, _, _, _, _ => s
  | fuel + 1, s, die, idx, out, clk =>
    let s := s.dropTaskWaits die idx
    let t := s.taskAt die idx
    let s := (s.setTask die idx { t with st := .done, outcome := out, refs := [], marked := false, saved := false }).writeRecord die idx
    let reclaim (s : State) (d i : Nat) : State :=
      let s := s.resetBars (s.taskAt d i).world (s.taskAt d i).bars
      let v := s.taskAt d i
      let s := if v.tcb.res then
          match v.tcb.himg.head? with
          | some h => s.startSweep v.world (.revoke h.serial.toNat 1)
          | none => s
        else s
      completeGo fuel (s.modTask d i fun v => { v with pub := none, bars := [] }) d i ⟨0x40, 0, 0, 0, 0⟩ v.clk
    let s := s.answerFgets die idx ⟨.ended out.status, true, 0, [], 0⟩
    let s := t.refs.foldl (fun s r => s.dropRefs reclaim r.1 r.2) s
    let s := s.signalAll (t.tcb.sigs.map fun n => semKey t.world die n) clk
    let s := s.releaseCores die idx
    if t.future ∧ (s.taskAt die idx).reach = 0 then s.modTask die idx fun v => { v with st := .free } else s

/-- No chain of references is longer than the six task tables. -/
def refFuel : Nat := 24577

def State.completeTask (s : State) (die idx : Nat) (out : TaskRec) (clk : Clock) : State := completeGo refFuel s die idx out clk

/-- The knowledge of a whole gang (R312, R318). -/
def State.gangClk (s : State) (die idx : Nat) (queues : Bool) : Clock :=
  (s.heldCores die idx).foldl (fun k c => clkJoin k (if queues then s.coreClkAll c else s.coreClk c)) []

/-- Reclamation of R317 as one step; copies and bindings in flight go on (R243), for a task in any state but DONE and FREE; `status` is
CANCELLED there, OVERRUN for the stop of R322. What follows it follows the waits that had been granted as well (R281, R318). -/
def State.endTask (s : State) (die idx : Nat) (reclaim : Bool) (out : TaskRec) : State :=
  let cores := s.heldCores die idx
  let s := s.stopGang die idx
  let clk := clkJoin (s.taskAt die idx).clk (s.gangClk die idx false)
  let s := if reclaim then
      let s := cores.foldl (fun s c => (s.reclaimQueues c).modCore c fun k =>
        { k with sr := [], foc := k.foc + BitVec.ofNat 32 k.fos.length, fos := [], offers := [] }) s
      let s := cores.foldl (fun s c => s.reclaimFabric c) s
      let t := s.taskAt die idx
      let s := s.resetBars t.world t.bars
      let s := if t.tcb.res then
          match t.tcb.himg.head? with
          | some h => s.startSweep t.world (.revoke h.serial.toNat 1)
          | none => s
        else s
      s.modTask die idx fun v => { v with pub := none, bars := [] }
    else s
  s.completeTask die idx out clk

def TaskRec.cancelled : TaskRec := ⟨0x40, 0, 0, 0, 0⟩

/-- Reclamation (R317). -/
def State.reclaim (s : State) (die idx : Nat) : State := s.endTask die idx true .cancelled

/-- A task cancelled as TCANCEL cancels it (R326). -/
def State.cancelTask (s : State) (die idx : Nat) : State :=
  let t := s.taskAt die idx
  match t.st with
  | .waiting | .ready | .held | .yielded => s.completeTask die idx .cancelled t.clk
  | .running => s.setTask die idx { t with marked := true }
  | .done | .free => s

/-- References dropped by an instruction (R314, R327). -/
def State.dropRef (s : State) (tok : X64) : State := s.dropRefs (fun s d i => s.reclaim d i) tok 1

/-- A fault counted as a violation of a world, with its entry (R387, Table 13.7). -/
def State.noteViolation (s : State) (world code sub stream core : Nat) : State :=
  s.modWorld world fun w =>
    { w with violCount := w.violCount + 1
             viol := if w.viol.length < 10 then w.viol ++ [(s.lclock, code, sub, stream, core)] else w.viol }

/-- Codes of Table 0.2. -/
def Code.num : Code → Nat
  | .illegalOp => 0x01 | .reservedField => 0x02 | .streamMismatch => 0x03 | .unslated => 0x04 | .latchRange => 0x05
  | .queueUnderflow => 0x06 | .queueOverflow => 0x07 | .expired => 0x08 | .privilege => 0x09 | .arith => 0x0A
  | .handleBounds => 0x10 | .handleRights => 0x11 | .handleSeal => 0x12 | .handleRevoked => 0x13 | .handleWorld => 0x14
  | .translation => 0x18 | .align => 0x19 | .integrity => 0x1A | .mmRace => 0x20 | .watchdog => 0x21
  | .syncOverflow => 0x28 | .futureInvalid => 0x30 | .remoteNak => 0x38 | .linkDown => 0x39 | .remoteStale => 0x3A
  | .trapSw => 0x3E | .debug => 0x3F

/-- Does the world have a supervisor task other than one (R95)? -/
def State.hasSupervisor (s : State) (world die idx : Nat) : Bool :=
  s.tasks.any fun e =>
    e.1 != taskKey die idx && e.2.world == world && e.2.tcb.sup &&
      (match e.2.st with
       | .waiting | .ready | .running | .held | .yielded => true
       | .free | .done => false)

/-- StopTask: a fault that is not taken stops the whole gang; POLICY or R95 decides what follows (R313, R387). A task that is marked for
reclamation as it comes to be HELD is reclaimed at once (R316). A HELD task keeps what its gang did, for whatever ends it (R312, R318). -/
def State.stopTask (s : State) (c : Nat) (f : Flt) (st : Stream) (group : Nat) : State :=
  let world := (s.core c).world
  let s := s.noteViolation world f.code.num f.sub (streamNum st) c
  match s.taskOf c with
  | none => s.stopCore c
  | some (die, idx) =>
    let out : TaskRec := ⟨f.code.num, f.sub, streamNum st, group, f.value⟩
    let t := s.taskAt die idx
    let orphan := f.code = .translation ∧ !s.hasSupervisor world die idx
    if !t.tcb.hold ∧ !orphan then s.endTask die idx false out
    else
      let s := s.stopGang die idx
      let clk := s.gangClk die idx false
      let s := (s.modTask die idx fun t => { t with st := .held, outcome := out, clk := clkJoin t.clk clk }).writeRecord die idx
      let s := if t.tcb.fsig then s.signal (semKey world die t.tcb.fs) clk else s
      let s := if orphan then s.errBerth (s.world world).berth 16 else s
      let s := s.releaseCores die idx
      if t.marked then s.reclaim die idx else s

end Sys2Proof.Machine
end

