-- ==== Sys2Proof/Machine/Flags.lean ====
section
/-! DEFINITION. Conditions, STATUS, CAUSE and the other control registers: their fields and who may write them
(R116 to R120, R135). -/
namespace Sys2Proof.Machine

/-- Combinations of Table 5.10. -/
def CombOp.eval (o : CombOp) (a b : Bool) : Bool :=
  match o with
  | .and => a && b
  | .or => a || b
  | .xor => a != b
  | .andn => a && !b
  | .orn => a || !b

/-- STATUS of Table 5.3 from its five fields. -/
def mkStatus (mode pmode ie pie vftz : Bool) : X64 :=
  BitVec.ofNat 64 (natOf mode + 2 * natOf pmode + 4 * natOf ie + 8 * natOf pie + 16 * natOf vftz)

def Core.pmode (k : Core) : Bool := k.status.getLsbD 1
def Core.pie (k : Core) : Bool := k.status.getLsbD 3

/-- TVEC.EN and TVEC.HANDLER (Table 5.5). -/
def Core.trapsOn (k : Core) : Bool := k.tvec.getLsbD 0
def Core.handler (k : Core) : BitVec 16 := k.tvec.extractLsb' 1 16

/-- STATUS after a trap entry (R127). -/
def Core.trapStatus (k : Core) : X64 := mkStatus true k.supervisor false k.ie k.vftz

/-- STATUS after TRET (R157): MODE and IE come back; PMODE and PIE stay. -/
def Core.tretStatus (k : Core) : X64 := mkStatus k.pmode k.pmode k.pie k.pie k.vftz

/-- CAUSE of Table 5.4 as trap entry writes it (R127). -/
def mkCause (code sub stream : Nat) (more : Bool) (group : BitVec 16) : X64 :=
  BitVec.ofNat 64 (code % 256 + sub % 256 * 2 ^ 8 + stream * 2 ^ 16 + natOf more * 2 ^ 19 + group.toNat * 2 ^ 32)

/-- The bits of STATUS that are not reserved (Table 5.3). -/
def statusMask : X64 := 0x1F

/-- The bits of CAUSE that are not reserved (Table 5.4). -/
def causeMask : X64 := 0x0000FFFF000FFFFF

/-- CAUSE.STREAM and CAUSE.GROUP. -/
def Core.causeStream (k : Core) : Nat := fieldOf k.cause.toNat 18 16
def Core.causeGroup (k : Core) : BitVec 16 := k.cause.extractLsb' 32 16

/-- The stream of a number in CAUSE; H and the numbers that name none give none. -/
def streamOfNum : Nat → Option Stream
  | 1 => some .l
  | 2 => some .s
  | 3 => some .v
  | 4 => some .m
  | _ => none

/-- CYCLE of a core (R120): arithmetic-clock cycles of this core. -/
def State.cycle (s : State) (c : Nat) : X64 := BitVec.ofInt 64 ((s.now : Int) - (s.core c).cycle0)

/-- The control registers of Table 5.2. -/
inductive Csr where
  | status | cause | epc | etval | tvec | world | core | gang | cycle | qmapbase | padm | ftbase | savebase
  deriving DecidableEq, Repr

/-- Selectors of Table 5.2. -/
def csrOf (sel : BitVec 12) : Option Csr :=
  if sel = 0x000 then some .status
  else if sel = 0x001 then some .cause
  else if sel = 0x002 then some .epc
  else if sel = 0x003 then some .etval
  else if sel = 0x004 then some .tvec
  else if sel = 0x010 then some .world
  else if sel = 0x011 then some .core
  else if sel = 0x012 then some .gang
  else if sel = 0x013 then some .cycle
  else if sel = 0x020 then some .qmapbase
  else if sel = 0x021 then some .padm
  else if sel = 0x022 then some .ftbase
  else if sel = 0x030 then some .savebase
  else none

/-- May the register be read in the mode (Table 5.2)? -/
def Csr.readable (r : Csr) (sup : Bool) : Bool :=
  match r with
  | .cause | .epc | .etval | .savebase => sup
  | .status | .tvec | .world | .core | .gang | .cycle | .qmapbase | .padm | .ftbase => true

/-- May the register be written in the mode (Table 5.2)? STATUS in task mode is R117's. -/
def Csr.writable (r : Csr) (sup : Bool) : Bool :=
  match r with
  | .cause | .epc | .etval | .savebase | .tvec => sup
  | .status | .padm | .ftbase => true
  | .world | .core | .gang | .cycle | .qmapbase => false

/-- The value CSRR writes (R158). -/
def State.csrRead (s : State) (c : Nat) (r : Csr) : X64 :=
  let k := s.core c
  match r with
  | .status => k.status
  | .cause => k.cause
  | .epc => k.epc
  | .etval => k.etval
  | .tvec => k.tvec
  | .world => BitVec.ofNat 64 k.world
  | .core => BitVec.ofNat 64 c
  | .gang => k.gang
  | .cycle => s.cycle c
  | .qmapbase => k.qmapbase
  | .padm => k.padm
  | .ftbase => k.ftbase
  | .savebase => k.savebase

/-- The effect of CSRW on a register that may be written; reserved bits are ignored (R116, R117). -/
def Core.csrWrite (k : Core) (r : Csr) (v : X64) : Core :=
  match r with
  | .status => { k with status := if k.supervisor then v &&& 0x1F else (k.status &&& 0xF) ||| (v &&& 0x10) }
  | .cause => { k with cause := v &&& causeMask }
  | .epc => { k with epc := v &&& 0xFFFF }
  | .etval => { k with etval := v }
  | .tvec => { k with tvec := v &&& 0x1FFFF }
  | .padm => { k with padm := v &&& 0xFFFFFFFF000000FF }
  | .ftbase => { k with ftbase := v &&& 0xFFFF }
  | .savebase => { k with savebase := v &&& 0x01FFFFFFFFFFFF00 }
  | .world | .core | .gang | .cycle | .qmapbase => k

/-- PADM.EDGE as BSEL computes it (R140). -/
def edgeOf (d : Nat) : Nat := if d = 0 then 0 else (d - 1) % 128 + 1

end Sys2Proof.Machine
end

