-- ==== Sys2Proof/Machine/Ops.lean ====
section
/-! DEFINITION. Instruction memory and its fills (R27, R32, R36), taking a trap and returning from one (R127, R128,
R157), and the frame that every Helm instruction shares (R49, R129). -/
namespace Sys2Proof.Machine

/-! Instruction memory. -/

/-- Has the fetch agent or a copy written a granule of a core's instruction memory? -/
def Core.hasGran (k : Core) (g : Nat) : Bool := k.filled.any fun r => decide (r.1 ≤ g) && decide (g < r.1 + r.2)

/-- A granule as instruction memory holds it. -/
def State.gran (s : State) (c g : Nat) : Nat := ofBytes ((upFrom (imemKey c (4 * g)) 4).map (memGet s.mem))

/-- Bytes written into a core's instruction memory: every slate buffer is emptied (R27, R125), and a word written whole holds no error
(R417). -/
def State.putImem (s : State) (c : Nat) (bytes : List (Nat × Byte)) (g n : Nat) : State :=
  let whole (w : Nat) : Bool := (upFrom (8 * w) 8).all fun a => bytes.any fun b => imemKey c b.1 == a
  ({ s with mem := memPuts s.mem (bytes.map fun (b : Nat × Byte) => (imemKey c b.1, b.2)), ecc2 := s.ecc2.filter fun w => !whole w }).modCore c
    fun k => { k.dropBuffers with filled := (g, n) :: k.filled }

/-- Fill granules that are not there yet from the code handle (R27, R32). -/
def State.fillGo (s : State) (a : Acc) (c : Nat) : Nat → Nat → Except Flt State
  | _, 0 => .ok s
  | g, n + 1 =>
    if (s.core c).hasGran g then s.fillGo a c (g + 1) n
    else
      match s.check a (s.core c).code (4 * g : Nat) 4 .fetch 4 [1] with
      | .error f => .error f
      | .ok ps =>
        let bs := s.readBytes ps
        ((s.cacheTlb c a.world ps).putImem c ((upFrom (4 * g) 4).zip bs) g 1).fillGo a c (g + 1) n

/-- Does a word of some granules of instruction memory hold a double-bit error (R417, log 18)? -/
def State.gransBad (s : State) (c g n : Nat) : Bool :=
  s.ecc2.any fun w => decide (imemKey c (4 * g) < 8 * w + 8) && decide (8 * w < imemKey c (4 * (g + n)))

/-- Fetch n granules whole (R36): HANDLE_BOUNDS beyond the code handle, what a fill raises, or INTEGRITY of a word with a double-bit error,
for which no ETVAL is stated (R417, log 16). -/
def State.fetch (s : State) (c : Nat) (st : Stream) (g n : Nat) : Except Flt (Nat × State) :=
  if codeLenOf (s.core c).code < g + n then .error ⟨.handleBounds, 0, BitVec.ofNat 64 g⟩
  else
    match s.fillGo (s.accOf c st) c g n with
    | .error f => .error f
    | .ok s' =>
      if s'.gransBad c g n then .error ⟨.integrity, 0, Config.freeEtval s.fresh⟩
      else .ok (ofBytes ((upFrom (imemKey c (4 * g)) (4 * n)).map (memGet s'.mem)), s')

/-! Traps. -/

/-- TakeTrap of R127: to the handler, or StopTask where traps are off or the handler's own fault cannot be taken. -/
def State.enterTrap (s : State) (c : Nat) (f : Flt) (st : Stream) (resume group : BitVec 16) : State :=
  let k := s.core c
  if !k.trapsOn ∨ (st = .h ∧ f.code ≠ .watchdog ∧ !k.ie) then s.stopTask c f st group.toNat
  else
    s.setCore c
      { k with
        epc := resume.setWidth 64
        cause := mkCause f.code.num f.sub (streamNum st) (!k.pend.isEmpty) group
        etval := f.value
        status := k.trapStatus
        hs := { k.hs with pc := k.handler } }

/-- A fault that the Helm raises is taken at once; an INTEGRITY counts as it is raised (R127, R387). -/
def State.takeTrap (s : State) (c : Nat) (f : Flt) (st : Stream) (resume group : BitVec 16) : State :=
  (s.noteIntegrity (s.core c).world f.code.num).enterTrap c f st resume group

/-- The first pending fault in the order H, L, S, V, M (R23). -/
def firstPend (ps : List Pend) : Option Pend :=
  [Stream.h, .l, .s, .v, .m].findSome? fun st => ps.find? fun p => p.st == st

/-- A pending fault is taken before the next Helm item (R127); an INTEGRITY among them has counted as it was raised (R387). -/
def State.takePending (s : State) (c : Nat) : State :=
  match firstPend (s.core c).pend with
  | none => s
  | some p =>
    let s := s.modCore c fun k => { k with pend := k.pend.erase p }
    s.enterTrap c p.flt p.st (s.core c).hs.pc p.group

/-- A fault of L, S, V or M stops its stream at the start of its group and waits for the Helm (R23); an INTEGRITY counts, whether or not it
comes to be taken (R387). -/
def State.streamFault (s : State) (c : Nat) (st : Stream) (f : Flt) : State :=
  let s := s.noteIntegrity (s.core c).world f.code.num
  let v := s.strm c st
  (s.setStrm c st { v with run := .stopped, grp := none, wait := none }).modCore c fun k =>
    { k with pend := k.pend ++ [⟨f, st, v.pc⟩] }

/-- Return from a trap (R157): pc, mode and IE come back, and the stream that CAUSE names restarts at its group. A
follow-on's fault, which CAUSE.SUB marks, restarts nothing (R270). -/
def State.trapReturn (s : State) (c : Nat) : State :=
  let k := s.core c
  let k := { k with status := k.tretStatus, hs := { k.hs with pc := k.epc.setWidth 16 } }
  s.setCore c <|
    match streamOfNum k.causeStream with
    | none => k
    | some st =>
      if st = .m ∧ k.cause.getLsbD 15 then k
      else k.modStrm st fun v => if v.run = .stopped then { v with run := .running, pc := k.causeGroup } else v

/-! The frame of Helm instructions. -/

/-- What a Helm instruction does. -/
inductive HRes where
  /-- It retires; the pc moves past it. -/
  | retire (s : State)
  /-- It retires and control goes to a granule. -/
  | jump (s : State) (pc : BitVec 16)
  /-- It has not taken effect; the Helm stalls at it. -/
  | stall (s : State)
  /-- It faults and has no effect (R129). -/
  | fault (f : Flt)
  /-- It retires and then traps with EPC at the next item (R128). -/
  | trap (s : State) (f : Flt)

/-- A check that may fault, then the rest. -/
def HRes.of {α : Type} (e : Except Flt α) (k : α → HRes) : HRes :=
  match e with
  | .ok a => k a
  | .error f => .fault f

/-- Retirement of a Helm item at a pc: progress for the stall monitor (R22). -/
def State.retireAt (s : State) (pc : BitVec 16) : State :=
  s.modMe fun k => { k with progress := s.now, hs := { k.hs with pc := pc } }

/-- The machine after what a Helm instruction does at its pc. -/
def State.finishHelm (s : State) (r : HRes) : State :=
  let pc := s.me.hs.pc
  match r with
  | .retire s' => s'.retireAt (pc + 3)
  | .jump s' target => s'.retireAt target
  | .stall s' => s'
  | .fault f => (s.modStrm s.cur .h fun v => { v with wait := none }).takeTrap s.cur f .h pc 0
  | .trap s' f => (s'.retireAt (pc + 3)).takeTrap s.cur f .h (pc + 3) 0

/-- A format H instruction under its guard (R49). -/
def helm (s : State) (c : CReg) (r : HRes) : Out3 := .next (s.finishHelm (if s.me.getC c then r else .retire s))

/-- A format C instruction of the Helm; it has no guard (R49). -/
def helmC (s : State) (r : HRes) : Out3 := .next (s.finishHelm r)

/-- Write an x register of the Helm that the step serves, and retire. -/
def retireX (s : State) (xd : XReg) (v : X64) : HRes := .retire (s.modMe fun k => k.setX xd v)

/-- Write a c register and retire. -/
def retireC (s : State) (cd : CReg) (v : Bool) : HRes := .retire (s.modMe fun k => k.setC cd v)

/-- A fault without subcode or value. -/
def flt (c : Code) (sub : Nat) (v : X64) : Flt := ⟨c, sub, v⟩

/-- The accessor that is the Helm. -/
def State.helmAcc (s : State) : Acc := s.accOf s.cur .h

/-- An offset of a Helm operand: an index register read as signed plus an immediate, exact (R84, R142). -/
def State.hOff {n : Nat} (s : State) (xa : XReg) (imm : BitVec n) : Int := (s.me.getX xa).toInt + imm.toInt

/-- The key of a semaphore of the Helm's world on a die field: 15 is the core's own die (R283). -/
def State.semKeyOf (s : State) (c : Nat) (die : BitVec 4) (n : Nat) : Nat :=
  semKey (s.core c).world (if die = 15 then dieOf c else die.toNat) n

/-- Wait with a waiter that an engine answers: once answered, take the result; otherwise stall. -/
def State.awaited (s : State) (st : Stream) : Option Wait := (s.strm s.cur st).wait

/-- The stream takes the answer of its request: the wait ends and its knowledge joins, the epoch of a departure with it (R99, R106,
R293). -/
def State.takeAnswer (s : State) (st : Stream) (w : Wait) : State :=
  (s.modStrm s.cur st fun v => { v with wait := none }).learn s.cur st w.clk

end Sys2Proof.Machine
end

