-- ==== Sys2Proof/Machine/Operands.lean ====
section
/-! DEFINITION. Issue groups of L, S, V and M: their operand forms, what a group waits for, and its commit
(R15, R43 to R47, R164, R192 to R207, R263). -/
namespace Sys2Proof.Machine

/-- Why a word of a group does not go through: the group blocks whole, or it faults (R15). -/
inductive WStop where
  | block
  | fault (f : Flt)
  deriving DecidableEq, Repr

abbrev W (α : Type) := Except WStop α

def W.fail {α : Type} (f : Flt) : W α := .error (.fault f)
def W.lift {α : Type} : Except Flt α → W α
  | .ok a => .ok a
  | .error f => .error (.fault f)

/-- A group that has read and staged nothing. -/
def Grp.open (pc : BitVec 16) : Grp :=
  { start := pc, pops := [], spops := [], opops := [], lats := [], effs := [], mx := none, charge := 0, clk := [], tab := none,
    pcs := [], edge := false }

def Grp.add (g : Grp) (e : Eff) : Grp := { g with effs := g.effs ++ [e] }

/-- Writes in order: each is one that a waiting flag may see (R102, R299). -/
def Grp.addWrites (g : Grp) (ws : List (List (Nat × Byte))) : Grp := { g with effs := g.effs ++ ws.map .write }

/-- Granule of the word that the group is at. -/
def Grp.at_ (g : Grp) : Nat := g.start.toNat + 3 * g.lats.length

/-! Predicates and the mask stack (R204 to R207). -/

def allTrue : Pred := BitVec.allOnes 512

/-- k0 reads all true; k24 to k31 are all true until a phase or a program writes them (R204). -/
def Core.getK (k : Core) (n : Nat) : Pred := if n = 0 then allTrue else (tabFind k.k n).getD (if 24 ≤ n then allTrue else 0)
def Core.setK (k : Core) (n : Nat) (v : Pred) : Core := { k with k := tabSet k.k n v }

/-- The top of the mask stack: the newest entry, or the all-true base. -/
def maskTop (m : List Pred) : Pred := m.headD allTrue

/-- Is element e-sized k active under a word's predicate and the mask-stack top (R205)? -/
def activeBits (k : Core) (p : PSel) : Pred := (if p.neg then ~~~(k.getK p.k.toNat) else k.getK p.k.toNat) &&& maskTop k.mask

/-- The elements' activity at an element size, element 0 first. -/
def actList (b : Pred) (esz : Nat) : List Bool := (List.range (512 / esz)).map fun i => b.getLsbD (i * esz)

/-- A predicate from element values: every bit of an element holds its value (R204). -/
def predOf (esz : Nat) (xs : List Bool) : Pred :=
  BitVec.ofNat 512 (xs.foldr (fun b acc => (if b then 2 ^ esz - 1 else 0) + 2 ^ esz * acc) 0)

/-- The latch of a word that writes a predicate: byte j is 0xFF where bit j is true (R204). -/
def predVec (p : Pred) : Vec := vecOf 1 ((List.range 512).map fun j => if p.getLsbD j then 0xFF else 0)

/-! Sources. -/

def Core.vqueue (k : Core) (q : Nat) : List VEnt := (tabFind k.vq q).getD []
def Core.depth (k : Core) (q : Nat) : Nat := k.depths.getD q 16

/-- The head position of a vector queue within its slots (Table 7.10). -/
def Core.headAt (k : Core) (q : Nat) : Nat := (tabFind k.heads q).getD 0

/-- First slot of a vector queue under the queue map. -/
def Core.slotBase (k : Core) (q : Nat) : Nat := (k.depths.take q).foldl (· + ·) 0

/-- The slot of the j-th entry of a queue. -/
def Core.slotIx (k : Core) (q j : Nat) : Nat := k.slotBase q + (k.headAt q + j) % k.depth q

/-- The granule of the save area that holds a slot (Table 7.10). -/
def slotGran (m : Nat) : Nat := 0x46400 + 512 * m

/-- An entry that a read finds expired: marked so, or short-lived and 2,048 cycles old (R199, R200). -/
def VEnt.isExpired (e : VEnt) (now : Nat) : Bool := e.expired || (e.short && decide (e.time + 2048 ≤ now))

/-- Read a vector queue: the entry after those the group has popped (R192, R193, R199). -/
def readQ (k : Core) (now : Nat) (g : Grp) (q : Nat) (keep : Bool) : W (Vec × Grp) :=
  match (k.vqueue q)[g.pops.count q]? with
  | none => .fail ⟨.queueUnderflow, 0, BitVec.ofNat 64 q⟩
  | some e =>
    if e.isExpired now then .fail ⟨.expired, 0, BitVec.ofNat 64 q⟩
    else .ok (e.v, if keep then g else { g with pops := q :: g.pops })

/-- Read a stream register: blocks until the element has arrived (R195). -/
def readS (k : Core) (g : Grp) (n : Nat) (keep : Bool) : W (Vec × Grp) :=
  match (k.srq n)[g.spops.count n]? with
  | none => .error .block
  | some e => .ok (e.v, if keep then g else { g with spops := n :: g.spops, clk := clkJoin g.clk e.clk, edge := true })

/-- The result of the word j places earlier in the group (R45, R47). -/
def readLatch (g : Grp) (j : Nat) : W Vec :=
  match g.lats[g.lats.length - j]? with
  | some (some v) => if j = 0 ∨ g.lats.length < j then .fail ⟨.latchRange, 0, BitVec.ofNat 64 g.at_⟩ else .ok v
  | _ => .fail ⟨.latchRange, 0, BitVec.ofNat 64 g.at_⟩

/-- A vector source (R46, R192). -/
def readSrc (k : Core) (now : Nat) (g : Grp) : VSrc → W (Vec × Grp)
  | .q v keep => readQ k now g v.toNat keep
  | .sr n keep => readS k g n.toNat keep
  | .lat j =>
    match readLatch g j.toNat with
    | .ok v => .ok (v, g)
    | .error e => .error e

/-- Read an operand queue as a V or M word does: the j-th consuming read takes the j-th entry (R20, R196). -/
def readOq (v : StreamSt) (g : Grp) (q : OQ) (keep : Bool) : W (X64 × Grp) :=
  match (v.oqs.getD q.toNat [])[g.opops.count q.toNat]? with
  | none => .error .block
  | some e => .ok (e.val, if keep then g else { g with opops := q.toNat :: g.opops, clk := clkJoin g.clk e.clk, edge := true })

/-- The head of an operand queue as it stood at group start, not consumed (R164, R182, R263). -/
def headOq (v : StreamSt) (q : OQ) : W X64 :=
  match (v.oqs.getD q.toNat []).head? with
  | none => .error .block
  | some e => .ok e.val

/-- The element an immediate broadcasts (Table 7.2). -/
def immElem (t : Ty) (i : BitVec 30) : Nat :=
  match t with
  | .f32 => i.toNat * 4
  | .f16 | .bf16 | .i16 | .n16 => i.toNat % 65536
  | .e4m3 | .e5m2 | .i8 | .n8 => i.toNat % 256
  | .i32 => wrapTo 32 i.toInt
  | .i64 => wrapTo 64 i.toInt
  | .n32 | .n64 => i.toNat

/-- A scalar-capable source as a vector of a type (R196, R197). -/
def readOpd (k : Core) (now : Nat) (v : StreamSt) (g : Grp) (t : Ty) : VOpd → W (Vec × Grp)
  | .vec src => readSrc k now g src
  | .imm i => .ok (vecSplat t.size (immElem t i), g)
  | .oq q keep =>
    match readOq v g q keep with
    | .ok (x, g) => .ok (vecSplat t.size x.toNat, g)
    | .error e => .error e

/-- A destination: push at commit unless suppressed (R46). -/
def Grp.dest (g : Grp) (d : VDst) (v : Vec) : Grp :=
  match d with
  | .q q short => g.add (.push q.toNat v short)
  | .nul => g

/-- Byte offset of an Access operand (R164). -/
def memOff (v : StreamSt) (m : AMem) : W Int :=
  match m.idx with
  | none => .ok m.off.toInt
  | some q =>
    match headOq v q with
    | .error e => .error e
    | .ok x =>
      .ok (v.levels.foldl (fun o l => o + l.count.toNat * (l.strides.getD q.toNat 0).toInt) (m.off.toInt + x.toInt))

/-- What a word of a group does: it sees the state, the core, the stream and the group so far. -/
abbrev Body := State → Core → StreamSt → Grp → W (Grp × Option Vec)

/-- The result of a word: its latch, and a push unless write-back is suppressed (R46, R209). -/
def vout (g : Grp) (d : VDst) (x : Vec) : W (Grp × Option Vec) := .ok (g.dest d x, some x)

/-! Memory through a group. -/

/-- The accessor of a group: the stream, knowing what the group's consumptions tell it, departures among it (R99, R106). -/
def State.accGrp (s : State) (c : Nat) (st : Stream) (g : Grp) : Acc :=
  let a := s.accOf c st
  let clk := clkJoin a.clk g.clk
  { a with clk := clk, seen := s.seenOf c clk a.seen }

def packPiece (p : Piece) : Nat × Nat × Nat := (p.va, p.key, p.len)

/-- One piece per page is enough for what the TLBs keep (R92). -/
def notePieces (old : List (Nat × Nat × Nat)) (ps : List Piece) : List (Nat × Nat × Nat) :=
  ps.foldl (fun o p => if o.any fun q => q.1 / 4096 == p.va / 4096 then o else o ++ [packPiece p]) old

/-- Check one access of a group's word and stage its detection; a load observes flag increments (R86, R112, R166). -/
def grpAccess (s : State) (c : Nat) (st : Stream) (g : Grp) (h : Handle) (race : Bool) (off : Int) (size align : Nat) (k : Kind)
    (formats : List Nat) : W (List Piece × Grp) :=
  match s.access (s.accGrp c st g) h off size k align race formats (g.tab.getD s.sectors) with
  | .error f => .fail f
  | .ok (ps, tab) =>
    let k := if k = .load then s.flagClk ps else []
    .ok (ps, { g with tab := some tab, pcs := notePieces g.pcs ps, clk := clkJoin g.clk k, edge := g.edge || !k.isEmpty })

/-- Check a list of accesses in order; the first that fails decides (R86). Each is checked for itself, so that elements which only together
cover a line still verify it: the model's choice (R96, log 24). -/
def grpAccesses (s : State) (c : Nat) (st : Stream) (h : Handle) (race : Bool) (size align : Nat) (k : Kind) (formats : List Nat) :
    List Int → Grp → W (List (List Piece) × Grp)
  | [], g => .ok ([], g)
  | off :: rest, g =>
    match grpAccess s c st g h race off size align k formats with
    | .error e => .error e
    | .ok (ps, g) =>
      match grpAccesses s c st h race size align k formats rest g with
      | .error e => .error e
      | .ok (pss, g) => .ok (ps :: pss, g)

/-! What a group waits for (R166, R195, R201, R275). -/

/-- Reads in turn: each needs the entry after those consumed before it. -/
def turnsMet (count : Nat → Nat) : List (Nat × Bool) → List Nat → Bool
  | [], _ => true
  | (q, keep) :: t, done => decide (done.count q < count q) && turnsMet count t (if keep then done else q :: done)

def srcSregs : VSrc → List (Nat × Bool)
  | .sr n keep => [(n.toNat, keep)]
  | _ => []

def opdNeeds : VOpd → Needs
  | .vec src => { sregs := srcSregs src }
  | .imm _ => { }
  | .oq q keep => { oqs := [(q.toNat, keep)] }

def Needs.join (a b : Needs) : Needs :=
  { sregs := a.sregs ++ b.sregs, oqs := a.oqs ++ b.oqs, heads := a.heads ++ b.heads, tw := a.tw ++ b.tw, tr := a.tr ++ b.tr,
    free := a.free ++ b.free, syncs := a.syncs ++ b.syncs }

/-- Are the needs of a whole group met? -/
def Core.met (k : Core) (v : StreamSt) (n : Needs) : Bool :=
  turnsMet (fun i => (k.srq i).length) n.sregs [] &&
    turnsMet (fun i => (v.oqs.getD i []).length) n.oqs [] &&
    n.heads.all (fun h => decide (h.2 ≤ (v.oqs.getD h.1 []).length)) &&
    n.tw.all (fun t => !(k.tile t).full && (k.tile t).held.isNone) &&
    n.tr.all (fun t => (k.tile t).full) &&
    n.free.all (fun t => (k.tile t).held.isNone) &&
    n.syncs.all (fun m => (k.foc - BitVec.ofNat 32 m).toNat < 2 ^ 31)

/-- Does a stream earlier in the order of R16 wait for a tile that the needs name, with all it waited for now there? It
proceeds first (R19). -/
def Core.yieldsTile (k : Core) (st : Stream) (n : Needs) : Bool :=
  [Stream.l, .s, .v, .m].any fun e =>
    decide (streamNum e < streamNum st) && (k.strm e).run == .running &&
      (k.strm e).blocked.any fun b => b.tr.any (n.tr.contains ·) && k.met (k.strm e) b

/-- What the consumptions of a group tell its stream (Table 4.5). -/
def Core.needsClk (k : Core) (v : StreamSt) (n : Needs) : Clock :=
  let oq := n.oqs.filter (fun x => !x.2) |>.foldl (fun (r : Clock × List Nat) x =>
    let e := (v.oqs.getD x.1 [])[r.2.count x.1]?
    (clkJoin r.1 (e.map (·.clk) |>.getD []), x.1 :: r.2)) ([], [])
  let sr := n.sregs.filter (fun x => !x.2) |>.foldl (fun (r : Clock × List Nat) x =>
    let e := (k.srq x.1)[r.2.count x.1]?
    (clkJoin r.1 (e.map (·.clk) |>.getD []), x.1 :: r.2)) ([], [])
  n.tr.foldl (fun c t => clkJoin c (k.tile t).clk) (clkJoin oq.1 sr.1)

/-! The matrix budget at commit (R271). -/

/-- Refill in fifths of a unit per cycle (Table 9.7); the power manager may raise the class (R420). -/
def refillRate (cls : Nat) : Nat := 36 - 9 * min cls 3

/-- The bucket's level at a time. -/
def Core.settle (k : Core) (now : Nat) : Core :=
  let m := k.mx
  let rate := refillRate (max m.cls k.minCls)
  { k with mx := { m with bucket := min 20480 (m.bucket + rate * (now - m.refilled)), refilled := now } }

/-- What the bucket must hold for a charge; a charge beyond the bucket's size needs a full bucket (log 15). -/
def chargeNeed (charge : Nat) : Nat := min 20480 (5 * charge)

/-! Commits of one cycle on one queue or tile (R16). -/

/-- What a group's commit changes of what streams share: queue q as q, tile t as 64 + t. -/
def Grp.touches (g : Grp) : List Nat :=
  g.pops ++ g.effs.filterMap fun e =>
    match e with
    | .push q _ _ => some q
    | .tile t _ | .tileState t _ => some (64 + t)
    | _ => none

/-- Has a stream later in the order L, S, V, M committed in this very cycle a change of a queue or tile that the group changes? Its
effects came first in time, so this group's belong to a later cycle (R16). -/
def Core.tooLate (k : Core) (now : Nat) (st : Stream) (g : Grp) : Bool :=
  k.touched.any fun e => e.1 == now && decide (streamNum st < streamNum e.2.1) && e.2.2.any (g.touches.contains ·)

/-- The commits of the newest cycle, this one included. -/
def Core.touch (k : Core) (now : Nat) (st : Stream) (g : Grp) : Core :=
  { k with touched := (k.touched.filter fun e => e.1 == now) ++ [(now, st, g.touches)] }

/-! Commit. -/

/-- Drop consumed entries from queues. -/
def dropEach {α : Type} (t : Tab (List α)) (qs : List Nat) : Tab (List α) :=
  qs.foldl (fun t q => tabSet t q (((tabFind t q).getD []).drop 1)) t

/-- Each pop moves its queue's head by one slot. -/
def moveHeads (k : Core) (qs : List Nat) : Tab Nat :=
  qs.foldl (fun t q => tabSet t q (((tabFind t q).getD 0 + 1) % k.depth q)) k.heads

def dropOqs (oqs : List (List OqEnt)) (qs : List Nat) : List (List OqEnt) :=
  qs.foldl (fun o q => listPut o q ((o.getD q []).drop 1)) oqs

/-- Queues that the group's pushes would overfill, lowest first (R193). -/
def Core.overfull (k : Core) (g : Grp) : Option Nat :=
  let pushes := g.effs.filterMap fun e =>
    match e with
    | .push q _ _ => some q
    | _ => none
  (List.range 64).find? fun q =>
    pushes.contains q && decide (k.depth q < (k.vqueue q).length - g.pops.count q + pushes.count q)

/-- The depth checks of mask words in order (R206). -/
def maskFault : List Eff → Nat → Option Flt
  | [], _ => none
  | .mpush _ :: t, d => if d = 16 then some ⟨.queueOverflow, 1, 16⟩ else maskFault t (d + 1)
  | .minv :: t, d => if d = 0 then some ⟨.queueUnderflow, 1, 0⟩ else maskFault t d
  | .mpop :: t, d => if d = 0 then some ⟨.queueUnderflow, 1, 0⟩ else maskFault t (d - 1)
  | _ :: t, d => maskFault t d

/-- Granules of the save area that hold a tile, a weight slot, an accumulator row (Tables 6.6, 9.10). -/
def tileGran (t : Nat) : Nat := 0x1200 + 16384 * t
def weightGran (ws : Bool) : Nat := if ws then 0xCF000 else 0xC7000
def accGran (r : Nat) : Nat := 0xD7000 + 512 * r

/-- Granules that a group writes whole are present with its commit, without a fill (R187, R218, R279), and free of errors (R417). -/
def Grp.presents (g : Grp) (k : Core) (os : List Nat) : Grp :=
  if k.absent.isEmpty && k.ecc.isEmpty then g else os.foldl (fun g o => g.add (.present o)) g

/-- A granule is written whole: nothing restored is wanted there any more, and no word of it holds an error. -/
def Core.wrote (k : Core) (o : Nat) : Core := { k with absent := k.absent.filter (· != o), ecc := k.ecc.filter (· != o) }

/-- One staged effect. A push fills its slot and a tile write its tile, so no restored granule is wanted there any more (R187,
R218); a full bit that already stands as wanted changes nothing (R172), and what a group that fills a tile knows, and no more, is what
the readers it satisfies learn (Table 4.5). -/
def applyEff (now : Nat) (clk : Clock) (st : Stream) (k : Core) : Eff → Core
  | .push q v short =>
    { k.wrote (slotGran (k.slotIx q (k.vqueue q).length)) with vq := tabSet k.vq q (k.vqueue q ++ [⟨v, short, now, false⟩]) }
  | .write _ => k
  | .tile t bits =>
    (k.wrote (tileGran t)).setTile t { (k.tile t) with bits := bits, full := true, clk := clk }
  | .tileState t full =>
    if (k.tile t).full = full then k
    else k.setTile t { (k.tile t) with full := full, clk := if full then clk else (k.tile t).clk }
  | .pred n v => k.setK n v
  | .mpush v => { k with mask := (maskTop k.mask &&& v) :: k.mask }
  | .minv =>
    match k.mask with
    | [] => k
    | t :: rest => { k with mask := (maskTop rest &&& ~~~t) :: rest }
  | .mpop => { k with mask := k.mask.drop 1 }
  | .cedge n => k.modStrm st fun v => { v with cedge := n }
  | .redge n => k.modStrm st fun v => { v with redge := n }
  | .present o => k.wrote o

/-- Commit of a group (R15, R166 step 4, R201 step 4, R275): the last checks, then every effect at once. -/
def State.commitGroup (s : State) (c : Nat) (st : Stream) (g : Grp) : State :=
  let k := s.core c
  let v := k.strm st
  let pc := g.start + BitVec.ofNat 16 (3 * g.lats.length)
  if v.leavesOpen pc then s.streamFault c st ⟨.reservedField, 0, (pc - 3).setWidth 64⟩
  else
    match k.overfull g with
    | some q => s.streamFault c st ⟨.queueOverflow, 0, BitVec.ofNat 64 q⟩
    | none =>
      match maskFault g.effs k.mask.length with
      | some f => s.streamFault c st f
      | none =>
        let k := { k.settle s.now with heads := moveHeads k g.pops, vq := dropEach k.vq g.pops, sr := dropEach k.sr g.spops }
        let k := match g.mx with
          | some m => { k with mx := { m with bucket := k.mx.bucket, refilled := k.mx.refilled } }
          | none => k
        let k := k.setStrm st { v with grp := none, wait := none, blocked := none, oqs := dropOqs v.oqs g.opops }
        let k := { k.touch s.now st g with drowsy := [] }
        let clk := clkJoin (s.clkOf c st) g.clk
        let k := g.effs.foldl (fun k e => applyEff s.now clk st k e) k
        let s := { (s.setCore c k) with sectors := g.tab.getD s.sectors }
        let s := s.cacheTlb c k.world (g.pcs.map fun p => ⟨p.1, p.2.1, p.2.2⟩)
        let s := g.effs.foldl (fun s e =>
          match e with
          | .write bytes => s.putBytes k.world bytes
          | _ => s) s
        let s := if g.edge then s.learn c st g.clk else s
        s.sequence c st pc

end Sys2Proof.Machine
end

