-- ==== Sys2Proof/Machine/MatOps.lean ====
section
/-! DEFINITION. The array of the Matrix engine: format entries, activation rows, passes, budget charges, what matrix
words wait for, and the taking of M groups and follow-on words (R247 to R276). -/
namespace Sys2Proof.Machine

/-! The format table (R252 to R254). -/

/-- Fields of a format-table entry (Table 9.2). -/
structure Ent where
  a : Nat
  b : Nat
  acc : Nat
  scale : Nat
  rsv : Nat
  deriving DecidableEq, Repr

def Ent.ofBits (x : BitVec 16) : Ent :=
  let n := x.toNat
  ⟨fieldOf n 3 0, fieldOf n 7 4, fieldOf n 9 8, fieldOf n 11 10, fieldOf n 15 12⟩

/-- Validity of R253. -/
def Ent.valid (e : Ent) : Bool :=
  e.rsv == 0 && decide (2 ≤ e.a) && decide (e.a ≤ 5) && decide (2 ≤ e.b) && decide (e.b ≤ 5) && (e.a == 5) == (e.b == 5) &&
    (e.acc != 3 || e.a == 5) && e.scale != 3

def Mx.entry (m : Mx) (e : Nat) : Ent := .ofBits (m.ftab.getD e 0x0033)

/-- The entry an M-stream word uses; a follow-on uses entry 0 unless FX names one (R254). -/
def Mx.pick (m : Mx) (levels : List Level) (fo : Bool) (fent : Option (BitVec 4)) : Ent :=
  match fent with
  | some e => m.entry e.toNat
  | none =>
    if fo then m.entry 0
    else
      match m.sel with
      | .fixed e => m.entry e
      | .level l =>
        match levels[l]? with
        | some v => m.entry (v.count.toNat % 16)
        | none => m.entry 0

def Mx.slot (m : Mx) (ws : Bool) : Slot := if ws then m.ws1 else m.ws0
def Mx.setSlot (m : Mx) (ws : Bool) (v : Slot) : Mx := if ws then { m with ws1 := v } else { m with ws0 := v }

/-- CheckSlot of R260. -/
def checkSlot (e : Ent) (v : Slot) (ws : Bool) : W Unit :=
  if v.ty = 0 ∨ (e.a = 5) ≠ (v.ty = 5) then .fail ⟨.illegalOp, 1, BitVec.ofNat 64 (natOf ws)⟩ else .ok ()

/-! Tiles and rows (R256, R257). -/

/-- Tiles of an operand of a type code: a pair for BF16. -/
def tilePair (t : TReg) (ty : Nat) : List Nat := if ty = 2 then [t.toNat, t.toNat + 1] else [t.toNat]

/-- Bytes of a row of a type code. -/
def rowBytes (ty : Nat) : Nat := if ty = 2 then 256 else 128

/-- The bytes of a tile operand as one number, the first tile lowest. -/
def Core.tileImage (k : Core) (ts : List Nat) : Nat :=
  ts.foldr (fun t acc => (k.tile t).bits.toNat + 2 ^ 131072 * acc) 0

/-- Row i of rb bytes. -/
def rowAt (img rb i : Nat) : Nat := (img >>> (8 * rb * i)) % 2 ^ (8 * rb)

/-- The exact values of a row's 128 elements of a float type code. -/
def rowVals (ty row : Nat) : List FVal :=
  let t := tyOf ty
  (elemsOf row t.size 128).map (decodeF t.fmt)

/-- The signed values of a row of INT8. -/
def rowInts (row : Nat) : List Int := (elemsOf row 1 128).map (signedOf 8)

/-- Weight row k of a slot, as its bytes (Table 9.10). -/
def Slot.row (v : Slot) (k : Nat) : Nat := (v.w.toNat >>> (2048 * k)) % 2 ^ (8 * rowBytes v.ty.toNat)

/-- A slot loaded from a tile image (R256). -/
def slotOf (img ty : Nat) (scale : BitVec 32) : Slot :=
  let rb := rowBytes ty
  let w := if ty = 2 then img else packElems 256 ((List.range 128).map fun k => rowAt img rb k)
  ⟨BitVec.ofNat 262144 w, BitVec.ofNat 4 ty, scale⟩

/-! Passes (R71, R72, R261). -/

/-- One FP32 step of a column sum: rn32(s + a × w). -/
def fmaStep (a : FVal) (s : Nat) (w : FVal) : Nat := rn32 (addF .rne (decodeF fFP32 s) (mulF a w))

/-- The 128 column sums of a float row. -/
def colSumsF (slot : Slot) (a : List FVal) : List Nat :=
  (a.zip (List.range 128)).foldl
    (fun sums p => List.zipWith (fmaStep p.1) sums (rowVals slot.ty.toNat (slot.row p.2))) (List.replicate 128 0)

/-- The 128 exact column sums of an INT8 row. -/
def colSumsI (slot : Slot) (a : List Int) : List Int :=
  (a.zip (List.range 128)).foldl
    (fun sums p => List.zipWith (fun s w => s + p.1 * w) sums (rowInts (slot.row p.2))) (List.replicate 128 0)

def f32 (x : Nat) : FVal := decodeF fFP32 x

/-- q of R261. -/
def scaleQ (e : Ent) (sa sw : Nat) : Nat :=
  if e.scale = 2 then 0x3F800000 else rn32 (mulF (f32 (if e.scale = 0 then sa else 0x3F800000)) (f32 sw))

/-- Promotion of a float column sum (Table 9.6). -/
def promoteF (e : Ent) (acc s q : Nat) : Nat :=
  let p := mulF (f32 s) (f32 q)
  if e.acc = 1 then rn32 p else rn32 (addF .rne (f32 acc) (if e.acc = 2 then negF p else p))

/-- Promotion of an INT8 column sum (Table 9.6, R72). -/
def promoteI (e : Ent) (acc : Nat) (s : Int) (q : Nat) : Nat :=
  let p := rn32 (mulF (ofIntF s) (f32 q))
  if e.acc = 3 then wrapTo 32 (clampTo (-(2 ^ 31)) (2 ^ 31 - 1) (signedOf 32 acc + s))
  else if e.acc = 1 then p
  else rn32 (addF .rne (f32 acc) (if e.acc = 2 then negF (f32 p) else f32 p))

/-- Columns of a column-block mask (Table 9.4). -/
def colOn (cbm : BitVec 4) (j : Nat) : Bool := cbm.getLsbD (j / 32)

def maskCols (cbm : BitVec 4) (old new : List Nat) : List Nat :=
  (List.zip old new).zip (List.range 128) |>.map fun p => if colOn cbm p.2 then p.1.2 else p.1.1

def Mx.accRow (m : Mx) (r : Nat) : Vec := (tabFind m.acc r).getD 0
def Mx.setRow (m : Mx) (r : Nat) (v : Vec) : Mx := { m with acc := tabSet m.acc r v }

/-- Pass of R261: one activation row folded into one accumulator row. -/
def Mx.pass (m : Mx) (e : Ent) (ws : Bool) (row sa r : Nat) (cbm : BitVec 4) : Mx :=
  let slot := m.slot ws
  let old := vecElems (m.accRow r) 4
  let q := scaleQ e sa slot.scale.toNat
  let new :=
    if e.a = 5 then List.zipWith (fun acc s => promoteI e acc s q) old (colSumsI slot (rowInts row))
    else List.zipWith (fun acc s => promoteF e acc s q) old (colSumsF slot (rowVals e.a row))
  m.setRow r (vecOf 4 (maskCols cbm old new))

/-- Rows passed in ascending order into successive accumulator rows (R258). -/
def Mx.passes (m : Mx) (e : Ent) (ws : Bool) (cbm : BitVec 4) : List Nat → List Nat → Nat → Mx
  | row :: rows, sa :: sas, r => Mx.passes (m.pass e ws row sa r cbm) e ws cbm rows sas (r + 1)
  | _, _, _ => m

/-! Charges (R271). -/

def popCount : Nat → Nat → Nat
  | 0, _ => 0
  | n + 1, x => x % 2 + popCount n (x / 2)

/-- Units of rows: 1 + Ceil(T / 128) each, T the bits changed from the row before. -/
def rowsCharge (rb : Nat) : Nat → List Nat → Nat
  | _, [] => 0
  | prev, r :: t => 1 + (popCount (8 * rb) (Nat.xor prev r) + 127) / 128 + rowsCharge rb r t

/-! Operands of matrix words. -/

/-- AccBase of R263: the first row. -/
def accBase (v : StreamSt) (p : MPos) (rows : Nat) : W Nat :=
  match (match p.pos with
         | none => (.ok p.acc.toNat : W Nat)
         | some q => (headOq v q).map fun (x : X64) => p.acc.toNat + fieldOf x.toNat 41 32) with
  | .error e => .error e
  | .ok m => if 1024 < m + rows then .fail ⟨.arith, 4, BitVec.ofNat 64 m⟩ else .ok m

/-- The scale of MLDW and MLDS (R256). -/
def readScale (v : StreamSt) (g : Grp) : MScale → W (BitVec 32 × Grp)
  | .imm i => .ok (i ++ (0 : BitVec 2), g)
  | .oq q =>
    match readOq v g q false with
    | .ok (x, g) => .ok (x.setWidth 32, g)
    | .error e => .error e

/-- n scale entries of a queue, consumed, where the entry's scale is BOTH (R258). -/
def readScales (v : StreamSt) (q : OQ) : Nat → Grp → W (List Nat × Grp)
  | 0, g => .ok ([], g)
  | n + 1, g =>
    match readOq v g q false with
    | .error e => .error e
    | .ok (x, g) =>
      match readScales v q n g with
      | .error e => .error e
      | .ok (xs, g) => .ok (x.toNat % 2 ^ 32 :: xs, g)

def rowScales (v : StreamSt) (e : Ent) (q : OQ) (n : Nat) (g : Grp) : W (List Nat × Grp) :=
  if e.scale = 0 then readScales v q n g else .ok (List.replicate n 0x3F800000, g)

/-- A BF16 operand may not start in tile 15 (R256, R258). -/
def checkTile (t : TReg) (ty : Nat) : W Unit := if ty = 2 ∧ t = 15 then .fail ⟨.reservedField, 0, 15⟩ else .ok ()

/-- The staged engine state of a group, or the engine's. -/
def Grp.mxOf (g : Grp) (k : Core) : Mx := g.mx.getD k.mx

/-- MMA on the state of a group (R258). -/
def mmaBody (fo : Bool) (cons : Bool) (row0 : BitVec 7) (t : TReg) (sq : OQ) (n1 : BitVec 7) (fent : Option (BitVec 4))
    (ws : Bool) (cbm : BitVec 4) (pos : MPos) (k : Core) (v : StreamSt) (g : Grp) : W (Grp × Option Vec) := do
  let m := g.mxOf k
  let n := n1.toNat + 1
  let e := m.pick v.levels fo fent
  checkSlot e (m.slot ws) ws
  checkTile t e.a
  let base ← accBase v pos n
  let (sas, g) ← rowScales v e sq n g
  let ts := tilePair t e.a
  if ts.all fun i => (k.tile i).full && (k.tile i).held.isNone then
    let img := k.tileImage ts
    let rows := (List.range n).map fun i => rowAt img (rowBytes e.a) (row0.toNat + i)
    let g := { g with mx := some (m.passes e ws cbm rows sas base), edge := true,
                      clk := ts.foldl (fun c i => clkJoin c (k.tile i).clk) g.clk }
    .ok (if cons then ts.foldl (fun g i => g.add (.tileState i false)) g else g, none)
  else .error .block

/-- Index lanes of MMAG: offsets of active rows, none for a zero row (R259). -/
def gatherOffs (idx : Vec) (n : Nat) (off : Int) (p : Nat) : List (Option Int) :=
  ((vecElems idx 4).take n).map fun i => if i = 0xFFFFFFFF then none else some (off + (i * p : Nat))

/-- The rows of a gather: checked lane by lane, then read (R259, R86). -/
def gatherRows (s : State) (a : Acc) (h : Handle) (race : Bool) (rb : Nat) : List (Option Int) → Grp → W (List Nat × Grp)
  | [], g => .ok ([], g)
  | none :: rest, g =>
    match gatherRows s a h race rb rest g with
    | .error e => .error e
    | .ok (rs, g) => .ok (0 :: rs, g)
  | some off :: rest, g =>
    match s.access a h off rb .load (rb / 128) race [2] (g.tab.getD s.sectors) with
    | .error f => .fail f
    | .ok (ps, tab) =>
      match gatherRows s a h race rb rest { g with tab := some tab } with
      | .error e => .error e
      | .ok (rs, g) => .ok (ofBytes (s.readBytes ps) :: rs, g)

/-- The byte offset a position entry gives MMAG (R259). -/
def gatherBase (v : StreamSt) (p : MPos) : W Int :=
  match p.pos with
  | none => .ok 0
  | some q => (headOq v q).map fun (x : X64) => signedOf 32 x.toNat

/-- MMAG on the state of a group; the handle and the accessor are the stream's or the copy's (R259). A fault of its CheckHandle, made before
an offset is known, reports the handle's base: the model's choice (log 29). -/
def mmagBody (s : State) (a : Acc) (h : Handle) (fo : Bool) (n1 : BitVec 7) (sq : OQ) (idx : VSrc) (fent : Option (BitVec 4))
    (ws : Bool) (cbm : BitVec 4) (pos : MPos) (race : Bool) (k : Core) (v : StreamSt) (g : Grp) : W (Grp × Option Vec) := do
  let m := g.mxOf k
  let n := n1.toNat + 1
  let e := m.pick v.levels fo fent
  let (iv, g) ← readSrc k s.now g idx
  checkSlot e (m.slot ws) ws
  let base ← accBase v pos n
  W.lift (checkHandle a.world h 0 .load [2])
  let off ← gatherBase v pos
  let rb := rowBytes e.a
  let p := if h.pitch = 0 then rb else h.pitch
  let (rows, g) ← gatherRows s a h race rb (gatherOffs iv n off p) g
  let (sas, g) ← rowScales v e sq n g
  .ok ({ g with mx := some (m.passes e ws cbm rows sas base) }, none)

/-! The words of M on a group (R256 to R274). -/

/-- MLDW (R256). -/
def mldwBody (kp : Bool) (ws : Bool) (t : TReg) (sc : MScale) : Body := fun _ k v g => do
  let m := g.mxOf k
  let e := m.pick v.levels false none
  checkTile t e.b
  let ts := tilePair t e.b
  if ts.all fun i => (k.tile i).full && (k.tile i).held.isNone then
    let (x, g) ← readScale v g sc
    let g := { g with mx := some (m.setSlot ws (slotOf (k.tileImage ts) e.b x)), edge := true,
                      clk := ts.foldl (fun c i => clkJoin c (k.tile i).clk) g.clk }
    let g := g.presents k [weightGran ws]
    .ok (if kp then g else ts.foldl (fun g i => g.add (.tileState i false)) g, none)
  else .error .block

/-- MLDS: the scale alone; an empty slot stays empty (R256). -/
def mldsBody (ws : Bool) (sc : MScale) : Body := fun _ k v g => do
  let m := g.mxOf k
  let (x, g) ← readScale v g sc
  .ok ({ g with mx := some (m.setSlot ws { m.slot ws with scale := x }) }, none)

/-- Rows with the columns of a mask zeroed (R264). -/
def Mx.zeroRows (m : Mx) (cbm : BitVec 4) : Nat → Nat → Mx
  | _, 0 => m
  | r, n + 1 =>
    let row := vecOf 4 (maskCols cbm (vecElems (m.accRow r) 4) (List.replicate 128 0))
    Mx.zeroRows (m.setRow r row) cbm (r + 1) n

/-- MZERO (R264). -/
def mzeroBody (n1 : BitVec 7) (cbm : BitVec 4) (pos : MPos) : Body := fun _ k v g => do
  let n := n1.toNat + 1
  let base ← accBase v pos n
  let g := if cbm == 0xF then g.presents k ((upFrom base n).map accGran) else g
  .ok ({ g with mx := some ((g.mxOf k).zeroRows cbm base n) }, none)

/-- An accumulator row as MRD pushes it (R265). -/
def mrdRow (ty : Ty) (rnd : Rnd) (sat : Bool) (row : Vec) : Vec :=
  match ty with
  | .bf16 | .f16 => vecOf 2 ((vecElems row 4).map fun x => roundF ty.fmt rnd (f32 x))
  | .e4m3 | .e5m2 => vecOf 1 ((vecElems row 4).map fun x => narrow8 ty.fmt rnd sat (f32 x))
  | _ => row

/-- MRD (R265). -/
def mrdBody (dst : VDst) (ty : Ty) (rnd : Rnd) (sat : Bool) (pos : MPos) : Body := fun _ k v g => do
  let base ← accBase v pos 1
  vout g dst (mrdRow ty rnd sat ((g.mxOf k).accRow base))

/-- MWR (R266). -/
def mwrBody (src : VSrc) (cbm : BitVec 4) (pos : MPos) : Body := fun s k v g => do
  let (x, g) ← readSrc k s.now g src
  let base ← accBase v pos 1
  let m := g.mxOf k
  let g := if cbm == 0xF then g.presents k [accGran base] else g
  .ok ({ g with mx := some (m.setRow base (vecOf 4 (maskCols cbm (vecElems (m.accRow base) 4) (vecElems x 4)))) }, none)

/-- The lowest entry of a table that is not valid (R255). -/
def badEntry (es : List (BitVec 16)) : Option Nat :=
  (List.range 16).find? fun i => !(Ent.ofBits (es.getD i 0)).valid

/-- A fault of the code handle at the format table from granule t is the granule's, the first that is still to be filled (Table 9.9). -/
def tableFault (k : Core) (t : Nat) (f : Flt) : Flt :=
  match f.code with
  | .handleBounds | .handleRights | .handleRevoked | .handleWorld | .align =>
    { f with value := BitVec.ofNat 64 (((upFrom t 8).find? fun g => !k.hasGran g).getD t) }
  | _ => f

/-- MFMT (R255). -/
def mfmtBody (fixed : Bool) (arg : BitVec 4) : Body := fun s k _ g => do
  let t := k.ftSnap.toNat
  if codeLenOf k.code < t + 8 then .error (.fault ⟨.handleBounds, 0, BitVec.ofNat 64 t⟩)
  else
    let (n, _) ← W.lift ((s.fetch s.cur .m t 8).mapError (tableFault k t))
    let es := (elemsOf n 2 16).map (BitVec.ofNat 16)
    match badEntry es with
    | some e => .error (.fault ⟨.illegalOp, 2, BitVec.ofNat 64 e⟩)
    | none =>
      let sel : MSel := if fixed then .fixed arg.toNat else .level (arg.toNat % 8)
      .ok ({ g with mx := some { g.mxOf k with ftab := es, sel := sel } }, none)

/-- The array takes an item of a charge: bucket, counters, waiting time (R271, R273). -/
def Mx.take (m : Mx) (now charge : Nat) : Mx :=
  { m with
    bucket := m.bucket - 5 * charge
    charged := (m.charged + charge) % 2 ^ 64
    waited := m.waited + (now - m.waitSince.getD now)
    waitSince := none }

/-- The lanes of MSTAT once the group's charge is taken (R273). -/
def mstatLanes (k : Core) (m : Mx) (now charge : Nat) : List Nat :=
  let t := (k.settle now).mx.take now charge
  let lo (x : Nat) : Nat := x % 2 ^ 32
  [lo t.charged, t.charged / 2 ^ 32, lo t.waited, lo (t.waited / 2 ^ 32), k.foa.toNat, k.foc.toNat, m.cls, t.bucket / 5] ++
    List.replicate 120 0

/-- MBUD (R272). -/
def mbudBody (cls : BitVec 2) : Body := fun _ k _ g => .ok ({ g with mx := some { g.mxOf k with cls := cls.toNat } }, none)

/-- MSTAT (R273). -/
def mstatBody (dst : VDst) : Body := fun s k _ g => vout g dst (vecOf 4 (mstatLanes k (g.mxOf k) s.now g.charge))

/-- Have the first n follow-ons completed (R274)? -/
def syncMet (foc : BitVec 32) (n : Nat) : Bool := decide ((foc - BitVec.ofNat 32 n).toNat < 2 ^ 31)

/-- MSYNC (R274). -/
def msyncBody (arg : MScale) : Body := fun _ k v g =>
  match arg with
  | .imm n => if syncMet k.foc n.toNat then .ok (g, none) else .error .block
  | .oq q => do
    let (x, g) ← readOq v g q false
    if syncMet k.foc (x.toNat % 2 ^ 32) then .ok (g, none) else .error .block

/-- What an M word does on a group, for the rows that M issues in groups; it is what their meanings run. -/
def matBody : Instr → Body
  | .mldw _ kp ws t sc => mldwBody kp ws t sc
  | .mlds _ ws sc => mldsBody ws sc
  | .mma _ cons row0 t sq n1 fent ws cbm pos => fun _ => mmaBody false cons row0 t sq n1 fent ws cbm pos
  | .mmag _ n1 h sq idx fent ws cbm pos race => fun s k v g =>
    mmagBody s (s.accGrp s.cur .m g) (k.getH h) false n1 sq idx fent ws cbm pos race k v g
  | .mzero _ n1 cbm pos => mzeroBody n1 cbm pos
  | .mrd _ dst ty rnd sat pos => mrdBody dst ty rnd sat pos
  | .mwr _ src _ cbm pos => mwrBody src cbm pos
  | .mfmt _ fixed arg => mfmtBody fixed arg
  | .mbud _ cls => mbudBody cls
  | .mstat _ dst => mstatBody dst
  | .msync _ arg => msyncBody arg
  | .rdv _ q => fun _ _ v g => (readOq v g q false).map fun (r : X64 × Grp) => (r.2, none)
  | _ => fun _ _ _ g => .ok (g, none)

/-! What matrix words wait for (R275 step 1). -/

def posHeads (p : MPos) : List (Nat × Nat) :=
  match p.pos with
  | some q => [(q.toNat, 1)]
  | none => []

def scaleNeeds : MScale → Needs
  | .imm _ => { }
  | .oq q => { oqs := [(q.toNat, false)] }

def rowScaleNeeds (e : Ent) (q : OQ) (n : Nat) : Needs :=
  if e.scale = 0 then { oqs := List.replicate n (q.toNat, false) } else { }

/-- The tiles an operand waits for; a BF16 operand in tile 15 waits for none, its item faulting (Table 9.9). -/
def tileNeeds (t : TReg) (ty : Nat) : List Nat := if ty = 2 && t.toNat = 15 then [] else tilePair t ty

/-- Needs of a matrix word under the format table that stands as the word comes, after reads of operand queues by the words before it. -/
def matNeeds (m : Mx) (v : StreamSt) (fo : Bool) (before : List (Nat × Bool)) : Instr → Needs
  | .mldw _ _ _ t sc =>
    let ts := tileNeeds t (m.pick v.levels fo none).b
    (scaleNeeds sc).join { tr := ts, free := ts }
  | .mlds _ _ sc => scaleNeeds sc
  | .mma _ _ _ t sq n1 fent _ _ pos =>
    let e := m.pick v.levels fo fent
    let ts := tileNeeds t e.a
    (rowScaleNeeds e sq (n1.toNat + 1)).join { tr := ts, free := ts, heads := posHeads pos }
  | .mmag _ n1 _ sq idx fent _ _ pos _ =>
    let e := m.pick v.levels fo fent
    (rowScaleNeeds e sq (n1.toNat + 1)).join { sregs := srcSregs idx, heads := posHeads pos }
  | .mzero _ _ _ pos => { heads := posHeads pos }
  | .mrd _ _ _ _ _ pos => { heads := posHeads pos }
  | .mwr _ src _ _ pos => { sregs := srcSregs src, heads := posHeads pos }
  | .msync _ (.imm n) => { syncs := [n.toNat] }
  | .msync _ (.oq q) =>
    let mine := (v.oqs.getD q.toNat [])[(before.filter fun r => r.1 == q.toNat && !r.2).length]?
    { oqs := [(q.toNat, false)], syncs := (mine.map fun e => e.val.toNat % 2 ^ 32).toList }
  | _ => { }

/-- The handle register of a number. -/
def Core.handleAt (k : Core) (n : Nat) : Handle := k.getH (BitVec.ofNat 5 n)

/-- The budget units of a matrix word, from the operands that it reads in its place of the group (R271). -/
def State.matCharge (s : State) (c : Nat) (hof : Nat → Handle) (fo : Bool) (g : Grp) (i : Instr) : Nat :=
  let k := s.core c
  let v := k.ms
  let m := g.mxOf k
  match i with
  | .mldw _ _ _ _ _ => if (m.pick v.levels fo none).b = 2 then 256 else 128
  | .mma _ _ row0 t _ n1 fent _ _ _ =>
    let e := m.pick v.levels fo fent
    let rb := rowBytes e.a
    let img := k.tileImage (tilePair t e.a)
    rowsCharge rb 0 ((List.range (n1.toNat + 1)).map fun j => rowAt img rb (row0.toNat + j))
  | .mmag _ n1 h _ idx fent _ _ pos _ =>
    let e := m.pick v.levels fo fent
    let rb := rowBytes e.a
    let hd := hof h.toNat
    match readSrc k s.now g idx, gatherBase v pos with
    | .ok (iv, g), .ok off =>
      let p := if hd.pitch = 0 then rb else hd.pitch
      match gatherRows s (s.accOf c .m) hd true rb (gatherOffs iv (n1.toNat + 1) off p) g with
      | .ok (rows, _) => rowsCharge rb 0 rows
      | .error _ => 0
    | _, _ => 0
  | _ => 0

/-! Follow-on words and arbitration (R267 to R270). -/

/-- The handle a follow-on names: its copy's snapshot (R268). -/
def FollowOn.handle (f : FollowOn) (n : Nat) : Handle := (tabFind f.snap n).getD .cleared

/-- The matrix instruction of a follow-on word; its decode was checked at issue (R233). -/
def FollowOn.ins (f : FollowOn) : Option Instr :=
  match decodeWord .m f.word with
  | .ok i => some i
  | _ => none

/-- The charge of the head of the follow-on queue, where it is ready (R269). -/
def State.foCharge (s : State) (c : Nat) : Option Nat :=
  let k := s.core c
  match k.fos with
  | [] => none
  | f :: _ =>
    match f.ins with
    | none => some 0
    | some i => if k.met k.ms (matNeeds k.mx k.ms true [] i) then some (s.matCharge c f.handle true (.open k.ms.pc) i) else none

/-- Does the array pass over an M group of a charge for the head of the follow-on queue (R269)? -/
def State.yieldsTo (s : State) (c charge : Nat) : Bool :=
  let k := s.core c
  match s.foCharge c with
  | none => false
  | some cf => decide (4 ≤ k.passFo) || (decide (cf < charge) && decide (k.passOver < 4))

/-- The commit of an M group: it is taken when nothing else goes first and the bucket holds its charge. -/
def State.takeGroup (s : State) (c : Nat) (g : Grp) : State :=
  let k := s.core c
  let v := k.ms
  let pc := g.start + BitVec.ofNat 16 (3 * g.lats.length)
  if v.leavesOpen pc ∨ (k.overfull g).isSome then s.commitGroup c .m g
  else
    let k := k.settle s.now
    if s.yieldsTo c g.charge then s.setCore c { k with ms := { v with grp := none } }
    else if k.mx.bucket < chargeNeed g.charge then
      s.setCore c { k with ms := { v with grp := none }, mx := { k.mx with waitSince := some (k.mx.waitSince.getD s.now) } }
    else
      let m := k.mx.take s.now g.charge
      let g' := { g with mx := g.mx.map fun x =>
                    { x with charged := m.charged, waited := m.waited, waitSince := none } }
      let k := { k with mx := m, passOver := 0, passFo := if (s.foCharge c).isSome then k.passFo + 1 else k.passFo }
      (s.setCore c k).commitGroup c .m g'

/-- The commit of a group of any stream, after those that come before it in the order of R16. -/
def State.finishGroup (s : State) (c : Nat) (st : Stream) (g : Grp) : State :=
  if (s.core c).tooLate s.now st g then s.modStrm c st fun v => { v with grp := none }
  else if st = .m then s.takeGroup c g
  else s.commitGroup c st g

/-- A word of a group: read and stage; commit with the group's last word; block or fault whole (R15). -/
def groupWord (s : State) (ctl : Ctl) (i : Instr) (body : Core → StreamSt → Grp → W (Grp × Option Vec)) : Out3 :=
  let c := s.cur
  let st := s.curSt
  let k := s.core c
  let v := k.strm st
  let g := v.grp.getD { Grp.open v.pc with charge := s.matCharge c k.handleAt false (.open v.pc) i }
  match body k v g with
  | .error .block => .next (s.setStrm c st { v with grp := none })
  | .error (.fault f) => .next (s.streamFault c st f)
  | .ok (g, lat) =>
    let g := { g with lats := g.lats ++ [lat] }
    if ctl.g then .next (s.finishGroup c st g) else .next (s.setStrm c st { v with grp := some g })

end Sys2Proof.Machine
end

