-- ==== Sys2Proof/Machine/StreamFlow.lean ====
section
/-! DEFINITION. The flow of a stream: headers and section waits, the words of a group with the checks of Table 2.14,
issue control, the words that loops and skips pass over, and one turn of a stream (R34 to R47, R53, R177 to R181). -/
namespace Sys2Proof.Machine

/-! Section waits (R17, R41). -/

/-- Idle of R17: absent or ended. -/
def StreamSt.idle? (v : StreamSt) : Bool := v.run == .absent || v.run == .ended

/-- The streams that a header's four offsets name (R37). -/
def otherStreams (st : Stream) : List Stream := [Stream.h, .l, .s, .v, .m].filter (· != st)

/-- WaitSatisfied of R41; the Helm is never idle. -/
def waitSatisfied (n : Nat) (early : Bool) (d : BitVec 8) (e : StreamSt) (helm : Bool) : Bool :=
  let t := ((n : Int) + d.toInt) % 256
  d == 0x80 || (!helm && e.idle?) || (early && decide ((n : Int) + d.toInt < 0)) ||
    decide (((e.count.toNat : Int) - t - 1) % 256 < 128)

/-- Every wait of an instance toward the four other streams. -/
def State.waitsMet (s : State) (c : Nat) (st : Stream) (offs : List (BitVec 8)) : Bool :=
  let v := s.strm c st
  ((otherStreams st).zip offs).all fun p => waitSatisfied v.count.toNat v.early p.2 (s.strm c p.1) (p.1 == .h)

/-- What the instances waited for knew as they retired (R17). -/
def State.waitsClk (s : State) (c : Nat) (st : Stream) (offs : List (BitVec 8)) : Clock :=
  let v := s.strm c st
  ((otherStreams st).zip offs).foldl (fun (k : Clock) (p : Stream × BitVec 8) =>
    let i := (v.count.toNat : Int) + p.2.toInt
    if p.2 = 0x80 ∨ (v.early ∧ i < 0) then k
    else
      match (s.strm c p.1).rets.find? fun r => r.1 == (i % 256).toNat with
      | some r => clkJoin k r.2
      | none => k) []

/-- The header at a stream's pc: two granules (R33). -/
def State.headerAt (s : State) (c : Nat) (st : Stream) : Except Flt (Header × State) := do
  let (n, s) ← s.fetch c st (s.strm c st).pc.toNat 2
  .ok (decodeHeader false (BitVec.ofNat 64 n), s)

/-! The words of a group (R43 to R45, R53). -/

/-- A word of a group with its decoding and whether it issues. -/
structure GWord where
  word : Word96
  ins : Instr
  issues : Bool
  deriving DecidableEq, Repr

def isFormatC (w : Word96) : Bool := decide (0xB0 ≤ (w.extractLsb' 88 8).toNat) && decide ((w.extractLsb' 88 8).toNat ≤ 0xEF)

/-- Issue control of Table 2.4 under the innermost open level. Under a level of trip count 0 nothing issues: a section may
reach its end inside one (R179, R180). -/
def StreamSt.issues (v : StreamSt) (w : Word96) : Bool :=
  match v.levels.getLast? with
  | none => true
  | some l =>
    l.trip != 0 &&
    (let first := l.count == 0
     let last := l.count.toNat + 1 == l.trip.toNat
     let f := w.getLsbD 81
     let b := w.getLsbD 80
     isFormatC w || (!f && !b) || (f && first) || (b && last))

/-- Does a latch of a word at place k of its group reach a word that issues and has a result (R45, R47)? -/
def latchOk (ws : List GWord) (issues : Bool) (j : Nat) : Bool :=
  decide (1 ≤ j) && decide (j ≤ ws.length) &&
    (match ws[ws.length - j]? with
     | some w => hasResult w.word && (w.issues || !issues)
     | none => false)

/-- The words of the group at a granule, checked in order; `iss` says which words issue. A check that fails names its granule, and
the words before it are still given. -/
def groupGo (c : Nat) (st : Stream) (iss : Word96 → Bool) (sec : Nat) :
    Nat → State → Nat → List GWord → List GWord × Option Flt × State
  | 0, s, g, ws => (ws, some ⟨.reservedField, 0, BitVec.ofNat 64 g⟩, s)
  | fuel + 1, s, g, ws =>
    let v := BitVec.ofNat 64 g
    match s.fetch c st g 3 with
    | .error f => (ws, some f, s)
    | .ok (n, s) =>
      let w := BitVec.ofNat 96 n
      match decodeWord st w with
      | .illegal => (ws, some ⟨.illegalOp, 0, v⟩, s)
      | .mismatch => (ws, some ⟨.streamMismatch, 0, v⟩, s)
      | .reserved => (ws, some ⟨.reservedField, 0, v⟩, s)
      | .ok i =>
        if i.alone ∧ !ws.isEmpty then (ws, some ⟨.reservedField, 0, v⟩, s)
        else if !endsGroup w ∧ (g + 3 = sec ∨ fuel = 0) then (ws, some ⟨.reservedField, 0, v⟩, s)
        else if !(latchesOf w).all (latchOk ws (iss w)) then (ws, some ⟨.latchRange, 0, v⟩, s)
        else
          let ws := ws ++ [⟨w, i, iss w⟩]
          if endsGroup w then (ws, none, s) else groupGo c st iss sec fuel s (g + 3) ws

/-- The words of the group at a granule of the open section, with the fault of the first that fails a check. -/
def State.groupScan (s : State) (c : Nat) (st : Stream) (iss : Word96 → Bool) (sec g : Nat) : List GWord × Option Flt × State :=
  groupGo c st iss sec 8 s g []

/-- The group at a granule of the open section, whole. -/
def State.groupAt (s : State) (c : Nat) (st : Stream) (iss : Word96 → Bool) (sec g : Nat) : Except Flt (List GWord × State) :=
  match s.groupScan c st iss sec g with
  | (ws, none, s) => .ok (ws, s)
  | (_, some f, _) => .error f

/-! Words passed over (R179, R181). -/

/-- The granule after the ENDLOOP that closes a level opened before a granule; none where the section holds none (R179, R180). -/
def matchGo (c : Nat) (st : Stream) (sec : Nat) : Nat → State → Nat → Nat → Except Flt (Option Nat × State)
  | 0, s, _, _ => .ok (none, s)
  | fuel + 1, s, g, depth =>
    if sec ≤ g then .ok (none, s)
    else
      match s.fetch c st g 3 with
      | .error f => .error f
      | .ok (n, s) =>
        let op := n >>> 88
        if op = 0xF0 then matchGo c st sec fuel s (g + 3) (depth + 1)
        else if op = 0xF1 then (if depth = 0 then .ok (some (g + 3), s) else matchGo c st sec fuel s (g + 3) (depth - 1))
        else matchGo c st sec fuel s (g + 3) depth

/-- The decode rules of SKIPZ for the n words from a granule: inside the section, whole groups, balanced loops (R181). -/
def skipGo (c : Nat) (st : Stream) (v : X64) : Nat → State → Nat → Nat → Bool → Except Flt State
  | 0, s, _, depth, ends => if depth ≠ 0 ∨ !ends then .error ⟨.reservedField, 0, v⟩ else .ok s
  | n + 1, s, g, depth, _ =>
    match s.fetch c st g 3 with
    | .error f => .error f
    | .ok (x, s) =>
      let op := x >>> 88
      let ends := endsGroup (BitVec.ofNat 96 x)
      if op = 0xF0 then skipGo c st v n s (g + 3) (depth + 1) ends
      else if op = 0xF1 then
        (if depth = 0 then .error ⟨.reservedField, 0, v⟩ else skipGo c st v n s (g + 3) (depth - 1) ends)
      else skipGo c st v n s (g + 3) depth ends

def State.skipCheck (s : State) (c : Nat) (st : Stream) (sec g n : Nat) : Except Flt State :=
  if sec < g + 3 + 3 * n then .error ⟨.reservedField, 0, BitVec.ofNat 64 g⟩
  else skipGo c st (BitVec.ofNat 64 g) n s (g + 3) 0 false

/-- The rules that a SKIPZ word must meet wherever it is decoded (R181); other words meet none here. -/
def State.skipRule (s : State) (c : Nat) (st : Stream) (sec g : Nat) (i : Instr) : Except Flt State :=
  match i with
  | .skipz _ n | .skipzMask n => s.skipCheck c st sec g n.toNat
  | _ => .ok s

/-- Decode the words from a granule up to a limit with every check, issuing none; the answer names the last group's start. -/
def decodeOver (c : Nat) (st : Stream) (sec limit : Nat) : Nat → State → Nat → Nat → Except Flt (Nat × State)
  | 0, s, _, last => .ok (last, s)
  | fuel + 1, s, g, last =>
    if limit ≤ g then .ok (last, s)
    else
      match s.groupAt c st (fun _ => false) sec g with
      | .error f => .error f
      | .ok (ws, s) =>
        match (ws.head?.map (·.ins)).elim (.ok s) (s.skipRule c st sec g) with
        | .error f => .error f
        | .ok s => decodeOver c st sec limit fuel s (g + 3 * ws.length) g

/-! What a word waits for. -/

def memHeads (m : AMem) : List (Nat × Nat) := (m.idx.toList).map fun q => (q.toNat, 1)

def binNeeds (w : VBin) : Needs := Needs.join { sregs := srcSregs w.a } (opdNeeds w.b)

/-- The channels that a word needs (R166, R195, R196, R275), after reads of operand queues by the words of its group before it. LOOP and
SKIPZ, which stand alone, wait in their own meaning, after their decode rules (R180, R181). -/
def wordNeeds (m : Mx) (st : Stream) (v : StreamSt) (before : List (Nat × Bool)) (i : Instr) : Needs :=
  if st = .m then
    match i with
    | .rdv _ q | .tlwait _ (.oq q) => { oqs := [(q.toNat, false)] }
    | _ => matNeeds m v false before i
  else
    match i with
    | .tld _ _ _ t m => { tw := [t.toNat], heads := memHeads m }
    | .vld _ _ _ m _ | .vst _ _ m _ _ | .vgather _ _ m _ _ | .vscatter _ m _ _ _ => { heads := memHeads m }
    | .vlds _ _ m q _ | .vsts _ m _ q _ => { heads := (q.toNat, 1) :: memHeads m }
    | .tst _ _ _ _ t m => { tr := [t.toNat], heads := memHeads m }
    | .padapplyL _ (.col q) | .padapplyL _ (.row q) | .padapplyS _ (.col q) | .padapplyS _ (.row q) =>
      { oqs := [(q.toNat, false)] }
    | .rdv _ q | .tlwait _ (.oq q) => { oqs := [(q.toNat, false)] }
    | .vadd w | .vsub w | .vmul w | .vdiv w | .vmin w | .vmax w | .viadd w | .visub w | .vimul w | .vimulh w | .vand w
    | .vor w | .vxor w | .vshl w | .vshr w | .vsra w | .vimin w | .vimax w | .vscale w | .vsel w _ => binNeeds w
    | .vfma w c | .vfms w c => (binNeeds w).join { sregs := srcSregs c }
    | .vsqrt w | .vrsq w | .vrcp w | .vabs w | .vneg w | .vexp2 w | .vlog2 w | .vredsum w | .vredmax w | .vredmin w
    | .vscansum w | .vscanmax w => { sregs := srcSregs w.a }
    | .vcmp _ _ _ a b _ _ => Needs.join { sregs := srcSregs a } (opdNeeds b)
    | .vcvt _ _ _ a _ _ _ _ _ | .vcompress _ _ _ a _ | .vexpand _ _ _ a _ | .vbcast _ _ _ a _ _ => { sregs := srcSregs a }
    | .vmov _ _ _ b _ => opdNeeds b
    | .vperm _ _ _ a b _ | .vslide _ _ _ a b _ _ => { sregs := srcSregs a ++ srcSregs b }
    | .vindex _ _ _ (.oq q keep) _ _ _ | .kset _ _ (.oq q keep) _ => { oqs := [(q.toNat, keep)] }
    | _ => { }

/-- The format table and selector that a word leaves for the words of its group after it (R255, R267); one that faults leaves them. -/
def State.formatsAfter (s : State) (c : Nat) (m : Mx) (i : Instr) : Mx :=
  match i with
  | .mfmt _ fixed arg =>
    match mfmtBody fixed arg { s with cur := c, curSt := .m } (s.core c) (s.core c).ms { Grp.open 0 with mx := some m } with
    | .ok (g, _) => g.mx.getD m
    | .error _ => m
  | _ => m

/-- The needs of the issuing words of a group, in instruction order. -/
def State.groupNeeds (s : State) (c : Nat) (st : Stream) (ws : List GWord) : Needs :=
  let k := s.core c
  (ws.foldl (fun (r : Needs × Mx) w =>
    if w.issues then (r.1.join (wordNeeds r.2 st (k.strm st) r.1.oqs w.ins), s.formatsAfter c r.2 w.ins) else r) ({ }, k.mx)).1

/-! One turn of L, S, V or M. -/

/-- A word that does not issue leaves no result; where it ends the group, the group commits (R47). -/
def State.passWord (s : State) (c : Nat) (st : Stream) (last : Bool) : State :=
  let v := s.strm c st
  match v.grp with
  | none => s
  | some g =>
    let g := { g with lats := g.lats ++ [none] }
    if last then s.finishGroup c st g else s.setStrm c st { v with grp := some g }

/-- A time at which restored state is filled (R131, R187, R218, R279): what the Helm and a trap entry need, what every fetch needs, what
an item of the Helm needs, the state of a side as a group of words comes up, and what one word of the open group needs. -/
inductive Prep where
  | trap
  | code
  | helm (i : Instr)
  | side (is : List Instr)
  | word (i : Instr)
  deriving DecidableEq, Repr

/-- The words of an opened group, in instruction order; a word that blocked or faulted has closed the group. -/
def runWords (ex : Instr → State → Out3) (prep : State → Prep → Except Flt State) (c : Nat) (st : Stream) :
    List GWord → State → Out3
  | [], s => .next s
  | w :: rest, s =>
    if (s.strm c st).grp.isNone then .next s
    else if !w.issues then runWords ex prep c st rest (s.passWord c st (endsGroup w.word))
    else
      match prep s (.word w.ins) with
      | .error f => .next (s.streamFault c st f)
      | .ok s =>
        match ex w.ins s with
        | .next s => runWords ex prep c st rest s
        | o => o

/-- A run of M words that changes nothing: the group after them, the units they charge (R271), and whether none stopped. -/
def dryGo (s : State) (c : Nat) : List GWord → Grp → Nat → Grp × Nat × Bool
  | [], g, n => (g, n, true)
  | w :: rest, g, n =>
    if !w.issues then dryGo s c rest { g with lats := g.lats ++ [none] } n
    else
      let k := s.core c
      let n := n + s.matCharge c k.handleAt false g w.ins
      match matBody w.ins { s with cur := c, curSt := .m } k k.ms g with
      | .error _ => (g, n, false)
      | .ok (g, lat) => dryGo s c rest { g with lats := g.lats ++ [lat] } n

/-- The group that a stream opens: what its consumptions tell it, and no charge yet. -/
def State.freshGroup (s : State) (c : Nat) (st : Stream) (ws : List GWord) : Grp :=
  let k := s.core c
  let v := k.strm st
  { Grp.open v.pc with clk := k.needsClk v (s.groupNeeds c st ws) }

/-- What the words of an M group need is filled word by word, up to one that will stop: what a word needs may hang on what those
before it read (R275, R279). -/
def fillPass (prep : State → Prep → Except Flt State) (c : Nat) : List GWord → List GWord → State → Except Flt State
  | _, [], s => .ok s
  | done, w :: rest, s =>
    match dryGo s c done (s.freshGroup c .m (done ++ w :: rest)) 0 with
    | (_, _, false) => .ok s
    | (g, _, true) =>
      match (if w.issues then prep (s.modStrm c .m fun v => { v with grp := some g }) (.word w.ins) else .ok s) with
      | .error f => .error f
      | .ok s => fillPass prep c (done ++ [w]) rest s

/-- The units that the M group at hand charges (R271). -/
def State.groupCharge (s : State) (c : Nat) (ws : List GWord) : Nat := (dryGo s c ws (s.freshGroup c .m ws) 0).2.1

/-- The state in which a group's words run: the group opened, with its charge where it is the array's. -/
def State.openGroup (prep : State → Prep → Except Flt State) (s : State) (c : Nat) (st : Stream) (ws : List GWord) : Except Flt State :=
  let put (s : State) (n : Nat) : State :=
    s.modStrm c st fun v => { v with grp := some { s.freshGroup c st ws with charge := n } }
  if st = .m then (fillPass prep c [] ws s).map fun s => put s (s.groupCharge c ws) else .ok (put s 0)

/-- A group at its issue (R15, R166, R201, R275). Its words read, run and commit, or fault, before any later word of the stream is looked at:
groups commit in issue order, and none reads what an earlier one has still to change (R203, of which only the latencies are time). It
blocks whole until its channels are ready and until an earlier waiter for its
tiles has gone (R19); only then does a check that its words failed at decode raise. A word that stands alone runs by itself. -/
def runGroup (ex : Instr → State → Out3) (prep : State → Prep → Except Flt State) (c : Nat) (st : Stream) (ws : List GWord)
    (bad : Option Flt) (s : State) : Out3 :=
  let k := s.core c
  let v := k.strm st
  let n := s.groupNeeds c st ws
  if !k.met v n || k.yieldsTile st n then .next (s.setStrm c st { v with blocked := some n })
  else
    match bad with
    | some f => .next (s.streamFault c st f)
    | none =>
      match ws.head?.filter fun w => w.ins.alone && w.issues with
      | some w =>
        match prep s (.word w.ins) with
        | .error f => .next (s.streamFault c st f)
        | .ok s => ex w.ins s
      | none =>
        match s.openGroup prep c st ws with
        | .error f => .next (s.streamFault c st f)
        | .ok s => runWords ex prep c st ws s

/-- The words of a group that issue. -/
def issuing (ws : List GWord) : List Instr := ws.filterMap fun w => if w.issues then some w.ins else none

/-- One turn of L, S, V or M: a header, or one group of the open section, whole (R203). `prep` fills restored state (R131). In L and S a failing
decode raises at once; in V and M it is a check of the group's second step (R166, R201, R275). -/
def streamTurn (ex : Instr → State → Out3) (prep : State → Prep → Except Flt State) (c : Nat) (st : Stream) (s : State) : Out3 :=
  let v := s.strm c st
  if v.run ≠ .running ∨ (s.core c).hrun = .idle then .next s
  else
    match prep s .code with
    | .error f => .next (s.streamFault c st f)
    | .ok s =>
      match v.sec with
      | none =>
        match s.headerAt c st with
        | .error f => .next (s.streamFault c st f)
        | .ok (.illegal, s) => .next (s.streamFault c st ⟨.illegalOp, 0, v.pc.setWidth 64⟩)
        | .ok (.reserved, s) => .next (s.streamFault c st ⟨.reservedField, 0, v.pc.setWidth 64⟩)
        | .ok (.endHdr _, s) => ex (.streamEnd c st) s
        | .ok (.sect _ _ _, s) => ex (.sectionIssue c st) s
      | some sec =>
        match s.groupScan c st v.issues sec v.pc.toNat with
        | (ws, bad, s) =>
          match (if st = .l ∨ st = .s then bad else none) with
          | some f => .next (s.streamFault c st f)
          | none =>
            match prep s (.side (issuing ws)) with
            | .error f => .next (s.streamFault c st f)
            | .ok s => runGroup ex prep c st ws bad s

/-- May the Helm be taken away from its item by a pending fault (R23, R127, R281)? A request that an engine has
accepted, and a result that has arrived, let the instruction retire first. That RFENCE and the drain of a pending YIELD, which R128 does
not list, give way too is the model's choice (log 27). -/
def StreamSt.interruptible (v : StreamSt) : Bool :=
  match v.wait with
  | none => true
  | some w => !w.done && w.kind != .request

/-- The guard of a word of the Helm: format C has none (R49). -/
def guardHolds (k : Core) (w : Word96) : Bool := isFormatC w || k.getC (FmtH.ofWord w).cond

/-- The Helm's own registers are filled, and stay filled, before anything that may trap: the entry reads TVEC and writes EPC, CAUSE and
ETVAL (R131). A line of theirs that fails is a fault at the Helm's pc. -/
def State.withTrapRegs (s : State) (prep : State → Prep → Except Flt State) (c : Nat) (go : State → Out3) : Out3 :=
  match prep s .trap with
  | .error f => .next (s.takeTrap c f .h (s.core c).hs.pc 0)
  | .ok s => go s

/-- One turn of the Helm: a pending fault, or one item (R35, R127). -/
def helmTurn (ex : Instr → State → Out3) (prep : State → Prep → Except Flt State) (c : Nat) (s : State) : Out3 :=
  let pc := (s.core c).hs.pc
  if (s.core c).hrun ≠ .running then .next s
  else s.withTrapRegs prep c fun s =>
    match prep s .code with
    | .error f => .next (s.takeTrap c f .h pc 0)
    | .ok s =>
      let k := s.core c
      if !k.pend.isEmpty ∧ k.ie ∧ k.hs.interruptible then ex (.takeTrap c) s
      else
        match s.fetch c .h pc.toNat 3 with
        | .error f => .next (s.takeTrap c f .h pc 0)
        | .ok (n, s) =>
          let w := BitVec.ofNat 96 n
          let at_ := pc.setWidth 64
          if isHelmHeader w then ex (.hSectionHeader c) s
          else
            match decodeWord .h w with
            | .illegal => .next (s.takeTrap c ⟨.illegalOp, 0, at_⟩ .h pc 0)
            | .mismatch => .next (s.takeTrap c ⟨.streamMismatch, 0, at_⟩ .h pc 0)
            | .reserved => .next (s.takeTrap c ⟨.reservedField, 0, at_⟩ .h pc 0)
            | .ok i =>
              if !guardHolds k w then ex i s
              else
                match prep s (.helm i) with
                | .error f => .next (s.takeTrap c f .h pc 0)
                | .ok s => ex i s

end Sys2Proof.Machine
end

