-- ==== Sys2Proof/Machine/HelmInt.lean ====
section
/-! DEFINITION. The Helm's integer arithmetic and conditions (R133 to R135). -/
namespace Sys2Proof.Machine

/-- A two-source operation of Table 5.9. -/
def binX (s : State) (c : CReg) (xd xa xb : XReg) (f : X64 → X64 → X64) : Out3 :=
  helm s c (retireX s xd (f (s.me.getX xa) (s.me.getX xb)))

/-- An operation of Table 5.9 with a sign-extended immediate. -/
def immX (s : State) (c : CReg) (xd xa : XReg) (imm : BitVec 48) (f : X64 → X64 → X64) : Out3 :=
  helm s c (retireX s xd (f (s.me.getX xa) (imm.signExtend 64)))

/-- A division: a zero divisor raises ARITH and writes nothing (R134). -/
def divX (s : State) (c : CReg) (xd xa xb : XReg) (f : X64 → X64 → X64) : Out3 :=
  helm s c (if s.me.getX xb = 0 then .fault ⟨.arith, 0, 0⟩ else retireX s xd (f (s.me.getX xa) (s.me.getX xb)))

/-- The amount of a shift: six bits of a register or of the immediate (R133). -/
def shiftBy (k : Core) : ShAmt → Nat
  | .reg xb => (k.getX xb).toNat % 64
  | .imm n => n.toNat

/-- A shift. -/
def shiftX (s : State) (c : CReg) (xd xa : XReg) (amt : ShAmt) (f : X64 → Nat → X64) : Out3 :=
  helm s c (retireX s xd (f (s.me.getX xa) (shiftBy s.me amt)))

/-- Leading zero bits of a pattern (R133). -/
def leadingZeros (x : X64) : Nat := 64 - bitLen x.toNat

/-- ADD: a + b modulo 2^64 (R133). -/
def execAdd (c : CReg) (xd xa xb : XReg) (s : State) : Out3 := binX s c xd xa xb fun a b => a + b

/-- SUB: a - b modulo 2^64 (R133). -/
def execSub (c : CReg) (xd xa xb : XReg) (s : State) : Out3 := binX s c xd xa xb fun a b => a - b

/-- MUL: the low 64 bits of a × b (R133). -/
def execMul (c : CReg) (xd xa xb : XReg) (s : State) : Out3 := binX s c xd xa xb fun a b => a * b

/-- MULH: the high 64 bits of the signed product (R133). -/
def execMulh (c : CReg) (xd xa xb : XReg) (s : State) : Out3 := binX s c xd xa xb fun a b => BitVec.ofInt 64 ((a.toInt * b.toInt) / 2 ^ 64)

/-- MULHN: the high 64 bits of the natural product (R133). -/
def execMulhn (c : CReg) (xd xa xb : XReg) (s : State) : Out3 := binX s c xd xa xb fun a b => BitVec.ofNat 64 (a.toNat * b.toNat / 2 ^ 64)

/-- AND (R133). -/
def execAnd (c : CReg) (xd xa xb : XReg) (s : State) : Out3 := binX s c xd xa xb fun a b => a &&& b

/-- OR (R133). -/
def execOr (c : CReg) (xd xa xb : XReg) (s : State) : Out3 := binX s c xd xa xb fun a b => a ||| b

/-- XOR (R133). -/
def execXor (c : CReg) (xd xa xb : XReg) (s : State) : Out3 := binX s c xd xa xb fun a b => a ^^^ b

/-- DIV: quotient toward zero, signed; a zero divisor raises ARITH (R133, R134). -/
def execDiv (c : CReg) (xd xa xb : XReg) (s : State) : Out3 := divX s c xd xa xb fun a b => BitVec.sdiv a b

/-- DIVN: natural quotient (R133, R134). -/
def execDivn (c : CReg) (xd xa xb : XReg) (s : State) : Out3 := divX s c xd xa xb fun a b => a / b

/-- REM: remainder with the sign of a (R133, R134). -/
def execRem (c : CReg) (xd xa xb : XReg) (s : State) : Out3 := divX s c xd xa xb fun a b => BitVec.srem a b

/-- REMN: natural remainder (R133, R134). -/
def execRemn (c : CReg) (xd xa xb : XReg) (s : State) : Out3 := divX s c xd xa xb fun a b => a % b

/-- ADDI: a + SignExt(imm, 48) (R133). -/
def execAddi (c : CReg) (xd xa : XReg) (imm : BitVec 48) (s : State) : Out3 := immX s c xd xa imm fun a i => a + i

/-- ANDI (R133). -/
def execAndi (c : CReg) (xd xa : XReg) (imm : BitVec 48) (s : State) : Out3 := immX s c xd xa imm fun a i => a &&& i

/-- ORI (R133). -/
def execOri (c : CReg) (xd xa : XReg) (imm : BitVec 48) (s : State) : Out3 := immX s c xd xa imm fun a i => a ||| i

/-- XORI (R133). -/
def execXori (c : CReg) (xd xa : XReg) (imm : BitVec 48) (s : State) : Out3 := immX s c xd xa imm fun a i => a ^^^ i

/-- SHL (R133). -/
def execShl (c : CReg) (xd xa : XReg) (amt : ShAmt) (s : State) : Out3 := shiftX s c xd xa amt fun a n => a <<< n

/-- SHR: zeros come in (R133). -/
def execShr (c : CReg) (xd xa : XReg) (amt : ShAmt) (s : State) : Out3 := shiftX s c xd xa amt fun a n => a >>> n

/-- SRA: copies of bit 63 come in (R133). -/
def execSra (c : CReg) (xd xa : XReg) (amt : ShAmt) (s : State) : Out3 := shiftX s c xd xa amt fun a n => a.sshiftRight n

/-- MIN: the smaller of a and b, signed or natural (R133). -/
def execMin (c : CReg) (nat : Bool) (xd xa xb : XReg) (s : State) : Out3 :=
  binX s c xd xa xb fun a b => if (if nat then BitVec.ult a b else BitVec.slt a b) then a else b

/-- MAX: the larger of a and b, signed or natural (R133). -/
def execMax (c : CReg) (nat : Bool) (xd xa xb : XReg) (s : State) : Out3 :=
  binX s c xd xa xb fun a b => if (if nat then BitVec.ult b a else BitVec.slt b a) then a else b

/-- CLZ (R133). -/
def execClz (c : CReg) (xd xa : XReg) (s : State) : Out3 :=
  helm s c (retireX s xd (BitVec.ofNat 64 (leadingZeros (s.me.getX xa))))

/-- MOVI: the sign-extended immediate (R133). -/
def execMovi (c : CReg) (xd : XReg) (imm : BitVec 48) (s : State) : Out3 := helm s c (retireX s xd (imm.signExtend 64))

/-- CMP (R135). -/
def execCmp (c : CReg) (rel : Rel) (cd : CReg) (xa xb : XReg) (s : State) : Out3 :=
  helm s c (retireC s cd (Rel.holds rel (s.me.getX xa) (s.me.getX xb)))

/-- CMPI (R135). -/
def execCmpi (c : CReg) (rel : Rel) (cd : CReg) (xa : XReg) (imm : BitVec 48) (s : State) : Out3 :=
  helm s c (retireC s cd (Rel.holds rel (s.me.getX xa) (imm.signExtend 64)))

/-- CCOMB: the sources are read before cd is written (R135). -/
def execCcomb (c : CReg) (op : CombOp) (cd ca cb : CReg) (s : State) : Out3 :=
  helm s c (retireC s cd (CombOp.eval op (s.me.getC ca) (s.me.getC cb)))

end Sys2Proof.Machine
end

