-- ==== Sys2Proof/Machine/HelmCtl.lean ====
section
/-! DEFINITION. The Helm's control transfer: slates, cuts and bucket tables (R122 to R125, R136 to R141). -/
namespace Sys2Proof.Machine

/-- Slate a register: target, valid bit, and a fill that starts (R122, R123). -/
def Core.slateTo (k : Core) (b : BReg) (target : Nat) : Core := k.setSlate b ⟨BitVec.ofNat 16 target, true, .filling⟩

/-- Slate a target within the code handle, or HANDLE_BOUNDS with the target (R136). -/
def slateAt (s : State) (b : BReg) (target : Int) : HRes :=
  if target < 0 ∨ (s.codeLen : Int) < target + 3 then .fault ⟨.handleBounds, 0, etval target⟩
  else .retire (s.modMe fun k => k.slateTo b target.toNat)

/-- The pc of the Helm that is served. -/
def State.hpc (s : State) : Nat := s.me.hs.pc.toNat

/-- SLATE (R136). -/
def execSlate (c : CReg) (b : BReg) (imm : BitVec 48) (s : State) : Out3 := helm s c (slateAt s b ((s.hpc : Int) + imm.toInt))

/-- SLATEX: the target is xa read as natural (R136). -/
def execSlatex (c : CReg) (b : BReg) (xa : XReg) (s : State) : Out3 := helm s c (slateAt s b (s.me.getX xa).toNat)

/-- A buffer that a write emptied starts a new fill at the next CUT through its register (R125). -/
def Slate.refill (v : Slate) : Slate := if v.buf = .empty then { v with buf := .filling } else v

/-- A true CUT: through a valid register, keeping it (R137). -/
def cutTo (s : State) (b : BReg) (link : Core → Core) : HRes :=
  let v := s.me.slate b
  if v.valid then .jump (s.modMe fun k => link (k.setSlate b v.refill)) v.target
  else .fault ⟨.unslated, 0, b.setWidth 64⟩

/-- CUT (R137). -/
def execCut (c : CReg) (b : BReg) (s : State) : Out3 := helm s c (cutTo s b id)

/-- CUTL: the link register is slated to the word after, once the transfer is known to happen (R138). -/
def execCutl (c : CReg) (b bl : BReg) (s : State) : Out3 := helm s c (cutTo s b fun k => k.slateTo bl (s.hpc + 3))

/-- Granule i of a run of fetched granules. -/
def granOf (x i : Nat) : Nat := (x >>> (32 * i)) % 2 ^ 32

/-- Selection of BSEL over a table of n buckets: the least bucket whose size reaches d (R140). -/
def bucketOf (tab n d : Nat) : Option Nat := (List.range n).find? fun i => decide (d ≤ granOf tab (1 + 2 * i))

/-- PADM after BSEL (R140). -/
def padmOf (size d : Nat) : X64 := BitVec.ofNat 64 (wrapTo 32 ((size : Int) - d) * 2 ^ 32 + edgeOf d)

/-- BSEL (R139, R140). ETVAL of HANDLE_BOUNDS is not stated and stays free (log 16). -/
def bselRes (s : State) (b : BReg) (xd xa : XReg) (imm : BitVec 48) : HRes :=
  let t := (s.hpc : Int) + imm.toInt
  let bounds : HRes := .fault ⟨.handleBounds, 0, Config.freeEtval s.fresh⟩
  let bad : HRes := .fault ⟨.arith, 1, etval t⟩
  if t < 0 ∨ (s.codeLen : Int) < t + 1 then bounds
  else
    HRes.of (s.fetch s.cur .h t.toNat 1) fun r =>
      let n := r.1 % 256
      if n = 0 ∨ 16 < n ∨ r.1 / 256 ≠ 0 then bad
      else if s.codeLen < t.toNat + 1 + 2 * n then bounds
      else
        HRes.of (s.fetch s.cur .h t.toNat (1 + 2 * n)) fun r =>
          let d := (s.me.getX xa).toNat
          match bucketOf r.1 n d with
          | none => .fault ⟨.arith, 2, BitVec.ofNat 64 d⟩
          | some i =>
            let size := granOf r.1 (1 + 2 * i)
            let target := granOf r.1 (2 + 2 * i)
            if 0 < i ∧ size ≤ granOf r.1 (2 * i - 1) then bad
            else if s.codeLen < target + 3 then bounds
            else .retire (r.2.modMe fun k =>
              { (k.slateTo b target).setX xd (BitVec.ofNat 64 size) with padm := padmOf size d })

def execBsel (c : CReg) (b : BReg) (xd xa : XReg) (imm : BitVec 48) (s : State) : Out3 := helm s c (bselRes s b xd xa imm)

/-- A register after SLINV: not valid, its fill abandoned, its target kept (R141, R122). -/
def Slate.inv (v : Slate) : Slate := { v with valid := false, buf := .empty }

/-- SLINV of one register (R141). -/
def execSlinv (c : CReg) (b : BReg) (s : State) : Out3 :=
  helm s c (.retire (s.modMe fun k => k.setSlate b (k.slate b).inv))

/-- SLINV of b0 to b5 and the current mode's b6 and b7 (R141). -/
def execSlinvAll (c : CReg) (s : State) : Out3 :=
  helm s c (.retire (s.modMe fun k =>
    (List.range 8).foldl (fun k b => k.setSlate (BitVec.ofNat 3 b) (k.slate (BitVec.ofNat 3 b)).inv) k))

end Sys2Proof.Machine
end

