-- ==== Sys2Proof/Machine/HelmMem.lean ====
section
/-! DEFINITION. The Helm's loads, stores and handle instructions (R142 to R149). -/
namespace Sys2Proof.Machine

/-- Bytes of a Helm access. -/
def widthBytes : Width → Nat
  | .b1 => 1
  | .b2 => 2
  | .b4 => 4
  | .b8 => 8

/-- What a load learns from the bytes it read: of a flag increment, and as an acquire of a release (R103, R112). -/
def State.acquire (s : State) (c : Nat) (st : Stream) (acq : Bool) (ps : List Piece) : State :=
  let k := s.readClk acq ps
  if acq || !k.isEmpty then s.learn c st k else s

/-- A write of the Helm; a release attaches what its stream knows to the bytes before a waiter sees them (R103). -/
def State.putRel (s : State) (world : Nat) (rel : Bool) (ps : List Piece) (bs : List Byte) : State :=
  let s' := if rel then s.putRelease (piecesKeys ps) (s.clkOf s.cur .h) else s
  let s' := s'.putBytes world (zipBytes ps bs)
  if rel then s'.tick s.cur .h else s'

/-- A store of the Helm, plain or a release. -/
def State.storeRel (s : State) (h : Handle) (off : Int) (bs : List Byte) (align : Nat) (race rel : Bool) : HRes :=
  let a := s.helmAcc
  HRes.of (s.access a h off bs.length .store align race fmt123 s.sectors) fun r =>
    .retire (((s.cacheTlb a.core a.world r.1).withSectors r.2).putRel a.world rel r.1 bs)

/-- LD (R142). -/
def ldRes (s : State) (w : Width) (race acq : Bool) (xd : XReg) (h : HReg) (off : Int) : HRes :=
  HRes.of (s.load s.helmAcc (s.me.getH h) off (widthBytes w) (widthBytes w) race fmt123) fun r =>
    retireX (r.2.2.acquire s.cur .h acq r.2.1) xd (BitVec.ofNat 64 (ofBytes r.1))

def execLd (c : CReg) (w : Width) (race acq : Bool) (xd : XReg) (h : HReg) (xa : XReg) (imm : BitVec 48) (s : State) : Out3 :=
  helm s c (ldRes s w race acq xd h (s.hOff xa imm))

/-- ST (R142). -/
def stRes (s : State) (w : Width) (race rel : Bool) (h : HReg) (off : Int) (x : X64) : HRes :=
  s.storeRel (s.me.getH h) off (bytesOf (widthBytes w) x.toNat) (widthBytes w) race rel

def execSt (c : CReg) (w : Width) (race rel : Bool) (h : HReg) (xa : XReg) (imm : BitVec 48) (xb : XReg) (s : State) : Out3 :=
  helm s c (stRes s w race rel h (s.hOff xa imm) (s.me.getX xb))

/-- A handle instruction whose destination is h0 to h3 needs supervisor mode (R121); PRIVILEGE before its other faults is the model's
order (log 29). -/
def guardH (s : State) (hd : HReg) (r : HRes) : HRes :=
  if hd.toNat < 4 ∧ !s.me.supervisor then .fault ⟨.privilege, 0, hd.setWidth 64⟩ else r

/-- Write a handle register. A new code handle leaves instruction memory to be filled anew (R32, R137). -/
def Core.putH (k : Core) (hd : HReg) (v : Handle) : Core :=
  let k := k.setH hd v
  if hd = 2 then { k.dropBuffers with filled := [] } else k

/-- The checks of an image that HLD reads (R144). -/
def State.imageFault (s : State) (h : Handle) (v : X64) : Option Flt :=
  if !s.sealValid h ∨ h.format = 0 ∨ 4 < h.format.toNat then some ⟨.handleSeal, 0, v⟩
  else if h.world.toNat ≠ s.me.world then some ⟨.handleWorld, 0, v⟩
  else if (s.world h.world.toNat).isRevoked h.serial.toNat then some ⟨.handleRevoked, 0, v⟩
  else none

/-- The handle that a register receives from a checked image: sealed, and frozen rights applied (R144, R370). -/
def State.reviewed (s : State) (h : Handle) : Handle := { (s.world h.world.toNat).freezeRights h with isSealed := true }

/-- HLD (R144). -/
def hldRes (s : State) (race acq : Bool) (hd hm : HReg) (off : Int) : HRes :=
  HRes.of (s.load s.helmAcc (s.me.getH hm) off 32 32 race fmt123) fun r =>
    let h := Handle.ofBytes r.1
    match s.imageFault h (etval ((s.me.getH hm).base.toNat + off)) with
    | some f => .fault f
    | none =>
      .retire (((r.2.2.acquire s.cur .h acq r.2.1).noteSerial s.me.world h.serial.toNat).modMe fun k =>
        k.putH hd (s.reviewed h))

def execHld (c : CReg) (race acq : Bool) (hd hm : HReg) (xa : XReg) (imm : BitVec 48) (s : State) : Out3 :=
  helm s c (guardH s hd (hldRes s race acq hd hm (s.hOff xa imm)))

/-- HST: the checks of hS come first (R145). -/
def hstRes (s : State) (race rel : Bool) (hm : HReg) (off : Int) (h : Handle) : HRes :=
  let v := etval ((s.me.getH hm).base.toNat + off)
  if !h.isSealed then .fault ⟨.handleSeal, 0, v⟩
  else if h.revoked then .fault ⟨.handleRevoked, 0, v⟩
  else s.storeRel (s.me.getH hm) off h.bytes 32 race rel

def execHst (c : CReg) (race rel : Bool) (hm : HReg) (xa : XReg) (imm : BitVec 48) (hs : HReg) (s : State) : Out3 :=
  helm s c (hstRes s race rel hm (s.hOff xa imm) (s.me.getH hs))

/-- The derivative of HNARROW: Z is always kept, the seal bit is lost (R146). -/
def Handle.narrowed (h : Handle) (off len : Int) (mask : BitVec 8) (shape : Option (BitVec 27)) : Handle :=
  { h with
    base := BitVec.ofInt 57 (h.base.toNat + off)
    length := BitVec.ofInt 48 len
    rights := (h.rights &&& mask) ||| (h.rights &&& 2)
    shape := shape.getD h.shape
    isSealed := false
    revoked := false }

/-- HNARROW (R146). -/
def hnarrowRes (s : State) (hd : HReg) (h : Handle) (off len : Int) (mask : BitVec 8) (shape : Option (BitVec 27)) : HRes :=
  let v := etval (h.base.toNat + off)
  if h.revoked then .fault ⟨.handleRevoked, 0, v⟩
  else if !h.m then .fault ⟨.handleRights, 0, v⟩
  else if off < 0 ∨ len < 0 ∨ (h.length.toNat : Int) < off + len then .fault ⟨.handleBounds, 0, v⟩
  else if h.format = 4 then .fault ⟨.handleRights, 0, v⟩
  else .retire (s.modMe fun k => k.putH hd (h.narrowed off len mask shape))

def execHnarrow (c : CReg) (hd hs : HReg) (xa xb : XReg) (mask : BitVec 8) (shape : Option (BitVec 27)) (s : State) : Out3 :=
  helm s c (guardH s hd (hnarrowRes s hd (s.me.getH hs) (s.me.getX xa).toInt (s.me.getX xb).toInt mask shape))

/-- HMOV (R147). -/
def execHmov (c : CReg) (hd hs : HReg) (s : State) : Out3 :=
  helm s c (guardH s hd (.retire (s.modMe fun k => k.putH hd (k.getH hs))))

/-- The field that a selector of Table 5.11 reads. -/
def Handle.field (h : Handle) : HSel → Nat
  | .base => h.base.toNat
  | .length => h.length.toNat
  | .rights => h.rights.toNat + 256 * natOf h.isSealed + 512 * natOf h.revoked
  | .world => h.world.toNat
  | .serial => h.serial.toNat
  | .shape => h.shape.toNat
  | .format => h.format.toNat

/-- HGET (R148). -/
def execHget (c : CReg) (sel : HSel) (xd : XReg) (hs : HReg) (s : State) : Out3 :=
  helm s c (retireX s xd (BitVec.ofNat 64 ((s.me.getH hs).field sel)))

/-- HCLR (R147). -/
def execHclr (c : CReg) (hd : HReg) (s : State) : Out3 :=
  helm s c (guardH s hd (.retire (s.modMe fun k => k.putH hd .cleared)))

/-- Does a handle hold every right of a mask, W and A absent under Z (R149)? -/
def Handle.holds (h : Handle) (mask : BitVec 8) : Bool :=
  let r := if h.z then h.rights &&& 0x9F else h.rights
  r &&& mask == mask

/-- The test of HCHK (R149). -/
def hchk (s : State) (h : Handle) (off size : Int) (mask : BitVec 8) : Bool :=
  let a := s.helmAcc
  let at_ := (h.base.toNat : Int) + off
  h.format != 0 && !h.revoked && h.world.toNat == a.world && h.holds mask && decide (0 ≤ off) && decide (0 ≤ size) &&
    decide (off + size ≤ (h.length.toNat : Int)) &&
    (h.format != 2 || size == 0 || (decide ((a.lo : Int) ≤ at_) && decide (at_ + size ≤ (a.hi : Int))))

/-- HCHK (R149). -/
def execHchk (c : CReg) (cd : CReg) (hs : HReg) (xa xb : XReg) (rights : BitVec 8) (s : State) : Out3 :=
  helm s c (retireC s cd (hchk s (s.me.getH hs) (s.me.getX xa).toInt (s.me.getX xb).toInt rights))

end Sys2Proof.Machine
end

