-- ==== Sys2Proof/Machine/Phases.lean ====
section
/-! DEFINITION. The phases of a loop record (R309). -/
namespace Sys2Proof.Machine

/-- Kernel runs by trip count (Table 11.5). -/
def Tcb.kernelRuns (t : Tcb) : Nat := if t.n = 0 then 0 else if t.stages ≤ t.n then t.n - t.stages + 1 else t.n + t.stages - 1

/-- Do the prologue and the epilogue run: present in the record, and a trip count of at least S. -/
def Tcb.hasPro (t : Tcb) : Bool := t.pro != 0xFFFF && decide (t.stages ≤ t.n)
def Tcb.hasEpi (t : Tcb) : Bool := t.epi != 0xFFFF && decide (t.stages ≤ t.n)

/-- The first phase with its run number; phase 3 means none is left. -/
def Tcb.firstPhase (t : Tcb) : Nat × Nat := if t.n = 0 then (3, 0) else if t.hasPro then (0, 0) else (1, 0)

/-- The phase after one. -/
def Tcb.nextPhase (t : Tcb) : Nat → Nat → Nat × Nat
  | 0, _ => (1, 0)
  | 1, r => if r + 1 < t.kernelRuns then (1, r + 1) else if t.hasEpi then (2, 0) else (3, 0)
  | _, _ => (3, 0)

/-- The entry granule of a phase. -/
def Tcb.entry (t : Tcb) : Nat → Nat
  | 0 => t.pro
  | 1 => t.ker
  | _ => t.epi

/-- The stage mask of a phase: 0xFF but in a kernel run under a trip count below the stage count. -/
def Tcb.stageMask (t : Tcb) (phase run : Nat) : Nat :=
  if phase = 1 ∧ t.n < t.stages then
    (List.range 8).foldl (fun m s => if s < t.stages ∧ s ≤ run ∧ run - s < t.n then m + 2 ^ s else m) 0
  else 0xFF

/-- Does the phase that a core runs end its task (R28, R309)? -/
def State.lastPhase (s : State) (c : Nat) : Bool :=
  match s.taskOf c with
  | none => false
  | some (d, i) =>
    let t := s.taskAt d i
    (t.tcb.nextPhase t.phase t.run).1 == 3

end Sys2Proof.Machine
end

