-- ==== Sys2Proof/Machine/HelmSys.lean ====
section
/-! DEFINITION. The Helm's stream and system instructions (R13, R150 to R159). -/
namespace Sys2Proof.Machine

/-! Streams. -/

/-- A stream that has neither ended nor been left out (R13). -/
def StreamSt.active (v : StreamSt) : Bool := v.run == .running || v.run == .stopped

/-- Does a stream of the core still run (R13, R153)? -/
def Core.busy (k : Core) : Bool := k.ls.active || k.ss.active || k.vs.active || k.ms.active

/-- The state of a stream after FORK: counts for every stream, a start for those present (R13, R40, R161). -/
def StreamSt.forked (v : StreamSt) (present : Bool) (entry : BitVec 16) (edges : Bool) (clk : Clock) : StreamSt :=
  let v := { v with count := 0, early := true, rets := [], sec := none, broke := false, grp := none, wait := none, passes := 0 }
  if present then
    { v with run := .running, pc := entry, entry := entry, levels := [], clk := clkJoin v.clk clk, region := v.region + 1,
             cedge := if edges then 128 else v.cedge, redge := if edges then 128 else v.redge }
  else { v with run := .absent }

/-- Fields of a fork record's granule (R150). -/
def forkP (g : Nat) : Bool := bitOf g 31
def forkEntry (g : Nat) : BitVec 16 := BitVec.ofNat 16 g

/-- The start that FORK gives (R151, R190, R248). -/
def Core.forkTo (k : Core) (gs : Nat → Nat) (clk : Clock) : Core :=
  { k with
    hs := { k.hs with count := 0, early := true, rets := [], sec := none, region := k.hs.region + 1 }
    ls := k.ls.forked (forkP (gs 0)) (forkEntry (gs 0)) true clk
    ss := k.ss.forked (forkP (gs 1)) (forkEntry (gs 1)) true clk
    vs := k.vs.forked (forkP (gs 2)) (forkEntry (gs 2)) false clk
    ms := k.ms.forked (forkP (gs 3)) (forkEntry (gs 3)) false clk
    mask := if forkP (gs 2) then [] else k.mask
    ftSnap := if forkP (gs 3) then k.ftbase.setWidth 16 else k.ftSnap
    forked := true }

/-- Read n granules named by a signed offset from this word (R151, R153). -/
def State.record (s : State) (imm : BitVec 48) (n : Nat) : Except Flt (Nat × State) :=
  let t := (s.hpc : Int) + imm.toInt
  if t < 0 ∨ (s.codeLen : Int) < t + n then .error ⟨.handleBounds, 0, etval t⟩ else s.fetch s.cur .h t.toNat n

/-- FORK (R151). -/
def forkRes (s : State) (imm : BitVec 48) : HRes :=
  let v := etval ((s.hpc : Int) + imm.toInt)
  if s.me.busy then .stall s
  else
    HRes.of (s.record imm 4) fun r =>
      let gs := granOf r.1
      if (List.range 4).any fun i => fieldOf (gs i) 30 16 != 0 then .fault ⟨.reservedField, 0, v⟩
      else if (List.range 4).any fun i => forkP (gs i) && decide (s.codeLen ≤ (forkEntry (gs i)).toNat) then
        .fault ⟨.handleBounds, 0, v⟩
      else .retire (r.2.modMe fun k => k.forkTo gs (s.clkOf s.cur .h))

def execFork (c : CReg) (imm : BitVec 48) (s : State) : Out3 := helm s c (forkRes s imm)

/-- Everything the other four streams did happens before what follows the meeting (R13). -/
def State.joined (s : State) : State :=
  s.learn s.cur .h ([Stream.l, .s, .v, .m].foldl (fun k st => clkJoin k (s.clkOf s.cur st)) [])

/-- JOIN (R13, R152). -/
def joinRes (s : State) : HRes := if s.me.busy then .stall s else .retire s.joined

def execJoin (c : CReg) (s : State) : Out3 := helm s c (joinRes s)

/-- JOIN 1: abandon, then meet (R152). -/
def execJoinAbandon (c : CReg) (s : State) : Out3 := helm s c (.retire (s.abandon s.cur).joined)

/-- The depths of a queue map of 16 granules (R191). -/
def mapDepths (x : Nat) : List Nat := elemsOf x 1 64

/-- A queue map that R153 refuses: a depth outside 1 to 64, a reserved bit, or a sum above 1,024. -/
def mapBad (ds : List Nat) : Bool := ds.any (fun d => d == 0 || decide (64 < d)) || decide (1024 < ds.foldl (· + ·) 0)

/-- QMAP: queues that are emptied want no restored slot (R153, R218). -/
def qmapRes (s : State) (imm : BitVec 48) : HRes :=
  let t := (s.hpc : Int) + imm.toInt
  if s.me.busy then .stall s
  else
    HRes.of (s.record imm 16) fun r =>
      let ds := mapDepths r.1
      if mapBad ds then .fault ⟨.reservedField, 0, etval t⟩
      else .retire (r.2.modMe fun k =>
        { k with
          absent := k.absent.filter fun o => decide (o < 0x46400) || decide (0xC6400 ≤ o)
          vq := [], heads := [], depths := ds, qmapbase := ((1 : X64) <<< 63) ||| BitVec.ofNat 64 (t.toNat % 65536) })

def execQmap (c : CReg) (imm : BitVec 48) (s : State) : Out3 := helm s c (qmapRes s imm)

/-- Streams of OQSEND: 0 L, 1 S, 2 V, 3 M (R154). -/
def oqStream (n : BitVec 2) : Stream := if n = 0 then .l else if n = 1 then .s else if n = 2 then .v else .m

/-- OQSEND (R20, R154). -/
def oqsendRes (s : State) (st : Stream) (q : OQ) (x : X64) : HRes :=
  let oq := (s.me.strm st).oqs.getD q.toNat []
  if 16 ≤ oq.length then .stall s
  else
    let e : OqEnt := ⟨x, s.clkOf s.cur .h⟩
    .retire ((s.modStrm s.cur st fun v => { v with oqs := listPut v.oqs q.toNat (oq ++ [e]) }).tick s.cur .h)

def execOqsend (c : CReg) (st : BitVec 2) (q : OQ) (xa : XReg) (s : State) : Out3 :=
  helm s c (oqsendRes s (oqStream st) q (s.me.getX xa))

/-- HALT (R155). -/
def haltRes (s : State) : HRes :=
  if s.me.busy ∨ !s.me.drained then .stall s
  else
    let last := s.lastPhase s.cur
    .retire (s.joined.modMe fun k => { k with hrun := .halted, haltLine := last })

def execHalt (c : CReg) (s : State) : Out3 := helm s c (haltRes s)

/-! System instructions. -/

/-- TRAP (R156). -/
def execTrap (c : CReg) (value : BitVec 48) (s : State) : Out3 := helm s c (.trap s ⟨.trapSw, 0, value.setWidth 64⟩)

/-- BRK (R156). -/
def execBrk (c : CReg) (value : BitVec 48) (s : State) : Out3 := helm s c (.trap s ⟨.debug, 0, value.setWidth 64⟩)

/-- TRET (R157). -/
def tretRes (s : State) : HRes :=
  if !s.me.supervisor then .fault ⟨.privilege, 0, 0⟩ else .jump (s.trapReturn s.cur) (s.me.epc.setWidth 16)

def execTret (c : CReg) (s : State) : Out3 := helm s c (tretRes s)

/-- CSRR (R116, R158). -/
def csrrRes (s : State) (xd : XReg) (sel : BitVec 12) : HRes :=
  match csrOf sel with
  | none => .fault ⟨.illegalOp, 0, sel.setWidth 64⟩
  | some r => if r.readable s.me.supervisor then retireX s xd (s.csrRead s.cur r) else .fault ⟨.privilege, 0, sel.setWidth 64⟩

def execCsrr (c : CReg) (xd : XReg) (sel : BitVec 12) (s : State) : Out3 := helm s c (csrrRes s xd sel)

/-- A task-mode write of STATUS that would change MODE, PMODE, IE or PIE (R117). -/
def statusClash (k : Core) (r : Csr) (v : X64) : Bool := r == .status && !k.supervisor && (k.status &&& 0xF) != (v &&& 0xF)

/-- CSRW (R116, R117, R158). -/
def csrwRes (s : State) (sel : BitVec 12) (v : X64) : HRes :=
  match csrOf sel with
  | none => .fault ⟨.illegalOp, 0, sel.setWidth 64⟩
  | some r =>
    if !r.writable s.me.supervisor ∨ statusClash s.me r v then .fault ⟨.privilege, 0, sel.setWidth 64⟩
    else .retire (s.modMe fun k => k.csrWrite r v)

def execCsrw (c : CReg) (sel : BitVec 12) (xa : XReg) (s : State) : Out3 := helm s c (csrwRes s sel (s.me.getX xa))

/-- Does WAITI retire: a trap is pending, or its deadline has come (R159)? -/
def State.waitiDone (s : State) (c : Nat) (x : X64) : Bool :=
  !(s.core c).pend.isEmpty || (x != 0 && decide (x.toNat ≤ (s.cycle c).toNat))

/-- WAITI: while it stalls a pending trap lets it retire first (R128, R159). -/
def waitiRes (s : State) (x : X64) : HRes :=
  if s.waitiDone s.cur x then .retire (s.modStrm s.cur .h fun v => { v with wait := none })
  else .stall (s.modStrm s.cur .h fun v => { v with wait := some ⟨.request, false, x, [], 0⟩ })

def execWaiti (c : CReg) (xa : XReg) (s : State) : Out3 := helm s c (waitiRes s (s.me.getX xa))

/-- NOP (R159). -/
def execNop (c : CReg) (s : State) : Out3 := helm s c (.retire s)

end Sys2Proof.Machine
end

