-- ==== Sys2Proof/Machine/Access.lean ====
section
/-! DEFINITION. The words of the Access engine (R160 to R176). -/
namespace Sys2Proof.Machine

/-- A word of L or S on a group. -/
def accessWord (s : State) (ctl : Ctl) (i : Instr) (body : Body) : Out3 := groupWord s ctl i (body s)

/-- Handle of a memory operand (R162, R163). -/
def memHdl (m : AMem) (k : Core) : Handle := k.getH m.h

/-- Formats that Access words accept (R167). -/
def fmt12 : List Nat := [1, 2]

/-! Tiles (R168, R169). -/

/-- TileSource of R168: memory row and byte of tile byte (i, b). -/
def tileSource (mode i b : Nat) : Nat × Nat :=
  if mode = 0 then (i, b) else if mode = 1 then (b, i) else (b / 2, 2 * i + b % 2)

/-- Element size of a tile transfer. -/
def tileEsz (h : Handle) (mode : Nat) : Nat := if mode = 1 then 1 else if mode = 2 then 2 else h.elem

/-- Row pitch of a tile transfer. -/
def tilePitch (h : Handle) (mode : Nat) : Nat := if h.pitch = 0 then (if mode = 2 then 256 else 128) else h.pitch

/-- Active rows and active bytes of a row (R168, R169). -/
def tileRows (v : StreamSt) (pad : Bool) : Nat := if pad then v.redge else 128
def tileCols (v : StreamSt) (h : Handle) (mode : Nat) (pad : Bool) : Nat := if pad then min 128 (v.cedge * tileEsz h mode) else 128

/-- Offset of a tile byte in memory. -/
def tileOff (h : Handle) (mode : Nat) (off : Int) (i b : Nat) : Int :=
  let r := tileSource mode i b
  off + (r.1 * tilePitch h mode + r.2 : Nat)

/-- The active tile bytes in list order: tile row, then tile byte. -/
def tileList (rows cols : Nat) : List (Nat × Nat) := (List.range rows).flatMap fun i => (List.range cols).map fun b => (i, b)

/-- Merge two rising lists of offsets. -/
def mergeOffs : Nat → List Int → List Int → List Int
  | 0, a, b => a ++ b
  | _ + 1, [], b => b
  | _ + 1, a, [] => a
  | n + 1, x :: a, y :: b => if x ≤ y then x :: mergeOffs n a (y :: b) else y :: mergeOffs n (x :: a) b

/-- Offsets of the memory elements that the active tile bytes touch, lowest first (R168). -/
def tileElems (h : Handle) (mode : Nat) (off : Int) (rows cols : Nat) : List Int :=
  let esz := tileEsz h mode
  let es := (List.range rows).map fun i => (List.range (cols / esz)).map fun e => tileOff h mode off i (e * esz)
  es.foldl (fun acc r => mergeOffs (acc.length + r.length) acc r) []

/-- The key of one byte of an operand whose checks have passed. -/
def State.byteKey (s : State) (a : Acc) (h : Handle) (off : Int) (k : Kind) : Nat :=
  match s.locate a h off 1 k with
  | .ok (p :: _) => p.key
  | _ => 0

/-- TLD (R170). -/
def tldBody (mode : BitVec 2) (pad : Bool) (t : TReg) (m : AMem) : Body := fun s k v g => do
  let h := memHdl m k
  let off ← memOff v m
  let tile := k.tile t.toNat
  if tile.full ∨ tile.held.isSome then .error .block
  else
    let md := mode.toNat
    let rows := tileRows v pad
    let cols := tileCols v h md pad
    let (_, g) ← grpAccesses s s.cur s.curSt h m.race (tileEsz h md) (tileEsz h md) .load fmt12 (tileElems h md off rows cols) g
    let a := s.accGrp s.cur s.curSt g
    let byteOf (p : Nat × Nat) : Byte :=
      if p.1 < rows ∧ p.2 < cols then memGet s.mem (s.byteKey a h (tileOff h md off p.1 p.2) .load) else 0
    let bits := BitVec.ofNat 131072 (ofBytes ((tileList 128 128).map byteOf))
    .ok ({ g.add (.tile t.toNat bits) with edge := true }, none)

def execTld (ctl : Ctl) (mode : BitVec 2) (pad : Bool) (t : TReg) (mem : AMem) (s : State) : Out3 :=
  accessWord s ctl (.tld ctl mode pad t mem) (tldBody mode pad t mem)

/-- Byte (i, b) of a tile (R168). -/
def TileSt.byte (t : TileSt) (i b : Nat) : Byte := t.bits.extractLsb' (8 * (128 * i + b)) 8

/-- TST (R171). -/
def tstBody (mode : BitVec 2) (pad keep : Bool) (t : TReg) (m : AMem) : Body := fun s k v g => do
  let h := memHdl m k
  let off ← memOff v m
  let tile := k.tile t.toNat
  if !tile.full then .error .block
  else
    let md := mode.toNat
    let rows := tileRows v pad
    let cols := tileCols v h md pad
    let g := { g with clk := clkJoin g.clk tile.clk, edge := true }
    let (_, g) ← grpAccesses s s.cur s.curSt h m.race (tileEsz h md) (tileEsz h md) .store fmt12 (tileElems h md off rows cols) g
    let a := s.accGrp s.cur s.curSt g
    let esz := tileEsz h md
    let g := g.addWrites ((tileList rows (cols / esz)).map fun p => (List.range esz).map fun e =>
      (s.byteKey a h (tileOff h md off p.1 (p.2 * esz + e)) .store, tile.byte p.1 (p.2 * esz + e)))
    .ok (if keep then g else g.add (.tileState t.toNat false), none)

def execTst (ctl : Ctl) (mode : BitVec 2) (pad keep : Bool) (t : TReg) (mem : AMem) (s : State) : Out3 :=
  accessWord s ctl (.tst ctl mode pad keep t mem) (tstBody mode pad keep t mem)

/-- TFULL and TEMPTY: the bit changes at commit, in instruction order, if it then stands otherwise (R172, R166). -/
def tstateBody (t : TReg) (full : Bool) : Body := fun _ _ _ g =>
  .ok ({ g.add (.tileState t.toNat full) with edge := true }, none)

def execTfullL (ctl : Ctl) (t : TReg) (s : State) : Out3 := accessWord s ctl (.tfullL ctl t) (tstateBody t true)
def execTemptyL (ctl : Ctl) (t : TReg) (s : State) : Out3 := accessWord s ctl (.temptyL ctl t) (tstateBody t false)
def execTfullS (ctl : Ctl) (t : TReg) (s : State) : Out3 := accessWord s ctl (.tfullS ctl t) (tstateBody t true)
def execTemptyS (ctl : Ctl) (t : TReg) (s : State) : Out3 := accessWord s ctl (.temptyS ctl t) (tstateBody t false)

/-- PADAPPLY (R173). -/
def padBody (op : PadOp) : Body := fun _ _ v g =>
  match op with
  | .reset => .ok ((g.add (.cedge 128)).add (.redge 128), none)
  | .col q =>
    match readOq v g q false with
    | .ok (x, g) => .ok (g.add (.cedge (min (x.toNat % 256) 128)), none)
    | .error e => .error e
  | .row q =>
    match readOq v g q false with
    | .ok (x, g) => .ok (g.add (.redge (min (x.toNat % 256) 128)), none)
    | .error e => .error e

def execPadapplyL (ctl : Ctl) (op : PadOp) (s : State) : Out3 := accessWord s ctl (.padapplyL ctl op) (padBody op)
def execPadapplyS (ctl : Ctl) (op : PadOp) (s : State) : Out3 := accessWord s ctl (.padapplyS ctl op) (padBody op)

/-! Vectors (R174 to R176). -/

/-- Bytes of a length code (R174). -/
def vecLen (len : BitVec 2) : Nat := [512, 16, 8, 4].getD len.toNat 512

/-- VLD (R174). -/
def vldBody (len : BitVec 2) (dst : VDst) (m : AMem) (ty : Ty) : Body := fun s k v g => do
  let off ← memOff v m
  let (ps, g) ← grpAccess s s.cur s.curSt g (memHdl m k) m.race off (vecLen len) ty.size .load fmt12
  let x := vecOfBytes (s.readBytes ps)
  .ok (g.dest dst x, some x)

def execVld (ctl : Ctl) (len : BitVec 2) (dst : VDst) (mem : AMem) (ty : Ty) (s : State) : Out3 :=
  accessWord s ctl (.vld ctl len dst mem ty) (vldBody len dst mem ty)

/-- VST (R174). -/
def vstBody (len : BitVec 2) (m : AMem) (src : VSrc) (ty : Ty) : Body := fun s k v g => do
  let off ← memOff v m
  let (x, g) ← readSrc k s.now g src
  let (ps, g) ← grpAccess s s.cur s.curSt g (memHdl m k) m.race off (vecLen len) ty.size .store fmt12
  .ok (g.add (.write (zipBytes ps (bytesOf (vecLen len) x.toNat))), none)

def execVst (ctl : Ctl) (len : BitVec 2) (mem : AMem) (src : VSrc) (ty : Ty) (s : State) : Out3 :=
  accessWord s ctl (.vst ctl len mem src ty) (vstBody len mem src ty)

/-- Offsets of strided elements (R175). -/
def strideOffs (off stride : Int) (n : Nat) : List Int := (List.range n).map fun (k : Nat) => off + (k : Int) * stride

/-- VLDS (R175). -/
def vldsBody (dst : VDst) (m : AMem) (sq : OQ) (ty : Ty) : Body := fun s k v g => do
  let off ← memOff v m
  let stride ← headOq v sq
  let (pss, g) ← grpAccesses s s.cur s.curSt (memHdl m k) m.race ty.size ty.size .load fmt12
    (strideOffs off stride.toInt (512 / ty.size)) g
  let x := vecOfBytes (pss.flatMap fun ps => s.readBytes ps)
  .ok (g.dest dst x, some x)

def execVlds (ctl : Ctl) (dst : VDst) (mem : AMem) (sq : OQ) (ty : Ty) (s : State) : Out3 :=
  accessWord s ctl (.vlds ctl dst mem sq ty) (vldsBody dst mem sq ty)

/-- The bytes of elements, each to its own pieces, in ascending element order. -/
def scatterBytes (pss : List (List Piece)) (e : Nat) (xs : List Nat) : List (List (Nat × Byte)) :=
  (pss.zip xs).map fun p => zipBytes p.1 (bytesOf e p.2)

/-- VSTS (R175). -/
def vstsBody (m : AMem) (src : VSrc) (sq : OQ) (ty : Ty) : Body := fun s k v g => do
  let off ← memOff v m
  let stride ← headOq v sq
  let (x, g) ← readSrc k s.now g src
  let (pss, g) ← grpAccesses s s.cur s.curSt (memHdl m k) m.race ty.size ty.size .store fmt12
    (strideOffs off stride.toInt (512 / ty.size)) g
  .ok (g.addWrites (scatterBytes pss ty.size (vecElems x ty.size)), none)

def execVsts (ctl : Ctl) (mem : AMem) (src : VSrc) (sq : OQ) (ty : Ty) (s : State) : Out3 :=
  accessWord s ctl (.vsts ctl mem src sq ty) (vstsBody mem src sq ty)

/-- Active lanes with their offsets (R176). -/
def laneOffs (idx : Vec) (off : Int) : List (Nat × Int) :=
  ((List.range 128).zip (vecElems idx 4)).filterMap fun p =>
    if p.2 = 0xFFFFFFFF then none else some (p.1, off + (4 * p.2 : Nat))

/-- VGATHER (R176). -/
def vgatherBody (dst : VDst) (m : AMem) (idx : VSrc) : Body := fun s k v g => do
  let off ← memOff v m
  let (iv, g) ← readSrc k s.now g idx
  let ls := laneOffs iv off
  let (pss, g) ← grpAccesses s s.cur s.curSt (memHdl m k) m.race 4 4 .load fmt12 (ls.map (·.2)) g
  let got : Tab Nat := (ls.map (·.1)).zip (pss.map fun ps => ofBytes (s.readBytes ps))
  let x := vecOf 4 ((List.range 128).map fun i => (tabFind got i).getD 0)
  .ok (g.dest dst x, some x)

def execVgather (ctl : Ctl) (dst : VDst) (mem : AMem) (idx : VSrc) (ty : Ty) (s : State) : Out3 :=
  accessWord s ctl (.vgather ctl dst mem idx ty) (vgatherBody dst mem idx)

/-- VSCATTER (R176). -/
def vscatterBody (m : AMem) (src idx : VSrc) : Body := fun s k v g => do
  let off ← memOff v m
  let (x, g) ← readSrc k s.now g src
  let (iv, g) ← readSrc k s.now g idx
  let ls := laneOffs iv off
  let (pss, g) ← grpAccesses s s.cur s.curSt (memHdl m k) m.race 4 4 .store fmt12 (ls.map (·.2)) g
  let xs := ls.map fun l => elemOf x.toNat 4 l.1
  .ok (g.addWrites (scatterBytes pss 4 xs), none)

def execVscatter (ctl : Ctl) (mem : AMem) (src idx : VSrc) (ty : Ty) (s : State) : Out3 :=
  accessWord s ctl (.vscatter ctl mem src idx ty) (vscatterBody mem src idx)

end Sys2Proof.Machine
end

