-- ==== Sys2Proof/Machine/Vector.lean ====
section
/-! DEFINITION. The words of the Vector engine (R188 to R216). -/
namespace Sys2Proof.Machine

/-- A V word on a group. -/
def vecWord (s : State) (ctl : Ctl) (i : Instr) (body : Body) : Out3 := groupWord s ctl i (body s)

/-- Active elements take the result, the others their passive value (R205). -/
def selActive : List Bool → List Nat → List Nat → List Nat
  | b :: bs, x :: xs, y :: ys => (if b then x else y) :: selActive bs xs ys
  | _, _, _ => []

/-- The active elements of a word at its type (R205). -/
def actOf (k : Core) (p : PSel) (ty : Ty) : List Bool := actList (activeBits k p) ty.size

/-! Elementwise words (Table 7.4, R209). -/

/-- A two-source word: `f` on the elements of the sources. -/
def binBody (w : VBin) (f : Core → Nat → Nat → Nat) : Body := fun s k v g => do
  let (a, g) ← readSrc k s.now g w.a
  let (b, g) ← readOpd k s.now v g w.ty w.b
  let as := vecElems a w.ty.size
  let res := List.zipWith (f k) as (vecElems b w.ty.size)
  vout g w.dst (vecOf w.ty.size (selActive (actOf k w.pred w.ty) res as))

/-- A three-source word. -/
def triBody (w : VBin) (cc : VSrc) (f : Core → Nat → Nat → Nat → Nat) : Body := fun s k v g => do
  let (a, g) ← readSrc k s.now g w.a
  let (b, g) ← readOpd k s.now v g w.ty w.b
  let (c, g) ← readSrc k s.now g cc
  let as := vecElems a w.ty.size
  let res := List.zipWith (fun (p : Nat × Nat) z => f k p.1 p.2 z) (as.zip (vecElems b w.ty.size)) (vecElems c w.ty.size)
  vout g w.dst (vecOf w.ty.size (selActive (actOf k w.pred w.ty) res as))

/-- A one-source word. -/
def unBody (w : VUn) (f : Core → Nat → Nat) : Body := fun s k _ g => do
  let (a, g) ← readSrc k s.now g w.a
  let as := vecElems a w.ty.size
  vout g w.dst (vecOf w.ty.size (selActive (actOf k w.pred w.ty) (as.map (f k)) as))

/-- An operand element as a value, read under VFTZ (R69). -/
def vread (k : Core) (ty : Ty) (x : Nat) : FVal := decodeF ty.fmt (readFtz ty.fmt k.vftz x)

/-- A float result: rounded once under the word's mode and VFTZ (R64, R69, R209). -/
def vround (k : Core) (ty : Ty) (md : Rnd) (v : FVal) : Nat := roundFtz ty.fmt md k.vftz v

/-- A float word of two sources from its exact value. -/
def floatBin (w : VBin) (f : FVal → FVal → FVal) : Body :=
  binBody w fun k a b => vround k w.ty w.rnd (f (vread k w.ty a) (vread k w.ty b))

/-- A float word of one source from its exact value (Table 7.6). -/
def floatUn (w : VUn) (f : FVal → FVal) : Body := unBody w fun k a => vround k w.ty w.rnd (f (vread k w.ty a))

/-- An integer word of two sources from its exact result, fitted (R60). -/
def intBin (w : VBin) (f : Int → Int → Int) : Body :=
  binBody w fun _ a b => fitInt w.ty w.sat (f (intVal w.ty a) (intVal w.ty b))

/-- A bitwise word. -/
def bitBin (w : VBin) (f : Nat → Nat → Nat) : Body := binBody w fun _ a b => f a b

/-- VADD: Round(a + b). -/
def execVadd (w : VBin) (s : State) : Out3 :=
  vecWord s w.ctl (.vadd w) (floatBin w (addF w.rnd))

/-- VSUB: Round(a - b). -/
def execVsub (w : VBin) (s : State) : Out3 :=
  vecWord s w.ctl (.vsub w) (floatBin w (fun a b => addF w.rnd a (negF b)))

/-- VMUL: Round(a × b). -/
def execVmul (w : VBin) (s : State) : Out3 :=
  vecWord s w.ctl (.vmul w) (floatBin w mulF)

/-- VDIV: Round(a ÷ b) (R210). -/
def execVdiv (w : VBin) (s : State) : Out3 :=
  vecWord s w.ctl (.vdiv w) (floatBin w divF)

/-- A float word of three sources from its exact value. -/
def floatTri (w : VBin) (cc : VSrc) (f : FVal → FVal → FVal → FVal) : Body :=
  triBody w cc fun k a b c => vround k w.ty w.rnd (f (vread k w.ty a) (vread k w.ty b) (vread k w.ty c))

/-- VFMA: Round(a × b + c), rounded once. -/
def execVfma (w : VBin) (cc : VSrc) (s : State) : Out3 :=
  vecWord s w.ctl (.vfma w cc) (floatTri w cc fun a b c => addF w.rnd (mulF a b) c)

/-- VFMS: Round(a × b - c), rounded once. -/
def execVfms (w : VBin) (cc : VSrc) (s : State) : Out3 :=
  vecWord s w.ctl (.vfms w cc) (floatTri w cc fun a b c => addF w.rnd (mulF a b) (negF c))

/-- VSQRT (Table 7.6, R210). -/
def execVsqrt (w : VUn) (s : State) : Out3 :=
  vecWord s w.ctl (.vsqrt w) (floatUn w sqrtF)

/-- VRSQ (Table 7.6, R210). -/
def execVrsq (w : VUn) (s : State) : Out3 :=
  vecWord s w.ctl (.vrsq w) (floatUn w rsqF)

/-- VRCP (Table 7.6, R210). -/
def execVrcp (w : VUn) (s : State) : Out3 :=
  vecWord s w.ctl (.vrcp w) (floatUn w rcpF)

/-- VEXP2 (Table 7.6, R210). -/
def execVexp2 (w : VUn) (s : State) : Out3 :=
  vecWord s w.ctl (.vexp2 w) (floatUn w exp2F)

/-- VLOG2 (Table 7.6, R210). -/
def execVlog2 (w : VUn) (s : State) : Out3 :=
  vecWord s w.ctl (.vlog2 w) (floatUn w log2F)

/-- Minimum or maximum of elements as read (R68). -/
def vminmax (k : Core) (ty : Ty) (mx : Bool) (a b : Nat) : Nat :=
  minmaxF ty.fmt mx (readFtz ty.fmt k.vftz a) (readFtz ty.fmt k.vftz b)

/-- VMIN (R68). -/
def execVmin (w : VBin) (s : State) : Out3 :=
  vecWord s w.ctl (.vmin w) (binBody w fun k a b => vminmax k w.ty false a b)

/-- VMAX (R68). -/
def execVmax (w : VBin) (s : State) : Out3 :=
  vecWord s w.ctl (.vmax w) (binBody w fun k a b => vminmax k w.ty true a b)

/-- |a| and -a: a sign bit of a float pattern, a fitted integer (R209). -/
def vabs (w : VUn) (a : Nat) : Nat :=
  if w.ty.isFloat then a % 2 ^ (8 * w.ty.size - 1) else fitInt w.ty w.sat ((intVal w.ty a).natAbs : Int)
def vneg (w : VUn) (a : Nat) : Nat :=
  if w.ty.isFloat then Nat.xor a (2 ^ (8 * w.ty.size - 1)) else fitInt w.ty w.sat (-(intVal w.ty a))

/-- VABS. -/
def execVabs (w : VUn) (s : State) : Out3 :=
  vecWord s w.ctl (.vabs w) (unBody w fun _ a => vabs w a)

/-- VNEG. -/
def execVneg (w : VUn) (s : State) : Out3 :=
  vecWord s w.ctl (.vneg w) (unBody w fun _ a => vneg w a)

/-- VIADD: a + b, fitted. -/
def execViadd (w : VBin) (s : State) : Out3 :=
  vecWord s w.ctl (.viadd w) (intBin w fun a b => a + b)

/-- VISUB: a - b, fitted. -/
def execVisub (w : VBin) (s : State) : Out3 :=
  vecWord s w.ctl (.visub w) (intBin w fun a b => a - b)

/-- VIMUL: a × b, fitted. -/
def execVimul (w : VBin) (s : State) : Out3 :=
  vecWord s w.ctl (.vimul w) (intBin w fun a b => a * b)

/-- VIMULH: the high half of the exact product. -/
def execVimulh (w : VBin) (s : State) : Out3 :=
  vecWord s w.ctl (.vimulh w) (intBin w fun a b => a * b / 2 ^ (8 * w.ty.size))

/-- VAND. -/
def execVand (w : VBin) (s : State) : Out3 :=
  vecWord s w.ctl (.vand w) (bitBin w Nat.land)

/-- VOR. -/
def execVor (w : VBin) (s : State) : Out3 :=
  vecWord s w.ctl (.vor w) (bitBin w Nat.lor)

/-- VXOR. -/
def execVxor (w : VBin) (s : State) : Out3 :=
  vecWord s w.ctl (.vxor w) (bitBin w Nat.xor)

/-- A shift amount: b read as natural; every amount of 64 or more acts alike (Table 7.4). -/
def shAmt (b : Nat) : Nat := min b 64

/-- VSHL: a × 2^s, fitted. -/
def execVshl (w : VBin) (s : State) : Out3 :=
  vecWord s w.ctl (.vshl w) (binBody w fun _ a b => fitInt w.ty w.sat (intVal w.ty a * 2 ^ shAmt b))

/-- VSHR: zeros come in. -/
def execVshr (w : VBin) (s : State) : Out3 :=
  vecWord s w.ctl (.vshr w) (bitBin w fun a b => a >>> shAmt b)

/-- VSRA: Floor(a ÷ 2^s). -/
def execVsra (w : VBin) (s : State) : Out3 :=
  vecWord s w.ctl (.vsra w) (binBody w fun _ a b => fitInt w.ty false (intVal w.ty a / 2 ^ shAmt b))

/-- VIMIN. -/
def execVimin (w : VBin) (s : State) : Out3 :=
  vecWord s w.ctl (.vimin w) (intBin w fun a b => if a ≤ b then a else b)

/-- VIMAX. -/
def execVimax (w : VBin) (s : State) : Out3 :=
  vecWord s w.ctl (.vimax w) (intBin w fun a b => if a ≤ b then b else a)

/-- VSEL: where kS is true a, else b (Table 7.4). -/
def vselBody (w : VBin) (ks : KReg) : Body := fun s k v g => do
  let (a, g) ← readSrc k s.now g w.a
  let (b, g) ← readOpd k s.now v g w.ty w.b
  let as := vecElems a w.ty.size
  let res := selActive (actList (k.getK ks.toNat) w.ty.size) as (vecElems b w.ty.size)
  vout g w.dst (vecOf w.ty.size (selActive (actOf k w.pred w.ty) res as))

def execVsel (w : VBin) (ks : KReg) (s : State) : Out3 := vecWord s w.ctl (.vsel w ks) (vselBody w ks)

/-- The exponents of VSCALE: elements of b as signed integers; an immediate is the exponent itself, an entry gives its
low 32 bits (R196, R197). -/
def scaleExps (k : Core) (now : Nat) (v : StreamSt) (g : Grp) (ty : Ty) : VOpd → W (List Int × Grp)
  | .vec src => do
    let (b, g) ← readSrc k now g src
    .ok ((vecElems b ty.size).map (signedOf (8 * ty.size)), g)
  | .imm i => .ok (List.replicate (512 / ty.size) i.toInt, g)
  | .oq q keep => do
    let (x, g) ← readOq v g q keep
    .ok (List.replicate (512 / ty.size) (signedOf 32 x.toNat), g)

/-- VSCALE: Round(a × 2^n) (Table 7.4). -/
def vscaleBody (w : VBin) : Body := fun s k v g => do
  let (a, g) ← readSrc k s.now g w.a
  let (ns, g) ← scaleExps k s.now v g w.ty w.b
  let as := vecElems a w.ty.size
  let res := List.zipWith (fun x n => vround k w.ty w.rnd (scaleF (vread k w.ty x) n)) as ns
  vout g w.dst (vecOf w.ty.size (selActive (actOf k w.pred w.ty) res as))

def execVscale (w : VBin) (s : State) : Out3 := vecWord s w.ctl (.vscale w) (vscaleBody w)

/-- VMOV: its passive value is zero (Table 7.4). -/
def vmovBody (pred : PSel) (dst : VDst) (b : VOpd) (ty : Ty) : Body := fun s k v g => do
  let (x, g) ← readOpd k s.now v g ty b
  let xs := vecElems x ty.size
  vout g dst (vecOf ty.size (selActive (actOf k pred ty) xs (xs.map fun _ => 0)))

def execVmov (ctl : Ctl) (pred : PSel) (dst : VDst) (b : VOpd) (ty : Ty) (s : State) : Out3 :=
  vecWord s ctl (.vmov ctl pred dst b ty) (vmovBody pred dst b ty)

/-! Comparison and conversion. -/

/-- A relation of Table 7.7 on an ordering; none is unordered. -/
def VRel.holds (r : VRel) (o : Option Ordering) : Bool :=
  match r, o with
  | .eq, some .eq => true
  | .ne, some .eq => false
  | .ne, _ => true
  | .lt, some .lt => true
  | .le, some .lt | .le, some .eq => true
  | .gt, some .gt => true
  | .ge, some .gt | .ge, some .eq => true
  | .un, none => true
  | _, _ => false

/-- The order of two elements: floats under VFTZ, integers by value (R68, R211). -/
def vorder (k : Core) (ty : Ty) (a b : Nat) : Option Ordering :=
  if ty.isFloat then cmpF (vread k ty a) (vread k ty b) else some (compare (intVal ty a) (intVal ty b))

/-- A word that writes a predicate: its latch, and the register unless suppressed (R204). -/
def kout (g : Grp) (kd : Option KReg) (p : Pred) : W (Grp × Option Vec) :=
  .ok (match kd with
       | some d => g.add (.pred d.toNat p)
       | none => g, some (predVec p))

/-- VCMP (R211). -/
def vcmpBody (pred : PSel) (kd : Option KReg) (a : VSrc) (b : VOpd) (ty : Ty) (rel : VRel) : Body := fun s k v g => do
  let (x, g) ← readSrc k s.now g a
  let (y, g) ← readOpd k s.now v g ty b
  let res := List.zipWith (fun p q => VRel.holds rel (vorder k ty p q)) (vecElems x ty.size) (vecElems y ty.size)
  kout g kd (predOf ty.size (List.zipWith (· && ·) (actOf k pred ty) res))

def execVcmp (ctl : Ctl) (pred : PSel) (kd : Option KReg) (a : VSrc) (b : VOpd) (ty : Ty) (rel : VRel) (s : State) : Out3 :=
  vecWord s ctl (.vcmp ctl pred kd a b ty rel) (vcmpBody pred kd a b ty rel)

/-- Element of a list of patterns, zero beyond its end. -/
def elemAt (xs : List Nat) (i : Nat) : Nat := xs.getD i 0

/-- The elements of VCVT's result (R212). -/
def cvtElems (sty dty : Ty) (rnd : Rnd) (sat : Bool) (part : Nat) (act : List Bool) (xs : List Nat) : List Nat :=
  let wide := max sty.size dty.size
  let n := 512 / wide
  if sty.size ≤ dty.size then
    (List.range n).map fun k => if act.getD k false then convElem sty dty rnd sat (elemAt xs (part * n + k)) else 0
  else
    (List.range (512 / dty.size)).map fun d =>
      if part * n ≤ d ∧ d < part * n + n ∧ act.getD d false then convElem sty dty rnd sat (elemAt xs (d - part * n)) else 0

/-- VCVT: VFTZ does not apply (R69, R212). -/
def vcvtBody (pred : PSel) (dst : VDst) (a : VSrc) (dty sty : Ty) (rnd : Rnd) (sat : Bool) (part : BitVec 2) : Body :=
  fun s k _ g => do
    let (x, g) ← readSrc k s.now g a
    vout g dst (vecOf dty.size (cvtElems sty dty rnd sat part.toNat (actOf k pred dty) (vecElems x sty.size)))

def execVcvt (ctl : Ctl) (pred : PSel) (dst : VDst) (a : VSrc) (dty sty : Ty) (rnd : Rnd) (sat : Bool) (part : BitVec 2)
    (s : State) : Out3 :=
  vecWord s ctl (.vcvt ctl pred dst a dty sty rnd sat part) (vcvtBody pred dst a dty sty rnd sat part)

/-! Rearrangement (R213). -/

/-- VPERM: an index at or beyond E gives zero. -/
def vpermBody (pred : PSel) (dst : VDst) (a idx : VSrc) (ty : Ty) : Body := fun s k _ g => do
  let (x, g) ← readSrc k s.now g a
  let (iv, g) ← readSrc k s.now g idx
  let xs := vecElems x ty.size
  let res := (vecElems iv ty.size).map fun i => if i < 512 / ty.size then elemAt xs i else 0
  vout g dst (vecOf ty.size (selActive (actOf k pred ty) res xs))

def execVperm (ctl : Ctl) (pred : PSel) (dst : VDst) (a idx : VSrc) (ty : Ty) (s : State) : Out3 :=
  vecWord s ctl (.vperm ctl pred dst a idx ty) (vpermBody pred dst a idx ty)

/-- Element k of VSLIDE. -/
def slideElem (xs ys : List Nat) (e : Nat) (n : Int) (k : Nat) : Nat :=
  let j := (k : Int) + n
  if 0 ≤ j ∧ j < e then elemAt xs j.toNat else elemAt ys (j % e).toNat

/-- VSLIDE. -/
def vslideBody (pred : PSel) (dst : VDst) (a b : VSrc) (ty : Ty) (n : BitVec 11) : Body := fun s k _ g => do
  let (x, g) ← readSrc k s.now g a
  let (y, g) ← readSrc k s.now g b
  let e := 512 / ty.size
  let xs := vecElems x ty.size
  let ys := vecElems y ty.size
  vout g dst (vecOf ty.size (selActive (actOf k pred ty) ((List.range e).map (slideElem xs ys e n.toInt)) xs))

def execVslide (ctl : Ctl) (pred : PSel) (dst : VDst) (a b : VSrc) (ty : Ty) (n : BitVec 11) (s : State) : Out3 :=
  vecWord s ctl (.vslide ctl pred dst a b ty n) (vslideBody pred dst a b ty n)

/-- The active elements in ascending order. -/
def activeOnly (act : List Bool) (xs : List Nat) : List Nat := (act.zip xs).filterMap fun p => if p.1 then some p.2 else none

/-- VCOMPRESS. -/
def vcompressBody (pred : PSel) (dst : VDst) (a : VSrc) (ty : Ty) : Body := fun s k _ g => do
  let (x, g) ← readSrc k s.now g a
  vout g dst (vecOf ty.size (activeOnly (actOf k pred ty) (vecElems x ty.size)))

def execVcompress (ctl : Ctl) (pred : PSel) (dst : VDst) (a : VSrc) (ty : Ty) (s : State) : Out3 :=
  vecWord s ctl (.vcompress ctl pred dst a ty) (vcompressBody pred dst a ty)

/-- Successive elements go to the active places, zero to the others. -/
def expandGo : List Bool → List Nat → List Nat
  | [], _ => []
  | true :: bs, x :: xs => x :: expandGo bs xs
  | true :: bs, [] => 0 :: expandGo bs []
  | false :: bs, xs => 0 :: expandGo bs xs

/-- VEXPAND. -/
def vexpandBody (pred : PSel) (dst : VDst) (a : VSrc) (ty : Ty) : Body := fun s k _ g => do
  let (x, g) ← readSrc k s.now g a
  vout g dst (vecOf ty.size (expandGo (actOf k pred ty) (vecElems x ty.size)))

def execVexpand (ctl : Ctl) (pred : PSel) (dst : VDst) (a : VSrc) (ty : Ty) (s : State) : Out3 :=
  vecWord s ctl (.vexpand ctl pred dst a ty) (vexpandBody pred dst a ty)

/-- VBCAST. -/
def vbcastBody (pred : PSel) (dst : VDst) (a : VSrc) (ty : Ty) (j : BitVec 10) : Body := fun s k _ g => do
  let (x, g) ← readSrc k s.now g a
  let xs := vecElems x ty.size
  vout g dst (vecOf ty.size (selActive (actOf k pred ty) (xs.map fun _ => elemAt xs j.toNat) xs))

def execVbcast (ctl : Ctl) (pred : PSel) (dst : VDst) (a : VSrc) (ty : Ty) (j : BitVec 10) (s : State) : Out3 :=
  vecWord s ctl (.vbcast ctl pred dst a ty j) (vbcastBody pred dst a ty j)

/-- The base of VINDEX. -/
def idxBase (v : StreamSt) (g : Grp) (ty : Ty) : IdxBase → W (Int × Grp)
  | .imm b => .ok (b.toInt, g)
  | .oq q keep => do
    let (x, g) ← readOq v g q keep
    .ok (intVal ty (x.toNat % 2 ^ (8 * ty.size)), g)

/-- VINDEX: base + k × step, fitted; an inactive element is zero. -/
def vindexBody (pred : PSel) (dst : VDst) (base : IdxBase) (step : BitVec 15) (ty : Ty) (sat : Bool) : Body :=
  fun _ k v g => do
    let (b, g) ← idxBase v g ty base
    let res := (List.range (512 / ty.size)).map fun (i : Nat) => fitInt ty sat (b + (i : Int) * step.toInt)
    vout g dst (vecOf ty.size (selActive (actOf k pred ty) res (res.map fun _ => 0)))

def execVindex (ctl : Ctl) (pred : PSel) (dst : VDst) (base : IdxBase) (step : BitVec 15) (ty : Ty) (sat : Bool)
    (s : State) : Out3 :=
  vecWord s ctl (.vindex ctl pred dst base step ty sat) (vindexBody pred dst base step ty sat)

/-! Reductions and scans (R74, R75, R214, R215). -/

/-- What a reduction or a scan combines with. -/
inductive RedOp where
  | sum | max | min
  deriving DecidableEq, Repr

/-- One combination: rounded or fitted for a sum, selected for a maximum or a minimum (R74). -/
def redOp (k : Core) (w : VUn) (o : RedOp) (a b : Nat) : Nat :=
  match o with
  | .sum =>
    if w.ty.isFloat then vround k w.ty w.rnd (addF w.rnd (vread k w.ty a) (vread k w.ty b))
    else fitInt w.ty w.sat (intVal w.ty a + intVal w.ty b)
  | .max =>
    if w.ty.isFloat then vminmax k w.ty true a b
    else if intVal w.ty a < intVal w.ty b then b else a
  | .min =>
    if w.ty.isFloat then vminmax k w.ty false a b
    else if intVal w.ty b < intVal w.ty a then b else a

/-- The value with no active element (Table 3.5). -/
def redIdentity (ty : Ty) (o : RedOp) : Nat :=
  match o with
  | .sum => 0
  | .max => if ty.isFloat then ty.fmt.sgn true (ty.fmt.infC.getD 0) else wrapTo (8 * ty.size) (intMin ty)
  | .min => if ty.isFloat then ty.fmt.sgn false (ty.fmt.infC.getD 0) else wrapTo (8 * ty.size) (intMax ty)

/-- Combine, where an element that takes no part is absent (R74). -/
def combine (f : Nat → Nat → Nat) : Option Nat → Option Nat → Option Nat
  | none, b => b
  | a, none => a
  | some a, some b => some (f a b)

/-- One level of the pairwise tree. -/
def pairUp (f : Nat → Nat → Nat) : List (Option Nat) → List (Option Nat)
  | a :: b :: t => combine f a b :: pairUp f t
  | t => t

/-- The tree of R74 over at most 2^10 elements. -/
def treeGo (f : Nat → Nat → Nat) : Nat → List (Option Nat) → Option Nat
  | 0, xs => (xs.head?).join
  | n + 1, xs => treeGo f n (pairUp f xs)

/-- An element as a reduction reads it: under VFTZ, and a NaN as the canonical one (R63, R69, R214). -/
def redRead (k : Core) (ty : Ty) (x : Nat) : Nat :=
  if ty.isFloat then
    let y := readFtz ty.fmt k.vftz x
    if decodeF ty.fmt y = .nan then ty.fmt.nanC else y
  else x

/-- A reduction: every element receives the result (R214). -/
def redBody (w : VUn) (o : RedOp) : Body := fun s k _ g => do
  let (a, g) ← readSrc k s.now g w.a
  let ys := List.zipWith (fun b x => if b then some (redRead k w.ty x) else none) (actOf k w.pred w.ty) (vecElems a w.ty.size)
  vout g w.dst (vecSplat w.ty.size ((treeGo (redOp k w o) 10 ys).getD (redIdentity w.ty o)))

/-- A scan in element order; the first active element passes as read (R75, log 17). -/
def scanGo (rd : Nat → Nat) (f : Nat → Nat → Nat) : Option Nat → List Bool → List Nat → List Nat
  | run, true :: bs, x :: xs =>
    let y := match run with
      | none => rd x
      | some r => f r x
    y :: scanGo rd f (some y) bs xs
  | run, false :: bs, x :: xs => x :: scanGo rd f run bs xs
  | _, _, _ => []

/-- A scan: an inactive element receives its own (R215). -/
def scanBody (w : VUn) (o : RedOp) : Body := fun s k _ g => do
  let (a, g) ← readSrc k s.now g w.a
  let rd (x : Nat) : Nat := if w.ty.isFloat then readFtz w.ty.fmt k.vftz x else x
  vout g w.dst (vecOf w.ty.size (scanGo rd (redOp k w o) none (actOf k w.pred w.ty) (vecElems a w.ty.size)))

/-- VREDSUM (R214). -/
def execVredsum (w : VUn) (s : State) : Out3 :=
  vecWord s w.ctl (.vredsum w) (redBody w .sum)

/-- VREDMAX (R214). -/
def execVredmax (w : VUn) (s : State) : Out3 :=
  vecWord s w.ctl (.vredmax w) (redBody w .max)

/-- VREDMIN (R214). -/
def execVredmin (w : VUn) (s : State) : Out3 :=
  vecWord s w.ctl (.vredmin w) (redBody w .min)

/-- VSCANSUM (R215). -/
def execVscansum (w : VUn) (s : State) : Out3 :=
  vecWord s w.ctl (.vscansum w) (scanBody w .sum)

/-- VSCANMAX (R215). -/
def execVscanmax (w : VUn) (s : State) : Out3 :=
  vecWord s w.ctl (.vscanmax w) (scanBody w .max)

/-! Predicate and mask words (R206, R216). -/

/-- Predicate logic over all 512 bits, the second source inverted where asked. -/
def klogBody (inv : Bool) (kd ka kb : KReg) (f : Pred → Pred → Pred) : Body := fun _ k _ g =>
  let b := k.getK kb.toNat
  kout g (some kd) (f (k.getK ka.toNat) (if inv then ~~~b else b))

def execKand (ctl : Ctl) (inv : Bool) (kd ka kb : KReg) (s : State) : Out3 :=
  vecWord s ctl (.kand ctl inv kd ka kb) (klogBody inv kd ka kb (· &&& ·))
def execKor (ctl : Ctl) (inv : Bool) (kd ka kb : KReg) (s : State) : Out3 :=
  vecWord s ctl (.kor ctl inv kd ka kb) (klogBody inv kd ka kb (· ||| ·))
def execKxor (ctl : Ctl) (inv : Bool) (kd ka kb : KReg) (s : State) : Out3 :=
  vecWord s ctl (.kxor ctl inv kd ka kb) (klogBody inv kd ka kb (· ^^^ ·))

/-- KSET: elements below the count true. -/
def ksetBody (kd : KReg) (n : KCnt) (ty : Ty) : Body := fun _ _ v g =>
  let go (g : Grp) (n : Nat) : W (Grp × Option Vec) :=
    kout g (some kd) (predOf ty.size ((List.range (512 / ty.size)).map fun i => decide (i < n)))
  match n with
  | .imm n => go g n.toNat
  | .oq q keep =>
    match readOq v g q keep with
    | .ok (x, g) => go g (x.toNat % 2 ^ 32)
    | .error e => .error e

def execKset (ctl : Ctl) (kd : KReg) (n : KCnt) (ty : Ty) (s : State) : Out3 := vecWord s ctl (.kset ctl kd n ty) (ksetBody kd n ty)

/-- KCOUNT: the number of true elements in every 32-bit lane. -/
def kcountBody (dst : VDst) (ka : KReg) (ty : Ty) : Body := fun _ k _ g =>
  vout g dst (vecSplat 4 ((actList (k.getK ka.toNat) ty.size).filter id).length)

def execKcount (ctl : Ctl) (dst : VDst) (ka : KReg) (ty : Ty) (s : State) : Out3 :=
  vecWord s ctl (.kcount ctl dst ka ty) (kcountBody dst ka ty)

/-- MPUSH, MINV, MPOP: staged; their depth is checked at issue, in order (R206). -/
def execMpush (ctl : Ctl) (ka : KReg) (s : State) : Out3 :=
  vecWord s ctl (.mpush ctl ka) fun _ k _ g => .ok (g.add (.mpush (k.getK ka.toNat)), none)
def execMinv (ctl : Ctl) (s : State) : Out3 := vecWord s ctl (.minv ctl) fun _ _ _ g => .ok (g.add .minv, none)
def execMpop (ctl : Ctl) (s : State) : Out3 := vecWord s ctl (.mpop ctl) fun _ _ _ g => .ok (g.add .mpop, none)

end Sys2Proof.Machine
end

