-- ==== Sys2Proof/Machine/Matrix.lean ====
section
/-! DEFINITION. The words of the Matrix engine (R249 to R274). -/
namespace Sys2Proof.Machine

/-- An M word on a group. -/
def matWord (s : State) (ctl : Ctl) (i : Instr) (body : Body) : Out3 := groupWord s ctl i (body s)

/-- MLDW (R256). -/
def execMldw (ctl : Ctl) (kp : Bool) (ws : Bool) (t : TReg) (sc : MScale) (s : State) : Out3 :=
  matWord s ctl (.mldw ctl kp ws t sc) (mldwBody kp ws t sc)

/-- MLDS (R256). -/
def execMlds (ctl : Ctl) (ws : Bool) (sc : MScale) (s : State) : Out3 := matWord s ctl (.mlds ctl ws sc) (mldsBody ws sc)

/-- MMA (R258). -/
def execMma (ctl : Ctl) (cons : Bool) (row0 : BitVec 7) (t : TReg) (sq : OQ) (n1 : BitVec 7) (fent : Option (BitVec 4))
    (ws : Bool) (cbm : BitVec 4) (pos : MPos) (s : State) : Out3 :=
  matWord s ctl (.mma ctl cons row0 t sq n1 fent ws cbm pos) fun _ => mmaBody false cons row0 t sq n1 fent ws cbm pos

/-- MMAG of the M stream: through the handle register at issue (R259). -/
def execMmag (ctl : Ctl) (n1 : BitVec 7) (h : HReg) (sq : OQ) (idx : VSrc) (fent : Option (BitVec 4)) (ws : Bool)
    (cbm : BitVec 4) (pos : MPos) (race : Bool) (s : State) : Out3 :=
  matWord s ctl (.mmag ctl n1 h sq idx fent ws cbm pos race) fun s k v g =>
    mmagBody s (s.accGrp s.cur .m g) (k.getH h) false n1 sq idx fent ws cbm pos race k v g

/-- MZERO (R264). -/
def execMzero (ctl : Ctl) (n1 : BitVec 7) (cbm : BitVec 4) (pos : MPos) (s : State) : Out3 :=
  matWord s ctl (.mzero ctl n1 cbm pos) (mzeroBody n1 cbm pos)

/-- MRD (R265). -/
def execMrd (ctl : Ctl) (dst : VDst) (ty : Ty) (rnd : Rnd) (sat : Bool) (pos : MPos) (s : State) : Out3 :=
  matWord s ctl (.mrd ctl dst ty rnd sat pos) (mrdBody dst ty rnd sat pos)

/-- MWR (R266). -/
def execMwr (ctl : Ctl) (src : VSrc) (ty : Ty) (cbm : BitVec 4) (pos : MPos) (s : State) : Out3 :=
  matWord s ctl (.mwr ctl src ty cbm pos) (mwrBody src cbm pos)

/-- MFMT (R255). -/
def execMfmt (ctl : Ctl) (fixed : Bool) (arg : BitVec 4) (s : State) : Out3 :=
  matWord s ctl (.mfmt ctl fixed arg) (mfmtBody fixed arg)

/-- MBUD (R272). -/
def execMbud (ctl : Ctl) (cls : BitVec 2) (s : State) : Out3 :=
  matWord s ctl (.mbud ctl cls) (mbudBody cls)

/-- MSTAT (R273). -/
def execMstat (ctl : Ctl) (dst : VDst) (s : State) : Out3 := matWord s ctl (.mstat ctl dst) (mstatBody dst)

/-- MSYNC (R274). -/
def execMsync (ctl : Ctl) (arg : MScale) (s : State) : Out3 := matWord s ctl (.msync ctl arg) (msyncBody arg)

end Sys2Proof.Machine
end

