-- ==== Sys2Proof/Machine/StreamCtl.lean ====
section
/-! DEFINITION. Stream control in L, S, V and M: loops, skips, NOP and RDV (R177 to R182, R207). -/
namespace Sys2Proof.Machine

/-- The granules of a word that stands alone: its stream, section end and pc. -/
structure CtlAt where
  c : Nat
  st : Stream
  sec : Nat
  pc : Nat
  deriving DecidableEq, Repr

def State.ctlAt (s : State) : CtlAt :=
  let v := s.strm s.cur s.curSt
  ⟨s.cur, s.curSt, v.sec.getD 0, v.pc.toNat⟩

/-- The state after a word that stands alone has taken its entries and set its levels, the sequencer still at it. -/
def ctlTake (s : State) (g : Grp) (levels : List Level) : State :=
  let c := s.cur
  let st := s.curSt
  let v := s.strm c st
  let s := s.setStrm c st { v with oqs := dropOqs v.oqs g.opops, levels := levels, grp := none, wait := none, blocked := none }
  if g.edge then s.learn c st g.clk else s

/-- Commit of a word that stands alone: consumed entries, levels, and the next granule (R179). Where that leaves the section with a
level open, its last group faults (R180): the word itself, uncommitted, where it is the last. -/
def ctlCommit (s : State) (g : Grp) (levels : List Level) (next : Nat) : Out3 :=
  let c := s.cur
  let st := s.curSt
  let v := s.strm c st
  if ({ v with levels := levels }).leavesOpen (BitVec.ofNat 16 next) then
    .next (s.streamFault c st ⟨.reservedField, 0, v.pc.setWidth 64⟩)
  else .next ((ctlTake s g levels).sequence c st (BitVec.ofNat 16 next))

/-- Commit of a word that passes words over up to a granule; `last` is the start of the last group passed over. Where that leaves
the section with a level open, the word has committed and the section's last group faults, or the word itself
where it is the last (R180). -/
def ctlPass (s : State) (g : Grp) (levels : List Level) (next last : Nat) : Out3 :=
  let c := s.cur
  let st := s.curSt
  let s' := ctlTake s g levels
  if (s'.strm c st).leavesOpen (BitVec.ofNat 16 next) then
    let s := if last = (s.strm c st).pc.toNat then s else s'.setPc c st (BitVec.ofNat 16 last)
    .next (s.streamFault c st ⟨.reservedField, 0, BitVec.ofNat 64 (next - 3)⟩)
  else .next (s'.sequence c st (BitVec.ofNat 16 next))

def ctlFault (s : State) (f : Flt) : Out3 := .next (s.streamFault s.cur s.curSt f)

/-- The trip count of LOOP where a queue gives it: an entry of at most 32 bits, consumed (R179). -/
def loopTrip (v : StreamSt) (g : Grp) : Option OQ → W (Option Nat × Grp)
  | none => .ok (none, g)
  | some q => do
    let (x, g) ← readOq v g q false
    if 2 ^ 32 ≤ x.toNat then .error (.fault ⟨.arith, 3, x⟩) else .ok (some x.toNat, g)

/-- A level as LOOP opens it, with the last four granules of its descriptor (R177, R179). -/
def levelOf (trip body strides : Nat) : Level :=
  { trip := BitVec.ofNat 32 trip, count := 0, body := BitVec.ofNat 16 body
    strides := (List.range 4).map fun i => BitVec.ofNat 32 (granOf strides i) }

/-- LOOP (R179, R180). A level too many is found before the descriptor is looked at (log 23). A trip count from a queue comes first, and
the descriptor's own is then not read. Under a trip count of 0 the words up to the matching ENDLOOP are passed over; with none in the
section, the level is open at its end. -/
def execLoop (q : Option OQ) (imm : BitVec 30) (s : State) : Out3 :=
  let p := s.ctlAt
  let v := s.strm p.c p.st
  let d := (p.pc : Int) + imm.toInt
  if 6 ≤ v.levels.length then ctlFault s ⟨.reservedField, 0, BitVec.ofNat 64 p.pc⟩
  else if d < 0 ∨ (codeLenOf (s.core p.c).code : Int) < d + 5 then ctlFault s ⟨.handleBounds, 0, Config.freeEtval s.fresh⟩
  else
    match loopTrip v (.open v.pc) q with
    | .error .block => .next s
    | .error (.fault f) => ctlFault s f
    | .ok (t, g) =>
      let own := natOf t.isNone
      match s.fetch p.c p.st (d.toNat + 1 - own) (4 + own) with
      | .error f => ctlFault s f
      | .ok (read, s) =>
        let trip := t.getD (granOf read 0)
        let desc := read >>> (32 * own)
        if trip ≠ 0 then ctlCommit s g (v.levels ++ [levelOf trip (p.pc + 3) desc]) (p.pc + 3)
        else
          match matchGo p.c p.st p.sec 4096 s (p.pc + 3) 0 with
          | .error f => ctlFault s f
          | .ok (after, s) =>
            let next := after.getD p.sec
            let levels := if after.isSome then v.levels else v.levels ++ [levelOf 0 (p.pc + 3) desc]
            match decodeOver p.c p.st p.sec next 4096 s (p.pc + 3) p.pc with
            | .error f => ctlFault s f
            | .ok (last, s) => ctlPass s g levels next last

/-- ENDLOOP (R179, R180). -/
def execEndloop (s : State) : Out3 :=
  let p := s.ctlAt
  let v := s.strm p.c p.st
  match v.levels.getLast? with
  | none => ctlFault s ⟨.reservedField, 0, BitVec.ofNat 64 p.pc⟩
  | some l =>
    let n := l.count.toNat + 1
    if n < l.trip.toNat then
      ctlCommit s (.open v.pc) (v.levels.dropLast ++ [{ l with count := l.count + 1 }]) l.body.toNat
    else ctlCommit s (.open v.pc) v.levels.dropLast (p.pc + 3)

/-- The n words after a SKIPZ, decoded and passed over or not (R181). -/
def skipRes (s : State) (n : Nat) (test : StreamSt → W (Bool × Grp)) : Out3 :=
  let p := s.ctlAt
  let v := s.strm p.c p.st
  match s.skipCheck p.c p.st p.sec p.pc n with
  | .error f => ctlFault s f
  | .ok s =>
    match test v with
    | .error .block => .next s
    | .error (.fault f) => ctlFault s f
    | .ok (false, g) => ctlCommit s g v.levels (p.pc + 3)
    | .ok (true, g) =>
      match decodeOver p.c p.st p.sec (p.pc + 3 + 3 * n) 4096 s (p.pc + 3) p.pc with
      | .error f => ctlFault s f
      | .ok (last, s) => ctlPass s g v.levels (p.pc + 3 + 3 * n) last

/-- SKIPZ of an operand queue (R181). -/
def execSkipz (q : OQ) (n : BitVec 12) (s : State) : Out3 :=
  skipRes s n.toNat fun v => do
    let (x, g) ← readOq v (.open v.pc) q false
    .ok (x == 0, g)

/-- SKIPZ of the mask-stack top (R207). -/
def execSkipzMask (n : BitVec 12) (s : State) : Out3 :=
  skipRes s n.toNat fun v => .ok (maskTop s.me.mask == 0, .open v.pc)

/-- NOP of a stream (R182). -/
def execNopStream (ctl : Ctl) (s : State) : Out3 := groupWord s ctl (.nopStream ctl) fun _ _ g => .ok (g, none)

/-- RDV: consumes the head of a queue (R182). -/
def execRdv (ctl : Ctl) (q : OQ) (s : State) : Out3 :=
  groupWord s ctl (.rdv ctl q) fun _ v g =>
    match readOq v g q false with
    | .ok (_, g) => .ok (g, none)
    | .error e => .error e

end Sys2Proof.Machine
end

