-- ==== Sys2Proof/Machine/CopyOps.lean ====
section
/-! DEFINITION. How the Copy engine moves bytes: the checks of an operation, its bursts, its tiles and bound streams,
and the entries of a chain (R225 to R238). -/
namespace Sys2Proof.Machine

/-! Geometry of a job (R225, R226, R229 to R232, R235). -/

/-- Element size that alignment is checked with. -/
def Job.esz (j : Job) (h : Handle) : Nat :=
  match j.kind with
  | .trans e => e
  | .tileIn | .tileOut => tileEsz h j.mode
  | .copy | .fill _ | .bind _ => 1

/-- Rows and row length of the source, or of the memory operand of a tile copy. -/
def Job.srcRows (j : Job) : Nat × Nat :=
  match j.kind with
  | .tileIn | .tileOut => if j.mode = 2 then (64, 256) else (128, 128)
  | .bind _ => (j.r, 512)
  | .copy | .trans _ | .fill _ => (j.r, j.w)

/-- Rows and row length of the destination (R230 transposes). -/
def Job.dstRows (j : Job) : Nat × Nat :=
  match j.kind with
  | .trans e => (j.w / e, j.r * e)
  | .copy | .fill _ | .tileIn | .tileOut | .bind _ => j.srcRows

def pitchOr (h : Handle) (w : Nat) : Nat := if h.pitch = 0 then w else h.pitch

/-- Does the job read memory through a handle, or write it through one? -/
def Job.reads (j : Job) : Bool :=
  match j.kind with
  | .copy | .trans _ | .tileIn | .bind _ => true
  | .fill _ | .tileOut => false
def Job.writes (j : Job) : Bool :=
  match j.kind with
  | .copy | .trans _ | .fill _ | .tileOut => true
  | .tileIn | .bind _ => false

/-- Steps of progress that finish the job: bytes of the destination in row order, bursts of a tile, elements of a stream. -/
def Job.total (j : Job) : Nat :=
  match j.kind with
  | .tileIn | .tileOut => 4
  | .bind _ => j.r
  | .copy | .trans _ | .fill _ => j.dstRows.1 * j.dstRows.2

def snapAt (snap : List (Nat × Handle)) (n : Nat) : Handle := (tabFind snap n).getD .cleared

/-- A status tied to a side and a byte offset. -/
def CStat.at (f : Flt) (side off : Nat) : CStat := ⟨f.code.num, f.sub, side, 0, off⟩

/-! CheckCopy (R225). -/

/-- CheckCopy on one operand, with the limits of R82 and of the address space (R84). A cleared register gives HANDLE_RIGHTS, as every
access through it does (R78, R147). -/
def checkCopy (a : Acc) (h : Handle) (n : Nat) (o : Int) (p rows w : Nat) (store : Bool) (esz : Nat) : Except Code Unit :=
  let fin : Int := o + ((rows - 1) * p + w : Nat)
  let b : Int := h.base.toNat
  if h.format = 0 then .error .handleRights
  else if h.revoked then .error .handleRevoked
  else if h.world.toNat ≠ a.world then .error .handleWorld
  else if h.format ≠ 1 ∧ h.format ≠ 2 then .error .handleRights
  else if !(if store then (if n = 2 then h.x else h.w) && !h.z else h.r) then .error .handleRights
  else if rows = 0 ∨ w = 0 then .ok ()
  else if o < 0 ∨ (h.length.toNat : Int) < fin then .error .handleBounds
  else if n = 2 ∧ 196608 < fin then .error .handleBounds
  else if h.format = 2 ∧ (b + o < a.lo ∨ (a.hi : Int) < b + fin) then .error .handleBounds
  else if h.format = 1 ∧ (2 : Int) ^ 57 < b + fin then .error .handleBounds
  else if (b + o) % esz ≠ 0 ∨ p % esz ≠ 0 ∨ w % esz ≠ 0 then .error .align
  else .ok ()

/-- The checks of a job at its start: the source, then the destination. -/
def Job.check (j : Job) (a : Acc) (snap : List (Nat × Handle)) : Except CStat Unit :=
  let hs := snapAt snap j.src
  let hd := snapAt snap j.dst
  let side (n : Nat) (r : Except Code Unit) : Except CStat Unit := r.mapError fun c => ⟨c.num, 0, n, 0, 0⟩
  let src := j.srcRows
  let dst := j.dstRows
  let tile := j.kind = .tileIn ∨ j.kind = .tileOut
  let e (h : Handle) := j.esz h
  let pitch (h : Handle) (w : Nat) := if tile then tilePitch h j.mode else pitchOr h w
  do
    if j.reads then side 0 (checkCopy a hs j.src j.so (pitch hs src.2) src.1 src.2 false (e hs))
    if j.writes then side 1 (checkCopy a hd j.dst j.dOff (pitch hd dst.2) dst.1 dst.2 true (e hd))

/-! Bursts (R226 to R228, R232). -/

/-- Where spans of an operand lie, each translated in turn. -/
def State.locateAll (s : State) (a : Acc) (h : Handle) (k : Kind) : List (Int × Nat) → Except Flt (List Piece)
  | [] => .ok []
  | (off, n) :: t =>
    match s.locate a h off n k with
    | .error f => .error f
    | .ok ps =>
      match s.locateAll a h k t with
      | .error f => .error f
      | .ok rest => .ok (ps ++ rest)

/-- Pieces of the spans of a burst, translated and with the lines of the burst checked (R227); a line that its spans together cover
is written whole. -/
def State.spans (s : State) (a : Acc) (h : Handle) (k : Kind) (sp : List (Int × Nat)) : Except Flt (List Piece) :=
  match s.locateAll a h k sp with
  | .error f => .error f
  | .ok ps =>
    match s.checkLines a.world k ps with
    | .error f => .error f
    | .ok _ => .ok ps

/-- Keys of the bytes of spans with their addresses, in order. -/
def piecesAddrs (ps : List Piece) : List (Nat × Nat) := ps.flatMap fun p => (upFrom p.va p.len).zip (upFrom p.key p.len)

/-- Insert a sector by rising address, once. -/
def insertSector (x : Nat × Nat) : List (Nat × Nat) → List (Nat × Nat)
  | [] => [x]
  | y :: t => if x.2 = y.2 then y :: t else if x.2 < y.2 then x :: y :: t else y :: insertSector x t

/-- The sectors that pieces touch, by rising address. -/
def sectorsOf (ps : List Piece) : List (Nat × Nat) := (ps.flatMap (Piece.blocks 32)).foldl (fun acc x => insertSector x acc) []

/-- Detection over sectors in turn: the state up to the first race, and that race's address and subcode (R228). -/
def State.raceTo (s : State) (a : Acc) (k : Kind) : List (Nat × Nat) → Tab Sector → Tab Sector × Option (Nat × Nat)
  | [], tab => (tab, none)
  | (key, va) :: rest, tab =>
    match (if k = .load then s.detectRead a (s.sector tab key) else s.detectWrite a false (s.sector tab key)) with
    | .error sub => (tab, some (va, sub))
    | .ok v => s.raceTo a k rest (tabSet tab key v)

/-- Offset of a racing sector's first byte within an operand (R109, R222). -/
def raceOff (h : Handle) (o : Int) (va : Nat) : Nat := ((va : Int) - (h.base.toNat + o)).toNat

/-- What a burst did: the state, and the status of a failure. -/
abbrev Burst := State × Option CStat

/-- Read the spans of a burst: its bytes, or the status that ends the operation. -/
def State.burstRead (s : State) (a : Acc) (h : Handle) (race : Bool) (o : Int) (off : Nat) (spans : List (Int × Nat)) :
    Except Burst (List Byte × State) :=
  match s.spans a h .load spans with
  | .error f => .error (s, some (CStat.at f 0 off))
  | .ok ps =>
    let s := s.cacheTlb a.core a.world ps
    let r := if race || !h.d then (s.sectors, none) else s.raceTo a .load (sectorsOf ps) s.sectors
    let s := s.withSectors r.1
    match r.2 with
    | some (va, sub) => .error (s, some ⟨0x20, sub, 0, 0, raceOff h o va⟩)
    | none => .ok (s.readBytes ps, s)

/-- Write a burst: bytes with their offsets, in writing order, over spans whose checks come first. -/
def State.burstWrite (s : State) (a : Acc) (h : Handle) (race : Bool) (o : Int) (off : Nat) (spans : List (Int × Nat))
    (bytes : List (Int × Byte)) : Burst :=
  match s.spans a h .store spans with
  | .error f => (s, some (CStat.at f 1 off))
  | .ok ps =>
    let s := s.cacheTlb a.core a.world ps
    let keys : Tab Nat := piecesAddrs ps
    let r := if race || !h.d then (s.sectors, none) else s.raceTo a .store (sectorsOf ps) s.sectors
    let limit := r.2.map (·.1)
    let out := bytes.filterMap fun b =>
      let va := ((h.base.toNat : Int) + b.1).toNat
      if limit.all fun l => decide (va < l) then (tabFind keys va).map fun k => (k, b.2) else none
    let s := (s.withSectors r.1).putBytes a.world out
    (s, r.2.map fun x => ⟨0x20, x.2, 1, 0, raceOff h o x.1⟩)

/-- Bytes of a row part written to a destination: memory, or instruction memory behind h2 (R225). -/
def State.putRow (s : State) (a : Acc) (j : Job) (h : Handle) (rel : Nat) (bs : List Byte) : Burst :=
  if j.dst = 2 then
    let at_ := (j.dOff + rel).toNat
    (s.putImem a.core ((upFrom at_ bs.length).zip bs) (at_ / 4) ((at_ + bs.length + 3) / 4 - at_ / 4), none)
  else
    let off := j.dOff + rel
    s.burstWrite a h j.race j.dOff rel [(off, bs.length)] ((List.range bs.length).map (fun (i : Nat) => off + (i : Int)) |>.zip bs)

/-- The next burst of a copy, transpose or fill at a count of bytes moved: row, first byte, end (R226). Instruction memory has no device
address, and its rows are cut at 4 KiB of h2's base plus offset: the model's choice (log 25). -/
def Job.burstAt (j : Job) (h : Handle) (prog : Nat) : Nat × Nat × Nat :=
  let w := j.dstRows.2
  let i := prog / w
  let b := prog % w
  let a := (h.base.toNat + j.dOff + (i * pitchOr h w + b : Nat)).toNat
  (i, b, min w (b + (4096 - a % 4096)))

/-- Source spans of the bytes from b up to e of destination row i, offsets within the source operand (R226, R230). -/
def Job.srcSpans (j : Job) (h : Handle) (i b e : Nat) : List (Nat × Nat) :=
  let p := pitchOr h j.w
  match j.kind with
  | .trans z => (upFrom (b / z) (e / z - b / z)).map fun k => (k * p + i * z, z)
  | _ => [(i * p + b, e - b)]

/-- The bytes of a fill from b up to e of a row (R231). -/
def fillBytes (pat : X64) (b e : Nat) : List Byte := (upFrom b (e - b)).map fun k => pat.extractLsb' (8 * (k % 8)) 8

/-- One burst of a copy, transpose or fill: the state, the new count, and a failure. The source is read, its race checked, before the
destination is translated: the model's order (R228, log 25). -/
def State.rowBurst (s : State) (a : Acc) (j : Job) (snap : List (Nat × Handle)) (prog : Nat) : State × Nat × Option CStat :=
  let hs := snapAt snap j.src
  let hd := snapAt snap j.dst
  let (i, b, e) := j.burstAt hd prog
  let rel := i * pitchOr hd j.dstRows.2 + b
  let put (s : State) (bs : List Byte) : State × Nat × Option CStat :=
    let r := s.putRow a j hd rel bs
    (r.1, prog + (e - b), r.2)
  match j.kind with
  | .fill pat => put s (fillBytes pat b e)
  | _ =>
    let sp := j.srcSpans hs i b e
    match s.burstRead a hs j.race j.so ((sp.head?.map (·.1)).getD 0) (sp.map fun x => (j.so + (x.1 : Nat), x.2)) with
    | .error r => (r.1, prog, r.2)
    | .ok (bs, s) => put s bs

/-- Spans of memory of a burst of 32 tile rows from row i0 (R232, R168). -/
def tileSpans (mode p i0 : Nat) : List (Nat × Nat) :=
  if mode = 0 then (upFrom i0 32).map fun r => (r * p, 128)
  else if mode = 1 then (List.range 128).map fun r => (r * p + i0, 32)
  else (List.range 64).map fun r => (r * p + 2 * i0, 64)

/-- Tile bytes of a burst of 32 rows in list order, with their offsets from the operand's start (R168). -/
def tileBurst (mode p i0 : Nat) : List ((Nat × Nat) × Nat) :=
  (upFrom i0 32).flatMap fun i => (List.range 128).map fun b =>
    ((i, b), (tileSource mode i b).1 * p + (tileSource mode i b).2)

/-- Replace bytes of a tile. -/
def putTileBytes (bits : TileBits) (at_ : Nat) (bs : List Byte) : TileBits :=
  let m : TileBits := BitVec.ofNat 131072 ((2 ^ (8 * bs.length) - 1) <<< (8 * at_))
  (bits &&& ~~~m) ||| BitVec.ofNat 131072 (ofBytes bs <<< (8 * at_))

/-- Rows of a tile that land in instruction memory (R225). -/
def State.imemTile (s : State) (c : Nat) (spans : List (Int × Nat)) (bytes : List (Int × Byte)) : State :=
  spans.foldl (fun s x =>
    let lo := x.1.toNat
    s.putImem c ((bytes.filter fun b => decide (x.1 ≤ b.1) && decide (b.1 < x.1 + (x.2 : Int))).map fun b => (b.1.toNat, b.2))
      (lo / 4) ((lo + x.2 + 3) / 4 - lo / 4)) s

/-- One burst of a tile copy (R232); its faults count tile bytes. -/
def State.tileStep (s : State) (a : Acc) (j : Job) (snap : List (Nat × Handle)) (b : Nat) : State × Nat × Option CStat :=
  let i0 := 32 * b
  let side := if j.kind = .tileIn then 0 else 1
  let h := snapAt snap (if j.kind = .tileIn then j.src else j.dst)
  let o := if j.kind = .tileIn then j.so else j.dOff
  let p := tilePitch h j.mode
  let spans := (tileSpans j.mode p i0).map fun (x : Nat × Nat) => (o + (x.1 : Int), x.2)
  let off (c : CStat) : CStat := { c with side := side, off := 128 * i0 }
  if j.kind = .tileIn then
    match s.burstRead a h j.race o 0 spans with
    | .error r => (r.1, b, r.2.map off)
    | .ok (bs, s) =>
      let got : Tab Byte := (spans.flatMap fun x => (List.range x.2).map fun (i : Nat) => (x.1 - o + (i : Int)).toNat).zip bs
      let row := (tileBurst j.mode p i0).map fun x => (tabFind got x.2).getD 0
      let t := (s.core a.core).tile j.tile
      let put (k : Core) : Core := k.setTile j.tile { t with bits := putTileBytes t.bits (128 * i0) row }
      (s.modCore a.core fun k => if b = 3 then put (k.wrote (tileGran j.tile)) else put k, b + 1, none)
  else if (s.core a.core).ecc.contains (tileGran j.tile) then (s, b, some ⟨Code.integrity.num, 0, 0, 0, 128 * i0⟩)
  else
    let t := (s.core a.core).tile j.tile
    let bytes := (tileBurst j.mode p i0).map fun x => (o + (x.2 : Int), t.byte x.1.1 x.1.2)
    let r := if j.dst = 2 then (s.imemTile a.core spans bytes, none) else s.burstWrite a h j.race o 0 spans bytes
    (r.1, b + 1, r.2.map off)

/-- The side of a revoked snapshot that a job uses (R245). -/
def Job.revokedSide (j : Job) (snap : List (Nat × Handle)) : Option Nat :=
  if j.reads ∧ (snapAt snap j.src).revoked then some 0 else if j.writes ∧ (snapAt snap j.dst).revoked then some 1 else none

/-- The status with which a job in flight stops at the end of a burst: a sweep has revoked a snapshot that it uses (R245), or a freeze has
swept it while the job ran, `cut` its side (R394). -/
def Job.stopped (j : Job) (snap : List (Nat × Handle)) (cut : Option Nat) (off : Nat) : Option CStat :=
  match j.revokedSide snap, cut with
  | some side, _ => some ⟨0x13, 0, side, 0, off⟩
  | none, some side => some ⟨0x11, 0, side, 0, off⟩
  | none, none => none

/-- The job that an operation runs now: its own, or that of the chain's entry at hand. -/
def CopyOp.running (o : CopyOp) : Option Job :=
  match o.body, o.phase, o.cur with
  | .job j, .running, _ => some j
  | _, .running, some e => if e.phase = .running then some e.job else none
  | _, _, _ => none

/-- The side of a snapshot that a freeze hits and the running job uses (R394). -/
def CopyOp.cutBy (o : CopyOp) (hit : Handle → Bool) : Option Nat :=
  match o.running with
  | none => none
  | some j =>
    if j.reads ∧ hit (snapAt o.snap j.src) then some 0 else if j.writes ∧ hit (snapAt o.snap j.dst) then some 1 else none

/-- The fault offset of a stop before the progress made (R222, R232, R235, R245). -/
def Job.stopOff (j : Job) (snap : List (Nat × Handle)) (prog : Nat) : Nat :=
  match j.kind with
  | .tileIn | .tileOut => 4096 * prog
  | .bind _ => prog * pitchOr (snapAt snap j.src) 512
  | .copy | .trans _ | .fill _ =>
    let w := j.dstRows.2
    prog / w * pitchOr (snapAt snap j.dst) w + prog % w

/-- One burst of a job in flight: its phase and progress after. -/
def State.jobBurst (s : State) (a : Acc) (j : Job) (snap : List (Nat × Handle)) (cut : Option Nat) (prog : Nat) : State × OpPhase × Nat :=
  match j.stopped snap cut (j.stopOff snap prog) with
  | some st => (s, .ending st, prog)
  | none =>
    let r := match j.kind with
      | .tileIn | .tileOut => s.tileStep a j snap prog
      | _ => s.rowBurst a j snap prog
    match r.2.2 with
    | some st => (r.1, .ending st, r.2.1)
    | none => (r.1, if j.total ≤ r.2.1 then .ending .ok else .running, r.2.1)

/-- May a tile copy start: its tile in the right state and not held (R232)? -/
def Job.tileReady (j : Job) (k : Core) : Bool :=
  let t := k.tile j.tile
  match j.kind with
  | .tileIn => !t.full && t.held.isNone
  | .tileOut => t.full && t.held.isNone
  | _ => true

/-- Take hold of a tile (R232). -/
def Job.hold (j : Job) (q n : Nat) (k : Core) : Core :=
  match j.kind with
  | .tileIn | .tileOut => k.setTile j.tile { k.tile j.tile with held := some (q, n) }
  | _ => k

/-- What the start of a job learns: a tile-out copy, what filled its tile (R19). -/
def Job.tileClk (j : Job) (k : Core) : Clock :=
  match j.kind with
  | .tileOut => (k.tile j.tile).clk
  | _ => []

/-- The phase a job starts in, its checks made (R225). -/
def Job.start (j : Job) (a : Acc) (snap : List (Nat × Handle)) : OpPhase :=
  match j.check a snap with
  | .error st => .ending st
  | .ok _ => if j.total = 0 then .ending .ok else .running

/-- Did a job's start get as far as moving bytes? -/
def OpPhase.isRunning : OpPhase → Bool
  | .running => true
  | _ => false

/-! Follow-on words (R233). -/

/-- The checks of a follow-on word, as a word of stream M that is a group by itself. -/
def followCheck (w : Word96) : Except Code Unit :=
  let op := (w.extractLsb' 88 8).toNat
  if op ≠ 0xA2 ∧ op ≠ 0xA3 then .error .illegalOp
  else
    match decodeWord .m w with
    | .illegal => .error .illegalOp
    | .mismatch => .error .streamMismatch
    | .reserved => .error .reservedField
    | .ok _ =>
      if !endsGroup w ∨ w.getLsbD 81 ∨ w.getLsbD 80 then .error .reservedField
      else if (latchesOf w).isEmpty then .ok () else .error .latchRange

/-! Chain entries (Table 8.5). -/

def entNat (e : List Byte) (i n : Nat) : Nat := natAt e i n
def entInt (e : List Byte) (i : Nat) : Int := signedOf 48 (natAt e i 6)
def entZero (e : List Byte) (i j : Nat) : Bool := ((e.drop i).take (j - i)).all (· == 0)

/-- An entry, read. -/
inductive Entry where
  | copy (j : Job) (k : Compl) (bar : BarCnt)
  | loop (n trip : Nat) (ss ds : Int)
  | cond (rel : Rel) (h : Nat) (off : Int) (n : Nat) (cmp : X64)
  | signal (k : Compl) (bar : BarCnt) (store : Bool) (h : Nat) (off : Int) (value : List Byte)
  | matrix (w : Word96)
  | done
  deriving DecidableEq, Repr

def barModeOf : Nat → Option BarMode
  | 0 => some .none
  | 1 => some .inb
  | 2 => some .outb
  | _ => none

/-- The wait, signal and barrier fields of a COPY entry (Table 8.5); a barrier mode that is none counts nothing. -/
def copyFields (e : List Byte) : Compl × BarCnt :=
  let fl := byteAt e 26
  (⟨bitOf fl 0, BitVec.ofNat 8 (byteAt e 24), bitOf fl 1, BitVec.ofNat 8 (byteAt e 25)⟩,
    ⟨(barModeOf (fieldOf fl 3 2)).getD .none, BitVec.ofNat 15 (entNat e 28 2)⟩)

/-- A COPY entry with the shifts of the open levels. A register, tile, tile mode or length outside the range that Table 8.5 gives is taken
as RESERVED_FIELD, the model's choice (log 26). -/
def copyEntry (e : List Byte) (ss ds : Int) : Except Code Entry :=
  let m := byteAt e 1
  let base := m % 8
  let race := bitOf m 3
  let keep := bitOf m 4
  let fl := byteAt e 26
  match barModeOf (fieldOf fl 3 2) with
  | none => .error .reservedField
  | some _ =>
    if 32 ≤ m ∨ 4 < base ∨ (keep ∧ base ≠ 4) ∨ 16 ≤ fl ∨ 2 ^ 15 ≤ entNat e 28 2 ∨ !entZero e 27 28 ∨ !entZero e 30 32 ∨
        31 < byteAt e 2 ∨ 31 < byteAt e 3 ∨
        (base = 3 ∧ (!entZero e 10 16 ∨ !entZero e 17 24 ∨ 2 < byteAt e 16 ∨ 15 < byteAt e 3)) ∨
        (base = 4 ∧ (!entZero e 4 10 ∨ !entZero e 17 24 ∨ 2 < byteAt e 16 ∨ 15 < byteAt e 3)) then .error .reservedField
    else
      let kind : JobKind :=
        if base = 0 then .copy else if base = 1 then .trans 1 else if base = 2 then .trans 2
        else if base = 3 then .tileIn else .tileOut
      let tile := decide (3 ≤ base)
      let j : Job :=
        { kind := kind, race := race, src := byteAt e 2, dst := if base = 4 then byteAt e 2 else byteAt e 3
          tile := if tile then byteAt e 3 else 0, mode := if tile then byteAt e 16 else 0
          so := entInt e 4 + ss, dOff := entInt e 10 + ds
          w := if tile then 0 else entNat e 16 4, r := if tile then 0 else entNat e 20 4, keep := keep }
      .ok (.copy j (copyFields e).1 (copyFields e).2)

def loopEntry (e : List Byte) : Except Code Entry :=
  let n := entNat e 2 2
  if !entZero e 1 2 ∨ !entZero e 20 32 ∨ n = 0 ∨ 1023 < n then .error .reservedField
  else .ok (.loop n (entNat e 4 4) (entInt e 8) (entInt e 14))

/-- An IF entry; an undefined relation goes before a byte that should be zero, for which the manual gives no order (log 26). -/
def condEntry (e : List Byte) : Except Code Entry :=
  let n := entNat e 10 2
  if 3 < byteAt e 1 then .error .illegalOp
  else if !entZero e 3 4 ∨ !entZero e 12 16 ∨ !entZero e 24 32 ∨ 31 < byteAt e 2 ∨ n = 0 ∨ 1023 < n then .error .reservedField
  else
    let rel : Rel := if byteAt e 1 = 0 then .eq else if byteAt e 1 = 1 then .ne else if byteAt e 1 = 2 then .ltn else .gen
    .ok (.cond rel (byteAt e 2) (entInt e 4) n (BitVec.ofNat 64 (entNat e 16 8)))

/-- A SIGNAL entry. Bit 15 of its barrier units is taken as zero in every well-formed entry, as COPY's is: RESERVED_FIELD, the model's
choice (log 26). -/
def signalEntry (e : List Byte) : Except Code Entry :=
  let m := byteAt e 1
  match barModeOf (fieldOf m 2 1) with
  | none => .error .reservedField
  | some bm =>
    if 16 ≤ m ∨ 31 < byteAt e 3 ∨ 2 ^ 15 ≤ entNat e 10 2 ∨ !entZero e 12 16 ∨ !entZero e 24 32 then .error .reservedField
    else .ok (.signal ⟨false, 0, bitOf m 0, BitVec.ofNat 8 (byteAt e 2)⟩ ⟨bm, BitVec.ofNat 15 (entNat e 10 2)⟩ (bitOf m 3)
      (byteAt e 3) (entInt e 4) ((e.drop 16).take 8))

def matrixEntry (e : List Byte) : Except Code Entry :=
  if !entZero e 1 4 ∨ !entZero e 16 32 then .error .reservedField
  else
    let w : Word96 := BitVec.ofNat 96 (entNat e 4 12)
    match followCheck w with
    | .ok _ => .ok (.matrix w)
    | .error c => .error c

/-- An entry of 32 bytes under shifts, or the status of its failure (R237). -/
def parseEntry (e : List Byte) (ss ds : Int) : Except Code Entry :=
  match byteAt e 0 with
  | 1 => copyEntry e ss ds
  | 2 => loopEntry e
  | 3 => condEntry e
  | 4 => signalEntry e
  | 5 => matrixEntry e
  | 6 => if entZero e 1 32 then .ok .done else .error .reservedField
  | _ => .error .illegalOp

/-- The record of a QPUSH: one entry of kind COPY, SIGNAL or MATRIX, then zeros (R240). -/
def parseRecord (e : List Byte) : Except Code Entry :=
  let k := byteAt e 0
  if k = 0 ∨ 6 < k then .error .illegalOp
  else if k = 2 ∨ k = 3 ∨ k = 6 ∨ !entZero e 32 64 then .error .reservedField
  else parseEntry (e.take 32) 0 0

/-- Shifts that the open levels give a COPY entry (R238). -/
def chainShift (lv : List ChLevel) : Int × Int :=
  lv.foldl (fun a l => (a.1 + l.count * l.ss, a.2 + l.count * l.ds)) (0, 0)

/-- Close the levels that end before an entry's place; the last of the list is the innermost (R238). -/
def closeLevels : Nat → Int → List ChLevel → Int × List ChLevel
  | 0, p, lv => (p, lv)
  | fuel + 1, p, lv =>
    match lv.getLast? with
    | none => (p, lv)
    | some l =>
      if p ≠ l.last + 32 then (p, lv)
      else if l.count + 1 < l.trip then (l.first, lv.dropLast ++ [{ l with count := l.count + 1 }])
      else closeLevels fuel p lv.dropLast

/-- A chain after an entry, at the place that follows it. A record has the one entry. -/
def CopyOp.goOn (o : CopyOp) (next : Int) : CopyOp :=
  match o.body with
  | .record _ => { o with cur := none, phase := .ending .ok }
  | _ =>
    let r := closeLevels 5 next o.levels
    { o with cur := none, p := r.1, levels := r.2 }

/-- The offset of the entry at hand from the chain's head (Table 8.2). -/
def CopyOp.entryOff (o : CopyOp) : Nat :=
  match o.body with
  | .chain _ off => (o.p - off).toNat % 2 ^ 48
  | _ => 0

/-- A chain fails at the entry at hand. -/
def CopyOp.failAt (o : CopyOp) (st : CStat) : CopyOp := { o with cur := none, phase := .ending { st with entry := o.entryOff } }

/-- Where a SKIP or the body of a level reaches past the innermost level (R238). -/
def CopyOp.pastLevel (o : CopyOp) (n : Nat) : Bool :=
  match o.levels.getLast? with
  | none => false
  | some l => decide (l.last < o.p + 32 * n)

end Sys2Proof.Machine
end

