-- ==== Sys2Proof/Machine/Copy.lean ====
section
/-! DEFINITION. The instructions of the Copy engine as the Helm issues them (R219 to R224, R229 to R242). -/
namespace Sys2Proof.Machine

/-- All 32 handle registers (R221). -/
def Core.snapAll (k : Core) : List (Nat × Handle) := (List.range 32).map fun n => (n, k.getH (BitVec.ofNat 5 n))

/-- The handle registers of a list. -/
def Core.snapOf (k : Core) (hs : List HReg) : List (Nat × Handle) := hs.map fun h => (h.toNat, k.getH h)

def noCompl : Compl := ⟨false, 0, false, 0⟩
def noBar : BarCnt := ⟨.none, 0⟩

/-- Is a queue full: sixteen operations issued and not completed (R219)? -/
def CopyQ.isFull (v : CopyQ) : Bool := decide (16 ≤ v.ops.length)

/-- The next operation enters a queue (R219, R221). The SeenEpoch that it bears is the Helm's at this moment, and what its own waits teach
it comes on top: the model's choice of the moment (R106, log 28). -/
def State.enqueue (s : State) (q : Nat) (body : OpBody) (k : Compl) (bar : BarCnt) (snap : List (Nat × Handle))
    (fo : Option Word96) (pre : Option CStat) : State :=
  let c := s.cur
  let v := s.me.cq q
  let n := v.assigned + 1
  let o : CopyOp :=
    { n := n, body := body, k := k, bar := bar, snap := snap, fo := fo, pre := pre, phase := .queued, prog := 0, p := 0,
      levels := [], cur := none, clk := s.clkOf c .h, seen := s.me.hs.seen, home := s.homeCore c, cut := none }
  (s.modMe fun k =>
    let k := k.setCq q { v with assigned := n, ops := v.ops ++ [o] }
    match body with
    | .job ⟨.bind sn, _, _, _, _, _, _, _, _, _, _⟩ =>
      { k with binds := tabSet k.binds sn (((tabFind k.binds sn).getD []) ++ [(q, n)]) }
    | _ => k).tick c .h

/-- An instruction that takes a number: it stalls while its queue is full (R219). -/
def State.issueOp (s : State) (q : CQ) (body : OpBody) (k : Compl) (bar : BarCnt) (snap : List (Nat × Handle))
    (fo : Option Word96) (pre : Option CStat) : HRes :=
  if (s.me.cq q.toNat).isFull then .stall s else .retire (s.enqueue q.toNat body k bar snap fo pre)

/-- Shape registers: row length in [31:0], row count in [63:32] (R224). -/
def shapeW (x : X64) : Nat := x.toNat % 2 ^ 32
def shapeR (x : X64) : Nat := x.toNat / 2 ^ 32

/-- RESERVED_FIELD at the start of an operation whose register holds bits that must be zero (R233, R235). -/
def highBad (x : X64) : Option CStat := if x.toNat / 2 ^ 32 = 0 then none else some (.bare 0x02)

/-- A job between two operands. -/
def State.plainJob (s : State) (kind : JobKind) (race : Bool) (ha hb : HReg) (so dOff shape : XReg) : Job :=
  { kind := kind, race := race, src := ha.toNat, dst := hb.toNat, tile := 0, mode := 0, so := (s.me.getX so).toInt,
    dOff := (s.me.getX dOff).toInt, w := shapeW (s.me.getX shape), r := shapeR (s.me.getX shape), keep := false }

/-- CPY (R229). -/
def execCpy (q : CQ) (bar : BarCnt) (race : Bool) (ha hb : HReg) (xa xb xc : XReg) (k : Compl) (s : State) : Out3 :=
  helmC s (s.issueOp q (.job (s.plainJob .copy race ha hb xa xb xc)) k bar (s.me.snapOf [ha, hb]) none none)

/-- CPYT (R230). -/
def execCpyt (q : CQ) (bar : BarCnt) (race x16 : Bool) (ha hb : HReg) (xa xb xc : XReg) (k : Compl) (s : State) : Out3 :=
  helmC s (s.issueOp q (.job (s.plainJob (.trans (if x16 then 2 else 1)) race ha hb xa xb xc)) k bar (s.me.snapOf [ha, hb])
    none none)

/-- CFILL (R231). -/
def execCfill (q : CQ) (bar : BarCnt) (race : Bool) (hb : HReg) (xa xb xc : XReg) (k : Compl) (s : State) : Out3 :=
  helmC s (s.issueOp q (.job (s.plainJob (.fill (s.me.getX xa)) race hb hb 0 xb xc)) k bar (s.me.snapOf [hb]) none none)

/-- The job of a tile copy. -/
def State.tileJob (s : State) (kind : JobKind) (race : Bool) (mode : BitVec 2) (ha : HReg) (t : TReg) (xa : XReg) (keep : Bool) :
    Job :=
  { kind := kind, race := race, src := ha.toNat, dst := ha.toNat, tile := t.toNat, mode := mode.toNat,
    so := (s.me.getX xa).toInt, dOff := (s.me.getX xa).toInt, w := 0, r := 0, keep := keep }

/-- The follow-on word that xb and xc hold (R233). -/
def followWord (xb xc : X64) : Word96 := (xb.setWidth 32 : BitVec 32) ++ xc

/-- CPYM into a tile; with xb named it carries a follow-on (R232, R233). -/
def execCpymIn (q : CQ) (bar : BarCnt) (race : Bool) (mode : BitVec 2) (ha : HReg) (t : TReg) (xa xb xc : XReg) (k : Compl)
    (s : State) : Out3 :=
  let j := s.tileJob .tileIn race mode ha t xa false
  helmC s <|
    if xb = 0 then s.issueOp q (.job j) k bar (s.me.snapOf [ha]) none none
    else
      let w := followWord (s.me.getX xb) (s.me.getX xc)
      match followCheck w with
      | .error c => .fault ⟨c, 0, s.me.hs.pc.setWidth 64⟩
      | .ok _ => s.issueOp q (.job j) k bar s.me.snapAll (some w) (highBad (s.me.getX xb))

/-- CPYM out of a tile; the decoder admits no register in xb or xc (R232, R233). -/
def execCpymOut (q : CQ) (bar : BarCnt) (race : Bool) (mode : BitVec 2) (ha : HReg) (t : TReg) (xa xb xc : XReg) (keep : Bool)
    (k : Compl) (s : State) : Out3 :=
  helmC s <|
    if xb ≠ 0 ∨ xc ≠ 0 then .fault ⟨.reservedField, 0, s.me.hs.pc.setWidth 64⟩
    else s.issueOp q (.job (s.tileJob .tileOut race mode ha t xa keep)) k bar (s.me.snapOf [ha]) none none

/-- CCHAIN (R236). -/
def execCchain (q : CQ) (ha : HReg) (xa : XReg) (k : Compl) (s : State) : Out3 :=
  helmC s (s.issueOp q (.chain ha.toNat (s.me.getX xa).toInt) k noBar s.me.snapAll none none)

/-- The 64 bytes of a record in eight registers (R240). -/
def Core.recordBytes (k : Core) (xa : XReg) : List Byte :=
  (List.range 8).flatMap fun i => bytesOf 8 (k.getX (xa + BitVec.ofNat 6 i)).toNat

/-- QPUSH never stalls: a full queue answers true (R240). -/
def execQpush (q : CQ) (xa : XReg) (cd : CReg) (s : State) : Out3 :=
  helmC s <|
    if (s.me.cq q.toNat).isFull then retireC s cd true
    else retireC (s.enqueue q.toNat (.record (s.me.recordBytes xa)) noCompl noBar s.me.snapAll none none) cd false

/-- STRBIND (R235). -/
def execStrbind (q : CQ) (bar : BarCnt) (race : Bool) (sn : BitVec 3) (ha : HReg) (xa xc : XReg) (k : Compl) (s : State) : Out3 :=
  let x := s.me.getX xc
  let j : Job :=
    { kind := .bind sn.toNat, race := race, src := ha.toNat, dst := ha.toNat, tile := 0, mode := 0,
      so := (s.me.getX xa).toInt, dOff := 0, w := 512, r := x.toNat % 2 ^ 32, keep := false }
  helmC s (s.issueOp q (.job j) k bar (s.me.snapOf [ha]) none (highBad x))

/-- The record of operation n, if it is held and the operation has completed (R222). -/
def CopyQ.record (v : CopyQ) (n : Nat) : Option CStat :=
  if n ≠ 0 ∧ n ≤ v.assigned ∧ v.assigned < n + 32 then tabFind v.recs n else none

/-- The status word of Table 8.2. -/
def CStat.word (st : CStat) : X64 :=
  BitVec.ofNat 64 (st.entry % 2 ^ 48 * 2 ^ 16 + st.sub % 16 * 2 ^ 12 + st.side % 2 * 2 ^ 9 + 2 ^ 8 + st.code % 2 ^ 8)

/-- What CSTAT reads (R241). -/
def CopyQ.stat (v : CopyQ) (sel : BitVec 2) (n : Nat) : X64 :=
  if sel = 0 then ((v.record n).map CStat.word).getD 0
  else if sel = 1 then ((v.record n).map fun st => BitVec.ofNat 64 st.off).getD 0
  else BitVec.ofNat 64 v.firstFail

/-- CSTAT; selector 3 clears the first failure after reading it (R241). -/
def execCstat (q : CQ) (xa xc : XReg) (sel : BitVec 2) (s : State) : Out3 :=
  let v := s.me.cq q.toNat
  let x := v.stat sel (s.me.getX xa).toNat
  helmC s (retireX (if sel = 3 then s.modMe fun k => k.setCq q.toNat { v with firstFail := 0 } else s) xc x)

/-- CCANCEL (R242). -/
def execCcancel (q : CQ) (xc : XReg) (s : State) : Out3 :=
  let r := s.cancelQueue s.cur q.toNat
  helmC s (retireX r.1 xc (BitVec.ofNat 64 r.2))

/-- CTLREAD (R241). -/
def execCtlread (q : CQ) (xc : XReg) (sel : Bool) (s : State) : Out3 :=
  let v := s.me.cq q.toNat
  helmC s (retireX s xc (BitVec.ofNat 64 (if sel then v.assigned else v.completed)))

end Sys2Proof.Machine
end

