-- ==== Sys2Proof/Machine/Sync.lean ====
section
/-! DEFINITION. The instructions of the Synchronisation engine (R280 to R302). -/
namespace Sys2Proof.Machine

/-! Waits that any stream may make (R286, R298). -/

/-- What an instruction valid in every stream does: it retires with a result and an entry consumed, it waits, it faults. -/
inductive SRes where
  | retire (s : State) (g : Grp)
  | stall (s : State)
  | fault (f : Flt)

/-- The frame of such an instruction: an item of the Helm, or a word alone in its group. -/
def anyStream (s : State) (r : SRes) : Out3 :=
  if s.curSt = .h then
    match r with
    | .retire s' _ => helmC s (.retire s')
    | .stall s' => helmC s (.stall s')
    | .fault f => helmC s (.fault f)
  else
    let v := s.strm s.cur s.curSt
    if v.leavesOpen (v.pc + 3) then ctlFault s ⟨.reservedField, 0, v.pc.setWidth 64⟩
    else
      match r with
      | .retire s' g => ctlCommit s' g v.levels (v.pc.toNat + 3)
      | .stall s' => .next s'
      | .fault f => ctlFault s f

def State.group (s : State) : Grp := .open (s.strm s.cur s.curSt).pc

/-- Semaphore and count of R286; higher bits of the registers that are nonzero raise ARITH. Where both registers hold such bits, xa is
the one reported; the manual gives no order (log 27). -/
def semArg (k : Core) : SemArg → Except Flt (Nat × Nat)
  | .imm n c => .ok (n.toNat, c.toNat)
  | .reg xa xb =>
    let a := k.getX xa
    let b := k.getX xb
    if 256 ≤ a.toNat then .error ⟨.arith, 5, a⟩
    else if 65536 ≤ b.toNat then .error ⟨.arith, 5, b⟩
    else .ok (a.toNat, b.toNat)

/-- Retire a stream's wait with the answer the engine gave. -/
def waitOr (s : State) (ask : Unit → SRes) : SRes :=
  match s.awaited s.curSt with
  | some w => if w.done then .retire (s.takeAnswer s.curSt w) s.group else .stall s
  | none => ask ()

/-- The fault of an instruction that reads a semaphore whose word has a double-bit error (R417, log 18). -/
def State.semBad (s : State) (key : Nat) : Option Flt :=
  if s.semEcc.contains key then some ⟨.integrity, 0, Config.freeEtval s.fresh⟩ else none

/-- SWAIT's request (R286, R287). -/
def swaitAsk (s : State) (key k : Nat) : SRes :=
  let c := s.cur
  let st := s.curSt
  if k = 0 then .retire (s.learn c st (s.sem key).clk) s.group
  else
    let s := (s.modStrm c st fun v => { v with wait := some ⟨.sem key k, false, 0, [], 0⟩ }).enterSem key (.strm c st k)
    match s.awaited st with
    | some w => if w.done then .retire (s.takeAnswer st w) s.group else .stall s
    | none => .stall s

/-- SWAIT (R286). -/
def execSwait (arg : SemArg) (die : BitVec 4) (s : State) : Out3 :=
  anyStream s <| waitOr s fun _ =>
    match semArg s.me arg with
    | .error f => .fault f
    | .ok a =>
      let key := s.semKeyOf s.cur die a.1
      match s.semBad key with
      | some f => .fault f
      | none => swaitAsk s key a.2

/-- SSIG (R286). -/
def ssigRes (s : State) (key n k : Nat) : HRes :=
  let m := s.sem key
  if 2 ^ 32 ≤ m.value.toNat + k then .fault ⟨.arith, 5, BitVec.ofNat 64 n⟩
  else
    let m := { m with value := m.value + BitVec.ofNat 32 k, clk := clkJoin m.clk (s.clkOf s.cur .h) }
    .retire (((s.tick s.cur .h).setSem key m).grant key)

def execSsig (arg : SemArg) (die : BitVec 4) (s : State) : Out3 :=
  helmC s <|
    match semArg s.me arg with
    | .error f => .fault f
    | .ok a =>
      let key := s.semKeyOf s.cur die a.1
      match s.semBad key with
      | some f => .fault f
      | none => ssigRes s key a.1 a.2

/-- SSET (R286). -/
def ssetRes (s : State) (key : Nat) (x : X64) (xc : XReg) : HRes :=
  let m := s.sem key
  if 2 ^ 32 ≤ x.toNat then .fault ⟨.arith, 5, x⟩
  else
    let m' := { m with value := x.setWidth 32, clk := clkJoin m.clk (s.clkOf s.cur .h) }
    retireX (((s.tick s.cur .h).setSem key m').grant key) xc (m.value.setWidth 64)

def execSset (n : BitVec 8) (xb xc : XReg) (die : BitVec 4) (s : State) : Out3 :=
  let key := s.semKeyOf s.cur die n.toNat
  helmC s <|
    match s.semBad key with
    | some f => .fault f
    | none => ssetRes s key (s.me.getX xb) xc

/-- The completed value reached, TLWAIT acquires every operation up to its target (R110, R298). -/
def tlwaitRes (s : State) (q : Nat) (n : Nat) (retire : State → SRes) : SRes :=
  let c := s.cur
  if s.me.timeline q < n then .stall s
  else retire (if n = 0 then s else s.learn c s.curSt (s.timelineClk c q n))

/-- TLWAIT (R298). -/
def execTlwait (ctx : BitVec 4) (arg : TlArg) (s : State) : Out3 :=
  anyStream s <|
    match arg with
    | .h xa xc =>
      tlwaitRes s ctx.toNat (s.me.getX xa).toNat fun s =>
        .retire (s.modMe fun k => k.setX xc (BitVec.ofNat 64 (k.timeline ctx.toNat))) s.group
    | .oq q =>
      match readOq (s.strm s.cur s.curSt) s.group q false with
      | .error .block => .stall s
      | .error (.fault f) => .fault f
      | .ok (x, g) => tlwaitRes s ctx.toNat x.toNat fun s => .retire s g

/-! Barrier objects (R288 to R293). -/

/-- The key of the home record for an address in the issuer's own scratchpad (R288). -/
def State.homeKey (s : State) (addr : Nat) : Nat := scrKey (scrBase (s.homeCore s.cur) + (addr - scrBase s.cur))

/-- The checks of a barrier operand: CheckAccess of kind ATOMIC within the issuer's own scratchpad, and for an update
the race check of the home record as an atomic (R288). The record's key and address come back. MM_RACE and INTEGRITY report the
issuer's own address, the model's choice (log 27). -/
def State.barCheck (s : State) (h : Handle) (off : Int) (update : Bool) : Except Flt (Nat × Nat × State) := do
  let a := { s.helmAcc with lo := scrBase s.cur, hi := scrBase (s.cur + 1) }
  checkHandle a.world h off .atomic [2]
  checkBounds a.lo a.hi h off 16
  let addr := (h.base.toNat + off).toNat
  if addr % 16 ≠ 0 then .error ⟨.align, 0, BitVec.ofNat 64 addr⟩
  else
    let ps : List Piece := [⟨addr, s.homeKey addr, 16⟩]
    s.checkLines a.world .atomic ps
    let tab ← s.detect a h (!update) .atomic ps s.sectors
    .ok (s.homeKey addr, addr, s.withSectors tab)

/-- Was a waiter released by a reset (R292)? Bit 63 of its result says so. -/
def Wait.byReset (w : Wait) : Bool := w.value.getLsbD 63

/-- A departure (R293, R106); a marked task is reclaimed at it (R316). A release by reset is none (R292). -/
def State.departed (s : State) (w : Wait) : State :=
  let s := s.takeAnswer .h w
  if w.byReset then s
  else
    match s.taskOf s.cur with
    | some (d, i) => if (s.taskAt d i).marked then s.reclaim d i else s
    | none => s

/-- The answer of a barrier that has moved on: its value and what departing from it tells (R293), an epoch of its own gang among it. -/
def State.barAnswer (s : State) (key : Nat) (value : Nat) : Wait :=
  let b := s.barClk key
  ⟨.bar key value, true, BitVec.ofNat 64 value, s.departClk s.cur b.depart (if b.gang = s.gangOf s.cur then b.epoch else 0), 0⟩

/-- WaitGeneration (R291): the waiter of generation g registers. -/
def State.waitBar (s : State) (key g : Nat) (arrived : Bool) (was : Option (Stamp × Sector)) : State :=
  { s.modStrm s.cur .h fun v => { v with wait := some ⟨.bar key g, false, 0, [], 0⟩ } with
    barWs := s.barWs ++ [⟨key, g, s.cur, arrived, was⟩] }

/-- The stamp of an arrival through a handle that has it checked, and the sector of the barrier record before it. -/
def State.barSector (s : State) (h : Handle) (key : Nat) : Option (Stamp × Sector) :=
  if h.d then some (s.helmAcc.stamp s true, (tabFind s.sectors (key / 32)).getD .none) else none

/-- An instruction that waits for a generation: its answer, or its request. -/
def barWaitOr (s : State) (xc : XReg) (ask : Unit → HRes) : HRes :=
  match s.awaited .h with
  | some w => if w.done then .retire ((s.modMe fun k => k.setX xc w.value).departed w) else .stall s
  | none => ask ()

/-- An arrival's checks; ETVAL is the address of the home record (R291). -/
def arriveFault (r : BarRec) (addr : Nat) : Option Flt :=
  if r.malformed then some ⟨.arith, 7, BitVec.ofNat 64 addr⟩
  else if r.pend = 0 then some ⟨.arith, 6, BitVec.ofNat 64 addr⟩
  else none

/-- The arrival itself: the Helm's knowledge joins the generation (R293). -/
def State.arrive (s : State) (key who : Nat) : State := (s.arriveBar key who (s.clkOf s.cur .h)).tick s.cur .h

/-- BARR fn 0: arrive (R291). -/
def execBarrArrive (h : HReg) (xa xc : XReg) (imm : BitVec 32) (s : State) : Out3 :=
  helmC s <| HRes.of (s.barCheck (s.me.getH h) (s.hOff xa imm) true) fun r =>
    let rec' := r.2.2.barRec r.1
    match arriveFault rec' (r.1 - 2 ^ 48) with
    | some f => .fault f
    | none => retireX (r.2.2.arrive r.1 noWaiter) xc (BitVec.ofNat 64 rec'.gen)

/-- BARR fn 1: arrive and wait (R291). -/
def execBarrWait (h : HReg) (xa xc : XReg) (imm : BitVec 32) (s : State) : Out3 :=
  helmC s <| barWaitOr s xc fun _ =>
    HRes.of (s.barCheck (s.me.getH h) (s.hOff xa imm) true) fun r =>
      let rec' := r.2.2.barRec r.1
      match arriveFault rec' (r.1 - 2 ^ 48) with
      | some f => .fault f
      | none =>
        let was := s.barSector (s.me.getH h) r.1
        let s := r.2.2.arrive r.1 r.2.2.cur
        if (s.barRec r.1).gen ≠ rec'.gen then
          .retire ((s.modMe fun k => k.setX xc (BitVec.ofNat 64 rec'.gen)).departed (s.barAnswer r.1 rec'.gen))
        else .stall (s.waitBar r.1 rec'.gen true was)

/-- The parameters of BARR fn 2 (R291). -/
def barParams (x : Nat) : BarRec :=
  { gen := 0, exp := fieldOf x 7 0, pend := fieldOf x 7 0, inn := fieldOf x 31 8, out := fieldOf x 55 32,
    inr := fieldOf x 31 8, outr := fieldOf x 55 32, rsv := 0 }

/-- The task remembers its 16 newest records (R317). -/
def State.noteBar (s : State) (key : Nat) : State :=
  match s.taskOf s.cur with
  | some (d, i) => s.modTask d i fun t => { t with bars := (key :: t.bars.filter (· != key)).take 16 }
  | none => s

/-- BARR fn 2: initialise an unused or idle record (R291). It is a new object: no generation of it has been completed (R293). One that
returns 0 is checked and stamped as an update all the same, the model's choice (log 27). -/
def execBarrInit (h : HReg) (xa xb xc : XReg) (imm : BitVec 32) (s : State) : Out3 :=
  helmC s <| HRes.of (s.barCheck (s.me.getH h) (s.hOff xa imm) true) fun r =>
    let x := s.me.getX xb
    let n := fieldOf x.toNat 7 0
    let s := r.2.2
    let old := s.barRec r.1
    if fieldOf x.toNat 63 56 ≠ 0 ∨ n = 0 ∨ 96 < n then .fault ⟨.arith, 7, x⟩
    else if old.exp = 0 ∨ s.barIdle r.1 old then
      retireX (((s.putBarRec r.1 (barParams x.toNat)).setBarClk r.1 .none).noteBar r.1) xc 1
    else retireX s xc 0

/-- BARR fn 3: reset; xc receives GEN after it (R291, R292). -/
def execBarrReset (h : HReg) (xa xc : XReg) (imm : BitVec 32) (s : State) : Out3 :=
  helmC s <| HRes.of (s.barCheck (s.me.getH h) (s.hOff xa imm) true) fun r =>
    let s := r.2.2.resetBar r.1
    retireX s xc (BitVec.ofNat 64 (s.barRec r.1).gen)

/-- BWAIT (R291, R293). -/
def execBwait (h : HReg) (xa xb xc : XReg) (imm : BitVec 32) (s : State) : Out3 :=
  helmC s <| barWaitOr s xc fun _ =>
    HRes.of (s.barCheck (s.me.getH h) (s.hOff xa imm) false) fun r =>
      let x := s.me.getX xb
      let gen := (s.barRec r.1).gen
      if 16 ≤ x.toNat then .fault ⟨.arith, 7, x⟩
      else if gen ≠ x.toNat then
        .retire ((s.modMe fun k => k.setX xc (BitVec.ofNat 64 gen)).departed (s.barAnswer r.1 gen))
      else .stall (s.waitBar r.1 x.toNat false none)

/-! Atomics at memory (R294 to R296). -/

def amoBytes : AmoWidth → Nat
  | .w4 => 4
  | .w8 => 8
  | .w16 => 16

/-- New value of Table 10.5, on patterns of n bits. -/
def amoNew (op : AmoOp) (n : Nat) (o b c : Nat) : Nat :=
  match op with
  | .add => (o + b) % 2 ^ n
  | .fadd => fadd32 o b
  | .min => if signedOf n b < signedOf n o then b else o
  | .minn => if b < o then b else o
  | .max => if signedOf n o < signedOf n b then b else o
  | .maxn => if o < b then b else o
  | .and => Nat.land o b
  | .or => Nat.lor o b
  | .xor => Nat.xor o b
  | .swap => b
  | .cas => if o = c then b else o

/-- A register pair as 16 bytes, the lower-numbered register first (R295). -/
def Core.getPair (k : Core) (r : XReg) : Nat := (k.getX r).toNat + 2 ^ 64 * (k.getX (r + 1)).toNat
def Core.setPair (k : Core) (r : XReg) (v : Nat) : Core :=
  (k.setX r (BitVec.ofNat 64 v)).setX (r + 1) (BitVec.ofNat 64 (v / 2 ^ 64))

/-- An operand of a width. -/
def Core.amoArg (k : Core) (w : AmoWidth) (r : XReg) : Nat :=
  match w with
  | .w16 => k.getPair r
  | _ => (k.getX r).toNat % 2 ^ (8 * amoBytes w)

/-- AMO: one read-modify-write, an acquire and a release as its bits say (R294, R295). -/
def amoRes (op : AmoOp) (w : AmoWidth) (acq rel : Bool) (h : Handle) (off : Int) (xb xc : XReg) (s : State) : HRes :=
  let n := amoBytes w
  let a := s.helmAcc
  HRes.of (s.access a h off n .atomic n false fmt123 s.sectors) fun r =>
    let old := ofBytes (s.readBytes r.1)
    let new := amoNew op (8 * n) old (s.me.amoArg w xb) (s.me.amoArg w xc)
    let s := ((s.cacheTlb a.core a.world r.1).withSectors r.2).acquire s.cur .h acq r.1
    let s := s.putRel a.world rel r.1 (bytesOf n new)
    .retire (s.modMe fun k =>
      match w with
      | .w16 => k.setPair xc old
      | _ => k.setX xc (BitVec.ofNat 64 old))

def execAmo (op : AmoOp) (w : AmoWidth) (acq rel : Bool) (h : HReg) (xa xb xc : XReg) (imm : BitVec 32) (s : State) : Out3 :=
  helmC s (amoRes op w acq rel (s.me.getH h) (s.hOff xa imm) xb xc s)

/-- Check the lanes of VAMO in ascending order, staging their race checks (R296). -/
def vamoCheck (s : State) (a : Acc) (h : Handle) (w : Nat) : List (Nat × Int) → Tab Sector →
    Except Flt (List (Nat × List Piece) × Tab Sector)
  | [], tab => .ok ([], tab)
  | (i, off) :: t, tab =>
    match s.access a h off w .atomic w false fmt123 tab with
    | .error f => .error f
    | .ok (ps, tab) =>
      match vamoCheck s a h w t tab with
      | .error f => .error f
      | .ok (rest, tab) => .ok ((i, ps) :: rest, tab)

/-- Apply the lanes of VAMO in ascending order; old values come back by lane (R296). -/
def vamoApply (op : AmoOp) (w : Nat) (acq rel : Bool) (block : List Byte) :
    List (Nat × List Piece) → State → List (Nat × Nat) → State × List (Nat × Nat)
  | [], s, olds => (s, olds)
  | (i, ps) :: t, s, olds =>
    let old := ofBytes (s.readBytes ps)
    let new := amoNew op (8 * w) old (natAt block (512 + i * w) w) 0
    let s := s.acquire s.cur .h acq ps
    let s := s.putRel s.me.world rel ps (bytesOf w new)
    vamoApply op w acq rel block t s (olds ++ [(i, old)])

/-- Active lanes of a VAMO block with their target offsets (R296). -/
def vamoLanes (block : List Byte) (base : Int) (w : Nat) : List (Nat × Int) :=
  (List.range 128).filterMap fun i =>
    let x := natAt block (4 * i) 4
    if x = 0xFFFFFFFF then none else some (i, base + (x * w : Nat))

/-- VAMO: the block is checked once, as a STORE with RET and as a LOAD without; the handle bears R in either form (R296). -/
def vamoRes (op : AmoOp) (wd : AmoWidth) (acq rel ret : Bool) (ha hb : Handle) (oa ob : Int) (xc : XReg) (s : State) : HRes :=
  let w := amoBytes wd
  let a := s.helmAcc
  let size := 512 + 128 * w
  HRes.of (if ret then checkHandle a.world hb ob .load [2] else .ok ()) fun _ =>
  HRes.of (s.access a hb ob size (if ret then .store else .load) 4 false [2] s.sectors) fun r =>
    let block := s.readBytes r.1
    HRes.of (vamoCheck s a ha w (vamoLanes block oa w) r.2) fun l =>
      let s := (s.cacheTlb a.core a.world (l.1.flatMap (·.2))).withSectors l.2
      let r' := vamoApply op w acq rel block l.1 s []
      let at_ (i : Nat) : List Nat := ((piecesKeys r.1).drop (512 + i * w)).take w
      let back := if ret then r'.2.flatMap fun e => (at_ e.1).zip (bytesOf w e.2) else []
      retireX (r'.1.putBytes a.world back) xc (BitVec.ofNat 64 l.1.length)

def execVamo (op : AmoOp) (w : AmoWidth) (acq rel ret : Bool) (ha hb : HReg) (xa xb xc : XReg) (s : State) : Out3 :=
  helmC s (vamoRes op w acq rel ret (s.me.getH ha) (s.me.getH hb) (s.me.getX xa).toInt (s.me.getX xb).toInt xc s)

/-! Fences (R104, R297, R93). -/

/-- Does a fence scope of one issuer cover another core (R104)? -/
def scopeCovers (scope core gang core' gang' : Nat) : Bool :=
  match scope with
  | 0 => core == core'
  | 1 => gang == gang'
  | 2 => dieOf core == dieOf core'
  | _ => true

/-- FENCE enters the world's fence order (R104, R297). -/
def execFence (scope : BitVec 3) (s : State) : Out3 :=
  let c := s.cur
  let g := s.gangOf c
  let w := s.me.world
  let n := scope.toNat
  let k := s.fences.foldl (fun k f =>
    if f.world = w ∧ scopeCovers f.scope f.core f.gang c g ∧ scopeCovers n c g f.core f.gang then clkJoin k f.clk else k) []
  let s' := s.learn c .h k
  let f : FenceRec := ⟨w, c, g, n, s'.clkOf c .h⟩
  helmC s (.retire (State.tick { s' with fences := s'.fences ++ [f] } c .h))

/-- Drop the cached translations of a world that overlap a range. -/
def dropTlb (world lo hi : Nat) (t : List TlbEnt) : List TlbEnt :=
  t.filter fun e => !(e.world == world && decide (e.va < hi) && decide (lo < e.va + e.size))

/-- The translation fence (R93, R297). -/
def fenceTranslation (s : State) (scope : Nat) (x n : X64) : HRes :=
  if !s.me.supervisor then .fault ⟨.privilege, 0, 0⟩
  else if n = 0 then .retire s
  else
    let c := s.cur
    let g := s.gangOf c
    let lo := x.toNat
    let hi := min (lo + n.toNat) (2 ^ 57)
    let drop := dropTlb s.me.world lo hi
    .retire { s with
      tlb1 := s.tlb1.map fun e => if scopeCovers scope c g e.1 (s.gangOf e.1) then (e.1, drop e.2) else e
      tlb2 := s.tlb2.map fun e => if 3 ≤ scope ∨ e.1 = dieOf c then (e.1, drop e.2) else e }

def execFenceTranslation (scope : BitVec 3) (xa xb : XReg) (s : State) : Out3 :=
  helmC s (fenceTranslation s scope.toNat (s.me.getX xa) (s.me.getX xb))

/-! Flag waits (R299). -/

/-- FLWAIT: the first value that satisfies the relation, from the one current when the request arrives (R299). -/
def flwaitRes (rel : Rel) (h : Handle) (off : Int) (cmp : X64) (xc : XReg) (s : State) : HRes :=
  match s.awaited .h with
  | some w => if w.done then retireX (s.takeAnswer .h w) xc w.value else .stall s
  | none =>
    let a := s.helmAcc
    HRes.of (s.check a h off 8 .load 8 [1, 3]) fun ps =>
      let s := s.cacheTlb a.core a.world ps
      let x := BitVec.ofNat 64 (ofBytes (s.readBytes ps))
      if Rel.holds rel x cmp then retireX (s.learn s.cur .h (s.readClk true ps)) xc x
      else
        let key := (ps.head?.map (·.key)).getD 0
        .stall (s.modStrm s.cur .h fun v => { v with wait := some ⟨.flag key rel cmp, false, 0, [], 0⟩ })

def execFlwait (rel : Rel) (h : HReg) (xa xb xc : XReg) (imm : BitVec 32) (s : State) : Out3 :=
  helmC s (flwaitRes rel (s.me.getH h) (s.hOff xa imm) (s.me.getX xb) xc s)

/-! The sync heap (R301, R302). -/

def State.heap (s : State) (world die : Nat) : Heap := (tabFind s.heaps (heapKey world die)).getD ⟨0, 0, []⟩
def State.setHeap (s : State) (world die : Nat) (v : Heap) : State := { s with heaps := tabSet s.heaps (heapKey world die) v }

/-- The lowest free run of a length: runs are (offset, length) by rising offset. -/
def freeRun (size : Nat) : List (Nat × Nat) → Nat → Nat
  | [], at_ => at_
  | r :: t, at_ => if at_ + size ≤ r.1 then at_ else freeRun size t (max at_ (r.1 + r.2))

/-- Insert a run by rising offset. -/
def putRun (x : Nat × Nat) : List (Nat × Nat) → List (Nat × Nat)
  | [] => [x]
  | y :: t => if x.1 < y.1 then x :: y :: t else y :: putRun x t

/-- HEAPALLOC in the heap that h3 names (R302). ETVAL for a size of 0 is not stated and stays free (log 16). The zeroing is checked
as a STORE through h3 as it stands, and so may fail; the manual names no such check (log 27). -/
def heapallocRes (s : State) (x : X64) (xc : XReg) : HRes :=
  let h := s.me.getH 3
  let w := s.me.world
  let die := dieOf s.cur
  let v := s.heap w die
  let size := (x.toNat + 63) / 64 * 64
  let off := freeRun size v.runs 0
  if x = 0 then .fault ⟨.arith, 8, Config.freeEtval s.fresh⟩
  else if h.length.toNat < off + size then .fault ⟨.syncOverflow, 0, x⟩
  else
    HRes.of (s.store s.helmAcc h off (List.replicate size 0) 1 true [3]) fun r =>
      retireX (r.2.setHeap w die { v with runs := putRun (off, size) v.runs }) xc (BitVec.ofNat 64 off)

def execHeapalloc (xa xc : XReg) (s : State) : Out3 := helmC s (heapallocRes s (s.me.getX xa) xc)

/-- HEAPFREE (R302). -/
def heapfreeRes (s : State) (x : X64) : HRes :=
  let w := s.me.world
  let die := dieOf s.cur
  let v := s.heap w die
  if v.runs.any fun r => r.1 == x.toNat then
    .retire (s.setHeap w die { v with runs := v.runs.filter fun r => r.1 != x.toNat })
  else .fault ⟨.arith, 9, x⟩

def execHeapfree (xa : XReg) (s : State) : Out3 := helmC s (heapfreeRes s (s.me.getX xa))

end Sys2Proof.Machine
end

