-- ==== Sys2Proof/Machine/Task.lean ====
section
/-! DEFINITION. The instructions of the Task engine (R303 to R331). -/
namespace Sys2Proof.Machine

/-- The task that the Helm served belongs to. -/
def State.myTask (s : State) : Option (Nat × Nat) := s.taskOf s.cur

/-- References that the issuer's task holds (R314). -/
def State.myRefs (s : State) : List (X64 × Nat) :=
  match s.myTask with
  | some (d, i) => (s.taskAt d i).refs
  | none => []

def State.setMyRefs (s : State) (rs : List (X64 × Nat)) : State :=
  match s.myTask with
  | some (d, i) => s.modTask d i fun t => { t with refs := rs }
  | none => s

/-! Reading a control block (R306). -/

/-- Bytes and fields of a checked control block, with the state that the read leaves. -/
structure TcbRead where
  tcb : Tcb
  die : Nat
  at0 : State
  deriving DecidableEq, Repr

/-- Images of a control block, checked as HLD checks (R306 step 5). -/
def State.imagesFault (s : State) (addr : X64) : List Handle → Nat → Option Flt
  | [], _ => none
  | h :: t, i =>
    match s.imageFault h (addr + BitVec.ofNat 64 (0x80 + 32 * i)) with
    | some f => some f
    | none => s.imagesFault addr t (i + 1)

/-- The gang is larger than what its world's berth holds on a die, or the world's guarantee than what a DEGRADED berth has left
(R306 step 4, R405). -/
def State.tooLarge (s : State) (world die gsize : Nat) : Bool :=
  let w := s.world world
  decide ((s.coresHeld w.berth die).length < gsize) || (s.berth w.berth).short w.guarM w.guarS

/-- ReadAndCheckTCB of R306, steps 1 to 5, against the code handle of the task. ETVAL of ARITH 12 is not stated (log 16). -/
def State.readTcb (s : State) (h : Handle) (off : Int) (code : Handle) : Except Flt TcbRead := do
  let (bs, _, s') ← s.load s.helmAcc h off 384 64 false fmt123
  let addr := etval (h.base.toNat + off)
  if tcbBad bs then .error ⟨.reservedField, 0, addr⟩
  else
    let t ← s'.readLoop s'.helmAcc code (Tcb.ofBytes bs) addr
    let die := if t.die = 15 then dieOf s.cur else t.die
    if t.sup ∧ !s.me.supervisor then .error ⟨.privilege, 0, 0⟩
    else if s.tooLarge s.me.world die t.gsize then .error ⟨.arith, 12, Config.freeEtval s.fresh⟩
    else
      match s'.imagesFault addr t.himg 0 with
      | some f => .error f
      | none => .ok ⟨{ t with himg := t.himg.map s.reviewed }, die, s'⟩

/-! Entries and arming (R303, R310). -/

/-- The entry that a new task takes: the lowest free one, else the lowest plain task that is DONE (R303). -/
def State.freeEntry (s : State) (die : Nat) : Option Nat :=
  ((List.range 4096).find? fun i => (s.taskAt die i).st == .free).or
    ((List.range 4096).find? fun i => (s.taskAt die i).st == .done && !(s.taskAt die i).future)

/-- A task in an entry, before its waits are entered. -/
def newTask (old : Task) (world : Nat) (future : Bool) (tcb : Tcb) (code : Handle) (recAt : RecAt)
    (carry : List (Nat × Nat × Nat)) (clk : Clock) : Task :=
  { Task.free with
    inc := old.inc + 1, st := .waiting, world := world, future := future, tcb := tcb, code := code, recAt := recAt,
    pri := tcb.pri, waitsLeft := tcb.wcount, carry := carry, reach := natOf future, clk := clk }

/-- Arm of R310: the first wait, or READY at once. In a world that is ENDING it is cancelled with every other task (R366). -/
def State.arm (s : State) (die idx : Nat) : State :=
  let t := s.taskAt die idx
  let s := if t.tcb.wcount = 0 then s.makeReady die idx false
    else s.enterSem (semKey t.world die t.tcb.ws) (.task die idx t.inc.toNat)
  if (s.world t.world).st = .ending then s.cancelTask die idx else s

/-- Timelines that a carry mask names, with the numbers assigned now (R111, R324). -/
def State.carryOf (s : State) (mask : BitVec 5) : List (Nat × Nat × Nat) :=
  (List.range 5).filterMap fun q =>
    if mask.getLsbD q then some (s.cur, q, if q = 4 then s.me.fab.assigned else (s.me.cq q).assigned) else none

/-- The token checks of TOK (R306 step 6, R314). -/
def State.tokFault (s : State) (tok : X64) : Option Flt :=
  if tok = 0 then none
  else
    match s.findTask s.me.world tok with
    | none => some ⟨.futureInvalid, 1, tok⟩
    | some (d, i) => if holdsRef s.myRefs (s.idOf d i) then none else some ⟨.futureInvalid, 5, tok⟩

/-- SPAWN and TLAUNCH (R324). -/
def launchRes (s : State) (future : Bool) (h : Handle) (off : Int) (xc : XReg) (mask : BitVec 5) : HRes :=
  HRes.of (s.readTcb h off s.me.code) fun r =>
    let t := r.tcb
    match s.tokFault t.tok with
    | some f => .fault f
    | none =>
      if future ∧ 32 ≤ s.myRefs.length then .fault ⟨.arith, 10, Config.freeEtval s.fresh⟩
      else
        match s.freeEntry r.die with
        | none => .stall s
        | some i =>
          let s' := r.at0
          let tok := (s.findTask s.me.world t.tok).map fun p => s.idOf p.1 p.2
          let new := newTask (s.taskAt r.die i) s.me.world future t s.me.code (.viaHandle h off s.cur) (s.carryOf mask)
            (s.clkOf s.cur .h)
          let moved := if t.tok = 0 then none else tok
          let new := { new with refs := (moved.map fun x => (x, 1)).toList }
          let s' := s'.setTask r.die i new
          let id := s'.idOf r.die i
          let refs := match moved with
            | some x => dropRefOne s.myRefs x
            | none => s.myRefs
          let s' := s'.setMyRefs (if future then addRef refs id else refs)
          retireX ((s'.tick s.cur .h).arm r.die i) xc id

/-- SPAWN (R324). -/
def execSpawn (h : HReg) (xa xc : XReg) (carry : BitVec 5) (imm : BitVec 32) (s : State) : Out3 :=
  helmC s (launchRes s true (s.me.getH h) (s.hOff xa imm) xc carry)

/-- TLAUNCH (R324). -/
def execTlaunch (h : HReg) (xa xc : XReg) (carry : BitVec 5) (imm : BitVec 32) (s : State) : Out3 :=
  helmC s (launchRes s false (s.me.getH h) (s.hOff xa imm) xc carry)

/-! Instructions that name a task (R315). -/

/-- A valid identifier, or FUTURE_INVALID 1. -/
def withTask (s : State) (id : X64) (k : Nat → Nat → HRes) : HRes :=
  match s.findTask s.me.world id with
  | some (d, i) => k d i
  | none => .fault ⟨.futureInvalid, 1, id⟩

/-- A valid token of a future, or FUTURE_INVALID 1 or 6. -/
def withFuture (s : State) (id : X64) (k : Nat → Nat → HRes) : HRes :=
  withTask s id fun d i => if (s.taskAt d i).future then k d i else .fault ⟨.futureInvalid, 6, id⟩

/-- Is an identifier stale: of the issuer's world and a die, but no task's (R326, R331)? -/
def staleId (world : Nat) (id : X64) : Bool := fieldOf id.toNat 63 52 == world && decide (fieldOf id.toNat 19 16 ≤ 5)

/-- As withTask, with a result for a stale identifier. -/
def withStale (s : State) (id : X64) (xc : XReg) (k : Nat → Nat → HRes) : HRes :=
  match s.findTask s.me.world id with
  | some (d, i) => k d i
  | none => if staleId s.me.world id then retireX s xc 0 else .fault ⟨.futureInvalid, 1, id⟩

/-- FREF (R314, R327). -/
def execFref (xa : XReg) (s : State) : Out3 :=
  let id := s.me.getX xa
  helmC s <| withFuture s id fun d i =>
    let tok := s.idOf d i
    let t := s.taskAt d i
    if !holdsRef s.myRefs tok then .fault ⟨.futureInvalid, 5, id⟩
    else if 65535 ≤ t.reach then .fault ⟨.arith, 10, Config.freeEtval s.fresh⟩
    else .retire ((s.setTask d i { t with reach := t.reach + 1 }).setMyRefs (addRef s.myRefs tok))

/-- Drop one of the issuer's references (R314, R316). -/
def State.dropMine (s : State) (tok : X64) : State := (s.setMyRefs (dropRefOne s.myRefs tok)).dropRef tok

/-- FDROP (R327). -/
def execFdrop (xa : XReg) (s : State) : Out3 :=
  let id := s.me.getX xa
  helmC s <| withFuture s id fun d i =>
    let tok := s.idOf d i
    if !holdsRef s.myRefs tok then .fault ⟨.futureInvalid, 5, id⟩ else .retire (s.dropMine tok)

/-- Set a task's priority; a READY task goes to the tail of its new level (R326, R327). -/
def State.setPri (s : State) (die idx pri : Nat) : State :=
  let t := s.taskAt die idx
  if t.st = .ready then ((s.unready die idx).setTask die idx { t with pri := pri }).makeReady die idx false
  else s.setTask die idx { t with pri := pri }

/-- The result of FGET, and the reference that it drops (R327 step 4). -/
def fgetDone (s : State) (xc : XReg) (v : X64) (drop : Bool) (tok : X64) : HRes :=
  let s := s.modMe fun k => k.setX xc v
  .retire (if drop ∧ holdsRef s.myRefs tok then s.dropMine tok else s)

/-- FGET (R327). -/
def fgetRes (s : State) (drop : Bool) (id : X64) (xc : XReg) : HRes :=
  match s.awaited .h with
  | some w =>
    if !w.done then .stall s
    else
      match w.kind with
      | .ended status => .fault ⟨.futureInvalid, 4, BitVec.ofNat 64 status⟩
      | .future d i => fgetDone (s.takeAnswer .h w) xc w.value drop (s.idOf d i)
      | _ => fgetDone (s.takeAnswer .h w) xc w.value drop id
  | none =>
    withFuture s id fun d i =>
      let t := s.taskAt d i
      if drop ∧ !holdsRef s.myRefs (s.idOf d i) then .fault ⟨.futureInvalid, 5, id⟩
      else
        let s := if (t.st = .waiting ∨ t.st = .ready) ∧ t.pri < t.tcb.dpri then s.setPri d i t.tcb.dpri else s
        match t.pub with
        | some v => fgetDone (s.learn s.cur .h t.pubClk) xc v drop (s.idOf d i)
        | none =>
          if t.st = .done then .fault ⟨.futureInvalid, 4, BitVec.ofNat 64 t.outcome.status⟩
          else .stall (s.modStrm s.cur .h fun v => { v with wait := some ⟨.future d i, false, 0, [], 0⟩ })

def execFget (drop : Bool) (xa xc : XReg) (s : State) : Out3 := helmC s (fgetRes s drop (s.me.getX xa) xc)

/-- FDONE (R328). A core without a task publishes nothing and is refused as a plain task is. -/
def fdoneRes (s : State) (x : X64) : HRes :=
  match s.myTask with
  | none => .fault ⟨.futureInvalid, 3, 0⟩
  | some (d, i) =>
    let t := s.taskAt d i
    if !t.future then .fault ⟨.futureInvalid, 3, s.idOf d i⟩
    else if t.pub.isSome then .fault ⟨.futureInvalid, 2, s.idOf d i⟩
    else
      let clk := s.clkOf s.cur .h
      let s := s.setTask d i { t with pub := some x, pubClk := clk }
      .retire ((s.answerFgets d i ⟨.future d i, true, x, clk, 0⟩).tick s.cur .h)

def execFdone (xa : XReg) (s : State) : Out3 := helmC s (fdoneRes s (s.me.getX xa))

/-- RPOINT: a marked task is reclaimed, and the Helm does not retire it (R329). -/
def execRpoint (s : State) : Out3 :=
  helmC s <|
    match s.myTask with
    | some (d, i) => if (s.taskAt d i).marked then .stall (s.reclaim d i) else .retire s
    | none => .retire s

/-- TARM: a HELD task takes a new control block and is READY at once (R325). The task stays on its die even where the block names
another, on which its gang size is then checked; a result that it had published stays published; and every check of the new block comes
before that of the state, FUTURE_INVALID 7: the manual says none of the three (log 30). -/
def tarmRes (s : State) (h : Handle) (off : Int) (id : X64) : HRes :=
  withTask s id fun d i =>
    let t := s.taskAt d i
    HRes.of (s.readTcb h off t.code) fun r =>
      if t.st ≠ .held then .fault ⟨.futureInvalid, 7, id⟩
      else
        let t := { t with
          tcb := r.tcb, pri := r.tcb.pri, recAt := .viaHandle h off s.cur, clk := clkJoin t.clk (s.clkOf s.cur .h),
          phase := 0, run := 0, placed := false, saved := false, outcome := ⟨0, 0, 0, 0, 0⟩ }
        .retire (((r.at0.setTask d i t).tick s.cur .h).makeReady d i false)

def execTarm (h : HReg) (xa xb : XReg) (imm : BitVec 32) (s : State) : Out3 :=
  helmC s (tarmRes s (s.me.getH h) (s.hOff xa imm) (s.me.getX xb))

/-- Codes of Table 11.2. -/
def TaskSt.code : TaskSt → Nat
  | .free => 0
  | .waiting => 1
  | .ready => 2
  | .running => 3
  | .held => 4
  | .done => 5
  | .yielded => 6

/-- TCANCEL (R326). -/
def execTcancel (xa xc : XReg) (s : State) : Out3 :=
  helmC s <| withStale s (s.me.getX xa) xc fun d i =>
    let t := s.taskAt d i
    let s := s.modMe fun k => k.setX xc (BitVec.ofNat 64 t.st.code)
    .retire <|
      match t.st with
      | .waiting | .ready | .held | .yielded => s.completeTask d i .cancelled t.clk
      | .running => s.setTask d i { t with marked := true }
      | .done | .free => s

/-- REQUEUE (R326). ETVAL of ARITH 13 is not stated (log 16); that fault comes before the look at the identifier, for which the manual
gives no order (log 30). -/
def execRequeue (xa xb xc : XReg) (s : State) : Out3 :=
  let p := s.me.getX xb
  helmC s <|
    if 16 ≤ p.toNat then .fault ⟨.arith, 13, Config.freeEtval s.fresh⟩
    else withStale s (s.me.getX xa) xc fun d i =>
      retireX (s.setPri d i p.toNat) xc (BitVec.ofNat 64 (s.taskAt d i).pri)

/-! Positions (R320, R330). -/

/-- The core's part of a pending yield: drained, it waits for its gang (R320). -/
def State.yieldWait (s : State) (d i : Nat) (x : X64) : State :=
  let s := s.modMe fun k => { k with hrun := .yielding }
  s.modTask d i fun t =>
    { t with yielded := s.cur :: t.yielded, yieldPos := if s.me.rank = 0 then x else t.yieldPos }

/-- YIELD (R320, R330). -/
def yieldRes (s : State) (x : X64) : HRes :=
  let fold (s : State) : State := if s.me.rank = 0 then s.foldTranscript s.me.world x else s
  match s.myTask with
  | none => .retire (fold s)
  | some (d, i) =>
    if !(s.taskAt d i).yieldPend then .retire (fold s)
    else if s.me.busy ∨ !s.me.drained then .stall s
    else .stall ((fold s).yieldWait d i x)

def execYield (xa : XReg) (s : State) : Out3 := helmC s (yieldRes s (s.me.getX xa))

/-- GPOS (R330). -/
def execGpos (xc : XReg) (s : State) : Out3 :=
  helmC s (retireX s xc (match s.myTask with
    | some (d, i) => (s.taskAt d i).gpos
    | none => 0))

/-- GANG (R330). -/
def execGang (xa xc : XReg) (s : State) : Out3 :=
  let x := s.me.getX xa
  helmC s <|
    match (s.gangCores s.cur)[x.toNat]? with
    | some c => retireX s xc (BitVec.ofNat 64 c)
    | none => .fault ⟨.arith, 11, x⟩

/-- What TSTAT reads of a task (R331). -/
def Task.stat (t : Task) (sel : BitVec 2) : X64 :=
  if sel = 0 then
    BitVec.ofNat 64 (t.st.code + t.outcome.status * 2 ^ 8 + t.outcome.sub * 2 ^ 16 + t.pri * 2 ^ 24 + t.reach * 2 ^ 32)
  else if sel = 1 then t.valueWord
  else if t.st = .running then BitVec.ofNat 64 (t.cores.headD 0x3FF) else 0x3FF

/-- TSTAT (R331). -/
def execTstat (sel : BitVec 2) (xa xc : XReg) (s : State) : Out3 :=
  helmC s <| withStale s (s.me.getX xa) xc fun d i => retireX s xc ((s.taskAt d i).stat sel)

end Sys2Proof.Machine
end

