-- ==== Sys2Proof/Machine/Fabric.lean ====
section
/-! DEFINITION. The instructions of the Fabric engine (R339 to R361). -/
namespace Sys2Proof.Machine

/-- A Fabric instruction that takes a number: it stalls while 64 operations are not complete (R339). -/
def State.issueFab (s : State) (kind : FabKind) (ha hb : HReg) (ro lo : Int) (bad : Bool) (sig : Option (BitVec 8)) : HRes :=
  let k := s.me
  if 64 ≤ k.fab.ops.length then .stall s
  else
    let n := k.fab.assigned + 1
    let o : FabOp :=
      { n := n, kind := kind, remote := k.getH ha, localH := k.getH hb, ro := ro, lo := lo, bad := bad,
        sig := sig.map BitVec.toNat, phase := .queued, inc := 0, members := [], prog := 0, got := [],
        ports := [], avoid := [], flagOut := false, acks := [], clk := s.clkOf s.cur .h, cut := none }
    .retire ((s.modMe fun k => { k with fab := { k.fab with assigned := n, ops := k.fab.ops ++ [o] } }).tick s.cur .h)

/-- A signed offset register. -/
def State.sreg (s : State) (r : XReg) : Int := (s.me.getX r).toInt

/-- RMST (R342). -/
def execRmst (ha hb : HReg) (xa xb xc : XReg) (sig : Option (BitVec 8)) (flag : BitVec 32) (s : State) : Out3 :=
  let n := (s.me.getX xc).toNat
  helmC s (s.issueFab (.rmst n flag.toNat) ha hb (s.sreg xa) (s.sreg xb) (decide (65536 < n)) sig)

/-- RMLD (R343). -/
def execRmld (ha hb : HReg) (xa xb xc : XReg) (sig : Option (BitVec 8)) (s : State) : Out3 :=
  let n := (s.me.getX xc).toNat
  helmC s (s.issueFab (.rmld n) ha hb (s.sreg xa) (s.sreg xb) (decide (65536 < n)) sig)

/-- RMAMO (R344). -/
def execRmamo (op : AmoOp) (w : AmoWidth) (ha hb : HReg) (xa xb xc : XReg) (sig : Option (BitVec 8)) (res : BitVec 32)
    (s : State) : Out3 :=
  helmC s (s.issueFab (.rmamo op w (s.me.getX xb) (s.me.getX xc) res.toInt) ha hb (s.sreg xa) res.toInt false sig)

/-- Length and record offset that xc packs for MCST and MCLD (Table 12.4). -/
def mcLen (x : X64) : Nat := fieldOf x.toNat 12 0
def mcRec (x : X64) : Nat := fieldOf x.toNat 63 16
def mcBad (x : X64) (most : Nat) : Bool := fieldOf x.toNat 15 13 != 0 || mcLen x == 0 || decide (most < mcLen x)

/-- MCST (R348 to R350). -/
def execMcst (ha hb : HReg) (xa xb xc : XReg) (sig : Option (BitVec 8)) (flag : BitVec 32) (s : State) : Out3 :=
  let x := s.me.getX xc
  helmC s (s.issueFab (.mcst (mcLen x) (mcRec x) flag.toNat) ha hb (s.sreg xa) (s.sreg xb) (mcBad x 4096) sig)

/-- MCLD (R348, R349, R351). -/
def execMcld (op : AmoOp) (w : AmoWidth) (ha hb : HReg) (xa xb xc : XReg) (sig : Option (BitVec 8)) (s : State) : Out3 :=
  let x := s.me.getX xc
  helmC s (s.issueFab (.mcld op w (mcLen x) (mcRec x)) ha hb (s.sreg xa) (s.sreg xb) (mcBad x 256) sig)

/-- SPRED (R352, R353). -/
def execSpred (fadd det : Bool) (ha hb : HReg) (xa xb xc : XReg) (sig : Option (BitVec 8)) (flag : BitVec 32) (s : State) : Out3 :=
  let n := (s.me.getX xc).toNat
  helmC s (s.issueFab (.spred n fadd det flag.toNat) ha hb (s.sreg xa) (s.sreg xb) (decide (65536 < n)) sig)

/-- RFENCE (R355). -/
def execRfence (xc : XReg) (s : State) : Out3 :=
  let v := s.me.fab
  helmC s <|
    if v.completed < v.assigned then .stall s
    else retireX (s.learn s.cur .h (s.timelineClk s.cur 4 v.completed)) xc (BitVec.ofNat 64 v.completed)

/-! Groups (R346, R347). -/

def World.group (w : World) (g : Nat) : Group := (tabFind w.groups g).getD ⟨false, 0, 0, []⟩

/-- This device's record of a peer's incarnation. -/
def State.incOf (s : State) (dev : Nat) : Nat := (tabFind s.peerInc dev).getD 0

/-- Members of a bitmap, the device's own bit ignored. -/
def bitmapMembers (own bits : Nat) : List Nat := (List.range 993).filter fun d => bitOf bits d && d != own

/-- GJOIN (R347). ETVAL of ARITH 14 is not stated (log 16). -/
def gjoinRes (s : State) (h : Handle) (off : Int) (x : X64) (xc : XReg) : HRes :=
  if !s.me.supervisor then .fault ⟨.privilege, 0, 0⟩
  else
    HRes.of (s.load s.helmAcc h off 136 8 false fmt123) fun r =>
      let n := ofBytes r.1
      let ms := bitmapMembers s.fabId (n % 2 ^ 1024)
      let w := s.me.world
      if 15 < x.toNat ∨ (ms.isEmpty ∧ fieldOf n 1023 993 = 0) then .fault ⟨.arith, 14, Config.freeEtval s.fresh⟩
      else if fieldOf n 1023 993 ≠ 0 ∨ n / 2 ^ 1031 ≠ 0 then .fault ⟨.reservedField, 0, etval (h.base.toNat + off)⟩
      else
        let inc := ((s.world w).group x.toNat).inc + 1
        let g : Group := ⟨true, inc, fieldOf n 1030 1024, ms.map fun d => (d, s.incOf d)⟩
        retireX (r.2.2.modWorld w fun v => { v with groups := tabSet v.groups x.toNat g }) xc (inc.setWidth 64)

def execGjoin (ha : HReg) (xa xb xc : XReg) (s : State) : Out3 :=
  helmC s (gjoinRes s (s.me.getH ha) (s.sreg xa) (s.me.getX xb) xc)

/-- A group left: not valid, its incarnation one up (R347, R360). -/
def Group.left (g : Group) : Group := { g with valid := false, inc := g.inc + 1 }

/-- GLEAVE (R347). -/
def execGleave (xb : XReg) (s : State) : Out3 :=
  let x := s.me.getX xb
  helmC s <|
    if 15 < x.toNat then .fault ⟨.arith, 14, Config.freeEtval s.fresh⟩
    else .retire (s.modWorld s.me.world fun v =>
      { v with groups := tabSet v.groups x.toNat (v.group x.toNat).left })

/-! Status (R340, R361). -/

def State.port (s : State) (p : Nat) : Port := (tabFind s.ports p).getD .init
def State.setPort (s : State) (p : Nat) (v : Port) : State := { s with ports := tabSet s.ports p v }

/-! Routing tables (R335). -/

/-- The hub router that serves a core: dies 0 to 2 hub die A, dies 3 to 5 hub die B (log 32). -/
def hubOf (core : Nat) : Nat := dieOf core / 3

/-- The routing entry of a hub router for a device (Table 12.1). -/
def State.routeOf (s : State) (hub dev : Nat) : BitVec 32 := (tabFind s.routes (hub * 1024 + dev)).getD 0

/-- Fields of a routing entry. -/
def rtMin (e : BitVec 32) : Nat := fieldOf e.toNat 4 0
def rtDirect (e : BitVec 32) : Bool := e.getLsbD 5
def rtValid (e : BitVec 32) : Bool := e.getLsbD 6
/-- The non-minimal first hops in use. -/
def rtOther (e : BitVec 32) : List Nat :=
  (List.range (fieldOf e.toNat 9 7)).map fun k => fieldOf e.toNat (14 + 5 * k) (10 + 5 * k)

/-- Is a destination reachable? -/
def State.reachable (s : State) (hub dev : Nat) : Bool := rtValid (s.routeOf hub dev)

/-- State codes of Table 12.6. -/
def PortSt.code : PortSt → Nat
  | .down => 0
  | .training => 1
  | .attesting => 2
  | .opened => 3
  | .recovery => 4
  | .closed => 5
  | .idle => 6

/-- The port status word of Table 12.6. -/
def Port.word (p : Port) : X64 :=
  BitVec.ofNat 64 (min p.retry 0xFFFF * 2 ^ 48 + p.step % 2 ^ 24 * 2 ^ 24 + natOf (p.st == .idle) * 2 ^ 18 +
    p.peer % 1024 * 2 ^ 8 + natOf p.spareUsed * 2 ^ 6 + p.lanes % 4 * 2 ^ 4 + p.st.code)

/-- The fabric status word of Table 12.3. -/
def FStat.word (st : FStat) : X64 :=
  BitVec.ofNat 64 (st.dev % 1024 * 2 ^ 32 + st.sub % 16 * 2 ^ 12 + st.side % 2 * 2 ^ 9 + 2 ^ 8 + st.code % 2 ^ 8)

/-- The record of operation n, if held (R340). -/
def FabQ.record (v : FabQ) (n : Nat) : Option FStat :=
  if n ≠ 0 ∧ n ≤ v.assigned ∧ v.assigned < n + 64 then tabFind v.recs n else none

/-- LINKST (R361). -/
def linkstRes (s : State) (x : X64) (sel : BitVec 3) (xc : XReg) : HRes :=
  let v := s.me.fab
  let n (a : Nat) : X64 := BitVec.ofNat 64 a
  if sel = 0 then (if 31 < x.toNat then .fault ⟨.arith, 15, Config.freeEtval s.fresh⟩ else retireX s xc (s.port x.toNat).word)
  else if sel = 1 then retireX s xc (n v.completed)
  else if sel = 2 then retireX s xc (n v.assigned)
  else if sel = 3 then retireX s xc (((v.record x.toNat).map FStat.word).getD 0)
  else if sel = 4 then retireX s xc (n v.firstFail)
  else retireX (s.modMe fun k => { k with fab := { k.fab with firstFail := 0 } }) xc (n v.firstFail)

def execLinkst (xa xc : XReg) (sel : BitVec 3) (s : State) : Out3 := helmC s (linkstRes s (s.me.getX xa) sel xc)

end Sys2Proof.Machine
end

