-- ==== Sys2Proof/Machine/Lodestar.lean ====
section
/-! DEFINITION. The requests that a Helm makes of the Lodestar (R363 to R396, R425). -/
namespace Sys2Proof.Machine

/-! Results (Table 13.9). -/

/-- The result word. -/
def result (status sub value : Nat) : X64 := BitVec.ofNat 64 (status + sub % 256 * 2 ^ 8 + value % 2 ^ 48 * 2 ^ 16)

def ok (value : Nat) : X64 := result 0 0 value
def failure (c : Code) (sub : Nat) : X64 := result c.num sub 0
def Flt.result (f : Flt) : X64 := failure f.code f.sub

/-- What the service of a request answers: the state and the result word. -/
abbrev Ans := State × X64

/-- A check that may fail with a status, and then changes nothing. -/
def ansOf {α : Type} (s : State) (e : Except Flt α) (k : α → Ans) : Ans :=
  match e with
  | .ok a => k a
  | .error f => (s, f.result)

/-! LMINT and LSEAL. -/

/-- InReach of R390. -/
def State.inReach (s : State) (world : Nat) (t : Handle) : Bool :=
  let b := t.base.toNat
  let e := b + t.length.toNat
  let w := s.world world
  if t.format = 1 then decide (e ≤ 2 ^ 57)
  else if t.format = 2 then
    let lo := b / 16777216
    let hi := (max b (e - 1)) / 16777216
    decide (hi < 72) && (upFrom lo (min (hi - lo + 1) 72)).all fun c => (s.clustersHeld w.berth).contains c
  else if t.format = 3 then
    decide (e ≤ 2 ^ 57) && (List.range 6).any fun d =>
      let v := s.heap world d
      v.length != 0 && decide (v.base ≤ b) && decide (e ≤ v.base + v.length)
  else
    let dev := fieldOf b 56 47
    let win := fieldOf b 46 40
    if dev = 1023 then decide (win ≤ 15)
    else w.imports.any fun i => i.dev == dev && i.win == win && decide (fieldOf b 39 0 + t.length.toNat ≤ i.len)

/-- The next serial of a world goes to an image, which is sealed with its frozen rights (R370, R390). -/
def State.mint (s : State) (world : Nat) (t : Handle) : Handle × State :=
  let w := s.world world
  let h := w.sealed (w.freezeRights { t with serial := BitVec.ofNat 32 w.nextSerial })
  ({ h with revoked := false }, s.setWorld world { w with nextSerial := w.nextSerial + 1 })

/-- The checks of a template (R390). -/
def State.templateFault (s : State) (world : Nat) (t : Handle) : Option Flt :=
  if t.world.toNat ≠ world ∨ t.serial ≠ 0 ∨ t.sealv ≠ 0 then some ⟨.reservedField, 0, 0⟩
  else if t.format = 0 ∨ 4 < t.format.toNat then some ⟨.handleRights, 0, 0⟩
  else if !s.inReach world t then some ⟨.handleBounds, 0, 0⟩
  else if 2 ^ 32 ≤ (s.world world).nextSerial then some ⟨.arith, 16, 0⟩
  else none

/-- LMINT (R390). -/
def lmintAns (h : Handle) (hd : HReg) (off : Int) (s : State) : Ans :=
  ansOf s (s.load s.helmAcc h off 32 32 false fmt123) fun r =>
    let s' := r.2.2
    let world := s.me.world
    let t := Handle.ofBytes r.1
    if hd.toNat < 4 then (s', failure .privilege 0)
    else
      match s'.templateFault world t with
      | some f => (s', f.result)
      | none =>
        let m := s'.mint world t
        (m.2.modMe fun k => k.putH hd m.1, ok m.1.serial.toNat)

/-- LSEAL (R391). -/
def lsealAns (hd : HReg) (s : State) : Ans :=
  let h := s.me.getH hd
  let w := s.world s.me.world
  if h.revoked then (s, failure .handleRevoked 0)
  else if h.format = 0 ∨ 4 < h.format.toNat then (s, failure .handleRights 0)
  else if h.world.toNat ≠ s.me.world then (s, failure .handleWorld 0)
  else if !h.m then (s, failure .handleRights 0)
  else if w.isRevoked h.serial.toNat then (s, failure .handleRevoked 0)
  else (s.modMe fun k => k.setH hd (w.sealed (w.freezeRights h)), ok h.serial.toNat)

/-! LREVOKE (R371 to R373, R392). -/

/-- The sweep record (Table 13.4). -/
def sweepRecord (no first count at0 at1 : Nat) (w : Option Sweep) : List Byte :=
  let n (f : Sweep → Nat) : Nat := (w.map f).getD 0
  bytesOf 8 no ++ bytesOf 4 first ++ bytesOf 4 count ++ bytesOf 8 at0 ++ bytesOf 8 at1 ++ bytesOf 4 (n (·.regs)) ++
    bytesOf 4 (n (·.before)) ++ bytesOf 4 (n (·.cut)) ++ bytesOf 4 (n (·.images)) ++ bytesOf 4 (n (·.wins)) ++ bytesOf 12 0

/-- The next sweep number of a world. -/
def State.nextSweep (s : State) (world : Nat) : Nat × State :=
  let n := (s.world world).sweepNo + 1
  (n, s.modWorld world fun w => { w with sweepNo := n })

/-- The checks of LREVOKE, its record first; a count of zero has its record at once. -/
def lrevokeStart (since : Nat) (h : Handle) (off : Int) (first count : Nat) (s : State) : Except Ans State :=
  let world := s.me.world
  let a := s.helmAcc
  match s.access a h off 64 .store 8 false fmt123 s.sectors with
  | .error f => .error (s, f.result)
  | .ok (ps, tab) =>
    let full := ((s.world world).addRevoked first count).ranges
    if first = 0 ∨ 2 ^ 32 ≤ first ∨ 2 ^ 32 < first + count then .error (s, failure .arith 17)
    else if count ≠ 0 ∧ 4096 < full.length then .error (s, failure .arith 17)
    else
      let s := (s.cacheTlb a.core a.world ps).withSectors tab
      if count = 0 then
        let r := s.nextSweep world
        .error (r.2.putBytes world (zipBytes ps (sweepRecord r.1 first 0 since s.lclock none)), ok r.1)
      else .ok (s.beginSweep world (.revoke first count) since (some s.cur) (piecesKeys ps))

/-! LSHARE (R365, R393). -/

/-- Does a role fit an owner count (R365)? -/
def roleFits (owners role : Nat) : Bool := (owners == 1 && role == 3) || (owners == 2 && (role == 1 || role == 2))

/-- The share of a role. -/
def World.share (w : World) (role : Nat) : BitVec 256 := (tabFind w.shares role).getD 0

/-- BIND of a world on the device that serves it (R365). -/
def bindOf (lodestar id : Nat) (nonce : BitVec 256) : List Byte :=
  sha256 (bytesOf 60 (Config.identityKey lodestar).toNat ++ bytesOf 2 id ++ digestBytes nonce)

/-- PRK from BIND and the key material (R365, R407). -/
def prkOf (lodestar id : Nat) (nonce : BitVec 256) (ikm : List Byte) : BitVec 256 :=
  digestOf (hkdfExtract (bindOf lodestar id nonce) ikm)

/-- The veil keys of a world on the six Synchronisation engines, from a draw on (R375). -/
def veilsFrom (n : Nat) : List (BitVec 256) := (upFrom n 6).map Config.drbg

/-- A world whose last share has arrived: its key, its veil keys, and LIVE (R365, R374, R375, R390). -/
def World.goLive (w : World) (lodestar id draw : Nat) : World :=
  let ikm := if w.owners = 1 then [w.share 3] else [w.share 1, w.share 2]
  { w with st := .live, prk := prkOf lodestar id w.nonce (ikm.flatMap digestBytes), veils := veilsFrom draw, shares := [], gen := 1,
           nextSerial := 1 }

/-- The Lodestar that serves: 0 hub die A, 1 hub die B. -/
def State.lodestar (s : State) : Nat := natOf s.standby

/-- The berth lists a world that has become LIVE (R399). -/
def State.listWorld (s : State) (id : Nat) : State :=
  let b := (s.world id).berth
  s.setBerth b { s.berth b with order := (s.berth b).order.filter (· != id) ++ [id] }

/-- The world goes LIVE. -/
def State.liven (s : State) (id : Nat) : State :=
  ({ s.setWorld id ((s.world id).goLive s.lodestar id s.fresh) with fresh := s.fresh + 6 }).listWorld id

/-- The application secret of the owner session that a blob names, while that session is up (R365). -/
def State.shareKey (s : State) (id sid : Nat) : Option (List Byte) :=
  (s.owned.find? fun o => o.1 == id && o.2.2.sid == sid && o.2.2.stage == 8).map fun o => digestBytes (Config.sessionSecret o.2.2.secret)

/-- The share in a blob, or none where its session is not up or its tag fails (Table 13.2). -/
def State.openShare (s : State) (blob : List Byte) : Option (BitVec 256) := do
  let key ← s.shareKey (natAt blob 0 2) (natAt blob 4 4)
  let share ← gcmOpen key ((blob.drop 8).take 12) (blob.take 20) ((blob.drop 20).take 32) ((blob.drop 52).take 16)
  pure (digestOf share)

/-- A share blob reaches the Lodestar for a world (R365). No world becomes LIVE before its berth's lines are fresh (R97). -/
def State.takeShare (s : State) (id : Nat) (blob : List Byte) : Ans :=
  let w := s.world id
  let role := byteAt blob 2
  match s.openShare blob with
  | none => (s, failure .integrity 2)
  | some share =>
    if !roleFits w.owners role ∨ (tabFind w.shares role).isSome then (s, failure .arith 21)
    else if w.st ≠ .awaiting then (s, failure .arith 20)
    else
      let w := { w with shares := tabSet w.shares role share }
      let s := s.setWorld id w
      if w.shares.length = w.owners ∧ (s.berth w.berth).freshDone then (s.liven id, ok 1) else (s, ok 0)

def lshareAns (h : Handle) (off : Int) (x : X64) (s : State) : Ans :=
  ansOf s (s.load s.helmAcc h off 128 1 false fmt123) fun r =>
    if x.toNat / 2 ^ 12 ≠ 0 then (r.2.2, failure .reservedField 0) else r.2.2.takeShare (x.toNat % 4096) r.1

/-! LROTATE (R376). -/

/-- Length of a rotation region. -/
def rotQ (share : Nat) : Nat := ((share + 11) / 12 + 4095) / 4096 * 4096

/-- Start and end of a region. -/
def regionLo (share j : Nat) : Nat := min share (j * rotQ share)
def regionHi (share j : Nat) : Nat := min share ((j + 1) * rotQ share)

def lrotateAns (sig : Option (BitVec 8)) (s : State) : Ans :=
  let id := s.me.world
  let w := s.world id
  let share := (s.berth w.berth).shareBytes
  if w.rot.isSome then (s, failure .arith 18)
  else
    let rot : Rot := ⟨(List.range 12).map (regionLo share), rotQ share, share, sig.map fun n => (dieOf s.cur, n.toNat), 0⟩
    (s.setWorld id { w with rot := some rot }, ok (w.gen + 1))

/-! LSCRUB (R380). -/

/-- Drop the listed bytes from a key on: they read as zero. -/
def zeroRange (m : Tab Byte) (lo n : Nat) : Tab Byte := m.filter fun e => decide (e.1 < lo) || decide (lo + n ≤ e.1)

/-- Words from a key on that have been written whole hold no error (R417). -/
def soundRange (ws : List Nat) (lo n : Nat) : List Nat := ws.filter fun w => decide (8 * w < lo) || decide (lo + n ≤ 8 * w)

/-- Granules of some banks that have been written whole hold no error (R417). -/
def Core.sound (k : Core) (os : List Nat) : Core := { k with ecc := k.ecc.filter fun o => !os.contains o }

/-- The vector register file back at its task-start state; the other queues stay (R380). -/
def Core.scrubVec (k : Core) : Core := { k with vq := [], heads := [], depths := List.replicate 64 16, qmapbase := 0 }

/-- The banks that a mask selects, under a new veil key; the others read as before (R380, log 34). -/
def State.scrubBanks (s : State) (c : Nat) (mask : BitVec 4) : State :=
  let d := s.draw
  let s := d.2.modCore c fun k =>
    let k := { k with veil := Config.drbg d.1 }
    let k := if mask.getLsbD 1 then k.scrubVec.sound ((List.range 1024).map slotGran) else k
    let k := if mask.getLsbD 2 then { k.sound ((List.range 16).map tileGran) with tiles := [] } else k
    if mask.getLsbD 3 then { k.sound ((List.range 1024).map accGran) with mx := { k.mx with acc := [] } } else k
  if mask.getLsbD 0 then
    { s with mem := zeroRange s.mem (scrKey (scrBase c)) 2097152, ecc2 := soundRange s.ecc2 (scrKey (scrBase c)) 2097152 }
  else s

/-! LFREEZE (R394). -/

/-- The checks of LFREEZE, the region's in the order of R84. -/
def lfreezeStart (since : Nat) (r d : Handle) (off : Int) (s : State) : Except Ans State :=
  let a := s.helmAcc
  if r.format = 0 then .error (s, failure .handleRights 0)
  else if r.revoked then .error (s, failure .handleRevoked 0)
  else if r.world.toNat ≠ a.world then .error (s, failure .handleWorld 0)
  else if r.format ≠ 1 ∨ !r.w ∨ !r.m then .error (s, failure .handleRights 0)
  else
    match s.access a d off 32 .store 1 false fmt123 s.sectors with
    | .error f => .error (s, f.result)
    | .ok (ps, tab) =>
      if 256 ≤ (s.world a.world).frozen.length then .error (s, failure .arith 19)
      else
        .ok (((s.cacheTlb a.core a.world ps).withSectors tab).beginSweep a.world (.freeze r.base.toNat r.length.toNat) since
          (some s.cur) (piecesKeys ps))

/-! LREPORT and LTRANS (R382, R384, R395). -/

def State.leavesOf (s : State) (n : Nat) : Leaves := (tabFind s.leaves n).getD .init

/-- Use the next bottom leaf; a spent tree takes the next top leaf. The stored counters go before the blocks (R382). -/
def Leaves.use (l : Leaves) : (Nat × Nat) × Leaves :=
  let l := if l.bot < 2 ^ 20 then l
    else { l with top := l.topNext, topNext := l.topNext + 1, topStored := max l.topStored (l.topNext / 1024 + 1), bot := 0, botStored := 0 }
  ((l.top, l.bot), { l with botStored := max l.botStored (l.bot / 1024 + 1), bot := l.bot + 1 })

/-- The report body (Table 13.6). -/
def State.reportBody (s : State) (id : Nat) (nonce : List Byte) : List Byte :=
  let w := s.world id
  let b := s.berth w.berth
  let count (m : Nat) : Nat := ((List.range 72).filter (bitOf m)).length
  let owner (role : Nat) : List Byte :=
    sha256 (((s.owned.find? fun o => o.1 == id && o.2.1 == role).map fun o => o.2.2.key).getD [])
  let frozen := w.frozen.flatMap fun f => bytesOf 8 f.1 ++ bytesOf 8 f.2.1 ++ bytesOf 32 f.2.2.toNat
  bytesOf 8 s.lclock ++ bytesOf 2 id ++ bytesOf 1 w.owners ++ bytesOf 1 s.lodestar ++ bytesOf 4 w.gen ++
    sha256 (bytesOf 60 (Config.identityKey s.lodestar).toNat) ++ bytesOf 32 Config.measurementDigest.toNat ++
    (if w.owners = 1 then owner 3 else owner 1) ++ (if w.owners = 1 then bytesOf 32 0 else owner 2) ++
    bytesOf 32 w.trT.toNat ++ bytesOf 8 w.trCount ++ bytesOf 2 w.berth ++ bytesOf 2 (count b.moored) ++
    bytesOf 2 (count b.slack) ++ bytesOf 2 b.share ++ nonce ++ sha256 frozen ++
    bytesOf 4 w.frozen.length ++ bytesOf 220 0

/-- The identity key of the Lodestar that serves signs under the next leaf (R381, R382). -/
def State.hssSign (s : State) (body : List Byte) : List Byte × (Nat × Nat) × State :=
  let n := s.lodestar
  let u := (s.leavesOf n).use
  (bytesOf 3604 (Config.hssSign n u.1.1 u.1.2 body), u.1, { s with leaves := tabSet s.leaves n u.2 })

/-- A signed report, the leaves it used, and the state after. -/
def State.signReport (s : State) (id : Nat) (nonce : List Byte) : List Byte × (Nat × Nat) × State :=
  let body := s.reportBody id nonce
  let g := s.hssSign body
  (body ++ g.1, g.2)

/-- The Lodestar signs the alias key that its SPDM sessions use, once, before the first of them (R381, log 34). -/
def State.signAlias (s : State) : State :=
  let n := s.lodestar
  match tabFind s.p384Leaf n with
  | some _ => s
  | none =>
    let g := s.hssSign (bytesOf 96 (Config.aliasKey n).toNat)
    { g.2.2 with p384Leaf := tabSet g.2.2.p384Leaf n g.2.1 }

def lreportAns (h hn : Handle) (off offn : Int) (s : State) : Ans :=
  let a := s.helmAcc
  ansOf s (s.access a h off 4116 .store 64 false fmt123 s.sectors) fun r =>
    ansOf s ((s.withSectors r.2).load a hn offn 64 1 false fmt123) fun q =>
      let w := ((q.2.2.cacheTlb a.core a.world r.1)).signReport s.me.world q.1
      (w.2.2.putBytes a.world (zipBytes r.1 w.1), ok (w.2.1.1 * 2 ^ 20 + w.2.1.2))

def ltransAns (h : Handle) (off : Int) (s : State) : Ans :=
  let w := s.world s.me.world
  ansOf s (s.store s.helmAcc h off (bytesOf 32 w.trT.toNat ++ bytesOf 8 w.trCount) 8 false fmt123) fun r =>
    (r.2, ok w.trCount)

/-! LWORLD (R396). -/

def WorldSt.code : WorldSt → Nat
  | .none => 0
  | .awaiting => 1
  | .live => 2
  | .ending => 3

def lworldStateAns (s : State) : Ans :=
  let w := s.world s.me.world
  (s, ok (w.st.code + s.me.world * 2 ^ 2 + w.gen % 2 ^ 32 * 2 ^ 14))

def lworldRootAns (pa : Nat) (s : State) : Ans :=
  let id := s.me.world
  if pa % 4096 ≠ 0 ∨ (s.berth (s.world id).berth).shareBytes ≤ pa then (s, failure .translation 4)
  else (s.modWorld id fun w => { w with root := pa }, ok 0)

def lworldProgressAns (j : Nat) (s : State) : Ans :=
  let w := s.world s.me.world
  if 11 < j then (s, failure .arith 15)
  else
    match w.rot with
    | some r => (s, result 0 1 (r.marks.getD j 0))
    | none => (s, ok (regionHi (s.berth w.berth).shareBytes j))

/-! LWINDOW (R425). -/

/-- Device and world that xb packs; the window that xa names. -/
def winDev (x : X64) : Nat := fieldOf x.toNat 9 0
def winWorld (x : X64) : Nat := fieldOf x.toNat 27 16
def winNo (x : X64) : Nat := fieldOf x.toNat 6 0

/-- The status of operands out of range. -/
def winBad (xa xb : X64) : Option X64 :=
  if fieldOf xb.toNat 15 10 ≠ 0 ∨ xb.toNat / 2 ^ 28 ≠ 0 ∨ xa.toNat / 2 ^ 7 ≠ 0 then some (failure .reservedField 0)
  else if 992 < winDev xb then some (failure .arith 22)
  else none

/-- EXPORT. -/
def exportAns (h : Handle) (win : Nat) (src : Nat × Nat) (s : State) : Ans :=
  let id := s.me.world
  let w := s.world id
  let put (v : Window) : Ans := (s.setWorld id { w with windows := tabSet w.windows win v }, ok v.sources.length)
  if !h.isSealed then (s, failure .handleSeal 0)
  else if h.revoked then (s, failure .handleRevoked 0)
  else if h.world.toNat ≠ id then (s, failure .handleWorld 0)
  else if (h.format ≠ 1 ∧ h.format ≠ 2) ∨ !h.f then (s, failure .handleRights 0)
  else
    match tabFind w.windows win with
    | none => put ⟨true, h, [src]⟩
    | some v =>
      if !v.opened then put ⟨true, h, [src]⟩
      else if v.h.serial ≠ h.serial then (s, failure .arith 22)
      else if v.sources.contains src then put v
      else if 16 ≤ v.sources.length then (s, failure .arith 22)
      else put { v with sources := v.sources ++ [src] }

/-- The binding that an admitted import records. -/
def State.bindImport (s : State) (world : Nat) (i : Import) : State :=
  s.modWorld world fun w =>
    { w with imports := (w.imports.filter fun j => !(j.dev == i.dev && j.world == i.world && j.win == i.win)) ++ [i] }

/-- CLOSE. -/
def closeAns (win : Nat) (s : State) : Ans := (s.modWorld s.me.world fun w => { w with windows := tabDrop w.windows win }, ok 0)

/-- The operands of a window request, or their status. -/
def winAns (xa xb : X64) (s : State) (k : State → Ans) : Ans :=
  match winBad xa xb with
  | some r => (s, r)
  | none => k s

/-! Service (R372, R389, R426). -/

/-- What the service of a request comes to: an answer, or work that goes on: a sweep, a question to another device. -/
inductive Service where
  | done (s : State) (v : X64)
  | busy (s : State)

def Service.of (a : Ans) : Service := .done a.1 a.2

def Service.start (e : Except Ans State) : Service :=
  match e with
  | .ok s => .busy s
  | .error a => .of a

/-- IMPORT: the question goes out, and the answer is what REMOTE_REPLY brings. -/
def importService (xa xb : X64) (s : State) : Service :=
  let id := s.me.world
  let w := s.world id
  let dev := winDev xb
  match winBad xa xb with
  | some r => .done s r
  | none =>
    if !(w.imports.any fun j => j.dev == dev && j.world == winWorld xb && j.win == winNo xa) ∧ 256 ≤ w.imports.length then
      .done s (failure .arith 22)
    else if !s.reachable s.lodestar dev then .done s (failure .linkDown 0)
    else .busy (s.emit (.ask s.cur ⟨dev, id, winWorld xb, winNo xa⟩))

/-- The service of a request of the core that `cur` names, which reached the Lodestar at a clock. -/
def serveReq (since : Nat) (s : State) : LReq → Service
  | .mint t off hd => .of (lmintAns t hd off s)
  | .reseal hd => .of (lsealAns hd s)
  | .revoke h off first count => .start (lrevokeStart since h off first count s)
  | .share h off x => .of (lshareAns h off x s)
  | .rotate sig => .of (lrotateAns sig s)
  | .scrub mask => .of (s.scrubBanks s.cur mask, ok 0)
  | .freeze r d off => .start (lfreezeStart since r d off s)
  | .report h hn off offn => .of (lreportAns h hn off offn s)
  | .trans h off => .of (ltransAns h off s)
  | .worldState => .of (lworldStateAns s)
  | .worldRoot pa => .of (lworldRootAns pa s)
  | .worldProgress j => .of (lworldProgressAns j s)
  | .worldClock => .of (s, ok s.lclock)
  | .exportWin h xa xb => .of (winAns xa xb s fun s => exportAns h (winNo xa) (winDev xb, winWorld xb) s)
  | .importWin xa xb => importService xa xb s
  | .closeWin xa xb => .of (winAns xa xb s fun s => closeAns (winNo xa) s)

/-- An INTEGRITY that a result reports counts for the issuer's world (R387). -/
def State.noteResult (s : State) (c : Nat) (v : X64) : State := s.noteIntegrity (s.core c).world (v.toNat % 256)

/-- A result reaches the Helm that waits for it. -/
def State.answerLode (s : State) (c : Nat) (v : X64) : State :=
  (s.noteResult c v).modStrm c .h fun t =>
    match t.wait with
    | some w => if w.kind = .request ∧ w.seen = 1 ∧ !w.done then { t with wait := some { w with done := true, value := v } } else t
    | none => t

/-- The Lodestar takes the request at the head of its queue, and those after it in their turn, until one goes on or waits for its
mailbox (R372, R426). -/
def serveQueue : Nat → State → State
  | 0, s => s
  | fuel + 1, s =>
    if s.sweep.isSome ∨ s.lodeDown then s
    else
      match s.lodeQ with
      | [] => s
      | a :: rest =>
        match a.who with
        | .host _ => s
        | .sweep w op => s.beginSweep w op a.since none []
        | .core c r =>
          if a.asked then s
          else
            match serveReq a.since { s with cur := c } r with
            | .done s' v => serveQueue fuel ({ s' with cur := s.cur, lodeQ := rest }.answerLode c v)
            | .busy s' => { s' with cur := s.cur, lodeQ := { a with asked := true } :: rest }

/-- The request at the head is done; the next ones follow. -/
def State.nextLode (s : State) : State := serveQueue s.lodeQ.length { s with lodeQ := s.lodeQ.drop 1 }

/-- The Helm has its result. -/
def State.asked (s : State) : State := s.modStrm s.cur .h fun v => { v with wait := none }

/-- The Helm waits for its result. -/
def State.asking (s : State) (r : LReq) : State :=
  (s.askLode (.core s.cur r)).modStrm s.cur .h fun v => { v with wait := some ⟨.request, false, 0, [], 1⟩ }

/-- A Lodestar instruction: an idle Lodestar serves its request at once; else the Helm waits for its turn, and for the end of work that
goes on. It retires when the result returns (R389, R426). -/
def lode (s : State) (sup : Bool) (xc : XReg) (r : LReq) : HRes :=
  if sup && !s.me.supervisor then .fault ⟨.privilege, 0, 0⟩
  else
    match s.awaited .h with
    | some w => if w.done then retireX s.asked xc w.value else .stall s
    | none =>
      if !s.lodeIdle then .stall (s.asking r)
      else
        match serveReq s.lclock s r with
        | .done s' v => retireX (s'.noteResult s.cur v) xc v
        | .busy s' =>
          let q := (s'.asking r).lodeQ.map fun (a : LodeAsk) => { a with asked := true }
          .stall { s'.asking r with lodeQ := q }

/-! The instructions (Table 13.8). -/

def execLmint (ha hd : HReg) (xa xc : XReg) (s : State) : Out3 := helmC s (lode s true xc (.mint (s.me.getH ha) (s.sreg xa) hd))

def execLseal (hd : HReg) (xc : XReg) (s : State) : Out3 := helmC s (lode s false xc (.reseal hd))

def execLrevoke (ha : HReg) (xa xb xc : XReg) (imm : BitVec 32) (s : State) : Out3 :=
  helmC s (lode s true xc (.revoke (s.me.getH ha) imm.toInt (s.me.getX xa).toNat (s.me.getX xb).toNat))

def execLshare (ha : HReg) (xa xb xc : XReg) (s : State) : Out3 :=
  helmC s (lode s true xc (.share (s.me.getH ha) (s.sreg xa) (s.me.getX xb)))

def execLrotate (xc : XReg) (sig : Option (BitVec 8)) (s : State) : Out3 := helmC s (lode s true xc (.rotate sig))

/-- LSCRUB waits as HALT does before its request goes (R380). -/
def execLscrub (xc : XReg) (mask : BitVec 4) (s : State) : Out3 :=
  helmC s <|
    if mask = 0 then retireX s xc (ok 0)
    else if s.me.busy ∨ !s.me.drained then .stall s
    else lode s false xc (.scrub mask)

def execLfreeze (ha hb : HReg) (xa xc : XReg) (s : State) : Out3 :=
  helmC s (lode s true xc (.freeze (s.me.getH ha) (s.me.getH hb) (s.sreg xa)))

def execLreport (ha hb : HReg) (xa xb xc : XReg) (s : State) : Out3 :=
  helmC s (lode s true xc (.report (s.me.getH ha) (s.me.getH hb) (s.sreg xa) (s.sreg xb)))

def execLtrans (ha : HReg) (xa xc : XReg) (s : State) : Out3 := helmC s (lode s false xc (.trans (s.me.getH ha) (s.sreg xa)))

def execLworldState (_xa xc : XReg) (s : State) : Out3 := helmC s (lode s false xc .worldState)

def execLworldRoot (xa xc : XReg) (s : State) : Out3 := helmC s (lode s true xc (.worldRoot (s.me.getX xa).toNat))

def execLworldProgress (xa xc : XReg) (s : State) : Out3 := helmC s (lode s false xc (.worldProgress (s.me.getX xa).toNat))

def execLworldClock (_xa xc : XReg) (s : State) : Out3 := helmC s (lode s false xc .worldClock)

def execLwindowExport (ha : HReg) (xa xb xc : XReg) (s : State) : Out3 :=
  helmC s (lode s true xc (.exportWin (s.me.getH ha) (s.me.getX xa) (s.me.getX xb)))

def execLwindowImport (xa xb xc : XReg) (s : State) : Out3 := helmC s (lode s true xc (.importWin (s.me.getX xa) (s.me.getX xb)))

def execLwindowClose (xa xb xc : XReg) (s : State) : Out3 := helmC s (lode s true xc (.closeWin (s.me.getX xa) (s.me.getX xb)))

end Sys2Proof.Machine
end

