-- ==== Sys2Proof/Machine/SaveArea.lean ====
section
/-! DEFINITION. The save area of a task: its layout, the save, and the lazy fill of restored state (R130, R131, R186,
R187, R217, R218, R246, R278, R279). A granule is named by its offset in the area. -/
namespace Sys2Proof.Machine

/-! Registers that an instruction names. -/

def shXs : ShAmt → List XReg
  | .reg xb => [xb]
  | .imm _ => []

def semXs : SemArg → List XReg
  | .reg xa xb => [xa, xb]
  | .imm _ _ => []

def tlXs : TlArg → List XReg
  | .h xa xc => [xa, xc]
  | .oq _ => []

/-- x registers of an instruction's fields. -/
def xsOf (i : Instr) : List XReg :=
  match i with
  | .add _ xd xa xb | .sub _ xd xa xb | .mul _ xd xa xb | .mulh _ xd xa xb | .mulhn _ xd xa xb | .div _ xd xa xb
  | .divn _ xd xa xb | .rem _ xd xa xb | .remn _ xd xa xb | .and _ xd xa xb | .or _ xd xa xb | .xor _ xd xa xb
  | .min _ _ xd xa xb | .max _ _ xd xa xb => [xd, xa, xb]
  | .addi _ xd xa _ | .andi _ xd xa _ | .ori _ xd xa _ | .xori _ xd xa _ | .clz _ xd xa | .bsel _ _ xd xa _
  | .ld _ _ _ _ xd _ xa _ => [xd, xa]
  | .shl _ xd xa amt | .shr _ xd xa amt | .sra _ xd xa amt => [xd] ++ [xa] ++ shXs amt
  | .movi _ xd _ | .hget _ _ xd _ | .csrr _ xd _ => [xd]
  | .cmp _ _ _ xa xb | .st _ _ _ _ _ xa _ xb | .hnarrow _ _ _ xa xb _ _ | .hchk _ _ _ xa xb _ | .fenceTranslation _ xa xb
  | .tarm _ xa xb _ => [xa, xb]
  | .cmpi _ _ _ xa _ | .slatex _ _ xa | .hld _ _ _ _ _ xa _ | .hst _ _ _ _ xa _ _ | .oqsend _ _ _ xa | .csrw _ _ xa
  | .waiti _ xa | .cchain _ _ xa _ | .qpush _ xa _ | .heapfree xa | .fref xa | .fdrop xa | .fdone xa | .yield xa => [xa]
  | .cpy _ _ _ _ _ xa xb xc _ | .cpyt _ _ _ _ _ _ xa xb xc _ | .cpymIn _ _ _ _ _ _ xa xb xc _
  | .cpymOut _ _ _ _ _ _ xa xb xc _ _ | .cfill _ _ _ _ xa xb xc _ | .barrInit _ xa xb xc _ | .bwait _ xa xb xc _
  | .amo _ _ _ _ _ xa xb xc _ | .vamo _ _ _ _ _ _ _ xa xb xc | .flwait _ _ xa xb xc _ | .requeue xa xb xc
  | .rmst _ _ xa xb xc _ _ | .rmld _ _ xa xb xc _ | .rmamo _ _ _ _ xa xb xc _ _ | .mcst _ _ xa xb xc _ _
  | .mcld _ _ _ _ xa xb xc _ | .spred _ _ _ _ xa xb xc _ _ | .gjoin _ xa xb xc | .lrevoke _ xa xb xc _ | .lshare _ xa xb xc
  | .lreport _ _ xa xb xc | .lwindowExport _ xa xb xc | .lwindowImport xa xb xc | .lwindowClose xa xb xc => [xa, xb, xc]
  | .strbind _ _ _ _ _ xa xc _ | .cstat _ xa xc _ | .barrArrive _ xa xc _ | .barrWait _ xa xc _ | .barrReset _ xa xc _
  | .heapalloc xa xc | .spawn _ xa xc _ _ | .fget _ xa xc | .tlaunch _ xa xc _ _ | .tcancel xa xc | .gang xa xc
  | .tstat _ xa xc | .linkst xa xc _ | .lmint _ _ xa xc | .lfreeze _ _ xa xc | .ltrans _ xa xc | .lworldState xa xc
  | .lworldRoot xa xc | .lworldProgress xa xc | .lworldClock xa xc => [xa, xc]
  | .ccancel _ xc | .ctlread _ xc _ | .gpos xc | .rfence xc | .lseal _ xc | .lrotate xc _ | .lscrub xc _ => [xc]
  | .swait arg _ | .ssig arg _ => semXs arg
  | .tlwait _ arg => tlXs arg
  | .sset _ xb xc _ => [xb, xc]
  | .gleave xb => [xb]
  | _ => []

/-- h registers of an instruction's fields. -/
def hsOf (i : Instr) : List HReg :=
  match i with
  | .ld _ _ _ _ _ h _ _ | .st _ _ _ _ h _ _ _ | .mmag _ _ h _ _ _ _ _ _ _ | .barrArrive h _ _ _ | .barrWait h _ _ _
  | .barrInit h _ _ _ _ | .barrReset h _ _ _ | .bwait h _ _ _ _ | .amo _ _ _ _ h _ _ _ _ | .flwait _ h _ _ _ _
  | .spawn h _ _ _ _ | .tlaunch h _ _ _ _ | .tarm h _ _ _ => [h]
  | .hld _ _ _ hd hm _ _ => [hd, hm]
  | .hst _ _ _ hm _ _ hs => [hm, hs]
  | .hnarrow _ hd hs _ _ _ _ | .hmov _ hd hs => [hd, hs]
  | .hget _ _ _ hs | .hchk _ _ hs _ _ _ => [hs]
  | .hclr _ hd | .lseal hd _ => [hd]
  | .tld _ _ _ _ mem | .vld _ _ _ mem _ | .vlds _ _ mem _ _ | .vgather _ _ mem _ _ | .tst _ _ _ _ _ mem | .vst _ _ mem _ _
  | .vsts _ mem _ _ _ | .vscatter _ mem _ _ _ => [mem.h]
  | .cpy _ _ _ ha hb _ _ _ _ | .cpyt _ _ _ _ ha hb _ _ _ _ | .vamo _ _ _ _ _ ha hb _ _ _ | .rmst ha hb _ _ _ _ _
  | .rmld ha hb _ _ _ _ | .rmamo _ _ ha hb _ _ _ _ _ | .mcst ha hb _ _ _ _ _ | .mcld _ _ ha hb _ _ _ _
  | .spred _ _ ha hb _ _ _ _ _ | .lfreeze ha hb _ _ | .lreport ha hb _ _ _ => [ha, hb]
  | .cpymIn _ _ _ _ ha _ _ _ _ _ | .cpymOut _ _ _ _ ha _ _ _ _ _ _ | .cchain _ ha _ _ | .strbind _ _ _ _ ha _ _ _
  | .gjoin ha _ _ _ | .lrevoke ha _ _ _ _ | .lshare ha _ _ _ | .ltrans ha _ _ | .lwindowExport ha _ _ _ => [ha]
  | .cfill _ _ _ hb _ _ _ _ => [hb]
  | .lmint ha hd _ _ => [ha, hd]
  | _ => []

/-! Layout. -/

/-- Bytes of a granule. -/
def granLen (o : Nat) : Nat :=
  if o < 0x1200 then 256
  else if o < 0x41200 then 16384
  else if o < 0x42400 then 256
  else if o < 0x46400 then 2048
  else if o < 0xC6400 then 512
  else if o < 0xC7000 then 256
  else if o < 0xD7000 then 32768
  else 512

/-- n granules of one size from an offset. -/
def gransFrom (o size n : Nat) : List Nat := (List.range n).map fun i => o + size * i

/-- Granules of a side's state and operand queues, state first. -/
def sideGrans : Stream → List Nat
  | .h => [0x200]
  | .l => [0xB00, 0xD00, 0xE00]
  | .s => [0xC00, 0xF00, 0x1000]
  | .v => [0x41200, 0x41300, 0x41400]
  | .m => [0xC6D00, 0xC6E00, 0xC6F00]

/-- The Vector granules above the slot rows (R218). -/
def vecGrans : List Nat :=
  [0x41200, 0x41300, 0x41400, 0x41500, 0x41600] ++ gransFrom 0x41700 256 8 ++ gransFrom 0x41F00 256 4 ++ [0x42300] ++
    gransFrom 0x42400 2048 8

/-- Granules of a copy queue. -/
def cqGrans (q : Nat) : List Nat := [0xC6400, 0xC6500 + 512 * q, 0xC6600 + 512 * q]

/-- Every granule of the area. -/
def allGrans : List Nat :=
  [0, 0x100, 0x200] ++ gransFrom 0x300 256 8 ++ sideGrans .l ++ sideGrans .s ++ [0x1100] ++ gransFrom 0x1200 16384 16 ++
    vecGrans ++ gransFrom 0x46400 512 1024 ++ [0xC6400] ++ gransFrom 0xC6500 256 8 ++ sideGrans .m ++
    [0xC7000, 0xCF000] ++ gransFrom 0xD7000 512 1024

/-- Fields placed by byte offset and size. -/
def layNat (fs : List (Nat × Nat × Nat)) : Nat := fs.foldl (fun n f => n + f.2.2 % 2 ^ (8 * f.2.1) * 2 ^ (8 * f.1)) 0

/-- Loop levels from byte 16 (Table 6.6); of levels that are not open, and of entries beyond a queue's count, a save writes zeros
(log 31). -/
def levelFields (ls : List Level) : List (Nat × Nat × Nat) :=
  (ls.zip (List.range 6)).flatMap fun p =>
    let o := 16 + 32 * p.2
    let l := p.1
    [(o, 4, l.trip.toNat), (o + 4, 4, l.count.toNat), (o + 8, 2, l.body.toNat)] ++
      (List.range 4).map fun q => (o + 16 + 4 * q, 4, (l.strides.getD q 0).toNat)

def savedLevel (bs : List Byte) (i : Nat) : Level :=
  let o := 16 + 32 * i
  { trip := BitVec.ofNat 32 (natAt bs o 4), count := BitVec.ofNat 32 (natAt bs (o + 4) 4), body := BitVec.ofNat 16 (natAt bs (o + 8) 2)
    strides := (List.range 4).map fun q => BitVec.ofNat 32 (natAt bs (o + 16 + 4 * q) 4) }

/-- Fields that the state granules of L, S, V and M have in common. -/
def stateFields (v : StreamSt) : List (Nat × Nat × Nat) :=
  [(0, 2, v.pc.toNat), (2, 1, v.count.toNat), (3, 1, natOf v.early), (4, 1, v.levels.length)] ++
    (List.range 4).map (fun i => (8 + i, 1, (v.oqs.getD i []).length)) ++ levelFields v.levels

def edgeFields (v : StreamSt) : List (Nat × Nat × Nat) := [(5, 1, v.cedge), (6, 1, v.redge)]

/-- The entries of two operand queues, head first. -/
def oqFields (v : StreamSt) (q : Nat) : List (Nat × Nat × Nat) :=
  (List.range 2).flatMap fun i =>
    ((v.oqs.getD (q + i) []).zip (List.range 16)).map fun p => (128 * i + 8 * p.2, 8, p.1.val.toNat)

def selNat : MSel → Nat
  | .fixed e => 128 + e
  | .level l => l

def selOf (n : Nat) : MSel := if bitOf n 7 then .fixed (n % 16) else .level (n % 16)

/-- The Helm granule at 0x0200 (Table 5.7). -/
def Core.helmFields (k : Core) : List (Nat × Nat × Nat) :=
  [(0, 1, k.c.toNat), (8, 1, k.hs.count.toNat), (9, 1, natOf k.hs.early), (16, 2, k.hs.pc.toNat)] ++
    ([k.status, k.epc, k.etval, k.cause, k.tvec, k.padm, k.ftbase].zip (List.range 7)).map (fun p => (32 + 8 * p.2, 8, p.1.toNat)) ++
    (k.slates.zip (List.range 10)).map fun p => (128 + 8 * p.2, 8, p.1.target.toNat + natOf p.1.valid * 2 ^ 63)

/-- The M state granule (Table 9.10). -/
def Core.matFields (k : Core) : List (Nat × Nat × Nat) :=
  stateFields k.ms ++
    [(5, 1, selNat k.mx.sel), (6, 1, k.mx.cls), (7, 1, k.mx.ws0.ty.toNat + 16 * k.mx.ws1.ty.toNat), (12, 2, k.ftSnap.toNat),
     (14, 1, k.passOver), (208, 4, k.foa.toNat), (212, 4, k.foc.toNat)] ++
    ((k.mx.ftab).zip (List.range 16)).map (fun p => (216 + 2 * p.2, 2, p.1.toNat)) ++
    [(248, 4, k.mx.ws0.scale.toNat), (252, 4, k.mx.ws1.scale.toNat)]

/-- The entry that a slot holds: its queue and place from the head. -/
def Core.slotHome (k : Core) (m : Nat) : Option (Nat × Nat) :=
  (List.range 64).findSome? fun q =>
    (List.range (k.vqueue q).length).findSome? fun j => if k.slotIx q j = m then some (q, j) else none

/-- Every slot that holds an entry, with the entry. -/
def Core.liveSlots (k : Core) : List (Nat × VEnt) :=
  (List.range 64).flatMap fun q => ((k.vqueue q).zip (List.range 64)).map fun p => (k.slotIx q p.2, p.1)

/-- Records of sixteen operations of a copy queue: of slot b + i the newest operation with that number modulo 32. -/
def CopyQ.slotNo (v : CopyQ) (b : Nat) : Option Nat :=
  let back := (v.assigned + 32 - b) % 32
  if back < v.assigned then some (v.assigned - back) else none

def CopyQ.recFields (v : CopyQ) (b : Nat) : List (Nat × Nat × Nat) :=
  (List.range 16).flatMap fun i =>
    match (v.slotNo (b + i)).bind v.record with
    | some st => [(16 * i, 8, st.word.toNat), (16 * i + 8, 8, st.off)]
    | none => []

def CStat.ofWords (w o : Nat) : CStat := ⟨w % 256, fieldOf w 15 12, fieldOf w 9 9, fieldOf w 63 16, o⟩

/-- A granule as a save writes it. -/
def Core.granNat (k : Core) (now o : Nat) : Nat :=
  if o < 0x200 then layNat ((List.range 32).map fun j => (8 * j, 8, (k.getX (BitVec.ofNat 6 (o / 8 + j))).toNat))
  else if o = 0x200 then layNat k.helmFields
  else if o < 0xB00 then
    layNat ((List.range 4).flatMap fun j =>
      let h := k.getH (BitVec.ofNat 5 ((o - 0x300) / 64 + j))
      [(64 * j, 32, h.image.toNat), (64 * j + 32, 1, natOf h.isSealed + 2 * natOf h.revoked)])
  else if o = 0xB00 then layNat (stateFields k.ls ++ edgeFields k.ls)
  else if o = 0xC00 then layNat (stateFields k.ss ++ edgeFields k.ss)
  else if o < 0xF00 then layNat (oqFields k.ls ((o - 0xD00) / 128))
  else if o < 0x1100 then layNat (oqFields k.ss ((o - 0xF00) / 128))
  else if o = 0x1100 then (List.range 16).foldl (fun n t => n + natOf (k.tile t).full * 2 ^ t) 0
  else if o < 0x41200 then (k.tile ((o - 0x1200) / 16384)).bits.toNat
  else if o = 0x41200 then layNat (stateFields k.vs ++ [(5, 1, k.mask.length)])
  else if o < 0x41500 then layNat (oqFields k.vs ((o - 0x41300) / 128))
  else if o = 0x41500 then
    layNat ((List.range 64).flatMap fun q =>
      [(4 * q, 1, (k.vqueue q).length), (4 * q + 1, 1, k.headAt q), (4 * q + 2, 1, k.depth q)])
  else if o = 0x41600 then
    k.qmapbase.toNat +
      2 ^ 1024 * (k.liveSlots.foldl (fun n p => if p.2.short || p.2.isExpired now then n + 2 ^ p.1 else n) 0)
  else if o < 0x41F00 then layNat ((List.range 4).map fun j => (64 * j, 64, (k.getK ((o - 0x41700) / 64 + j)).toNat))
  else if o < 0x42300 then
    layNat ((List.range 4).map fun j => (64 * j, 64, (k.mask.reverse.getD ((o - 0x41F00) / 64 + j) 0).toNat))
  else if o = 0x42300 then layNat ((List.range 8).map fun n => (n, 1, (k.srq n).length))
  else if o < 0x46400 then
    layNat (((k.srq ((o - 0x42400) / 2048)).zip (List.range 4)).map fun p => (512 * p.2, 512, p.1.v.toNat))
  else if o < 0xC6400 then
    match k.slotHome ((o - 0x46400) / 512) with
    | some (q, j) => (((k.vqueue q)[j]?).map fun e => e.v.toNat).getD 0
    | none => 0
  else if o = 0xC6400 then
    layNat ((List.range 4).flatMap fun q =>
      let v := k.cq q
      [(32 * q, 8, v.assigned), (32 * q + 8, 8, v.completed), (32 * q + 16, 8, v.firstFail)])
  else if o < 0xC6D00 then layNat ((k.cq ((o - 0xC6500) / 512)).recFields ((o - 0xC6500) % 512 / 16))
  else if o = 0xC6D00 then layNat k.matFields
  else if o < 0xC7000 then layNat (oqFields k.ms ((o - 0xC6E00) / 128))
  else if o < 0xCF000 then k.mx.ws0.w.toNat
  else if o < 0xD7000 then k.mx.ws1.w.toNat
  else (k.mx.accRow ((o - 0xD7000) / 512)).toNat

/-! The save. -/

/-- Granules that a save of a core writes: those present, and of the slots those that hold an entry (R218). -/
def Core.saveGrans (k : Core) : List Nat :=
  let slots := k.liveSlots.map fun p => slotGran p.1
  allGrans.filter fun o => !k.absent.contains o && (decide (o < 0x46400) || decide (0xC6400 ≤ o) || slots.contains o)

/-- Save a core to the area at an address; the first line that cannot be written ends it. -/
def State.saveGo (s : State) (c area : Nat) : List Nat → Except Flt State
  | [] => .ok s
  | o :: rest =>
    let k := s.core c
    match s.store (engineAcc c k.world) (worldHandleAt k.world (area + o)) 0 (bytesOf (granLen o) (k.granNat s.now o)) 1 true [1] with
    | .ok (_, s') => s'.saveGo c area rest
    | .error f => .error f


/-! The fill. -/

/-- x60 to x62 are the phase's (R309), and x0 is none. -/
def Core.fillX (k : Core) (n : Nat) (bs : List Byte) : Core :=
  { k with x := (List.range 32).foldl (fun t j =>
      if n + j = 0 ∨ (60 ≤ n + j ∧ n + j ≤ 62) then t else tabSet t (n + j) (BitVec.ofNat 64 (natAt bs (8 * j) 8))) k.x }

/-- The pc is the phase's. Bits that Tables 5.3 to 5.5 reserve read zero whatever the area holds (R116). -/
def Core.fillHelm (k : Core) (bs : List Byte) : Core :=
  let w (i : Nat) : X64 := BitVec.ofNat 64 (natAt bs (32 + 8 * i) 8)
  let k := { k with
    c := BitVec.ofNat 8 (natAt bs 0 1) ||| 0x80
    hs := { k.hs with count := BitVec.ofNat 8 (natAt bs 8 1), early := bitOf (natAt bs 9 1) 0 }
    status := w 0 &&& statusMask
    slates := (List.range 10).map fun i =>
      let x := natAt bs (128 + 8 * i) 8
      ⟨BitVec.ofNat 16 x, bitOf x 63, .empty⟩ }
  ((((((k.csrWrite .epc (w 1)).csrWrite .etval (w 2)).csrWrite .cause (w 3)).csrWrite .tvec (w 4)).csrWrite .padm (w 5))).csrWrite
    .ftbase (w 6)

/-- A handle bears what sweeps have matched since the save, revocations and freezes (R131, R394). -/
def State.fillH (s : State) (k : Core) (n : Nat) (bs : List Byte) : Core :=
  (List.range 4).foldl (fun k j =>
    let st := natAt bs (64 * j + 32) 1
    let h := { Handle.ofBytes ((bs.drop (64 * j)).take 32) with isSealed := bitOf st 0, revoked := bitOf st 1 }
    k.setH (BitVec.ofNat 5 (n + j)) (if h.format == 0 then h else s.swept h)) k

/-- A stream that a FORK since the restore started keeps what FORK gave it, one that it did not start the counts it gave (R151), and
queues that a JOIN 1 since the restore has emptied stay as they are (R152). Bytes outside the ranges of their fields (a loop depth over 6,
an edge over 128, a count over 16) are taken as they stand: the manual is silent on them (log 31). -/
def StreamSt.fillState (v : StreamSt) (forked dropped edges : Bool) (bs : List Byte) : StreamSt :=
  let oqs : List (List OqEnt) :=
    if dropped then v.oqs else (List.range 4).map fun i => List.replicate (natAt bs (8 + i) 1) ⟨0, []⟩
  if v.run ≠ .absent then { v with oqs := oqs }
  else
    { v with
      oqs := oqs
      pc := BitVec.ofNat 16 (natAt bs 0 2)
      count := if forked then v.count else BitVec.ofNat 8 (natAt bs 2 1)
      early := if forked then v.early else bitOf (natAt bs 3 1) 0
      levels := (List.range (natAt bs 4 1)).map (savedLevel bs)
      cedge := if edges then natAt bs 5 1 else v.cedge
      redge := if edges then natAt bs 6 1 else v.redge }

/-- Entries of two operand queues, unless a JOIN 1 since the restore has emptied them. -/
def StreamSt.fillOq (v : StreamSt) (dropped : Bool) (q : Nat) (bs : List Byte) : StreamSt :=
  let one (o : List (List OqEnt)) (i : Nat) : List (List OqEnt) :=
    listPut o (q + i) ((List.range (o.getD (q + i) []).length).map fun j => ⟨BitVec.ofNat 64 (natAt bs (128 * i + 8 * j) 8), []⟩)
  if dropped then v else { v with oqs := one (one v.oqs 0) 1 }

/-- Counts, heads and depths of the vector queues; only slots that hold an entry stay absent. -/
def Core.fillQueues (k : Core) (bs : List Byte) : Core :=
  let k := { k with
    depths := (List.range 64).map fun q => natAt bs (4 * q + 2) 1
    heads := (List.range 64).map fun q => (q, natAt bs (4 * q + 1) 1)
    vq := (List.range 64).map fun q => (q, List.replicate (natAt bs (4 * q) 1) ⟨0, false, 0, false⟩) }
  let live := k.liveSlots.map fun p => slotGran p.1
  { k with absent := k.absent.filter fun o => decide (o < 0x46400) || decide (0xC6400 ≤ o) || live.contains o }

def Core.fillExpired (k : Core) (bs : List Byte) : Core :=
  let flags := natAt bs 128 128
  { k with
    qmapbase := BitVec.ofNat 64 (natAt bs 0 8) &&& 0x800000000000FFFF
    vq := (List.range 64).map fun q =>
      (q, ((k.vqueue q).zip (List.range 64)).map fun p =>
        let x := bitOf flags (k.slotIx q p.2)
        { p.1 with short := x, expired := x }) }

/-- k24 to k31 are the phase's (R309). -/
def Core.fillK (k : Core) (n : Nat) (bs : List Byte) : Core :=
  (List.range 4).foldl (fun k j =>
    if n + j = 0 ∨ 24 ≤ n + j then k else k.setK (n + j) (BitVec.ofNat 512 (natAt bs (64 * j) 64))) k

def Core.fillMask (k : Core) (n : Nat) (bs : List Byte) : Core :=
  let put (m : List Pred) (j : Nat) : List Pred := listPut m (n + j) (BitVec.ofNat 512 (natAt bs (64 * j) 64))
  { k with mask := ((List.range 4).foldl put k.mask.reverse).reverse }

def Core.fillSlot (k : Core) (m : Nat) (bs : List Byte) : Core :=
  match k.slotHome m with
  | some (q, j) =>
    let es := k.vqueue q
    match es[j]? with
    | some e => { k with vq := tabSet k.vq q (listPut es j { e with v := BitVec.ofNat 4096 (ofBytes bs) }) }
    | none => k
  | none => k

def Core.fillNumbers (k : Core) (bs : List Byte) : Core :=
  (List.range 4).foldl (fun k q =>
    k.setCq q { k.cq q with
      assigned := natAt bs (32 * q) 8, completed := natAt bs (32 * q + 8) 8, firstFail := natAt bs (32 * q + 16) 8 }) k

def CopyQ.fillRecs (v : CopyQ) (b : Nat) (bs : List Byte) : CopyQ :=
  { v with recs := (List.range 16).foldl (fun r i =>
      match v.slotNo (b + i) with
      | some n =>
        let w := natAt bs (16 * i) 8
        if bitOf w 8 then (n, CStat.ofWords w (natAt bs (16 * i + 8) 8)) :: r else r
      | none => r) v.recs }

/-- FOA and FOC go on from the saved counts: follow-ons may have been accepted and taken since the restore (R268, R270). -/
def Core.fillMat (k : Core) (bs : List Byte) : Core :=
  let tys := natAt bs 7 1
  let m := k.mx
  let slot (v : Slot) (ty o : Nat) : Slot := { v with ty := BitVec.ofNat 4 ty, scale := BitVec.ofNat 32 (natAt bs o 4) }
  { k with
    ms := k.ms.fillState k.forked k.dropped false bs
    ftSnap := if k.ms.run ≠ .absent then k.ftSnap else BitVec.ofNat 16 (natAt bs 12 2)
    passOver := natAt bs 14 1
    foa := k.foa + BitVec.ofNat 32 (natAt bs 208 4)
    foc := k.foc + BitVec.ofNat 32 (natAt bs 212 4)
    mx := { m with
      sel := selOf (natAt bs 5 1), cls := natAt bs 6 1
      ftab := (List.range 16).map fun i => BitVec.ofNat 16 (natAt bs (216 + 2 * i) 2)
      ws0 := slot m.ws0 (tys % 16) 248, ws1 := slot m.ws1 (tys / 16) 252 } }

/-- A granule's bytes enter the core. -/
def State.putGran (s : State) (k : Core) (o : Nat) (bs : List Byte) : Core :=
  if o < 0x200 then k.fillX (o / 8) bs
  else if o = 0x200 then k.fillHelm bs
  else if o < 0xB00 then s.fillH k ((o - 0x300) / 64) bs
  else if o = 0xB00 then { k with ls := k.ls.fillState k.forked k.dropped true bs }
  else if o = 0xC00 then { k with ss := k.ss.fillState k.forked k.dropped true bs }
  else if o < 0xF00 then { k with ls := k.ls.fillOq k.dropped ((o - 0xD00) / 128) bs }
  else if o < 0x1100 then { k with ss := k.ss.fillOq k.dropped ((o - 0xF00) / 128) bs }
  else if o = 0x1100 then
    (List.range 16).foldl (fun k t => k.setTile t { (k.tile t) with full := bitOf (natAt bs 0 2) t }) k
  else if o < 0x41200 then
    let t := (o - 0x1200) / 16384
    k.setTile t { (k.tile t) with bits := BitVec.ofNat 131072 (ofBytes bs) }
  else if o = 0x41200 then
    { k with vs := k.vs.fillState k.forked k.dropped false bs
             mask := if k.vs.run ≠ .absent then k.mask else List.replicate (natAt bs 5 1) 0 }
  else if o < 0x41500 then { k with vs := k.vs.fillOq k.dropped ((o - 0x41300) / 128) bs }
  else if o = 0x41500 then k.fillQueues bs
  else if o = 0x41600 then k.fillExpired bs
  else if o < 0x41F00 then k.fillK ((o - 0x41700) / 64) bs
  else if o < 0x42300 then k.fillMask ((o - 0x41F00) / 64) bs
  else if o = 0x42300 then
    { k with sr := (List.range 8).map fun n => (n, List.replicate (natAt bs n 1) ⟨0, []⟩) }
  else if o < 0x46400 then
    let n := (o - 0x42400) / 2048
    { k with sr := tabSet k.sr n ((List.range (k.srq n).length).map fun j => ⟨BitVec.ofNat 4096 (natAt bs (512 * j) 512), []⟩) }
  else if o < 0xC6400 then k.fillSlot ((o - 0x46400) / 512) bs
  else if o = 0xC6400 then k.fillNumbers bs
  else if o < 0xC6D00 then
    let q := (o - 0xC6500) / 512
    k.setCq q ((k.cq q).fillRecs ((o - 0xC6500) % 512 / 16) bs)
  else if o = 0xC6D00 then k.fillMat bs
  else if o < 0xC7000 then { k with ms := k.ms.fillOq k.dropped ((o - 0xC6E00) / 128) bs }
  else if o < 0xCF000 then { k with mx := { k.mx with ws0 := { k.mx.ws0 with w := BitVec.ofNat 262144 (ofBytes bs) } } }
  else if o < 0xD7000 then { k with mx := { k.mx with ws1 := { k.mx.ws1 with w := BitVec.ofNat 262144 (ofBytes bs) } } }
  else { k with mx := k.mx.setRow ((o - 0xD7000) / 512) (BitVec.ofNat 4096 (ofBytes bs)) }

/-- Fill one granule if it is absent; a line whose tag fails leaves it absent (R131). -/
def State.fillGran (s : State) (c o : Nat) : Except Flt State :=
  let k := s.core c
  if !k.absent.contains o then .ok s
  else
    let a := engineAcc c k.world
    match s.check a (worldHandleAt k.world (k.fillFrom.toNat + o)) 0 (granLen o) .load 1 [1] with
    | .error f => .error f
    | .ok ps =>
      .ok ((s.cacheTlb c k.world ps).setCore c
        (s.putGran (k.wrote o) o (s.readBytes ps)))

def State.fillGrans (s : State) (c : Nat) : List Nat → Except Flt State
  | [] => .ok s
  | o :: rest =>
    match s.fillGran c o with
    | .ok s' => s'.fillGrans c rest
    | .error f => .error f

/-- Granules still absent that a save fills first: all, where SAVEBASE has moved since the restore, so that the new area holds the whole
state (R113, R158); those of the operand queues, where a JOIN 1 has emptied them, so that the area holds them empty (R152). Any other stands
in the area already. -/
def Core.refill (k : Core) : List Nat :=
  if k.savebase ≠ k.fillFrom then k.absent
  else if k.dropped then k.absent.filter fun o => [Stream.l, .s, .v, .m].any fun st => (sideGrans st).contains o
  else []

/-- Save a core. -/
def State.saveCore (s : State) (c : Nat) : Except Flt State :=
  match s.fillGrans c (s.core c).refill with
  | .error f => .error f
  | .ok s =>
    if (s.core c).saveGrans.any (s.core c).ecc.contains then .error ⟨.integrity, 0, 0⟩
    else s.saveGo c (s.core c).savebase.toNat (s.core c).saveGrans

/-! What an instruction needs. -/

def hGran (h : HReg) : Nat := 0x300 + 256 * (h.toNat / 4)
def xGran (x : XReg) : List Nat := if x = 0 then [] else if x.toNat < 32 then [0] else [0x100]

def allH : List Nat := gransFrom 0x300 256 8

/-- Copy queues that an instruction names, and timelines that it reads. -/
def cqsOf (i : Instr) : List Nat :=
  match i with
  | .cpy q _ _ _ _ _ _ _ _ | .cpyt q _ _ _ _ _ _ _ _ _ | .cpymIn q _ _ _ _ _ _ _ _ _ | .cpymOut q _ _ _ _ _ _ _ _ _ _
  | .cchain q _ _ _ | .qpush q _ _ | .strbind q _ _ _ _ _ _ _ | .cfill q _ _ _ _ _ _ _ | .cstat q _ _ _ | .ccancel q _
  | .ctlread q _ _ => [q.toNat]
  | .tlwait ctx _ => if ctx.toNat < 4 then [ctx.toNat] else []
  | .spawn _ _ _ m _ | .tlaunch _ _ _ m _ => (List.range 4).filter fun q => m.getLsbD q
  | _ => []

/-- Granules beside its fields' registers that an instruction of the Helm needs. -/
def helmExtra (i : Instr) : List Nat :=
  match i with
  | .amo _ .w16 _ _ _ _ xb xc _ | .rmamo _ .w16 _ _ _ xb xc _ _ | .mcld _ .w16 _ _ _ xb xc _ => xGran (xb + 1) ++ xGran (xc + 1)
  | .oqsend _ st _ _ => sideGrans (if st = 0 then .l else if st = 1 then .s else if st = 2 then .v else .m)
  | .qmap _ _ => [0x41500, 0x41600]
  | .csrr _ _ sel => if sel = 0x020 then [0x41500, 0x41600] else []
  | .cpymIn _ _ _ _ _ t _ xb _ _ => [0x1100, tileGran t.toNat] ++ if xb = 0 then [] else allH
  | .cpymOut _ _ _ _ _ t _ _ _ _ _ => [0x1100, tileGran t.toNat]
  | .cchain _ _ _ _ => 0x1100 :: gransFrom 0x1200 16384 16 ++ allH
  | .qpush _ xa _ => (List.range 8).flatMap (fun j => xGran (xa + BitVec.ofNat 6 j)) ++ 0x1100 :: gransFrom 0x1200 16384 16 ++ allH
  | .strbind _ _ _ _ _ _ _ _ => vecGrans
  | .yield _ => allH
  | .lscrub _ _ => allGrans
  | _ => []

/-- Granules that an instruction of the Helm needs. -/
def helmGrans (i : Instr) : List Nat :=
  (xsOf i).flatMap xGran ++ (hsOf i).map hGran ++ (cqsOf i).flatMap cqGrans ++ helmExtra i

/-- Vector sources of a word, in the order of its fields. -/
def vsrcsOf (i : Instr) : List VSrc :=
  let opd (b : VOpd) : List VSrc := match b with
    | .vec x => [x]
    | .imm _ => []
    | .oq _ _ => []
  match i with
  | .vadd w | .vsub w | .vmul w | .vdiv w | .vmin w | .vmax w | .viadd w | .visub w | .vimul w | .vimulh w | .vand w
  | .vor w | .vxor w | .vshl w | .vshr w | .vsra w | .vimin w | .vimax w | .vscale w | .vsel w _ => w.a :: opd w.b
  | .vfma w c | .vfms w c => w.a :: opd w.b ++ [c]
  | .vsqrt w | .vrsq w | .vrcp w | .vabs w | .vneg w | .vexp2 w | .vlog2 w | .vredsum w | .vredmax w | .vredmin w
  | .vscansum w | .vscanmax w => [w.a]
  | .vcmp _ _ _ a b _ _ => a :: opd b
  | .vcvt _ _ _ a _ _ _ _ _ | .vcompress _ _ _ a _ | .vexpand _ _ _ a _ | .vbcast _ _ _ a _ _ => [a]
  | .vmov _ _ _ b _ => opd b
  | .vperm _ _ _ a b _ | .vslide _ _ _ a b _ _ | .vscatter _ _ a b _ => [a, b]
  | .vgather _ _ _ x _ | .vst _ _ _ x _ | .vsts _ _ x _ _ | .mmag _ _ _ _ x _ _ _ _ _ | .mwr _ x _ _ _ => [x]
  | _ => []

/-- Does a word of L, S or M touch vector queues, stream registers or predicates? -/
def touchesVec (i : Instr) : Bool :=
  match i with
  | .vld _ _ _ _ _ | .vlds _ _ _ _ _ | .vgather _ _ _ _ _ | .vst _ _ _ _ _ | .vsts _ _ _ _ _ | .vscatter _ _ _ _ _
  | .mmag _ _ _ _ _ _ _ _ _ _ | .mrd _ _ _ _ _ _ | .mwr _ _ _ _ _ | .mstat _ _ => true
  | _ => false

/-- Accumulator rows that a word of M reads or writes in part (R279): MZERO and MWR of CBM 0xF write them whole, and with CBM 0 no word but
MRD touches them. Of a word whose row range fails, none. -/
def accNeeds (v : StreamSt) (i : Instr) : List Nat :=
  let rows (p : MPos) (n : Nat) : List Nat :=
    match accBase v p n with
    | .ok b => upFrom b n
    | .error _ => []
  match i with
  | .mma _ _ _ _ _ n1 _ _ cbm pos => if cbm = 0 then [] else rows pos (n1.toNat + 1)
  | .mmag _ n1 _ _ _ _ _ cbm pos _ => if cbm = 0 then [] else rows pos (n1.toNat + 1)
  | .mrd _ _ _ _ _ pos => rows pos 1
  | .mzero _ n1 cbm pos => if cbm = 0xF ∨ cbm = 0 then [] else rows pos (n1.toNat + 1)
  | .mwr _ _ _ cbm pos => if cbm = 0xF ∨ cbm = 0 then [] else rows pos 1
  | _ => []

/-- Does the pad of a tile transfer leave no byte active? Such a transfer touches no memory and reads no tile (R169). -/
def padsAll (v : StreamSt) (i : Instr) : Bool :=
  match i with
  | .tld _ _ pad _ _ | .tst _ _ pad _ _ _ => pad && (v.redge == 0 || v.cedge == 0)
  | _ => false

/-- Granules of handle registers, tiles, weight slots and accumulator rows that a word of L, S, V or M needs in its place of a group;
a follow-on has its handles with it and uses entry 0 (R254, R268), and a transfer with every byte padded cannot fault (R169). -/
def Core.wordGrans (k : Core) (v : StreamSt) (g : Grp) (fo : Bool) (i : Instr) : List Nat :=
  let tiles (ts : List Nat) : List Nat := ts.map tileGran
  let m := g.mxOf k
  (if fo || padsAll v i then [] else (hsOf i).map hGran) ++ (cqsOf i).flatMap cqGrans ++
    (match i with
     | .tst _ _ _ _ t _ => if padsAll v i then [] else tiles [t.toNat]
     | .mldw _ _ _ t _ => tiles (tileNeeds t (m.pick v.levels fo none).b)
     | .mma _ _ _ t _ _ fent ws _ _ => weightGran ws :: tiles (tileNeeds t (m.pick v.levels fo fent).a)
     | .mmag _ _ _ _ _ _ ws _ _ _ => [weightGran ws]
     | _ => []) ++
    (accNeeds v i).map accGran

/-- Granules that the group's words so far write whole. -/
def Grp.staged (g : Grp) : List Nat :=
  g.effs.filterMap fun e =>
    match e with
    | .present o => some o
    | _ => none

/-- A granule of a tile, a row, a slot that a word reads: it is filled if it is absent, and a double-bit error in it is INTEGRITY of the
reader, for which no ETVAL is stated (R417, log 16). -/
def State.readGran (s : State) (c o : Nat) : Except Flt State :=
  let k := s.core c
  if k.ecc.contains o ∧ !k.absent.contains o then .error ⟨.integrity, 0, Config.freeEtval s.fresh⟩ else s.fillGran c o

def State.readGrans (s : State) (c : Nat) : List Nat → Except Flt State
  | [] => .ok s
  | o :: rest =>
    match s.readGran c o with
    | .ok s' => s'.readGrans c rest
    | .error f => .error f

/-- Fill the slots that vector sources read, in order, up to a source that fails itself; says whether none does (R192, R201). -/
def State.fillSrcs (c : Nat) : List VSrc → List Nat → State → Except Flt (Bool × State)
  | [], _, s => .ok (true, s)
  | .q v keep :: t, pops, s =>
    let q := v.toNat
    let k := s.core c
    match (k.vqueue q)[pops.count q]? with
    | none => .ok (false, s)
    | some e =>
      if e.isExpired s.now then .ok (false, s)
      else
        match s.readGran c (slotGran (k.slotIx q (pops.count q))) with
        | .error f => .error f
        | .ok s => State.fillSrcs c t (if keep then pops else q :: pops) s
  | .sr _ _ :: t, pops, s => State.fillSrcs c t pops s
  | .lat _ :: t, pops, s => State.fillSrcs c t pops s

/-- Fill what one word needs: its slots first, then the rest, but for what words before it write whole. -/
def State.fillWord (s : State) (c : Nat) (st : Stream) (g : Grp) (fo : Bool) (i : Instr) : Except Flt State :=
  match State.fillSrcs c (vsrcsOf i) g.pops s with
  | .error f => .error f
  | .ok (false, s) => .ok s
  | .ok (true, s) =>
    let k := s.core c
    s.readGrans c ((k.wordGrans (k.strm st) g fo i).filter fun o => !g.staged.contains o)

/-- Fill the state of a side before it issues (R187, R218, R279). -/
def State.fillSide (s : State) (c : Nat) (st : Stream) (is : List Instr) : Except Flt State :=
  let vec := st = .v ∨ is.any touchesVec
  s.fillGrans c (sideGrans st ++ (if st = .v then [] else [0x1100]) ++ if vec then vecGrans else [])

/-- Fill all that a follow-on word needs. -/
def State.fillFo (s : State) (c : Nat) (f : FollowOn) : Except Flt State :=
  match s.fillSide c .m f.ins.toList with
  | .error x => .error x
  | .ok s =>
    match f.ins with
    | some i => s.fillWord c .m (.open 0) true i
    | none => .ok s

/-- The charge of the head of the follow-on queue, where it is ready, with what it needs filled (R269). One that a line that fails will
stop in its check is ready, for a charge of 0: it is taken, and discarded (R270). -/
def State.foReady (s : State) (c : Nat) (f : FollowOn) : Option Nat × State :=
  if (s.core c).absent.isEmpty && (s.core c).ecc.isEmpty then (s.foCharge c, s)
  else
    match s.fillSide c .m f.ins.toList with
    | .error _ => (some 0, s)
    | .ok s =>
      if (s.foCharge c).isNone then (none, s)
      else
        match s.fillFo c f with
        | .error _ => (some 0, s)
        | .ok s => (s.foCharge c, s)

/-- What the head of the follow-on queue needs is filled, so that its charge may be compared (R269). -/
def State.fillFoQuiet (s : State) (c : Nat) : State :=
  match (s.core c).fos with
  | [] => s
  | f :: _ => (s.foReady c f).2

/-- Fill the restored state that is wanted at a time (R131). -/
def State.prepare (c : Nat) (st : Stream) (s : State) (p : Prep) : Except Flt State :=
  if (s.core c).absent.isEmpty && (s.core c).ecc.isEmpty then .ok s
  else
    match p with
    | .trap => s.fillGrans c [0x200]
    | .code => s.fillGrans c [0x300]
    | .helm i => s.fillGrans c (helmGrans i)
    | .side is => (s.fillSide c st is).map fun s => if st = .m then s.fillFoQuiet c else s
    | .word i => s.fillWord c st ((s.strm c st).grp.getD (.open 0)) false i

end Sys2Proof.Machine
end

