-- ==== Sys2Proof/Machine/CoreEvents.lean ====
section
/-! DEFINITION. Events inside a core: sections, traps, fills, monitors, and the array's work (R15 to R42, R122 to R128, R159,
R198, R267 to R281). -/
namespace Sys2Proof.Machine

/-- An event of L, S, V or M that needs restored state: what fetches need is filled first, and a line that fails is the stream's fault
(R131). -/
def State.withCode (s : State) (c : Nat) (st : Stream) (go : State → State) : State :=
  match State.prepare c st s .code with
  | .ok s => go s
  | .error f => s.streamFault c st f

/-- An event of the Helm that needs restored state: what a trap needs is filled first, then what a fetch needs (R131). -/
def State.withHelm (s : State) (c : Nat) (go : State → State) : Out3 :=
  s.withTrapRegs (State.prepare c .h) c fun s =>
    match State.prepare c .h s .code with
    | .ok s => .next (go s)
    | .error f => .next (s.takeTrap c f .h (s.core c).hs.pc 0)

/-! Sections (R17, R34 to R41). -/

/-- SECTION_ISSUE: the header at the pc opens its instance once its waits hold; a BK header breaks first (R17, R38, R41). -/
def execSectionIssue (c : Nat) (st : Stream) (s : State) : Out3 :=
  .next <|
    let v := s.strm c st
    if st = .h ∨ v.run ≠ .running ∨ v.sec.isSome then s
    else s.withCode c st fun s =>
      match s.headerAt c st with
      | .error f => s.streamFault c st f
      | .ok (.sect n bk offs, s') =>
        if !s'.waitsMet c st offs then s
        else if bk ∧ !v.broke then
          (s'.modStrm c st fun v => { v with broke := true }).streamFault c st ⟨.debug, 0, v.pc.setWidth 64⟩
        else
          (s'.modStrm c st fun v => { v with sec := some (v.pc.toNat + 2 + 3 * n), pc := v.pc + 2 }).learn c st
            (s'.waitsClk c st offs)
      | .ok _ => s

/-- H_SECTION_HEADER: the header retires the Helm's instance once, waits for the next, and may break (R38, R40). -/
def execHSectionHeader (c : Nat) (s : State) : Out3 :=
  let v := (s.core c).hs
  let pc := v.pc
  if (s.core c).hrun ≠ .running then .next s
  else s.withHelm c fun s =>
    match s.fetch c .h pc.toNat 3 with
    | .error f => s.takeTrap c f .h pc 0
    | .ok (n, s) =>
      if !isHelmHeader (BitVec.ofNat 96 n) then s
      else
        match decodeHeader true (BitVec.ofNat 64 (n / 2 ^ 32)) with
        | .sect _ bk offs =>
          let s := if v.sec = some pc.toNat then s
            else (s.retireSection c .h).modStrm c .h fun v => { v with sec := some pc.toNat }
          if !s.waitsMet c .h offs then s
          else
            let s := (s.modStrm c .h fun v => { v with sec := none, pc := pc + 3 }).learn c .h (s.waitsClk c .h offs)
            if bk then s.takeTrap c ⟨.debug, 0, pc.setWidth 64⟩ .h (pc + 3) 0 else s
        | _ => s.takeTrap c ⟨.reservedField, 0, pc.setWidth 64⟩ .h pc 0

/-- STREAM_END: another pass from the entry point, or the end (R39). -/
def execStreamEnd (c : Nat) (st : Stream) (s : State) : Out3 :=
  .next <|
    let v := s.strm c st
    if st = .h ∨ v.run ≠ .running ∨ v.sec.isSome then s
    else s.withCode c st fun s =>
      match s.headerAt c st with
      | .error f => s.streamFault c st f
      | .ok (.endHdr rep, s') =>
        s'.modStrm c st fun v =>
          if v.passes < rep then { v with passes := v.passes + 1, pc := v.entry } else { v with run := .ended }
      | .ok _ => s

/-- GROUP_UNBLOCK: the stream has its turn next (R15). -/
def execGroupUnblock (c : Nat) (st : Stream) (s : State) : Out3 := .next { s with agenda := .stream c st :: s.agenda }

/-! Monitors and traps. -/

/-- STALL_MONITOR_EXPIRY: WATCHDOG is raised on the Helm; its ETVAL is not stated (R22, log 16). The monitor watches a core while its
Helm runs a phase, from the phase's start: not one that has halted or waits in YIELD (log 41). -/
def execStallMonitorExpiry (c : Nat) (s : State) : Out3 :=
  .next <|
    let k := s.core c
    if k.hrun = .running ∧ k.progress + 2 ^ 24 ≤ s.now ∧ !k.pend.any (fun p => p.flt.code == .watchdog) then
      s.setCore c { k with pend := k.pend ++ [⟨⟨.watchdog, 0, Config.freeEtval s.fresh⟩, .h, 0⟩], progress := s.now }
    else s

/-- TAKE_TRAP: the stalled item leaves its engine and the first pending fault is taken (R127, R281). -/
def execTakeTrap (c : Nat) (s : State) : Out3 :=
  let k := s.core c
  if k.hrun = .running ∧ !k.pend.isEmpty then
    s.withHelm c fun s =>
      let k := s.core c
      if k.ie ∧ k.hs.interruptible then (s.withdraw c .h).takePending c else s
  else .next s

/-- WAITER_WITHDRAW: an interrupted waiter leaves its engine (R281). -/
def execWaiterWithdraw (c : Nat) (st : Stream) (s : State) : Out3 :=
  .next <|
    let k := s.core c
    let interrupted := if st = .h then !k.pend.isEmpty && k.ie && k.hs.interruptible else (k.strm st).run != .running
    if interrupted then s.withdraw c st else s

/-- WAITI_DEADLINE: the Helm of a core whose deadline has come has its turn next, and WAITI retires (R159). -/
def execWaitiDeadline (c : Nat) (s : State) : Out3 :=
  .next <|
    match (s.core c).hs.wait with
    | some w =>
      if w.kind = .request ∧ w.seen = 0 ∧ s.waitiDone c w.value then { s with agenda := .stream c .h :: s.agenda } else s
    | none => s

/-! Fills. -/

/-- SLATE_FILL_DONE: a fill that has started becomes usable, up to the end of the handle (R122, R123). -/
def execSlateFillDone (c slot : Nat) (s : State) : Out3 :=
  .next <|
    let k := s.core c
    match k.slates[slot]? with
    | some ⟨t, v, .filling⟩ =>
      let n := min 24 (codeLenOf k.code - t.toNat)
      let gs := (upFrom t.toNat n).map fun g => BitVec.ofNat 32 (s.gran c g)
      s.setCore c { k with slates := listPut k.slates slot ⟨t, v, .full gs⟩ }
    | _ => s

/-- CODE_FILL: the fetch agent fills granules that are not there yet; a fill that fails leaves the fault to the fetch (R27, R32). It
waits until the code handle is there after a restore. -/
def execCodeFill (c gran count : Nat) (s : State) : Out3 :=
  .next <|
    let k := s.core c
    if k.hrun = .idle ∨ k.absent.contains 0x300 then s
    else
      match s.fillGo (s.accOf c .h) c gran (min count (codeLenOf k.code - gran)) with
      | .ok s' => s'
      | .error _ => s

/-- BANK_DROWSY: visible only as time (R198). -/
def execBankDrowsy (c bank : Nat) (s : State) : Out3 :=
  .next (s.modCore c fun k => { k with drowsy := insertNat bank k.drowsy })

/-! The array (R267 to R271). -/

/-- The charge of the M group at hand, where it is ready (R269). -/
def State.mReady (s : State) (c : Nat) : Option Nat :=
  let v := (s.core c).ms
  match v.run, v.sec with
  | .running, some sec =>
    match s.groupAt c .m v.issues sec v.pc.toNat with
    | .ok (ws, s) =>
      if ws.any (fun w => w.ins.alone) then none
      else
        match State.prepare c .m s (.side (issuing ws)) with
        | .error _ => none
        | .ok s =>
          let k := s.core c
          if k.met k.ms (s.groupNeeds c .m ws) then
            match fillPass (State.prepare c .m) c [] ws s with
            | .ok s => some (s.groupCharge c ws)
            | .error _ => none
          else none
    | .error _ => none
  | _, _ => none

/-- The accessor of a follow-on: its copy operation (R105, R268). -/
def State.accFo (s : State) (c : Nat) (f : FollowOn) : Acc :=
  { s.accOf c .m with agent := f.agent, region := 1, clk := clkPut f.clk f.agent 1, seen := 0 }

/-- A follow-on word on the engine's state (R258, R259, R268). -/
def State.foBody (s : State) (c : Nat) (f : FollowOn) (g : Grp) : W (Grp × Option Vec) :=
  let k := s.core c
  match f.ins with
  | some (.mma _ cons row0 t sq n1 fent ws cbm pos) => mmaBody true cons row0 t sq n1 fent ws cbm pos k k.ms g
  | some (.mmag _ n1 h sq idx fent ws cbm pos race) =>
    mmagBody s (s.accFo c f) (f.handle h.toNat) true n1 sq idx fent ws cbm pos race k k.ms g
  | _ => .fail ⟨.illegalOp, 0, 0⟩

/-- Effects of a follow-on, whole; the M stream stays where it is (R267, R270). -/
def State.foCommit (s : State) (c charge : Nat) (g : Grp) : State :=
  let k := (s.core c).settle s.now
  let t := k.mx.take s.now charge
  let m := { g.mx.getD k.mx with bucket := t.bucket, refilled := t.refilled, charged := t.charged, waited := t.waited, waitSince := none }
  let k := { k with heads := moveHeads k g.pops, vq := dropEach k.vq g.pops, sr := dropEach k.sr g.spops, mx := m, inFlight := k.inFlight ++ [true] }
  let k := { k with ms := { k.ms with oqs := dropOqs k.ms.oqs g.opops } }
  let k := g.effs.foldl (fun k e => applyEff s.now (s.clkOf c .m) .m k e) k
  let s := { s.setCore c k with sectors := g.tab.getD s.sectors }
  s.cacheTlb c k.world (g.pcs.map fun p => ⟨p.1, p.2.1, p.2.2⟩)

/-- A follow-on's fault: the word is gone, FOC counts it, and the Helm hears of it (R270); an INTEGRITY counts (R387). -/
def State.foFault (s : State) (c : Nat) (f : Flt) : State :=
  (s.noteIntegrity (s.core c).world f.code.num).modCore c fun k =>
    { k with foc := k.foc + 1, pend := k.pend ++ [⟨{ f with sub := f.sub + 128 }, .m, 0⟩] }

/-- Does the M group go before the head of the follow-on queue (R269)? -/
def mFirst (k : Core) (cm cf : Nat) : Bool := !(decide (4 ≤ k.passFo) || (decide (cf < cm) && decide (k.passOver < 4)))

/-- A follow-on that the array takes: restored state that it needs is filled and it is checked, now (R131, R270, R279). -/
def State.foRun (s : State) (c cf : Nat) (f : FollowOn) : State :=
  match (if (s.core c).absent.isEmpty && (s.core c).ecc.isEmpty then .ok s else s.fillFo c f) with
  | .error x => s.foFault c x
  | .ok s =>
    match s.foBody c f { Grp.open 0 with charge := cf } with
    | .ok (g, _) => (s.foCommit c cf g).progressed c
    | .error (.fault x) => s.foFault c x
    | .error .block => s.modCore c fun k => { k with fos := f :: k.fos }

/-- FOLLOWON_TAKE: the head of the follow-on queue, where it is ready and the array may take it now (R269 to R271). -/
def execFollowonTake (c : Nat) (s : State) : Out3 :=
  .next <|
    match (s.core c).fos with
    | [] => s
    | f :: rest =>
      match s.foReady c f with
      | (none, s) => s
      | (some cf, s) =>
        let rival := s.mReady c
        if rival.any fun cm => mFirst (s.core c) cm cf then s
        else
          let k := (s.core c).settle s.now
          if k.mx.bucket < chargeNeed cf then s.setCore c { k with mx := { k.mx with waitSince := some (k.mx.waitSince.getD s.now) } }
          else
            (s.setCore c { k with
              fos := rest, passFo := 0, passOver := if rival.isSome then k.passOver + 1 else k.passOver }).foRun c cf f

/-- BUCKET_REFILL: the bucket comes up to date, and a waiting M group has its turn next (R271). -/
def execBucketRefill (c : Nat) (s : State) : Out3 :=
  let s := s.modCore c fun k => k.settle s.now
  .next (if (s.core c).mx.waitSince.isSome then { s with agenda := .stream c .m :: s.agenda } else s)

/-- ARRAY_PASS_COMPLETE: the oldest pass in flight ends; a follow-on's counts in FOC (R270). -/
def execArrayPassComplete (c : Nat) (s : State) : Out3 :=
  .next (s.modCore c fun k =>
    match k.inFlight with
    | fo :: rest => { k with inFlight := rest, foc := if fo then k.foc + 1 else k.foc }
    | [] => k)

end Sys2Proof.Machine
end

