-- ==== Sys2Proof/Machine/CopyEvents.lean ====
section
/-! DEFINITION. Events of the Copy engine: operations start, move bursts and complete; chains walk their entries; follow-on
words are accepted (R219 to R245, R268). -/
namespace Sys2Proof.Machine

/-- An operation in flight holds one of its queue's four places (R220). -/
def CopyOp.inFlight (o : CopyOp) : Bool := !o.phase.unstarted

def OpBody.isChain : OpBody → Bool
  | .chain _ _ => true
  | .job _ | .record _ => false

/-- May operation n of a queue enter its wait: every earlier operation has started? -/
def CopyQ.turnOf (v : CopyQ) (n : Nat) : Bool := v.ops.all fun o => decide (n ≤ o.n) || o.inFlight

/-- May it start (R220, R236)? -/
def CopyQ.mayStart (v : CopyQ) (n : Nat) (body : OpBody) : Bool :=
  v.turnOf n && decide ((v.ops.filter CopyOp.inFlight).length < 4) &&
    v.ops.all fun o => decide (n ≤ o.n) || !(o.body.isChain || body.isChain)

/-- The accessor of an operation. -/
def State.accCopy (s : State) (c q : Nat) (o : CopyOp) : Acc := s.accOp c q o.n o.seen o.clk

/-- An operation enters its wait (R223). -/
def State.enterCopyWait (s : State) (c q n : Nat) (k : Compl) : State :=
  s.enterSem (semKey (s.core c).world (dieOf c) k.ws.toNat) (.copy c q n)

/-- A granted operation starts: the checks of its job, or the head of its chain (R225, R236). -/
def State.startOp (s : State) (c q : Nat) (o : CopyOp) : State :=
  let k := s.core c
  match o.pre with
  | some st => s.modCore c fun k => k.modOp q o.n fun o => { o with phase := .ending st }
  | none =>
    match o.body with
    | .job j =>
      if !j.tileReady k then s
      else
        let o' := { o with clk := clkJoin o.clk (j.tileClk k) }
        let phase := j.start (s.accCopy c q o') o'.snap
        s.modCore c fun k =>
          let k := k.modOp q o.n fun _ => { o' with phase := phase }
          if phase.isRunning then j.hold q o.n k else k
    | .chain _ off =>
      let clk := s.timelineClk c q (o.n - 1)
      s.modCore c fun k => k.modOp q o.n fun o => { o with phase := .running, p := off, levels := [], cur := none, clk := clkJoin o.clk clk }
    | .record _ => s.modCore c fun k => k.modOp q o.n fun o => { o with phase := .running }

/-- COPY_START: the first unstarted operation of a queue enters its wait, or starts (R220, R223). -/
def execCopyStart (c q n : Nat) (s : State) : Out3 :=
  .next <|
    let v := (s.core c).cq q
    match (s.core c).op q n with
    | none => s
    | some o =>
      if o.phase = .queued ∧ o.k.we then
        (if v.turnOf n then
          (s.modCore c fun k => k.modOp q n fun o => { o with phase := .waiting }).enterCopyWait c q n o.k
        else s)
      else if (o.phase = .queued ∨ o.phase = .granted) ∧ v.mayStart n o.body then s.startOp c q o
      else s

/-- A job that bursts move, not the elements of a binding. -/
def Job.bursts (j : Job) : Bool :=
  match j.kind with
  | .bind _ => false
  | .copy | .trans _ | .fill _ | .tileIn | .tileOut => true

/-- COPY_BURST: the next burst of a job, or of the entry that a chain runs (R226 to R228, R232). -/
def execCopyBurst (c q n : Nat) (s : State) : Out3 :=
  .next <|
    match (s.core c).op q n with
    | none => s
    | some o =>
      match o.body, o.phase, o.cur with
      | .job j, .running, _ =>
        if !j.bursts then s
        else
          let r := s.jobBurst (s.accCopy c q o) j o.snap o.cut o.prog
          r.1.modCore c fun k => k.modOp q n fun o => { o with phase := r.2.1, prog := r.2.2 }
      | _, .running, some e =>
        if e.phase ≠ .running then s
        else
          let r := s.jobBurst (s.accCopy c q o) e.job o.snap o.cut e.prog
          r.1.modCore c fun k => k.modOp q n fun o => { o with cur := some { e with phase := r.2.1, prog := r.2.2 } }
      | _, _, _ => s

/-- STREAM_ELEMENT_DELIVER: one element to a stream register that has room, in the order of the bindings (R235). One that a sweep has
stopped ends at once, wherever it stands in that order (R245, R394). Its fault offset is that of the first element not delivered. -/
def execStreamElementDeliver (c q n : Nat) (s : State) : Out3 :=
  .next <|
    let k := s.core c
    match k.op q n with
    | none => s
    | some o =>
      match o.body, o.phase with
      | .job j, .running =>
        match j.kind with
        | .bind sn =>
          let finish (s : State) (phase : OpPhase) (prog : Nat) : State :=
            s.modCore c fun k => k.modOp q n fun o => { o with phase := phase, prog := prog }
          let at_ := o.prog * pitchOr (snapAt o.snap j.src) 512
          match j.stopped o.snap o.cut at_ with
          | some st => finish s (.ending st) o.prog
          | none =>
            if ((tabFind k.binds sn).getD []).head? ≠ some (q, n) ∨ 4 ≤ (k.srq sn).length then s
            else
              match s.burstRead (s.accCopy c q o) (snapAt o.snap j.src) j.race j.so at_ [(j.so + (at_ : Nat), 512)] with
              | .error r => finish r.1 (.ending ({ r.2.getD .ok with off := at_ })) o.prog
              | .ok (bs, s) =>
                let e : SEnt := ⟨BitVec.ofNat 4096 (ofBytes bs), s.opClk c q n o.clk⟩
                let s := s.modCore c fun k => { k with sr := tabSet k.sr sn (k.srq sn ++ [e]) }
                finish s (if j.r ≤ o.prog + 1 then .ending .ok else .running) (o.prog + 1)
        | _ => s
      | _, _ => s

/-- The completion of an entry that a chain ran: its fields apply whatever its status (R237). -/
def State.entryDone (s : State) (c q : Nat) (o : CopyOp) (e : ChCur) (st : CStat) : State :=
  let clk := s.opClk c q o.n o.clk
  let st := s.barStatus o.home e.bar st
  let s := s.modCore c fun k =>
    (k.modOp q o.n fun o => if st.code = 0 then o.goOn (o.p + 32) else o.failAt st).tileEnd q o.n e.job (st.code == 0) clk
  s.completionFields c o.home e.k e.bar clk

/-- COPY_COMPLETE: an operation, or the entry of a chain, that has ended (R222, R237). -/
def execCopyComplete (c q n : Nat) (s : State) : Out3 :=
  .next <|
    match (s.core c).op q n with
    | none => s
    | some o =>
      match o.phase, o.cur with
      | .ending st, _ => s.copyFinish c q n st
      | .running, some e =>
        match e.phase with
        | .ending st => s.entryDone c q o e st
        | _ => s
      | _, _ => s

/-! Chains (R236 to R240). -/

/-- A fault of a chain's own accesses as a status. -/
def Flt.cstat (f : Flt) (side : Nat) : CStat := ⟨f.code.num, f.sub, side, 0, 0⟩

/-- The bytes of the entry at hand of a chain or a record, with the state that its read leaves. -/
def State.entryBytes (s : State) (c q : Nat) (o : CopyOp) : Except CStat (List Byte × State) :=
  match o.body with
  | .chain h _ =>
    match s.load (s.accCopy c q o) (snapAt o.snap h) o.p 32 32 false [2] with
    | .error f => .error (f.cstat 0)
    | .ok (bs, _, s') => .ok (bs, s')
  | .record bs => .ok (bs, s)
  | .job _ => .error .ok

/-- The entry at hand from its bytes. -/
def CopyOp.parse (o : CopyOp) (bs : List Byte) : Except Code Entry :=
  match o.body with
  | .record _ => parseRecord bs
  | _ => parseEntry bs (chainShift o.levels).1 (chainShift o.levels).2

/-- Run a chain event on a chain between entries: a failed read or a malformed entry ends the chain; an entry of another kind
waits for its own event. A COPY entry that is malformed still signals and counts down as its fields say (R237). -/
def State.onEntry (s : State) (c q n : Nat) (k : CopyOp → State → Entry → Option State) : State :=
  match (s.core c).op q n with
  | none => s
  | some o =>
    match o.body, o.phase, o.cur with
    | .job _, _, _ => s
    | _, .running, none =>
      match s.entryBytes c q o with
      | .error st => s.modCore c fun k => k.modOp q n fun o => o.failAt st
      | .ok (bs, s') =>
        match o.parse bs with
        | .ok e => (k o s' e).getD s
        | .error x =>
          let s' := s'.modCore c fun k => k.modOp q n fun o => o.failAt (.bare x.num)
          if byteAt bs 0 = 1 then s'.completionFields c o.home (copyFields bs).1 (copyFields bs).2 (s'.opClk c q n o.clk) else s'
    | _, _, _ => s

/-- The chain goes on at a place, or fails at the entry. -/
def State.chainNext (s : State) (c q n : Nat) (next : Int) : State := s.modCore c fun k => k.modOp q n fun o => o.goOn next
def State.chainFail (s : State) (c q n : Nat) (st : CStat) : State := s.modCore c fun k => k.modOp q n fun o => o.failAt st

/-- A COPY entry before its start: its wait is entered; once granted and its tile ready it starts (R223, R225, R232). -/
def State.entryStart (s : State) (c q n : Nat) : State :=
  match (s.core c).op q n with
  | none => s
  | some o =>
    match o.cur with
    | none => s
    | some e =>
      let put (k : Core) (e : ChCur) : Core := k.modOp q n fun o => { o with cur := some e }
      if e.phase = .queued ∧ e.k.we then
        (s.modCore c fun k => put k { e with phase := .waiting }).enterCopyWait c q n e.k
      else if (e.phase = .queued ∨ e.phase = .granted) ∧ e.job.tileReady (s.core c) then
        let o := { o with clk := clkJoin o.clk (e.job.tileClk (s.core c)) }
        let phase := e.job.start (s.accCopy c q o) o.snap
        s.modCore c fun k =>
          let k := k.modOp q n fun _ => { o with cur := some { e with phase := phase } }
          if phase.isRunning then e.job.hold q n k else k
      else s

/-- CHAIN_COPY: the entry is read and waits, or a waiting one starts (R237). -/
def execChainCopy (c q n : Nat) (s : State) : Out3 :=
  let s := s.onEntry c q n fun _ s e =>
    match e with
    | .copy j k bar => some (s.modCore c fun core => core.modOp q n fun o => { o with cur := some ⟨j, k, bar, .queued, 0⟩ })
    | _ => none
  .next (s.entryStart c q n)

/-- CHAIN_LOOP (R238). -/
def execChainLoop (c q n : Nat) (s : State) : Out3 :=
  .next <| s.onEntry c q n fun o s e =>
    match e with
    | .loop len trip ss ds =>
      if o.pastLevel len ∨ (0 < trip ∧ o.levels.length = 4) then some (s.chainFail c q n (.bare 0x02))
      else if trip = 0 then some (s.chainNext c q n (o.p + 32 * ((len : Int) + 1)))
      else
        some (s.modCore c fun k => k.modOp q n fun o =>
          { o with levels := o.levels ++ [⟨trip, 0, o.p + 32, o.p + 32 * len, ss, ds⟩], p := o.p + 32 })
    | _ => none

/-- CHAIN_IF (R237, R238). -/
def execChainIf (c q n : Nat) (s : State) : Out3 :=
  .next <| s.onEntry c q n fun o s e =>
    match e with
    | .cond rel h off len cmp =>
      if o.pastLevel len then some (s.chainFail c q n (.bare 0x02))
      else
        match s.load (s.accCopy c q o) (snapAt o.snap h) off 8 8 false fmt123 with
        | .error f => some (s.chainFail c q n (f.cstat 0))
        | .ok (bs, _, s) =>
          let x := BitVec.ofNat 64 (ofBytes bs)
          some (s.chainNext c q n (if Rel.holds rel x cmp then o.p + 32 else o.p + 32 * ((len : Int) + 1)))
    | _ => none

/-- CHAIN_SIGNAL: the store, then the signal and the count; a barrier record that cannot be read fails the entry (R237, R417). -/
def execChainSignal (c q n : Nat) (s : State) : Out3 :=
  .next <| s.onEntry c q n fun o s e =>
    match e with
    | .signal k bar store h off value =>
      let done (s : State) : State :=
        let st := s.barStatus o.home bar .ok
        (if st.code = 0 then s.chainNext c q n (o.p + 32) else s.chainFail c q n st).completionFields c o.home k bar (s.opClk c q n o.clk)
      if !store then some (done s)
      else
        match s.store (s.accCopy c q o) (snapAt o.snap h) off value 8 false fmt123 with
        | .error f => some (s.chainFail c q n (f.cstat 1))
        | .ok (_, s) => some (done s)
    | _ => none

/-- CHAIN_MATRIX: the word is accepted when the queue has room (R237, R268). -/
def execChainMatrix (c q n : Nat) (s : State) : Out3 :=
  .next <| s.onEntry c q n fun o s' e =>
    match e with
    | .matrix w =>
      if 8 ≤ (s'.core c).fos.length then none
      else
        let f : FollowOn := ⟨w, o.snap, s'.opAgent c q n, s'.opClk c q n o.clk⟩
        some ((s'.modCore c fun k => { k with fos := k.fos ++ [f], foa := k.foa + 1 }).chainNext c q n (o.p + 32))
    | _ => none

/-- CHAIN_END (R238). -/
def execChainEnd (c q n : Nat) (s : State) : Out3 :=
  .next <| s.onEntry c q n fun o s e =>
    match e with
    | .done =>
      if !o.levels.isEmpty then some (s.chainFail c q n (.bare 0x02))
      else some (s.modCore c fun k => k.modOp q n fun o => { o with phase := .ending .ok })
    | _ => none

/-- FOLLOWON_ACCEPT: a landed copy's word enters the follow-on queue when it has room (R233, R268). -/
def execFollowonAccept (c q n : Nat) (s : State) : Out3 :=
  .next <|
    let k := s.core c
    match k.offers.find? fun f => f.1 == q && f.2.1 == n with
    | some f =>
      if 8 ≤ k.fos.length then s
      else
        s.setCore c { k with
          offers := k.offers.filter fun f => !(f.1 == q && f.2.1 == n)
          fos := k.fos ++ [f.2.2]
          foa := k.foa + 1 }
    | none => s

end Sys2Proof.Machine
end

