-- ==== Sys2Proof/Machine/FabricEvents.lean ====
section
/-! DEFINITION. Events of the Fabric engine: at the source, at a target, and in the routers of this device (R335 to R354). -/
namespace Sys2Proof.Machine

/-! Fabric handles (R337). -/

def Handle.dev (h : Handle) : Nat := fieldOf h.base.toNat 56 47
def Handle.win (h : Handle) : Nat := fieldOf h.base.toNat 46 40
def Handle.woff (h : Handle) : Nat := fieldOf h.base.toNat 39 0

def FabKind.isMulticast : FabKind → Bool
  | .mcst _ _ _ | .mcld _ _ _ _ => true
  | .rmst _ _ | .rmld _ | .rmamo _ _ _ _ _ | .spred _ _ _ _ => false

/-- Bytes that an operation moves through its fabric handle, and the kind of access it makes there. -/
def FabKind.reach : FabKind → Nat × Kind
  | .rmst n _ => (n, .store)
  | .rmld n => (n, .load)
  | .rmamo _ w _ _ _ => (amoBytes w, .atomic)
  | .mcst n _ _ => (n, .store)
  | .mcld _ _ n _ => (n, .load)
  | .spred _ _ _ _ => (0, .atomic)

/-- The flag that an operation raises, by its offset. -/
def FabKind.flag : FabKind → Option Int
  | .rmst _ f | .mcst _ _ f | .spred _ _ _ f => some f
  | .rmld _ | .rmamo _ _ _ _ _ | .mcld _ _ _ _ => none

/-- Bytes and kind of the local operand. -/
def FabKind.localOp : FabKind → Nat × Kind × Nat
  | .rmst n _ => (n, .load, 1)
  | .rmld n => (n, .store, 1)
  | .rmamo _ w _ _ _ => (amoBytes w, .store, amoBytes w)
  | .mcst n _ _ => (n, .load, 1)
  | .mcld _ _ n _ => (n, .store, 1)
  | .spred n _ _ _ => (8 * n, .load, 1)

def FStat.ofFlt (f : Flt) : FStat := ⟨f.code.num, if f.code = .translation then f.sub else 0, 0, 0⟩
/-- A status that a target or the way to it gives. -/
def FStat.far (code sub dev : Nat) : FStat := ⟨code, sub, 1, dev⟩
def FStat.revoked : FStat := ⟨0x13, 0, 0, 0⟩

/-! Checks at the source (R340, R342, R344, R348, R352). -/

/-- The accessor of a fabric operation. -/
def State.accFab (s : State) (c : Nat) (o : FabOp) : Acc := s.accOp c 4 o.n 0 o.clk

/-- A fabric handle over one range (R340). -/
def checkFab (world : Nat) (h : Handle) (off : Int) (size : Nat) (k : Kind) : Except Flt Unit := do
  checkHandle world h off k [4]
  if !h.f then .error ⟨.handleRights, 0, 0⟩ else checkBounds 0 (2 ^ 57) h off size

/-- Alignment of offsets in the fabric handle: of flags, and of an RMAMO and a SPRED (R342, R344, R352). -/
def FabOp.misaligned (o : FabOp) : Bool :=
  (match o.kind.flag with
   | some f => f % 8 != 0
   | none => false) ||
    match o.kind with
    | .rmamo _ w _ _ _ => o.ro % (amoBytes w : Int) != 0
    | .spred _ _ _ _ => o.ro % 4 != 0
    | .rmst _ _ | .rmld _ | .mcst _ _ _ | .mcld _ _ _ _ => false

/-- Every pair of a SPRED lies within the fabric handle (R352). -/
def pairsIn (h : Handle) (ro : Int) (ps : List (Nat × Nat)) : Bool :=
  ps.all fun p => decide (0 ≤ ro + 4 * p.1) && decide (ro + 4 * p.1 + 4 ≤ h.length.toNat)

/-- The fabric handle of an operation over its range; a SPRED's pairs are checked one by one (R340, R352). -/
def FabOp.checkRemote (o : FabOp) (world : Nat) : Except Flt Unit :=
  let r := o.kind.reach
  match o.kind with
  | .spred _ _ _ _ => do
    checkHandle world o.remote o.ro r.2 [4]
    if o.remote.f then .ok () else .error ⟨.handleRights, 0, 0⟩
  | _ => checkFab world o.remote o.ro r.1 r.2

/-- Pairs of a buffer: index and value. -/
def pairsOf (bs : List Byte) (n : Nat) : List (Nat × Nat) := (List.range n).map fun i => (natAt bs (8 * i) 4, natAt bs (8 * i + 4) 4)

/-- The record of a multicast operation, 64 bytes at hb plus the record offset (R349). -/
def FabOp.recOff (o : FabOp) : Option Int :=
  match o.kind with
  | .mcst _ r _ => some r
  | .mcld _ _ _ r => some r
  | _ => none

/-- The status with which an operation ends: that of the sweep that met it in flight, HANDLE_REVOKED or HANDLE_RIGHTS, where one did (R362,
R394). -/
def FabOp.ends (o : FabOp) (st : FStat) : FStat :=
  match o.cut with
  | some code => ⟨code, 0, 0, 0⟩
  | none => st

/-- The local handle as the operation started with it: what a sweep did to it in flight lets the current 4 KiB pass (R362). -/
def FabOp.asSent (o : FabOp) : FabOp :=
  match o.cut with
  | some _ => { o with localH := { o.localH with revoked := false, rights := (o.localH.rights ||| 0x40) &&& 0xFD } }
  | none => o

/-- Every local check of R340. -/
def State.fabCheck (s : State) (c : Nat) (o : FabOp) : Except Flt Unit := do
  let a := s.accFab c o
  let l := o.kind.localOp
  if o.bad then .error ⟨.reservedField, 0, 0⟩
  else
    let ps ← s.check a o.localH o.lo l.1 l.2.1 l.2.2 [1, 2]
    match o.recOff with
    | some off => let _ ← s.check a o.localH off 64 .store 8 [1, 2]
    | none => .ok ()
    o.checkRemote a.world
    match o.kind.flag with
    | some f => checkFab a.world o.remote f 8 .store
    | none => .ok ()
    if o.kind.isMulticast ≠ (o.remote.dev = 1023) then .error ⟨.handleRights, 0, 0⟩
    else if o.kind.isMulticast ∧ 15 < o.remote.win then .error ⟨.handleBounds, 0, 0⟩
    else if o.misaligned then .error ⟨.align, 0, 0⟩
    else
      match o.kind with
      | .spred n _ _ _ =>
        if pairsIn o.remote o.ro (pairsOf (s.readBytes ps) n) then .ok () else .error ⟨.handleBounds, 0, 0⟩
      | _ => .ok ()

/-! Ports (R333, R336, R357 to R359). -/

def State.modPort (s : State) (p : Nat) (f : Port → Port) : State := s.setPort p (f (s.port p))

/-- The ASCII characters of "stolor link" and "stolor ratchet". -/
def linkLabel : List Byte := [0x73, 0x74, 0x6F, 0x6C, 0x6F, 0x72, 0x20, 0x6C, 0x69, 0x6E, 0x6B]
def ratchetLabel : List Byte := [0x73, 0x74, 0x6F, 0x6C, 0x6F, 0x72, 0x20, 0x72, 0x61, 0x74, 0x63, 0x68, 0x65, 0x74]

/-- K(0) of a direction from the application secret of a session (R357). The manual names HKDF-SHA-256, a label and a bit; that HKDF-Expand
alone is meant, the secret in place of the pseudorandom key, and that the bit is one byte after the label, the model chose (log 33). -/
def linkKey0 (secret : Nat) (dir : Nat) : BitVec 256 :=
  digestOf (hkdfExpand (digestBytes (Config.sessionSecret secret)) (linkLabel ++ bytesOf 1 dir))

/-- K(i + 1) from K(i) (R357). -/
def linkKeyNext (k : BitVec 256) (i : Nat) : BitVec 256 := digestOf (hkdfExpand (digestBytes k) (ratchetLabel ++ beBytes 4 i))

/-- A direction's counter reaches its next epoch: its key steps, and the receiver keeps the one before (R357). -/
def Port.ratchet (v : Port) (tx : Bool) : Port :=
  if tx then { v with txEpoch := v.txEpoch + 1, tx := (v.txEpoch + 1) * 2 ^ 24, step := v.step + 1, txKey := linkKeyNext v.txKey v.txEpoch }
  else
    { v with rxEpoch := v.rxEpoch + 1, rx := (v.rxEpoch + 1) * 2 ^ 24, step := v.step + 1, rxKey := linkKeyNext v.rxKey v.rxEpoch,
             rxOld := some v.rxKey, rxNew := 0 }

/-- A packet leaves: its counter goes on, and at the next epoch the key steps. -/
def Port.sent (v : Port) : Port :=
  if v.tx + 1 = (v.txEpoch + 1) * 2 ^ 24 then v.ratchet true else { v with tx := v.tx + 1 }

/-- A packet of the present epoch counts; after 4,096 the key before is gone (R357). -/
def Port.counted (v : Port) : Port := { v with rxNew := v.rxNew + 1, rxOld := if 4096 ≤ v.rxNew + 1 then none else v.rxOld }

/-- The packet that is next in order is accepted. -/
def Port.accepted (v : Port) : Port :=
  if v.rx + 1 = (v.rxEpoch + 1) * 2 ^ 24 then v.ratchet false else { v.counted with rx := v.rx + 1 }

/-- A packet of some counter is accepted: the next in order, or one that the link has sent again (R358). -/
def Port.acceptedAt (v : Port) (n : Nat) : Port :=
  if n = v.rx then v.accepted else if n / 2 ^ 24 = v.rxEpoch then v.counted else v

/-- A tag fails; the fourth within 1,024 packets puts the link into RECOVERY (R359). -/
def Port.tagFailed (v : Port) (now : Nat) : Port :=
  let fails := v.fails.filter (fun n => decide (v.rx < n + 1024)) ++ [v.rx]
  if fails.length < 4 then { v with fails := fails } else { v with st := .recovery, since := now, fails := [] }

/-- K(e) of a direction, as the far end of a link derives it from the session's secret (R357). -/
def linkKeyAt (secret dir : Nat) : Nat → BitVec 256
  | 0 => linkKey0 secret dir
  | e + 1 => linkKeyNext (linkKeyAt secret dir e) e

/-- The key that the receiver holds for an epoch: its own, or the one before while that is kept (R357). -/
def Port.rxKeyOf (v : Port) (e : Nat) : Option (BitVec 256) :=
  if e = v.rxEpoch then some v.rxKey else if e + 1 = v.rxEpoch then v.rxOld else none

/-- The direction bit of what a port sends: 0 from the lower identifier (log 33). -/
def State.dirOf (s : State) (p : Nat) : Nat := natOf (decide ((s.port p).peer < s.fabId))

/-- The nonce of a packet: the salt of its direction, then the counter (R357). -/
def linkNonce (secret dir counter : Nat) : List Byte := beBytes 4 (Config.linkSalt secret dir).toNat ++ beBytes 8 counter

/-- A packet on the wire, its contents by a draw: under the key of its direction, its header authenticated (R357). -/
def State.wired (s : State) (p draw : Nat) : Wire :=
  let v := s.port p
  let nonce := linkNonce v.spdm.secret (s.dirOf p) v.tx
  let r := gcmSeal (beBytes 32 v.txKey.toNat) nonce (Config.packetHeader draw) (Config.packetBody draw)
  ⟨p, v.tx, nonce, Config.packetHeader draw, r.1, r.2⟩

/-- A packet as it comes in by a port, sealed by the far end under the key of its counter's epoch: the next in order, or one that the link sends
again under its own counter and key (R357, R358, log 33). -/
def State.wireIn (s : State) (p draw : Nat) : Wire :=
  let v := s.port p
  let n := v.rx - Config.lateBy draw
  let nonce := linkNonce v.spdm.secret (1 - s.dirOf p) n
  let key := linkKeyAt v.spdm.secret (1 - s.dirOf p) (n / 2 ^ 24)
  let r := gcmSeal (beBytes 32 key.toNat) nonce (Config.packetHeader draw) (Config.packetBody draw)
  ⟨p, n, nonce, Config.packetHeader draw, r.1, r.2⟩

/-- Does a packet open under the key that the receiver derived for its counter's epoch (R357, R359)? -/
def Port.opens (v : Port) (w : Wire) : Bool :=
  match v.rxKeyOf (w.counter / 2 ^ 24) with
  | some k => (gcmOpen (beBytes 32 k.toNat) w.nonce w.header w.body w.tag).isSome
  | none => false

/-- A packet goes out by a port: it is encrypted, its counter goes on, and it stays in the retry buffer until the peer has it. In RECOVERY it
waits for the link to open, and by any other port it is lost (R357, R359). -/
def State.sendOn (s : State) (p : Nat) (o : Out) : State :=
  match (s.port p).st with
  | .opened =>
    let d := s.draw
    let s' := d.2.modPort p fun v => { v.sent with buf := v.buf.drop (Config.linkAcks d.1) ++ [o] }
    { s'.emit o with wire := s.wire ++ [s.wired p d.1] }
  | .recovery => s.modPort p fun v => { v with hold := v.hold ++ [o] }
  | .down | .training | .attesting | .closed | .idle => s

/-- The least occupied of some ports, the lowest-numbered on a tie. -/
def leastPort (flits : Nat → Nat) : List Nat → Option Nat
  | [] => none
  | p :: t =>
    match leastPort flits t with
    | none => some p
    | some q => some (if flits p < flits q ∨ (flits p = flits q ∧ p ≤ q) then p else q)

/-- The first hop of a packet: MIN, or the least occupied non-minimal port where MIN has more than 64 flits more in its queue (R336). A packet
sent again keeps away from the hops that it took, where another is left (R345). -/
def firstHop (e : BitVec 32) (avoid : List Nat) (flits : Nat → Nat) : Nat :=
  match leastPort flits ((rtOther e).filter fun p => !avoid.contains p) with
  | some p => if avoid.contains (rtMin e) ∨ flits p + 64 < flits (rtMin e) then p else rtMin e
  | none => rtMin e

/-- Ports that are open. -/
def State.openPorts (s : State) : List Nat := (List.range 32).filter fun p => (s.port p).st == .opened

/-- Packets come in by an open port: each is opened and accepted, up to one whose tag fails (R357, R359). The error is the state after that,
or where the port is not open. -/
def State.arriveBy (p : Nat) : Nat → State → Except State State
  | 0, s => .ok s
  | n + 1, s =>
    let d := s.draw
    let w := s.wireIn p d.1
    if (s.port p).st ≠ .opened then .error s
    else if (s.port p).opens w then State.arriveBy p n (d.2.modPort p fun v => v.acceptedAt w.counter)
    else .error (d.2.modPort p fun v => v.tagFailed s.now)

/-- Packets that a payload takes: 256 bytes each, and one where there is none (R334). -/
def packetsOf (bytes : Nat) : Nat := max 1 ((bytes + 255) / 256)

/-- The parts of a payload, by offset. -/
def payloads (bs : List Byte) : List (Nat × List Byte) :=
  (List.range (packetsOf bs.length)).map fun k => (256 * k, (bs.drop (256 * k)).take 256)

/-- A payload for this device comes in by an open port: the port, and the state after its packets. Which port it is the manual leaves to the
routes; where none is open nothing comes (log 33). -/
def State.received (s : State) (bytes : Nat) : Except State (Nat × State) :=
  match s.openPorts with
  | [] => .error s
  | p :: ps =>
    let d := s.draw
    let q := (p :: ps).getD (Config.arrivalPort d.1 % (ps.length + 1)) p
    (State.arriveBy q (packetsOf bytes) d.2).map fun s => (q, s)

/-- What a payload does at this device, with the port that it came by. -/
def State.landing (s : State) (bytes : Nat) (f : Nat → State → State) : State :=
  match s.received bytes with
  | .ok (p, s) => f p s
  | .error s => s

/-- How a packet finds its first hop (R336, R349): by any, but for those that it keeps away from; minimally, as those of multicast and sparse
reductions; or by the port of a replication tree. -/
inductive Way where
  | any (avoid : List Nat)
  | minimal
  | tree (port : Nat)
  deriving DecidableEq, Repr

/-- Send a packet to a device from a hub. It answers the port too. A packet to a device that the table does not reach is not sent (R335). -/
def State.post (s : State) (hub dev : Nat) (way : Way) (mk : Nat → Out) : Option Nat × State :=
  match way with
  | .tree p => (some p, s.sendOn p (mk p))
  | .minimal =>
    let p := rtMin (s.routeOf hub dev)
    if s.reachable hub dev then (some p, s.sendOn p (mk p)) else (none, s)
  | .any avoid =>
    let d := s.draw
    let p := firstHop (s.routeOf hub dev) avoid (Config.queuedFlits d.1)
    if s.reachable hub dev then (some p, d.2.sendOn p (mk p)) else (none, s)

/-! Sending (R335, R336, R339, R345, R348, R352). -/

/-- Is an operation in flight one that a device's replay cache holds (R345)? -/
def FabOp.holds (o : FabOp) (dev : Nat) : Bool :=
  match o.phase, o.kind with
  | .queued, _ => false
  | .sent _ _ _, .rmld _ | .sent _ _ _, .mcld _ _ _ _ => false
  | .sent _ _ _, .mcst _ _ _ => o.members.any fun m => m.1 == dev && m.2 == 0
  | .sent _ _ _, _ => o.remote.dev == dev

/-- Operations of every core outstanding to one device (R345). -/
def State.outstanding (s : State) (dev : Nat) : Nat :=
  s.cores.foldl (fun n e => n + (e.2.fab.ops.filter fun o => o.holds dev).length) 0

/-- The devices to which an operation's requests go. -/
def State.fabTargets (s : State) (c : Nat) (o : FabOp) : List Nat :=
  if o.kind.isMulticast then (((s.world (s.core c).world).group o.remote.win).members.map (·.1)) else [o.remote.dev]

/-- May a queued operation start: every earlier one has, fewer than 16 are in flight, and every target has room (R339, R345)? -/
def State.fabMayStart (s : State) (c : Nat) (o : FabOp) : Bool :=
  let ops := (s.core c).fab.ops
  (ops.filter fun x => decide (x.n < o.n)).all (fun x => !x.phase.unstarted) &&
    decide ((ops.filter fun x => !x.phase.unstarted).length < 16) &&
    (s.fabTargets c o).all fun d => decide (s.outstanding d < 256)

def State.modFab (s : State) (c n : Nat) (f : FabOp → FabOp) : State :=
  s.modCore c fun k => { k with fab := { k.fab with ops := k.fab.ops.map fun o => if o.n = n then f o else o } }

/-- The world behind a point-to-point handle: that of the import that admits its device and window (R425). -/
def State.targetWorld (s : State) (world : Nat) (h : Handle) : Nat :=
  (((s.world world).imports.find? fun i => i.dev == h.dev && i.win == h.win).map (·.world)).getD world

/-- The sequence number of an operation in flight. -/
def FabOp.seqNo (o : FabOp) : Option Nat :=
  match o.phase with
  | .queued => none
  | .sent seq _ _ => some seq

def State.reqId (s : State) (c seq : Nat) : ReqId := ⟨s.fabId, c, seq⟩

/-- The window that an operation names, with the target's incarnation at its first attempt. -/
def State.winOf (s : State) (c : Nat) (o : FabOp) : WinRef :=
  let w := (s.core c).world
  if o.kind.isMulticast then ⟨w, w, ((s.world w).group o.remote.win).win, o.inc⟩ else ⟨w, s.targetWorld w o.remote, o.remote.win, o.inc⟩

/-- The operation's place in the window. -/
def FabOp.place (o : FabOp) : Int := o.remote.woff + o.ro

/-- The flag's place in the window. -/
def FabOp.flagPlace (o : FabOp) : Option Int := o.kind.flag.map fun f => o.remote.woff + f

/-- The element sum of a sparse reduction. -/
def pairSum (fadd : Bool) (a b : BitVec 32) : BitVec 32 :=
  if fadd then BitVec.ofNat 32 (rn32 (addF .rne (decodeF fFP32 a.toNat) (decodeF fFP32 b.toNat))) else a + b

/-- This device's operations of some request identifiers complete with LINK_DOWN at their source (R335). -/
def State.refuseOwn (s : State) (dst : Nat) (ids : List ReqId) : State :=
  (ids.filter fun i => i.dev == s.fabId).foldl (fun s i =>
    match (s.core i.core).fab.ops.find? fun o => o.seqNo == some i.seq with
    | some o => s.fabFinish i.core o.n (.far 0x39 0 dst)
    | none => s) s

/-- A merged pair goes on by the minimal port of its hub. Where its device is out of reach, this device's operations that contributed to it
are refused, and the pairs of others are lost, their sources sending again (R335, R345). -/
def State.sendPair (s : State) (m : MergeEnt) : State :=
  match s.post m.hub m.dst .minimal fun p => .pairs p m.dst m.w m.fadd false [m.pair] with
  | (some _, s) => s
  | (none, s) => s.refuseOwn m.dst (m.pair.ops.map (·.1)).eraseDups

/-- Entries held for more than 64 cycles go on, as time passes (R352). -/
def State.agePairs (s : State) : State :=
  let old (m : MergeEnt) : Bool := decide (m.since + 64 < s.now)
  (s.merge.filter old).foldl (fun s m => s.sendPair m) { s with merge := s.merge.filter fun m => !old m }

/-- A pair enters the merge table of a router: it joins the entry of its element, takes a place, the oldest entry leaving a full table, or
finds no room and goes on by itself (R352). -/
def State.mergePair (s : State) (hub dst : Nat) (w : WinRef) (fadd : Bool) (p : SPair) : State :=
  let same (m : MergeEnt) : Bool := m.hub == hub && m.dst == dst && m.w == w && m.fadd == fadd && m.pair.off == p.off
  let new : MergeEnt := ⟨hub, dst, w, fadd, p, s.now⟩
  let d := s.draw
  if s.merge.any same then
    { s with merge := s.merge.map fun m =>
        if same m then { m with pair := { p with value := pairSum fadd m.pair.value p.value, ops := m.pair.ops ++ p.ops } } else m }
  else if Config.noRoom d.1 then d.2.sendPair new
  else
    match s.merge.filter fun m => m.hub == hub with
    | m :: rest =>
      if 4096 ≤ rest.length + 1 then ({ d.2 with merge := s.merge.erase m ++ [new] }).sendPair m else { d.2 with merge := s.merge ++ [new] }
    | [] => { d.2 with merge := s.merge ++ [new] }

/-- Bytes of the local operand that a send reads. -/
def State.fabRead (s : State) (c : Nat) (o : FabOp) (n : Nat) : Except Flt (List Byte) :=
  (s.check (s.accFab c o) o.localH (o.lo + o.prog) n .load 1 [1, 2]).map s.readBytes

/-- Pairs of the buffer from a place on, as they travel. -/
def FabOp.pairsAt (o : FabOp) (id : ReqId) (first : Nat) (bs : List Byte) : List SPair :=
  ((pairsOf bs (bs.length / 8)).zip (List.range (bs.length / 8))).map fun p =>
    ⟨(o.place + 4 * p.1.1).toNat, BitVec.ofNat 32 p.1.2, [(id, first + p.2)]⟩

/-- An operation has sent by a port. -/
def FabOp.notePort (p : Nat) (o : FabOp) : FabOp := { o with ports := if o.ports.contains p then o.ports else o.ports ++ [p] }

/-- How an operation's packets find their first hops (R336, R345). -/
def FabOp.way (o : FabOp) : Way :=
  match o.kind with
  | .mcst _ _ _ | .mcld _ _ _ _ | .spred _ _ _ _ => .minimal
  | .rmst _ _ | .rmld _ | .rmamo _ _ _ _ _ => .any o.avoid

/-- Send a packet of an operation; the ports that its packets take are noted. -/
def State.fabPost (s : State) (c : Nat) (o : FabOp) (mk : Nat → Out) : State :=
  match s.post (hubOf c) o.remote.dev o.way mk with
  | (some p, s) => s.modFab c o.n (FabOp.notePort p)
  | (none, s) => s

/-- Data of an operation from an offset on, in packets of 256 bytes; pairs that may merge enter this router's table unless they are sent
again (R342, R352, R353). -/
def State.fabData (s : State) (c : Nat) (o : FabOp) (seq first : Nat) (again : Bool) (bs : List Byte) : State :=
  let id := s.reqId c seq
  let w := s.winOf c o
  let dev := o.remote.dev
  ((pieces 256 bs.length bs).zip (List.range bs.length)).foldl (fun s p =>
    let at_ := first + 256 * p.2
    match o.kind with
    | .spred _ fadd det _ =>
      let ps := o.pairsAt id (at_ / 8) p.1
      if det ∨ again then s.fabPost c o fun q => .pairs q dev w fadd det ps
      else ps.foldl (fun s x => s.mergePair (hubOf c) dev w fadd x) s
    | _ => s.fabPost c o fun q => .packet q dev id w o.kind (o.place + at_) none p.1) s

/-- Does each pair of a piece lie within the fabric handle, for a sparse reduction (R352)? -/
def FabOp.pairsFit (o : FabOp) (bs : List Byte) : Bool :=
  match o.kind with
  | .spred _ _ _ _ => pairsIn o.remote o.ro (pairsOf bs (bs.length / 8))
  | .rmst _ _ | .rmld _ | .rmamo _ _ _ _ _ | .mcst _ _ _ | .mcld _ _ _ _ => true

/-- Send the next piece of an operation that carries data: at most 4 KiB (R362). The pairs of a sparse reduction are checked as they stand
when they are sent (R352). -/
def State.fabSend (s : State) (c : Nat) (o : FabOp) (seq total : Nat) : State :=
  let n := min 4096 (total - o.prog)
  match s.fabRead c o n with
  | .error f => s.fabFinish c o.n (.ofFlt f)
  | .ok bs =>
    if !o.pairsFit bs then s.fabFinish c o.n ⟨0x10, 0, 0, 0⟩
    else (s.fabData c o seq o.prog false bs).modFab c o.n fun o => { o with prog := o.prog + n, got := o.got ++ bs }

/-- The packet that closes a store or a reduction: it asks for the flag once every byte or pair has come (R342, R352, log 32). -/
def State.fabClose (s : State) (c : Nat) (o : FabOp) (seq : Nat) : State :=
  let s := s.fabPost c o fun q => .packet q o.remote.dev (s.reqId c seq) (s.winOf c o) o.kind o.place o.flagPlace []
  s.modFab c o.n fun o => { o with flagOut := true }

/-- The request of a load or an atomic. -/
def State.fabAsk (s : State) (c : Nat) (o : FabOp) (seq : Nat) : State :=
  s.fabPost c o fun q => .packet q o.remote.dev (s.reqId c seq) (s.winOf c o) o.kind o.place none []

/-- Bytes that an operation sends. -/
def FabKind.carries : FabKind → Nat
  | .rmst n _ => n
  | .spred n _ _ _ => 8 * n
  | .rmld _ | .rmamo _ _ _ _ _ | .mcst _ _ _ | .mcld _ _ _ _ => 0

/-- The members of an entry, with the reason of those that the source does not reach (R346, Table 12.2). -/
def State.startMembers (s : State) (hub : Nat) (g : Group) : List (Nat × Nat) :=
  g.members.map fun m => (m.1, if s.incOf m.1 ≠ m.2 then 7 else if !s.reachable hub m.1 then 6 else 0)

/-- The copies for the members of one first-hop port: one for each twelve that it forwards to, the first delivering there if the neighbour
is a member (R348). -/
def copiesOf (s : State) (hub port : Nat) (ms : List Nat) : List (Nat × Bool × List Nat) :=
  let mine := ms.filter fun d => rtMin (s.routeOf hub d) == port
  let here := mine.any fun d => rtDirect (s.routeOf hub d)
  let rest := mine.filter fun d => !rtDirect (s.routeOf hub d)
  match pieces 12 rest.length rest with
  | [] => if here then [(port, true, [])] else []
  | m :: t => (port, here, m) :: t.map fun m => (port, false, m)

/-- A multicast operation's copies to some members leave, each in packets of its data, and the ports that they take are noted (R334, R345,
R348). -/
def State.castSend (s : State) (c : Nat) (o : FabOp) (seq : Nat) (ms : List Nat) (bs : List Byte) : State :=
  let w := s.winOf c o
  let id := s.reqId c seq
  let what := match o.kind with
    | .mcst n r f => .mcst n r (o.remote.woff + f)
    | k => k
  ((List.range 32).flatMap fun p => copiesOf s (hubOf c) p ms).foldl
    (fun s x => ((payloads bs).foldl (fun s b => s.sendOn x.1 (.copies x.1 id x.2.1 x.2.2 w what (o.place + b.1) b.2)) s).modFab c o.n
      (FabOp.notePort x.1)) s

/-- A multicast operation starts (R347, R348). -/
def State.castStart (s : State) (c : Nat) (o : FabOp) (seq : Nat) : State :=
  let g := (s.world (s.core c).world).group o.remote.win
  if !g.valid then s.fabFinish c o.n (.far 0x3A 0 0)
  else
    match (match o.kind with
           | .mcst n _ _ => s.fabRead c o n
           | _ => .ok []) with
    | .error f => s.fabFinish c o.n (.ofFlt f)
    | .ok bs =>
      let ms := s.startMembers (hubOf c) g
      let s := s.modFab c o.n fun o =>
        { o with phase := .sent seq 0 s.now, inc := g.inc.toNat, members := ms, got := bs, flagOut := o.kind.flag.isSome }
      s.castSend c { o with inc := g.inc.toNat } seq ((ms.filter fun m => m.2 == 0).map (·.1)) bs

/-- A point-to-point operation leaves: its request, or its first piece of data. A load of nothing sends nothing (R343). -/
def State.farStart (s : State) (c : Nat) (o : FabOp) (seq : Nat) : State :=
  let dev := o.remote.dev
  match o.kind with
  | .rmld 0 => s.fabFinish c o.n .ok
  | _ =>
    if !s.reachable (hubOf c) dev then s.fabFinish c o.n (.far 0x39 0 dev)
    else
      let o' := { o with phase := .sent seq 0 s.now, inc := s.incOf dev }
      let s := s.modFab c o.n fun _ => o'
      match o.kind with
      | .rmst _ _ | .spred _ _ _ _ => if o.kind.carries = 0 then s.fabClose c o' seq else s.fabSend c o' seq o.kind.carries
      | _ => s.fabAsk c o' seq

/-- FABRIC_START: the operation starts with its checks, or sends the next 4 KiB of its data, and last the packet that asks for its flag;
one that a sweep has stopped sends nothing more, and one whose device is out of reach is refused (R335, R339, R340, R362). -/
def execFabricStart (core n : Nat) (s : State) : Out3 :=
  .next <|
    match (s.core core).fab.ops.find? fun o => o.n == n with
    | none => s
    | some o =>
      match o.phase with
      | .queued =>
        if !s.fabMayStart core o then s
        else
          match s.fabCheck core o with
          | .error f => s.fabFinish core n (.ofFlt f)
          | .ok _ =>
            let s' := { s with seq := (s.seq + 1) % 2 ^ 32 }
            if o.kind.isMulticast then s'.castStart core o s.seq else s'.farStart core o s.seq
      | .sent seq _ _ =>
        if o.kind.isMulticast ∨ o.flagOut ∨ o.kind.flag.isNone then s
        else if o.cut.isSome then s.fabFinish core n (o.ends .ok)
        else if !s.reachable (hubOf core) o.remote.dev then s.fabFinish core n (.far 0x39 0 o.remote.dev)
        else if o.prog < o.kind.carries then s.fabSend core o seq o.kind.carries
        else s.fabClose core o seq

/-! Replies (R340, R343 to R345, R349, R351). -/

/-- Write local bytes of an operation and complete it. -/
def State.fabStore (s : State) (c : Nat) (o : FabOp) (off : Int) (bs : List Byte) (st : FStat) : State :=
  match s.store (s.accFab c o) o.localH off bs 1 true [1, 2] with
  | .ok (_, s') => s'.fabFinish c o.n st
  | .error f => s.fabFinish c o.n (.ofFlt f)

/-- Element by element, the lower device first (R351). Of a length that is no multiple of the width, which the manual does not speak of, the
bytes after the last element are the lowest member's (log 32). -/
def mcldStep (op : AmoOp) (w : Nat) (acc bs : List Byte) : List Byte :=
  (List.range (acc.length / w)).flatMap (fun i => bytesOf w (amoNew op (8 * w) (natAt acc (w * i) w) (natAt bs (w * i) w) 0)) ++
    acc.drop (acc.length / w * w)

def mcldFold (op : AmoOp) (w : Nat) : List (List Byte) → List Byte
  | [] => []
  | b :: t => t.foldl (mcldStep op w) b

/-- Insert a member by rising device. -/
def insertMember (x : Nat × Nat × List Byte) : List (Nat × Nat × List Byte) → List (Nat × Nat × List Byte)
  | [] => [x]
  | y :: t => if x.1 ≤ y.1 then x :: y :: t else y :: insertMember x t

/-- Each member's outcome in ascending device order: its own reply, or why it has none (R347, R360). -/
def FabOp.outcomes (o : FabOp) (reason : Nat) : List (Nat × Nat × List Byte) :=
  (o.members.map fun m =>
    if m.2 ≠ 0 then (m.1, m.2, [])
    else
      match o.acks.find? fun r => r.dev == m.1 with
      | some r => (r.dev, r.reason, r.data)
      | none => (m.1, reason, [])).foldr insertMember []

/-- The record of R349. -/
def castRecord (inc : Nat) (ms : List (Nat × Nat × List Byte)) : List Byte :=
  let bad := ms.filter fun m => m.2.1 != 0
  let listed := (bad.take 28).flatMap fun m => bytesOf 2 (m.1 % 1024 + m.2.1 % 16 * 4096)
  bytesOf 2 (ms.length - bad.length) ++ bytesOf 2 bad.length ++ bytesOf 4 inc ++ listed ++ bytesOf (56 - listed.length) 0

/-- A refusal with reason 1, 2 or 4 is a violation of the issuing world (R387). -/
def State.noteRefusal (s : State) (c reason : Nat) : State :=
  if reason = 1 ∨ reason = 2 ∨ reason = 4 then s.noteViolation (s.core c).world 0x38 reason 0 c else s

/-- Has an operation's group changed since it started (R347, R360)? -/
def State.castStale (s : State) (c : Nat) (o : FabOp) : Bool :=
  let g := (s.world (s.core c).world).group o.remote.win
  !g.valid || g.inc.toNat != o.inc

/-- A multicast operation completes: the combined loads, the record, the status (R347, R349, R351). Members without a reply are listed with
a reason; `down` is the end after the last resend (R345). One that a sweep met in flight writes the data that came, which is its current
4 KiB, and no record (R362, log 32). -/
def State.castEnd (s : State) (c : Nat) (o : FabOp) (down : Bool) : State :=
  let ms := o.outcomes (if down then 6 else 7)
  let bad := ms.filter fun m => m.2.1 != 0
  let dev := (bad.head?.map (·.1)).getD 0
  let st :=
    if s.castStale c o then FStat.far 0x3A 0 dev
    else if down then FStat.far 0x39 0 dev
    else
      match bad with
      | [] => FStat.ok
      | m :: _ => FStat.far 0x38 m.2.1 m.1
  let a := s.accFab c o
  let data := match o.kind with
    | .mcld op w _ _ => mcldFold op (amoBytes w) ((ms.filter fun m => m.2.1 == 0).map fun m => m.2.2)
    | _ => []
  let stored : Except Flt (List Piece × State) := if data.isEmpty then .ok ([], s) else s.store a o.asSent.localH o.lo data 1 true [1, 2]
  match stored with
  | .error f => s.fabFinish c o.n (.ofFlt f)
  | .ok (_, s) =>
    if o.cut.isSome then s.fabFinish c o.n (o.ends st) else s.fabStore c o (o.recOff.getD o.lo) (castRecord o.inc ms) st

/-- Every member has answered or is not waited for. -/
def FabOp.allIn (o : FabOp) : Bool := o.members.all fun m => m.2 != 0 || o.acks.any fun r => r.dev == m.1

/-- Merged replies come back to the source (R349). -/
def State.castReply (s : State) (c : Nat) (o : FabOp) (rs : List MemberReply) : State :=
  let new := rs.filter fun r => o.members.any (fun m => m.1 == r.dev && m.2 == 0) && !o.acks.any fun q => q.dev == r.dev
  let s := new.foldl (fun s r => s.noteRefusal c r.reason) s
  let o := { o with acks := o.acks ++ new }
  let s := s.modFab c o.n fun _ => o
  if o.allIn then s.castEnd c o false else s

/-- A reply to a point-to-point operation. A load that a sweep has met receives its current 4 KiB and stops; the old value of an atomic is
then not written (R362). -/
def State.farReply (s : State) (c : Nat) (o : FabOp) (r : Reply) : State :=
  let dev := o.remote.dev
  match r with
  | .nak reason => (s.noteRefusal c reason).fabFinish c o.n (o.ends (.far 0x38 reason dev))
  | .stale => s.fabFinish c o.n (o.ends (.far 0x3A 0 dev))
  | .members _ => s
  | .ok data =>
    match o.kind with
    | .rmld n =>
      let got := o.got ++ data
      let stop := if o.cut.isSome then min n ((o.got.length / 4096 + 1) * 4096) else n
      if got.length < stop then s.modFab c o.n fun o => { o with got := got }
      else s.fabStore c o.asSent o.lo (got.take stop) (o.ends .ok)
    | .rmamo _ w _ _ _ => if o.cut.isSome then s.fabFinish c o.n (o.ends .ok) else s.fabStore c o o.lo (data.take (amoBytes w)) .ok
    | _ => if o.flagOut then s.fabFinish c o.n (o.ends .ok) else s

/-- The import that a core waits for, its question sent (R425). -/
def State.importOf (s : State) (c : Nat) : Option (X64 × X64) :=
  match s.lodeQ with
  | ⟨.core c' (.importWin xa xb), _, true⟩ :: _ => if c' = c then some (xa, xb) else none
  | _ => none

/-- The end of an import: its result, and the next request. -/
def State.endImport (s : State) (c : Nat) (v : X64) : State := (s.answerLode c v).nextLode

/-- The answer of a peer Lodestar to an import (R425). -/
def State.importReply (s : State) (c : Nat) (r : Reply) : State :=
  match s.importOf c, r with
  | some (xa, xb), .ok data =>
    let len := ofBytes data
    (s.bindImport (s.core c).world ⟨winDev xb, winWorld xb, winNo xa, len⟩).endImport c (ok len)
  | some _, .nak _ => s.endImport c (failure .remoteNak 1)
  | _, _ => s

/-- Does a target keep its reply to an operation (R345)? -/
def FabKind.cached : FabKind → Bool
  | .rmst _ _ | .rmamo _ _ _ _ _ | .mcst _ _ _ | .spred _ _ _ _ => true
  | .rmld _ | .mcld _ _ _ _ => false

/-- The devices whose kept reply a reply shows to have arrived. -/
def FabOp.heard (o : FabOp) (r : Reply) : List Nat :=
  if !o.kind.cached then []
  else
    match r with
    | .ok _ | .nak _ => [o.remote.dev]
    | .members rs => rs.map (·.dev)
    | .stale => []

/-- The source confirms that a reply arrived, so that the target may free its entry (R345). -/
def State.confirm (s : State) (c : Nat) (o : FabOp) (r : Reply) : State :=
  match o.seqNo with
  | none => s
  | some seq => (o.heard r).foldl (fun s d => (s.post (hubOf c) d o.way fun p => .confirm p d (s.reqId c seq)).2) s

/-- Bytes that a reply carries. -/
def replyBytes : Reply → Nat
  | .ok data => data.length
  | .members rs => (rs.map fun r => r.data.length).sum
  | .nak _ | .stale => 0

/-- REMOTE_REPLY: a reply, or a part of a load's, ends or carries on its operation, and is confirmed (R345). Number 0 answers the core's import,
which travels in the session of the Lodestars. -/
def execRemoteReply (core n : Nat) (r : Reply) (s : State) : Out3 :=
  .next <|
    if n = 0 then s.importReply core r
    else s.landing (replyBytes r) fun _ s =>
      match (s.core core).fab.ops.find? fun o => o.n == n && !o.phase.unstarted with
      | none => s
      | some o =>
        match o.kind.isMulticast, r with
        | true, .members rs => (s.castReply core o rs).confirm core o r
        | true, _ => s
        | false, _ => (s.farReply core o r).confirm core o r

/-- Does an operation that a sweep has met send nothing again? An atomic does (R362). -/
def FabOp.quits (o : FabOp) : Bool :=
  match o.kind with
  | .rmamo _ _ _ _ _ => false
  | .rmst _ _ | .rmld _ | .mcst _ _ _ | .mcld _ _ _ _ | .spred _ _ _ _ => o.cut.isSome

/-- Has a first hop that the operation's packets took been lost (R345)? -/
def State.pathLost (s : State) (o : FabOp) : Bool :=
  o.ports.any fun p =>
    match (s.port p).st with
    | .opened | .recovery => false
    | .down | .training | .attesting | .closed | .idle => true

/-- An operation sends again what it has sent, under the same identifier, and by another path where there is one (R345). -/
def State.fabAgain (s : State) (c : Nat) (o : FabOp) (seq re : Nat) : State :=
  let o' := { o with phase := .sent seq (re + 1) s.now, ports := [], avoid := o.ports, got := if o.kind.flag.isSome then o.got else [] }
  let s := s.modFab c o.n fun _ => o'
  match o.kind with
  | .rmld _ | .rmamo _ _ _ _ _ => s.fabAsk c o' seq
  | _ =>
    let s := s.fabData c o' seq 0 true o.got
    if o.flagOut then s.fabClose c o' seq else s

/-- A multicast operation sends again to the members that have not answered, by the one minimal path that the tables now give to each (R336,
R345); those out of reach now are listed so. After a change of its group they receive nothing more (R347). -/
def State.castAgain (s : State) (c : Nat) (o : FabOp) (seq re : Nat) : State :=
  if s.castStale c o then s.castEnd c o false
  else if 8 ≤ re then s.castEnd c o true
  else
    let waits (m : Nat × Nat) : Bool := m.2 == 0 && !o.acks.any fun r => r.dev == m.1
    let ms := o.members.map fun m => if waits m ∧ !s.reachable (hubOf c) m.1 then (m.1, 6) else m
    let o' := { o with phase := .sent seq (re + 1) s.now, members := ms, ports := [] }
    let s := s.modFab c o.n fun _ => o'
    if o'.allIn then s.castEnd c o' false else s.castSend c o' seq ((ms.filter waits).map (·.1)) o.got

/-- RESEND_TIMEOUT: the same request again, or LINK_DOWN after eight or where no path is left (R335, R345); a store or a load that a sweep
has met ends instead (R362). Number 0 is the core's import (R425). -/
def execResendTimeout (core n : Nat) (s : State) : Out3 :=
  .next <|
    if n = 0 then
      match s.importOf core with
      | some (_, xb) => if s.reachable s.lodestar (winDev xb) then s else s.endImport core (failure .linkDown 0)
      | none => s
    else
      match (s.core core).fab.ops.find? fun o => o.n == n with
      | none => s
      | some o =>
        match o.phase with
        | .queued => s
        | .sent seq re since =>
          if s.now < since + 2097152 ∧ !s.pathLost o then s
          else if o.quits then s.fabFinish core n (o.ends .ok)
          else if o.kind.isMulticast then s.castAgain core o seq re
          else if 8 ≤ re ∨ !s.reachable (hubOf core) o.remote.dev then s.fabFinish core n (o.ends (.far 0x39 0 o.remote.dev))
          else s.fabAgain core o seq re

/-! At a target (R338, R342 to R345, R350 to R353). -/

/-- Reasons of Table 12.2 for a fault of the local handle. -/
def nakOf (f : Flt) : Nat :=
  match f.code with
  | .handleRevoked => 2
  | .handleRights => 4
  | .integrity => 5
  | .translation => 8
  | _ => 3

/-- The handle of the window that a request names, or a reason (Table 12.2). -/
def State.windowFor (s : State) (id : ReqId) (w : WinRef) : Except Nat Handle :=
  match tabFind (s.world w.world).windows w.win with
  | none => .error 1
  | some v =>
    if !v.sources.contains (id.dev, w.srcWorld) ∨ (s.world w.world).st ≠ .live then .error 1
    else if v.h.revoked then .error 2
    else if !v.opened then .error 1
    else .ok v.h

/-- A target's access through a window, exempt from race detection (R108, R338). -/
def State.winCheck (s : State) (w : WinRef) (h : Handle) (off size align : Nat) (k : Kind) : Except Nat (List Piece) :=
  (s.check (engineAcc 0 w.world) h off size k align [1, 2]).mapError nakOf

/-- The reply that the replay cache holds for a request (R345). -/
def State.cached (s : State) (id : ReqId) : Option Reply :=
  (((tabFind s.cache id.dev).getD []).find? fun e => e.id == id).map (·.reply)

/-- May an entry of a replay cache still be replayed when a request comes: it is not half the range of sequence numbers behind? -/
def recentReq (new old : ReqId) : Bool := decide ((new.seq + 2 ^ 32 - old.seq) % 2 ^ 32 < 2 ^ 31)

/-- Keep a reply, in one of the 256 entries of its source. An entry is freed only by the source's confirmation, which no event of the package
shows: in a full cache a free value tells which it was, and a confirmed one that stays answers nothing (R345, log 32). -/
def State.cacheReply (s : State) (id : ReqId) (r : Reply) : State :=
  let old := ((tabFind s.cache id.dev).getD []).filter fun e => recentReq id e.id
  let d := s.draw
  if old.length < 256 then { s with cache := tabSet s.cache id.dev (⟨id, r⟩ :: old) }
  else { d.2 with cache := tabSet s.cache id.dev (⟨id, r⟩ :: (old.eraseIdx (Config.confirmed d.1 % 256)).take 255) }

def State.dropIncoming (s : State) (id : ReqId) : State := { s with incoming := s.incoming.filter fun x => x.id != id }

/-- Replies in packets of at most 256 bytes of data (R334). -/
def packReplies : List MemberReply → List (List MemberReply)
  | [] => []
  | r :: t =>
    match packReplies t with
    | [] => [[r]]
    | g :: gs => if r.data.length + (g.map fun x => x.data.length).sum ≤ 256 then (r :: g) :: gs else [r] :: g :: gs

/-- The replies of members that a branch has gathered go back when the last has come (R349). -/
def State.branchReply (s : State) (id : ReqId) (rs : List MemberReply) : State :=
  match s.branches.find? fun b => b.id == id with
  | none => s
  | some b =>
    let new := rs.filter fun r => b.todo.contains r.dev
    let b' := { b with todo := b.todo.filter fun d => !new.any (fun r => r.dev == d), got := b.got ++ new }
    if b'.todo.isEmpty then
      (packReplies b'.got).foldl (fun s g => s.sendOn b.back (.merged b.back id g)) { s with branches := s.branches.filter fun x => x.id != id }
    else { s with branches := s.branches.map fun x => if x.id = id then b' else x }

/-- The packets of a reply, by offset: the data of a load may take several (R334). -/
def replyParts : Reply → List (Nat × Reply)
  | .ok data => (payloads data).map fun p => (p.1, .ok p.2)
  | r => [(0, r)]

/-- The packets of a reply choose their first hops at the first of this device's hubs that reaches the source; where none does they are not
sent, and the source asks again (R335, R336, R345, log 32). -/
def State.sendBack (s : State) (way : Way) (id : ReqId) (r : Reply) : State :=
  let hub := if s.reachable 0 id.dev then 0 else 1
  (replyParts r).foldl (fun s x => (s.post hub id.dev way fun p => .reply p id x.1 x.2).2) s

/-- A reply goes back to the source: along its replication tree, and by the branch of it that this device is, where it came so (R349). -/
def State.reply (s : State) (way : Way) (id : ReqId) (r : Reply) : State :=
  if s.branches.any fun b => b.id == id && b.todo.contains s.fabId then
    match r with
    | .ok data => s.branchReply id [⟨s.fabId, 0, data⟩]
    | .nak reason => s.branchReply id [⟨s.fabId, reason, []⟩]
    | .stale => s.branchReply id [⟨s.fabId, 7, []⟩]
    | .members rs => s.branchReply id rs
  else s.sendBack way id r

/-- Answer an applied request: the reply is kept and goes back. -/
def State.answerReq (s : State) (way : Way) (id : ReqId) (r : Reply) : State := ((s.dropIncoming id).cacheReply id r).reply way id r

/-- A refusal; a line of the target's world that fails its tag counts there (R387). -/
def State.refuse (s : State) (way : Way) (id : ReqId) (w : WinRef) (reason : Nat) : State :=
  (if reason = 5 then s.noteIntegrity w.world 0x1A else s).answerReq way id (.nak reason)

/-- Serve a request once: a replay has the cached reply and applies nothing; a request of before this device's last reset is stale (R345). -/
def State.onceFor (s : State) (way : Way) (id : ReqId) (inc : Nat) (k : State → State) : State :=
  match s.cached id with
  | some r => s.reply way id r
  | none => if inc = s.incarnation then k s else s.reply way id .stale

/-- What a flag increment from another device follows here: each operation of this device's own that reached that device before, by paths
that the package does not see, and all that the operation followed (R112, log 19). -/
def State.flagEdge (s : State) : Clock :=
  s.cores.foldl (fun k e =>
    let sent := (e.2.fab.ops.filter fun o => !o.phase.unstarted).map fun o => (o.n, o.clk)
    (sent ++ e.2.fab.clks).foldl (fun k o =>
      if Config.follows s.fresh e.1 o.1 then clkPut (clkJoin k o.2) (s.opAgent e.1 4 o.1) 1 else k) k) []

/-- Raise a flag by 1 modulo 2^64 (R342); its observer learns what the increment follows (R112). -/
def State.raiseFlag (s : State) (world : Nat) (ps : List Piece) : State :=
  let k := clkJoin (s.flagClk ps) s.flagEdge
  let words := ((piecesKeys ps).map (· / 8)).eraseDups
  let s' := { s.draw.2 with flagClks := words.foldl (fun t w => tabSet t w k) s.flagClks }
  s'.putMem world (zipBytes ps (bytesOf 8 (ofBytes (s.readBytes ps) + 1)))

/-- A target's access to the window that a request names. -/
def State.target (s : State) (id : ReqId) (w : WinRef) (off size align : Nat) (k : Kind) : Except Nat (List Piece) := do
  let h ← s.windowFor id w
  s.winCheck w h off size align k

/-- A request part-way through. -/
def State.pending (s : State) (id : ReqId) (w : WinRef) : Incoming := (s.incoming.find? fun x => x.id == id).getD ⟨id, w, [], [], 0, none⟩

def State.setPending (s : State) (x : Incoming) : State := { s.dropIncoming x.id with incoming := (s.dropIncoming x.id).incoming ++ [x] }

/-- What has come of a request, in bytes or pairs. -/
def Incoming.sum (x : Incoming) : Nat := x.got.foldl (fun n g => n + g.2) 0

/-- One pair of a sparse reduction: applied alone, or refused with a reason (R352). -/
def State.applyPair (s : State) (id : ReqId) (w : WinRef) (fadd : Bool) (p : SPair) : State × Nat :=
  match s.target id w p.off 4 4 .atomic with
  | .error r => (if r = 5 then s.noteIntegrity w.world 0x1A else s, r)
  | .ok ps =>
    let old := BitVec.ofNat 32 (ofBytes (s.readBytes ps))
    (s.putBytes w.world (zipBytes ps (bytesOf 4 (pairSum fadd old p.value).toNat)), 0)

/-- Insert a held pair by its place in the source buffer. -/
def insertPair (x : Nat × SPair) : List (Nat × SPair) → List (Nat × SPair)
  | [] => [x]
  | y :: t => if x.1 ≤ y.1 then x :: y :: t else y :: insertPair x t

/-- Held pairs apply as one unit, in their order in the source buffer (R353). -/
def State.applyHeld (s : State) (id : ReqId) (w : WinRef) (fadd : Bool) (ps : List (Nat × SPair)) : State × Nat :=
  (ps.foldr insertPair []).foldl (fun r p =>
    let q := r.1.applyPair id w fadd p.2
    (q.1, if r.2 = 0 then q.2 else r.2)) (s, 0)

/-- The end of a store or reduction: once everything has come and the closing packet with it, held pairs apply and the flag rises; a
refused pair leaves it (R342, R352, R353). -/
def State.tryEnd (s : State) (way : Way) (id : ReqId) (fadd : Bool) : State :=
  match s.incoming.find? fun x => x.id == id with
  | none => s
  | some x =>
    match x.close with
    | none => s
    | some (total, flag) =>
      if x.sum < total then s
      else
        let r := s.applyHeld id x.w fadd x.pairs
        let nak := if x.nak = 0 then r.2 else x.nak
        if nak ≠ 0 then r.1.answerReq way id (.nak nak)
        else
          match r.1.target id x.w flag 8 8 .store with
          | .error n => r.1.refuse way id x.w n
          | .ok fs => (r.1.raiseFlag x.w.world fs).answerReq way id (.ok [])

/-- REMOTE_STORE_PACKET: a packet of an RMST, or with a flag the one that closes it; a packet that came before changes nothing
(R342, R345). -/
def execRemoteStorePacket (id : ReqId) (w : WinRef) (off total : Nat) (data : List Byte) (flag : Option Nat) (s : State) : Out3 :=
  .next <| s.landing data.length fun _ s => s.onceFor (.any []) id w.inc fun s =>
    let x := s.pending id w
    match flag with
    | some f => (s.setPending { x with close := some (total, f) }).tryEnd (.any []) id false
    | none =>
      if x.got.any fun g => g.1 == off then s
      else
        match s.target id w off data.length 1 .store with
        | .error r => s.refuse (.any []) id w r
        | .ok ps =>
          ((s.putBytes w.world (zipBytes ps data)).setPending { x with got := x.got ++ [(off, data.length)] }).tryEnd (.any []) id false

/-- A read of a window goes back as it is; nothing is kept (R343, R345). -/
def State.loadFor (s : State) (way : Way) (id : ReqId) (w : WinRef) (off len : Nat) : State :=
  match s.target id w off len 1 .load with
  | .error r => (if r = 5 then s.noteIntegrity w.world 0x1A else s).reply way id (.nak r)
  | .ok ps => s.reply way id (.ok (s.readBytes ps))

/-- A read whose request names this device's incarnation; one of before the last reset is stale (R345). -/
def State.loadOnce (s : State) (way : Way) (id : ReqId) (w : WinRef) (off len : Nat) : State :=
  if w.inc = s.incarnation then s.loadFor way id w off len else s.reply way id .stale

/-- REMOTE_LOAD_REQUEST (R343). -/
def execRemoteLoadRequest (id : ReqId) (w : WinRef) (off len : Nat) (s : State) : Out3 :=
  .next (s.landing 0 fun _ s => s.loadOnce (.any []) id w off len)

/-- REMOTE_ATOMIC_REQUEST (R344). -/
def execRemoteAtomicRequest (id : ReqId) (w : WinRef) (off : Nat) (op : AmoOp) (wd : AmoWidth) (operand compare : X64) (s : State) :
    Out3 :=
  .next <| s.landing 0 fun _ s => s.onceFor (.any []) id w.inc fun s =>
    let n := amoBytes wd
    match s.target id w off n n .atomic with
    | .error r => s.refuse (.any []) id w r
    | .ok ps =>
      let old := ofBytes (s.readBytes ps)
      let new := amoNew op (8 * n) old (operand.toNat % 2 ^ (8 * n)) (compare.toNat % 2 ^ (8 * n))
      (s.putBytes w.world (zipBytes ps (bytesOf n new))).answerReq (.any []) id (.ok (bytesOf n old))

/-- MULTICAST_DELIVERY: as RMST; a member that refuses writes nothing (R350). `inc` is the member's incarnation at the first attempt (R345). The
reply goes back along the tree, by the port that the copy came by (R349). -/
def execMulticastDelivery (id : ReqId) (w : WinRef) (inc off : Nat) (data : List Byte) (flag : Nat) (s : State) : Out3 :=
  .next <| s.landing data.length fun p s => s.onceFor (.tree p) id inc fun s =>
    match (do let ps ← s.target id w off data.length 1 .store; let fs ← s.target id w flag 8 8 .store; Except.ok (ps, fs)) with
    | .error r => s.refuse (.tree p) id w r
    | .ok (ps, fs) => ((s.putBytes w.world (zipBytes ps data)).raiseFlag w.world fs).answerReq (.tree p) id (.ok [])

/-- MULTICAST_LOAD_REQUEST; the incarnation that it names is the member's at the first attempt (R345, R351). -/
def execMulticastLoadRequest (id : ReqId) (w : WinRef) (off len : Nat) (s : State) : Out3 :=
  .next (s.landing 0 fun p s => s.loadOnce (.tree p) id w off len)

/-- A pair's place counts for each operation that contributed to it. -/
def State.notePair (s : State) (w : WinRef) (nak : Nat) (p : SPair) : State :=
  p.ops.foldl (fun s o =>
    let x := s.pending o.1 w
    s.setPending { x with got := x.got ++ [(o.2, 1)], nak := if x.nak = 0 then nak else x.nak }) s

/-- Has a pair come before, for any operation that contributed to it (R345, R352)? -/
def State.pairKnown (s : State) (w : WinRef) (p : SPair) : Bool :=
  p.ops.any fun o => (s.cached o.1).isSome || (s.pending o.1 w).got.any fun g => g.1 == o.2

/-- A pair reaches the target: it applies, or under `.det` waits for the rest of its operation (R352, R353). -/
def State.takePair (id : ReqId) (w : WinRef) (fadd det : Bool) (s : State) (p : SPair) : State :=
  if s.pairKnown w p then s
  else if det then
    let x := s.pending id w
    let n := (p.ops.head?.map (·.2)).getD 0
    s.setPending { x with got := x.got ++ [(n, 1)], pairs := x.pairs ++ [(n, p)] }
  else
    let r := s.applyPair id w fadd p
    r.1.notePair w r.2 p

/-- SPRED_PAIRS: pairs reach the target, or with a flag the packet that closes an operation of `total` pairs (R352, R353). -/
def execSpredPairs (id : ReqId) (w : WinRef) (total : Nat) (pairs : List SPair) (fadd det : Bool) (flag : Option Nat) (s : State) : Out3 :=
  .next <| s.landing (8 * pairs.length) fun _ s =>
    match flag with
    | some f => s.onceFor .minimal id w.inc fun s => (s.setPending { s.pending id w with close := some (total, f) }).tryEnd .minimal id fadd
    | none =>
      if w.inc ≠ s.incarnation then s
      else
        let s := pairs.foldl (State.takePair id w fadd det) s
        ((pairs.flatMap fun p => p.ops.map (·.1)).eraseDups).foldl (fun s i => s.tryEnd .minimal i fadd) s

/-! Routers of this device (R336, R348, R349, R352). -/

/-- MERGE_EVICT: a merged pair goes on its way. -/
def execMergeEvict (i : Nat) (s : State) : Out3 :=
  .next <|
    match s.merge[i]? with
    | none => s
    | some m => { s with merge := s.merge.eraseIdx i }.sendPair m

/-- Send on by the minimal port of a hub, where the destination is another device and is reachable. -/
def State.passOn (s : State) (hub dst : Nat) (mk : Nat → Out) : State :=
  if s.reachable hub dst ∧ dst ≠ s.fabId then (s.post hub dst .minimal mk).2 else s

/-- Copies go on to each listed member, one delivering at each, in packets of their data; a member out of reach is answered for with reason 6
(R334, R348, R349). -/
def State.branch (s : State) (port : Nat) (id : ReqId) (here : Bool) (ms : List Nat) (data : List Byte) (mk : Nat → Nat → List Byte → Transit) :
    State :=
  let hub := port / 16
  let ok := ms.filter (s.reachable hub)
  let lost := (ms.filter fun d => !s.reachable hub d).map fun d => (⟨d, 6, []⟩ : MemberReply)
  let todo := if here then s.fabId :: ok else ok
  let s := { s with branches := s.branches.filter (fun b => b.id != id) ++ [⟨id, port, todo, lost⟩] }
  let s := ok.foldl (fun s d => (payloads data).foldl (fun s b => s.passOn hub d fun p => .forward p (mk d b.1 b.2)) s) s
  if todo.isEmpty then s.branchReply id [] else s

/-- Bytes that a router has to pass on. -/
def transitBytes : Transit → Nat
  | .packet _ => 0
  | .copy _ _ _ _ _ _ data => data.length
  | .pairs _ _ _ _ ps => 8 * ps.length
  | .replies _ rs => (rs.map fun r => r.data.length).sum

/-- PACKET_FORWARD: what a router of this device passes on, neither its source nor its target. -/
def execPacketForward (port : Nat) (what : Transit) (s : State) : Out3 :=
  .next <|
    match State.arriveBy port (packetsOf (transitBytes what)) s with
    | .error s => s
    | .ok s =>
      let hub := port / 16
      match what with
      | .packet dst => s.passOn hub dst fun p => .forward p (.packet dst)
      | .copy id here ms w k off data => s.branch port id here ms data fun d o bs => .copy id true [d] w k (off + o) bs
      | .pairs dst w fadd det ps =>
        if dst = s.fabId then s
        else if det then s.passOn hub dst fun p => .forward p (.pairs dst w fadd det ps)
        else ps.foldl (fun s p => s.mergePair hub dst w fadd p) s
      | .replies id rs =>
        if s.branches.any fun b => b.id == id then s.branchReply id rs
        else s.passOn hub id.dev fun p => .forward p (.replies id rs)

/-- WINDOW_OPEN_QUERY: a peer Lodestar asks whether a window is open to a device and a world (R425). -/
def execWindowOpenQuery (q : WinQuery) (s : State) : Out3 :=
  .next <|
    match tabFind (s.world q.world).windows q.win with
    | some v =>
      let yes := v.opened && v.sources.contains (q.dev, q.srcWorld)
      s.emit (.window q yes (if yes then v.h.length.toNat else 0))
    | none => s.emit (.window q false 0)

end Sys2Proof.Machine
end

