-- ==== Sys2Proof/Machine/TaskEvents.lean ====
section
/-! DEFINITION. Events of the Task engine: placement, phases, completion, pre-emption, slices, and the scrub at a change
of world (R303 to R323, R379, R399). -/
namespace Sys2Proof.Machine

/-! Placement (R308, R311). -/

/-- Does the world hold its slice (R311, R399)? -/
def State.inSlice (s : State) (world : Nat) : Bool :=
  let b := s.berth (s.world world).berth
  (s.world world).st == .live && (s.world world).manifest.isNone && b.inSlice && b.cur == world

/-- Free cores of a die that a world may use, lowest first. A core that held another world waits for its scrub (R379). -/
def State.freeCores (s : State) (die world : Nat) : List Nat :=
  let cs := s.clustersUsable (s.world world).berth
  (List.range 96).filterMap fun i =>
    let c := 96 * die + i
    let k := s.core c
    if cs.contains (clusterOf c) ∧ k.task.isNone ∧ k.hrun = .idle ∧ !k.fenced ∧ (k.world = world ∨ k.world = 0) ∧ !s.asksLode c then some c
    else none

/-- The head of the highest non-empty level. -/
def State.topReady (s : State) (die world : Nat) : Option (Nat × Nat) :=
  (List.range 16).reverse.findSome? fun p => ((s.readyQ die world p).head?).map fun i => (p, i)

/-- Every carried timeline has reached its value (R111). -/
def State.carriesMet (s : State) (t : Task) : Bool := t.carry.all fun e => decide (e.2.2 ≤ (s.core e.1).timeline e.2.1)

/-- What the carried operations tell the child's first instruction. -/
def State.carryClk (s : State) (t : Task) : Clock :=
  t.carry.foldl (fun k e => clkJoin k (s.timelineClk e.1 e.2.1 e.2.2)) t.clk

/-- The cores that a ready task takes now: its own after a pre-emption, once what others left in flight there has ended (log 30), else
the lowest that are free (R311, R319). -/
def State.coresFor (s : State) (die idx : Nat) : Option (List Nat) :=
  let t := s.taskAt die idx
  let free := s.freeCores die t.world
  if t.saved then (if t.cores.all fun c => free.contains c && (s.core c).drained then some t.cores else none)
  else if s.carriesMet t ∧ t.tcb.gsize ≤ free.length then some (free.take t.tcb.gsize)
  else none

/-- The next gang number of a die: from 1, skipping 0 and numbers still held (R119). -/
def nextFree (held : List Nat) : Nat → Nat → Nat
  | 0, n => n
  | fuel + 1, n => if n = 0 ∨ held.contains n then nextFree held fuel ((n + 1) % 65536) else n

def State.heldGids (s : State) (die : Nat) : List Nat :=
  s.tasks.filterMap fun e => if e.1 / 4096 = die ∧ (e.2.st = .running ∨ e.2.saved) then some e.2.gid else none

def State.newGid (s : State) (die : Nat) : Nat := nextFree (s.heldGids die) 65536 ((tabFind s.nextGid die).getD 1)

/-- An untyped shape with pitch 0. -/
def plainShape : BitVec 27 := 0x7800000

/-- The handles of R422; rights R, W, A and M. -/
def State.startHandle (s : State) (world format base length : Nat) : Handle :=
  let w := s.world world
  w.sealed (w.freezeRights
    { format := BitVec.ofNat 8 format, rights := 0xE1, world := BitVec.ofNat 12 world, serial := 0, base := BitVec.ofNat 57 base
      length := BitVec.ofNat 48 length, shape := plainShape, sealv := 0, isSealed := true, revoked := false })

def State.heapHandle (s : State) (world die : Nat) : Handle :=
  let p := (tabFind s.heaps (heapKey world die)).getD ⟨0, 0, []⟩
  s.startHandle world 3 p.base p.length

/-- h2 at task start: the task's code handle, untyped with pitch 0, sealed as it is placed (R422). -/
def State.codeHandle (s : State) (t : Task) : Handle :=
  let w := s.world t.world
  s.swept (w.sealed (w.freezeRights { t.code with shape := plainShape }))

/-- h0 to h31 at task start (R308, R321, R422). -/
def State.startHandles (s : State) (t : Task) (rank c : Nat) : Tab Handle :=
  let args := match t.live[rank]? with
    | some hs => hs.map s.swept
    | none => t.tcb.himg.map s.swept
  let own := [s.startHandle t.world 2 (scrBase c) 2097152, s.startHandle t.world 2 (clusterOf c * 16777216) 16777216,
    s.codeHandle t, s.heapHandle t.world (dieOf c)]
  (List.range 32).zip ((own ++ args).take 32)

/-- A stream at task start; region numbers go on, and it knows what the task knows. -/
def StreamSt.fresh (v : StreamSt) (clk : Clock) : StreamSt := { StreamSt.idle with region := v.region + 1, clk := clkJoin v.clk clk }

/-- A task's epochs start with it: departures of other gangs on its core are none of its own (R106). -/
def StreamSt.noEpoch (v : StreamSt) : StreamSt :=
  { v with clk := v.clk.filter fun e =>
      match e.1 with
      | .departed _ _ => false
      | _ => true }

/-- Tiles at task start: empty. A copy that a task before it left in flight still holds its own, with its bytes (R19, R232, R243). -/
def Core.tilesLeft (k : Core) : Tab TileSt := (k.tiles.filter fun e => e.2.held.isSome).map fun e => (e.1, { e.2 with full := false })

/-- Granules with a double-bit error at task start: those of what is left as it stood, accumulator rows and held tiles (R114, R417). -/
def Core.eccLeft (k : Core) : List Nat :=
  k.ecc.filter fun g => decide (accGran 0 ≤ g) || k.tilesLeft.any fun e => tileGran e.1 == g

/-- What survives on a core from one task to the next of a world: its queues' timelines and what they still carry, tiles that they hold,
its accumulator store (R114, R243, R248). -/
def Core.forTask (k : Core) (clk : Clock) : Core :=
  { Core.init with
    hrun := .halted, cycle0 := k.cycle0, minCls := k.minCls, fenced := k.fenced, binds := k.binds
    veil := k.veil, detEpoch := k.detEpoch, numGen := k.numGen, tiles := k.tilesLeft, ecc := k.eccLeft
    cqs := k.cqs, fab := k.fab, mx := Mx.init k.mx.acc, drowsy := k.drowsy
    hs := k.hs.fresh clk, ls := k.ls.fresh clk, ss := k.ss.fresh clk, vs := k.vs.fresh clk, ms := k.ms.fresh clk }

/-- GANG of Table 5.5. -/
def gangReg (gid size rank : Nat) : X64 := BitVec.ofNat 64 (gid * 2 ^ 16 + size * 2 ^ 8 + rank)

/-- SAVEBASE of a rank (R308). -/
def saveBase (save rank : Nat) : X64 := BitVec.ofNat 64 ((save + rank * 0x2000) * 256) &&& 0x01FFFFFFFFFFFF00

/-- A core at task start (R114, R308). -/
def State.startCore (s : State) (die idx : Nat) (t : Task) (clk : Clock) (rank c : Nat) : State :=
  let k := (s.core c).forTask clk
  s.setCore c
    { k with
      hs := k.hs.noEpoch, ls := k.ls.noEpoch, ss := k.ss.noEpoch, vs := k.vs.noEpoch, ms := k.ms.noEpoch
      task := some (die, idx), world := t.world, gang := gangReg t.gid t.tcb.gsize rank
      status := statusReset ||| BitVec.ofNat 64 (natOf t.tcb.sup)
      tvec := BitVec.ofNat 64 (t.tcb.tvec * 2 + natOf t.tcb.ten)
      savebase := saveBase t.tcb.save rank
      x := (List.range t.tcb.narg).map fun j => (j + 1, t.tcb.args.getD j 0)
      h := s.startHandles t rank c
      progress := s.now
      mx := { k.mx with refilled := s.now } }

/-- Serials that the world reads through the handles placed (R385). -/
def State.noteHandles (s : State) (world : Nat) (hs : List Handle) : State :=
  hs.foldl (fun s h => if h.format = 0 then s else s.noteSerial world h.serial.toNat) s

/-- A task takes its cores (R308, R321); its first phase starts with PHASE_START. -/
def State.startTask (s : State) (die idx : Nat) (cores : List Nat) : State :=
  let s := s.unready die idx
  let t := s.taskAt die idx
  let gid := s.newGid die
  let clk := s.carryClk t
  let p := if t.live.isEmpty then t.tcb.firstPhase else (t.phase, t.run)
  let t' := { t with
    st := .running, cores := cores, gid := gid, phase := p.1, run := p.2, placed := false, carry := [], bars := [], clk := clk
    startNo := s.startNo, saved := false }
  let s := { s with nextGid := tabSet s.nextGid die ((gid + 1) % 65536), startNo := s.startNo + 1 }
  let s := (s.setTask die idx t').noteHandles t.world (if t.live.isEmpty then t.tcb.himg else t.live.flatten)
  (cores.zip (List.range cores.length)).foldl (fun s p => s.startCore die idx t' clk p.2 p.1) s

/-- TASK_PLACE: the head of the highest level starts when its cores are free; with a trip count of zero it completes at
once (R309, R311), and with INTEGRITY where its wait read a word with a double-bit error (R417). -/
def execTaskPlace (die world : Nat) (s : State) : Out3 :=
  .next <|
    if !s.inSlice world then s
    else
      match s.topReady die world with
      | none => s
      | some (_, idx) =>
        let t := s.taskAt die idx
        if t.saved then s
        else if t.waitBad then ((s.unready die idx).noteIntegrity world 0x1A).completeTask die idx ⟨0x1A, 0, 0, 0, 0⟩ (s.carryClk t)
        else
          match s.coresFor die idx with
          | none => s
          | some cores =>
            if t.tcb.n = 0 ∧ t.live.isEmpty then (s.unready die idx).completeTask die idx ⟨0, 0, 0, 0, 0⟩ (s.carryClk t)
            else s.startTask die idx cores

/-! Phases (R28, R309). -/

/-- Every core of a gang stands at the HALT of the same phase, or has been placed and not started. -/
def State.gangHalted (s : State) (t : Task) : Bool := t.cores.all fun c => (s.core c).hrun == .halted

/-- A predicate of bit s of a stage mask. -/
def stagePred (mask st : Nat) : Pred := if bitOf mask st then allTrue else 0

/-- A core's phase registers, as a yield keeps them (R321). -/
def Core.phaseRegs (k : Core) : List X64 × List Pred :=
  ([60, 61, 62].map fun n => k.getX (BitVec.ofNat 6 n), (upFrom 24 8).map k.getK)

/-- The phase registers come back. -/
def Core.putPhase (k : Core) (r : List X64 × List Pred) : Core :=
  let k := ((upFrom 60 3).zip r.1).foldl (fun k p => k.setX (BitVec.ofNat 6 p.1) p.2) k
  ((upFrom 24 8).zip r.2).foldl (fun k p => k.setK p.1 p.2) k

/-- A core starts a phase: x60 to x62, k24 to k31, and the Helm at a granule. -/
def Core.startPhase (k : Core) (now mask phase run pc : Nat) : Core :=
  let k := ((k.setX 60 (BitVec.ofNat 64 mask)).setX 61 (BitVec.ofNat 64 phase)).setX 62 (BitVec.ofNat 64 (if phase = 1 then run else 0))
  let k := (List.range 8).foldl (fun k st => k.setK (24 + st) (stagePred mask st)) k
  { k with hrun := .running, haltLine := false, progress := now, hs := { k.hs with pc := BitVec.ofNat 16 pc } }

/-- The heaps that a supervisor sets as it runs: of each die of its world that has none yet, a range clear of the world's other heaps.
How and when it sets them the manual does not say (R83, R301, log 27). -/
def State.setHeaps (s : State) (world : Nat) : State :=
  (List.range 6).foldl (fun s d =>
    let r := Config.heapRange s.fresh d
    let heaps := (List.range 6).map fun e => (tabFind s.heaps (heapKey world e)).getD ⟨0, 0, []⟩
    let clear := heaps.all fun h => h.length == 0 || decide (r.1 + r.2 ≤ h.base) || decide (h.base + h.length ≤ r.1)
    if (heaps.getD d ⟨0, 0, []⟩).length = 0 ∧ clear ∧ r.1 + r.2 ≤ 2 ^ 57 ∧ r.2 < 2 ^ 48 then
      { s with heaps := tabSet s.heaps (heapKey world d) ⟨r.1, r.2, []⟩, fresh := s.fresh + 1 }
    else { s with fresh := s.fresh + 1 }) s

/-- Every core of a gang starts a phase; after a yield its phase registers are as they were then (R321). -/
def State.startPhase (s : State) (die idx phase run pc : Nat) : State :=
  let t := s.taskAt die idx
  let mask := t.tcb.stageMask phase run
  let s := s.setTask die idx { t with phase := phase, run := run, placed := true, live := [], phaseRegs := [] }
  (t.cores.zip (List.range t.cores.length)).foldl (fun s p => s.modCore p.1 fun k =>
    let k := k.startPhase s.now mask phase run pc
    match t.phaseRegs[p.2]? with
    | some r => k.putPhase r
    | none => k) (if t.tcb.sup then s.setHeaps t.world else s)

/-- PHASE_START: the first phase of a placed task, or the next; a marked task is reclaimed at the boundary (R309, R316, R321). -/
def execPhaseStart (die idx : Nat) (s : State) : Out3 :=
  .next <|
    let t := s.taskAt die idx
    if t.st ≠ .running ∨ !s.gangHalted t then s
    else if !t.placed then
      s.startPhase die idx t.phase t.run (if !t.live.isEmpty ∧ t.tcb.resume ≠ 0 then t.tcb.resume else t.tcb.entry t.phase)
    else
      let p := t.tcb.nextPhase t.phase t.run
      if p.1 = 3 then s else if t.marked then s.reclaim die idx else s.startPhase die idx p.1 p.2 (t.tcb.entry p.1)

/-- TASK_COMPLETE: every halt line of the gang is up (R28, R312). -/
def execTaskComplete (die idx : Nat) (s : State) : Out3 :=
  .next <|
    let t := s.taskAt die idx
    if t.st = .running ∧ t.placed ∧ t.cores.all fun c => (s.core c).hrun == .halted && (s.core c).haltLine then
      s.completeTask die idx ⟨0, 0, 0, 0, 0⟩ (clkJoin t.clk (s.gangClk die idx true))
    else s

/-- At a kernel-iteration boundary: every core halted, and a phase left (R309). -/
def State.atBoundary (s : State) (t : Task) : Bool :=
  t.st == .running && t.placed && s.gangHalted t && (t.tcb.nextPhase t.phase t.run).1 != 3

/-- RECLAIM: a marked task at a boundary, or one that does not run (R316, R317). -/
def execReclaim (die idx : Nat) (s : State) : Out3 :=
  .next <|
    let t := s.taskAt die idx
    if !t.marked ∨ t.st = .free ∨ t.st = .done then s
    else if t.st ≠ .running ∨ s.atBoundary t then s.reclaim die idx
    else s

/-! Pre-emption within a world (R319). -/

/-- Nothing of a core's engines is in flight. -/
def Core.settled (k : Core) : Bool := k.drained && k.fos.isEmpty && k.inFlight.isEmpty && !k.busy

/-- May a running task be pre-empted? A marked one is reclaimed at the boundary instead (R316). -/
def State.preemptible (s : State) (die : Nat) (t : Task) : Bool :=
  t.tcb.save != 0 && s.atBoundary t && !t.marked && !t.yieldPend && t.cores.all (fun c => (s.core c).settled) &&
    (match s.topReady die t.world with
     | some (p, i) => decide (t.pri < p) && (s.coresFor die i).isNone
     | none => false)

/-- The lowest PRI first, then the latest start. -/
def goesBefore (a b : Task) : Bool := decide (a.pri < b.pri) || (a.pri == b.pri && decide (b.startNo < a.startNo))

/-- Save the cores of a gang; none where an area cannot be written. -/
def State.saveCores (s : State) : List Nat → Option State
  | [] => some s
  | c :: rest =>
    match s.saveCore c with
    | .ok s' => s'.saveCores rest
    | .error _ => none

/-- PREEMPT: the state of each core goes to its area, and the task to the head of its level. -/
def execPreempt (die idx : Nat) (s : State) : Out3 :=
  .next <|
    let t := s.taskAt die idx
    let rivals := s.tasks.filter fun e => e.1 / 4096 == die && e.1 != taskKey die idx && e.2.world == t.world &&
      s.preemptible die e.2 && goesBefore e.2 t
    if !s.preemptible die t ∨ !rivals.isEmpty then s
    else
      match s.saveCores t.cores with
      | none => s
      | some s =>
        let ks := t.cores.map s.core
        let t' := { t with
          saved := true, areas := ks.map (·.savebase), fabs := ks.map (·.fab), copies := ks.map (·.cqs), seens := ks.map (·.hs.seen)
          clk := clkJoin t.clk (s.gangClk die idx true) }
        let s := t.cores.foldl (fun s c => s.modCore c fun k => { k with task := none, hrun := .idle, haltLine := false, absent := [] }) s
        (s.setTask die idx t').makeReady die idx true

/-- Carried timelines of a core have been reached before its numbers change, at a restore or a change of world: the core is drained then
(R111, R246, R379). -/
def State.settleCarries (s : State) (c : Nat) : State :=
  { s with tasks := s.tasks.map fun e =>
      let t := e.2
      (e.1, { t with
        clk := (t.carry.filter fun x => x.1 == c).foldl (fun k x => clkJoin k (s.timelineClk x.1 x.2.1 x.2.2)) t.clk
        carry := t.carry.filter fun x => x.1 != c }) }

/-- The numbers and the timeline of a queue that has drained, without its records. -/
def CopyQ.drained (v : CopyQ) : CopyQ := { v with ops := [], recs := [] }

/-- A core whose state is to be filled from its area on first use (R131, R187, R218, R246, R279); its timelines stand where they stood at
the save, whether or not a copy instruction ever names their queues (R110). The budget's counters start from
zero (R273), and accumulator rows hold what they held until they are filled (R248). -/
def State.restoreCore (s : State) (die idx : Nat) (t : Task) (rank c : Nat) : State :=
  let s := s.settleCarries c
  let k := (s.core c).forTask t.clk
  let area := t.areas.getD rank 0
  let seen := t.seens.getD rank 0
  let see (v : StreamSt) : StreamSt := { v with seen := seen }
  s.setCore c
    { k with
      task := some (die, idx), world := t.world, gang := gangReg t.gid t.tcb.gsize rank
      savebase := area, fillFrom := area, absent := allGrans, progress := s.now, numGen := k.numGen + 1
      cqs := (t.copies.getD rank []).map CopyQ.drained, fab := t.fabs.getD rank .empty
      hs := see k.hs, ls := see k.ls, ss := see k.ss, vs := see k.vs, ms := see k.ms
      mx := { k.mx with refilled := s.now } }

/-- TASK_RESTORE: a pre-empted task at the head of its level takes the same cores again (R319). -/
def execTaskRestore (die idx : Nat) (s : State) : Out3 :=
  .next <|
    let t := s.taskAt die idx
    if !t.saved ∨ t.st ≠ .ready ∨ !s.inSlice t.world ∨ (s.topReady die t.world).map (·.2) ≠ some idx then s
    else
      match s.coresFor die idx with
      | none => s
      | some cores =>
        let s := s.unready die idx
        let s := s.setTask die idx
          { t with st := .running, saved := false, placed := true, startNo := s.startNo, areas := [], fabs := [], copies := [] }
        let s := { s with startNo := s.startNo + 1 }
        (cores.zip (List.range cores.length)).foldl (fun s p => s.restoreCore die idx t p.2 p.1) s

/-! Slices (R320 to R322, R399). -/

/-- Mark a running gang yield-pending. -/
def State.markYield (s : State) (die idx : Nat) : State :=
  s.modTask die idx fun t => if t.st = .running ∧ !t.yieldPend then { t with yieldPend := true, yieldAt := s.now, yielded := [] } else t

/-- The tasks of a world in given states, by die and index. -/
def State.tasksIn (s : State) (world : Nat) (sts : List TaskSt) : List (Nat × Nat) :=
  s.tasks.filterMap fun e => if e.2.world = world ∧ sts.contains e.2.st then some (e.1 / 4096, e.1 % 4096) else none

/-- A world that takes slices: LIVE, and not exported (R399, R407). -/
def State.takesSlices (s : State) (id : Nat) : Bool := (s.world id).st == .live && (s.world id).manifest.isNone

/-- SLICE_END: at its time, or with no running or ready task left, and another world to follow; a berth with one world never changes it. -/
def execSliceEnd (berth : Nat) (s : State) : Out3 :=
  .next <|
    let b := s.berth berth
    let idle := (s.tasksIn b.cur [.running, .ready]).isEmpty
    let follows := b.order.any fun w => w != b.cur && s.takesSlices w
    if !b.inSlice ∨ (s.takesSlices b.cur ∧ !follows) ∨ (!idle ∧ s.lclock < b.sliceEnd) then s
    else
      let s := s.setBerth berth { b with inSlice := false }
      (s.tasksIn b.cur [.running]).foldl (fun s p => s.markYield p.1 p.2) s

/-- The live handle set of a core (R320). -/
def Core.liveHandles (k : Core) : List Handle :=
  (upFrom 4 28).map fun i => let h := k.getH (BitVec.ofNat 5 i); if h.isSealed then h else Handle.cleared

/-- GANG_YIELD: every core of the gang waits in YIELD; the gang is descheduled in one step. -/
def execGangYield (die idx : Nat) (s : State) : Out3 :=
  .next <|
    let t := s.taskAt die idx
    if t.st ≠ .running ∨ !t.yieldPend ∨ !t.cores.all fun c => (s.core c).hrun == .yielding then s
    else if t.marked then s.reclaim die idx
    else
      let live := t.cores.map fun c => (s.core c).liveHandles
      let regs := t.cores.map fun c => (s.core c).phaseRegs
      let clk := clkJoin t.clk (s.gangClk die idx true)
      let s := s.releaseCores die idx
      let s := s.modTask die idx fun v => { v with st := .yielded, gpos := t.yieldPos, live := live, phaseRegs := regs, clk := clk }
      if s.inSlice t.world then s.makeReady die idx true else s

/-- The first world that may take a slice after the current one, in the order in which they became LIVE, round robin. -/
def nextWorld (may : Nat → Bool) (order : List Nat) (cur : Nat) : Option Nat :=
  ((order.dropWhile (· != cur)).drop 1 ++ order).find? may

/-- SLICE_START: the next world, once every gang of the one before has yielded or stopped. -/
def execSliceStart (berth : Nat) (s : State) : Out3 :=
  .next <|
    let b := s.berth berth
    if b.inSlice ∨ !(s.tasksIn b.cur [.running]).isEmpty then s
    else
      match nextWorld s.takesSlices b.order b.cur with
      | none => s
      | some w =>
        let s := s.setBerth berth { b with cur := w, inSlice := true, sliceEnd := s.lclock + b.slice * 1000000 }
        (sortIdx (s.tasksIn w [.yielded])).reverse.foldl (fun s p => s.makeReady p.1 p.2 true) s

/-- A gang that has not yielded in time stops with OVERRUN (R322, R401). -/
def State.overrun (s : State) (die idx : Nat) : State :=
  let w := (s.taskAt die idx).world
  (s.endTask die idx false ⟨0x41, 0, 0, 0, 0⟩).modWorld w fun v => { v with overruns := v.overruns + 1 }

/-- OVERRUN_STOP: 4,800,000 cycles after its slice ended. -/
def execOverrunStop (die idx : Nat) (s : State) : Out3 :=
  .next <|
    let t := s.taskAt die idx
    if t.st = .running ∧ t.yieldPend ∧ t.yieldAt + 4800000 ≤ s.now then s.overrun die idx else s

/-! The change of world on a core (R379). -/

/-- A stream at task-start state; region numbers go on. -/
def StreamSt.scrubbed (v : StreamSt) : StreamSt := { StreamSt.idle with region := v.region + 1 }

/-- Registers, queues, timelines at their task-start state; a new veil key and detection epoch. -/
def Core.scrubbed (k : Core) (world : Nat) (veil : BitVec 256) : Core :=
  { Core.init with
    world := world, cycle0 := k.cycle0, minCls := k.minCls, fenced := k.fenced
    veil := veil, detEpoch := k.detEpoch + 1
    hs := k.hs.scrubbed, ls := k.ls.scrubbed, ss := k.ss.scrubbed, vs := k.vs.scrubbed, ms := k.ms.scrubbed }

/-- The scrub of one core: its banks read as zero, its barrier records with them, and it belongs to a world. -/
def State.scrubCore (s : State) (c world : Nat) : State :=
  let d := (s.settleCarries c).draw
  let s := d.2.modCore c fun k => k.scrubbed world (Config.drbg d.1)
  { s with
    mem := zeroRange (zeroRange s.mem (scrKey (scrBase c)) 2097152) (imemKey c 0) 196608
    barClks := s.barClks.filter fun e => homeOfKey e.1 != c
    ecc2 := soundRange (soundRange s.ecc2 (scrKey (scrBase c)) 2097152) (imemKey c 0) 196608 }

end Sys2Proof.Machine
end

