-- ==== Sys2Proof/Machine/LodestarEvents.lean ====
section
/-! DEFINITION. Events of the Lodestar: sweeps, rotation, the end of a world, reports, takeover (R366, R371 to R388). -/
namespace Sys2Proof.Machine

/-- A device-wide event: function 0 and every function whose TDI is in RUN (R411). -/
def State.errAll (s : State) (bit : Nat) : State :=
  { s.errBit 0 bit with tdis := (s.errBit 0 bit).tdis.map fun e =>
      if e.2.st = .run then (e.1, { e.2 with err := e.2.err ||| ((1 : X64) <<< bit) }) else e }

/-! Sweeps (R371 to R373, R394). -/

/-- Agents that report before another may: registers before snapshots taken from them, and those before the rest. -/
def agentReady (todo : List SweepAgent) : SweepAgent → Bool
  | .coreRegs _ => true
  | .copyEngine c => !todo.contains (.coreRegs c)
  | .fabricQueue c => !todo.contains (.coreRegs c)
  | .followOns c => !todo.contains (.copyEngine c)
  | .syncWaiters _ | .taskEngine _ | .windows =>
    !todo.any fun a =>
      match a with
      | .coreRegs _ => true
      | _ => false

def Sweep.hits (w : Sweep) (h : Handle) : Bool := w.op.hits w.world h
def Sweep.mark (w : Sweep) (h : Handle) : Handle := w.op.sweepOne w.world h
def Sweep.count (w : Sweep) (hs : List Handle) : Nat := (hs.filter w.hits).length

def Sweep.markSnap (w : Sweep) (snap : List (Nat × Handle)) : List (Nat × Handle) := snap.map fun e => (e.1, w.mark e.2)

/-- Registers of a core (R87). -/
def State.sweepRegs (s : State) (w : Sweep) (c : Nat) : State × Sweep :=
  let k := s.core c
  (s.setCore c { k with h := k.h.map fun e => (e.1, w.mark e.2) }, { w with regs := w.regs + w.count (k.h.map (·.2)) })

/-- A copy operation that a sweep reaches: its snapshots are marked, and a freeze stops the job that it runs (R245, R394). -/
def Sweep.markCopy (w : Sweep) (o : CopyOp) : CopyOp :=
  { o with
    snap := w.markSnap o.snap
    cut := match w.op with
      | .revoke _ _ => o.cut
      | .freeze _ _ => o.cut.or (o.cutBy w.hits) }

/-- Snapshots of the copy queues (R245). -/
def State.sweepCopies (s : State) (w : Sweep) (c : Nat) : State × Sweep :=
  let k := s.core c
  let hit := (k.cqs.flatMap (·.ops)).filter fun o => o.snap.any fun e => w.hits e.2
  (s.setCore c { k with cqs := k.cqs.map fun q => { q with ops := q.ops.map w.markCopy } },
    { w with before := w.before + (hit.filter fun o => o.phase.unstarted).length, cut := w.cut + (hit.filter fun o => !o.phase.unstarted).length })

/-- A fabric operation that a sweep reaches: its handles are marked, and one in flight stops (R362, R394). -/
def Sweep.markFab (w : Sweep) (o : FabOp) : FabOp :=
  { o with
    remote := w.mark o.remote, localH := w.mark o.localH
    cut := if !o.phase.unstarted && (w.hits o.remote || w.hits o.localH) then some (o.cut.getD w.op.code) else o.cut }

/-- Snapshots of the fabric queue (R362). -/
def State.sweepFabric (s : State) (w : Sweep) (c : Nat) : State × Sweep :=
  let k := s.core c
  let hit := k.fab.ops.filter fun o => w.hits o.remote || w.hits o.localH
  (s.setCore c { k with fab := { k.fab with ops := k.fab.ops.map w.markFab } },
    { w with before := w.before + (hit.filter fun o => o.phase.unstarted).length, cut := w.cut + (hit.filter fun o => !o.phase.unstarted).length })

/-- Snapshots of the follow-on queue and of follow-ons on their way to it (R277). -/
def State.sweepFollowOns (s : State) (w : Sweep) (c : Nat) : State :=
  let mark (f : FollowOn) : FollowOn := { f with snap := w.markSnap f.snap }
  s.modCore c fun k => { k with fos := k.fos.map mark, offers := k.offers.map fun o => (o.1, o.2.1, mark o.2.2) }

/-- The handle of the instruction at which a Helm waits. -/
def State.waiterHandle (s : State) (c : Nat) : Option Handle :=
  let k := s.core c
  let g := k.hs.pc.toNat
  match decodeWord .h (BitVec.ofNat 96 (s.gran c g + 2 ^ 32 * s.gran c (g + 1) + 2 ^ 64 * s.gran c (g + 2))) with
  | .ok i => (hsOf i).head?.map k.getH
  | _ => none

/-- A waiter in BARR, BWAIT or FLWAIT whose handle the sweep has marked leaves; its instruction then finds the handle
revoked (R300). -/
def State.sweepWaiter (s : State) (w : Sweep) (c : Nat) : State :=
  let go (_ : Unit) : State :=
    match w.op, s.waiterHandle c with
    | .revoke _ _, some h => if h.revoked ∧ h.world.toNat = w.world then s.withdraw c .h else s
    | _, _ => s
  match (s.core c).hs.wait with
  | some ⟨.bar _ _, false, _, _, _⟩ => go ()
  | some ⟨.flag _ _ _, false, _, _, _⟩ => go ()
  | _ => s

def State.sweepWaiters (s : State) (w : Sweep) (die : Nat) : State :=
  ((s.cores.map (·.1)).filter fun c => dieOf c == die).foldl (fun s c => s.sweepWaiter w c) s

/-- Images that a task holds: those of its TCB while it is not placed, live handle sets, its code handle while it runs nowhere, and its
launcher's (R371). -/
def Task.images (t : Task) : List Handle :=
  (if t.st = .running then [] else t.tcb.himg ++ [t.code]) ++ t.live.flatten ++
    match t.recAt with
    | .viaHandle h _ _ => [h]
    | .none => []
    | .viaWorld _ => []

def Task.markImages (w : Sweep) (t : Task) : Task :=
  { t with
    tcb := { t.tcb with himg := t.tcb.himg.map w.mark }
    live := t.live.map fun hs => hs.map w.mark
    code := w.mark t.code
    recAt := match t.recAt with
      | .viaHandle h off c => .viaHandle (w.mark h) off c
      | .none => .none
      | .viaWorld va => .viaWorld va }

def State.sweepTasks (s : State) (w : Sweep) (die : Nat) : State × Sweep :=
  let mine (e : Nat × Task) : Bool := e.1 / 4096 == die && e.2.st != .free && e.2.st != .done
  let n := (s.tasks.filter mine).foldl (fun n e => n + w.count e.2.images) 0
  ({ s with tasks := s.tasks.map fun e => if mine e then (e.1, e.2.markImages w) else e }, { w with images := w.images + n })

/-- Matching windows of the world close, their handles marked; a freeze only marks them (R338, R362, R425). -/
def State.sweepWindows (s : State) (w : Sweep) : State × Sweep :=
  let v := s.world w.world
  let hit (e : Nat × Window) : Bool := e.2.opened && w.hits e.2.h
  let closes := match w.op with
    | .revoke _ _ => true
    | .freeze _ _ => false
  let windows := v.windows.map fun e => (e.1, { e.2 with h := w.mark e.2.h, opened := e.2.opened && !(closes && hit e) })
  (s.setWorld w.world { v with windows := windows }, if closes then { w with wins := w.wins + (v.windows.filter hit).length } else w)

/-- An agent marks what it holds. -/
def State.sweepAgent (s : State) (w : Sweep) : SweepAgent → State × Sweep
  | .coreRegs c => s.sweepRegs w c
  | .copyEngine c => s.sweepCopies w c
  | .fabricQueue c => s.sweepFabric w c
  | .followOns c => (s.sweepFollowOns w c, w)
  | .syncWaiters d => (s.sweepWaiters w d, w)
  | .taskEngine d => s.sweepTasks w d
  | .windows => s.sweepWindows w

/-- The result of a sweep reaches the core that asked for it. -/
def State.answerSweep (s : State) (w : Sweep) (value : X64) : State :=
  match w.who with
  | none => s
  | some c => s.answerLode c value

/-- The end of a revocation: its number, and its record (R373). -/
def State.endRevoke (s : State) (w : Sweep) (first count : Nat) : State :=
  let r := s.nextSweep w.world
  let bytes := sweepRecord r.1 first count w.at0 s.lclock (some w)
  let s := if w.dst.isEmpty then r.2 else r.2.putBytes w.world (w.dst.zip bytes)
  s.answerSweep w (ok r.1)

/-- The end of a freeze: the digest of the region, and its entry (R394). -/
def State.endFreeze (s : State) (w : Sweep) (base len : Nat) : State :=
  match s.check (engineAcc (w.who.getD 0) w.world) (worldHandleAt w.world base) 0 len .load 1 [1] with
  | .error f => s.answerSweep w f.result
  | .ok ps =>
    let d := digestOf (sha256 (s.readBytes ps))
    let s := s.modWorld w.world fun v => { v with frozen := v.frozen ++ [(base, len, d)] }
    (s.putBytes w.world (w.dst.zip (bytesOf 32 d.toNat))).answerSweep w (ok (s.world w.world).frozen.length)

/-- The handles that a request brought, each with something done to it. -/
def LReq.mark (f : Handle → Handle) : LReq → LReq
  | .mint h off hd => .mint (f h) off hd
  | .reseal hd => .reseal hd
  | .revoke h off first count => .revoke (f h) off first count
  | .share h off x => .share (f h) off x
  | .rotate sig => .rotate sig
  | .scrub mask => .scrub mask
  | .freeze h h' off => .freeze (f h) (f h') off
  | .report h h' off offn => .report (f h) (f h') off offn
  | .trans h off => .trans (f h) off
  | .worldState => .worldState
  | .worldRoot pa => .worldRoot pa
  | .worldProgress j => .worldProgress j
  | .worldClock => .worldClock
  | .exportWin h xa xb => .exportWin (f h) xa xb
  | .importWin xa xb => .importWin xa xb
  | .closeWin xa xb => .closeWin xa xb

/-- A request that waits at the Lodestar: the handles that it brought are marked like any other snapshot, so that nothing passes through them
once the sweep has ended (R372, log 34). -/
def Sweep.markAsk (w : Sweep) (a : LodeAsk) : LodeAsk :=
  match a.who with
  | .core c r => { a with who := .core c (r.mark w.mark) }
  | .sweep _ _ | .host _ => a

/-- Step 4 of R371, and the next sweep in its turn. -/
def State.endSweep (s : State) (w : Sweep) : State :=
  let s := match w.op with
    | .revoke first count => s.endRevoke w first count
    | .freeze base len => s.endFreeze w base len
  { s with sweep := none, sweepDone := some w, lodeQ := s.lodeQ.map w.markAsk }.nextLode

/-- A store that the sweep matches has asked for its flag, and its burst ends before its queue reports (R362, R371, log 32). -/
def State.flagGone (s : State) (w : Sweep) : SweepAgent → Bool
  | .fabricQueue c => (s.core c).fab.ops.any fun o => o.flagOut && (w.hits o.remote || w.hits o.localH)
  | .coreRegs _ | .copyEngine _ | .followOns _ | .syncWaiters _ | .taskEngine _ | .windows => false

/-- A load that the sweep has met receives its current 4 KiB before its queue reports (R362, R371). -/
def State.loadOut (s : State) : SweepAgent → Bool
  | .fabricQueue c => (s.core c).fab.ops.any fun o =>
    o.cut.isSome && match o.kind with
      | .rmld _ | .mcld _ _ _ _ => true
      | .rmst _ _ | .rmamo _ _ _ _ _ | .mcst _ _ _ | .spred _ _ _ _ => false
  | .coreRegs _ | .copyEngine _ | .followOns _ | .syncWaiters _ | .taskEngine _ | .windows => false

/-- SWEEP_AGENT_MARK: an agent marks, once, and reports when what it has in flight has ended; the last report ends the sweep. -/
def execSweepAgentMark (agent : SweepAgent) (s : State) : Out3 :=
  .next <|
    match s.sweep with
    | none => s
    | some w =>
      let old := w.marked.contains agent
      if s.lodeDown ∨ !w.todo.contains agent ∨ !agentReady w.todo agent ∨ (!old ∧ s.flagGone w agent) then s
      else
        let r := if old then (s, w) else s.sweepAgent { w with marked := w.marked ++ [agent] } agent
        if r.1.loadOut agent then { r.1 with sweep := some r.2 }
        else
          let w' := { r.2 with todo := r.2.todo.filter (· != agent) }
          if w'.todo.isEmpty then r.1.endSweep w' else { r.1 with sweep := some w' }

/-! Rotation (R376 to R378). -/

/-- The line that the scrub engine takes: under the new generation where it can be read and its old tag verifies (R377, R378, R404). -/
def State.rotateLine (s : State) (id l : Nat) : State :=
  let w := s.world id
  match s.line l with
  | .fresh | .moved _ _ _ => s
  | .written w' g bad =>
    if w' ≠ id ∨ g ≠ w.gen then s
    else if bad || s.lineGone l then s.setWorld id { w with integ := w.integ + 1 }
    else { s with lines := tabSet s.lines l (.written id (w.gen + 1) false) }

/-- ROTATION_SCRUB_LINE: one line of a region; its mark moves past it. -/
def execRotationScrubLine (world region : Nat) (s : State) : Out3 :=
  .next <|
    let w := s.world world
    match w.rot with
    | none => s
    | some r =>
      let m := r.marks.getD region 0
      if 12 ≤ region ∨ regionHi r.share region ≤ m then s
      else
        let s := s.rotateLine world (hbmKey w.berth m / 256)
        s.modWorld world fun w => { w with rot := some { r with marks := listPut r.marks region (m + 256) } }

/-- ROTATION_END: every mark at its region's end (R378). -/
def execRotationEnd (world : Nat) (s : State) : Out3 :=
  .next <|
    let w := s.world world
    match w.rot with
    | none => s
    | some r =>
      if (List.range 12).any fun j => decide (r.marks.getD j 0 < regionHi r.share j) then s
      else
        let s := s.setWorld world { w with rot := none, gen := w.gen + 1, rotated := true }
        match r.sig with
        | some (die, n) => s.signal (semKey world die n) []
        | none => s

/-! The end of a world (R366). -/

/-- ENDING: tasks cancelled, and a sweep over every serial. -/
def State.endWorld (s : State) (id : Nat) : State :=
  if (s.world id).st = .none ∨ (s.world id).st = .ending then s
  else
    let s := s.modWorld id fun w => { w with st := .ending }
    let s := (s.tasksIn id [.waiting, .ready, .running, .held, .yielded]).foldl (fun s p => s.cancelTask p.1 p.2) s
    s.startSweep id (.revoke 1 (2 ^ 32 - 1))

/-- A world whose owners' sessions have all ended, with no manifest pending (R366): stage 9 of a session is its end. -/
def State.ownerless (s : State) (id : Nat) : Bool :=
  let mine := s.owned.filter fun o => o.1 == id
  mine.any (fun o => o.2.2.stage == 9) && !mine.any (fun o => o.2.2.stage == 8) && (s.world id).manifest.isNone

/-- WORLD_DESTROY: the last owner session has ended. A request of the host ends a world with DESTROY. -/
def execWorldDestroy (world : Nat) (s : State) : Out3 := .next (if s.ownerless world then s.endWorld world else s)

/-- Do no task of the world, no sweep of it and nothing in flight on a core of it remain? -/
def State.quiet (s : State) (id : Nat) : Bool :=
  s.cores.all (fun e => e.2.world != id || (e.2.task.isNone && e.2.hrun == .idle && e.2.drained && !e.2.busy)) &&
    (s.tasksIn id [.waiting, .ready, .running, .held, .yielded]).isEmpty && !(s.sweep.any fun w => w.world == id) &&
    !(s.lodeQ.any fun a =>
      match a.who with
      | .sweep world _ => world == id
      | .core c _ => (s.core c).world == id
      | .host _ => false)

/-- Every line that the world wrote and that verifies under its keys or under a transfer key of its own is fresh again; a line that failed
stays as it is (R366). -/
def State.freshen (s : State) (id : Nat) : State :=
  let w := s.world id
  let mine (e : Nat × Line) : Bool :=
    match e.2 with
    | .fresh => false
    | .written w' _ bad | .moved w' _ bad => w' == id && !bad
  let lo := w.berth * 2 ^ 32
  let goes := (s.lines.filter fun e => mine e && !s.lineGone e.1 && decide (lo ≤ e.1) && decide (e.1 < lo + 2 ^ 32)).map (·.1)
  { s with
    lines := s.lines.filter fun e => !goes.contains e.1
    mem := s.mem.filter fun e => decide (2 ^ 48 ≤ e.1) || !goes.contains (e.1 / 256) }

/-- A world leaves its berth's order; after the last slice the turn stays with the world before it (R399). -/
def Berth.unlist (b : Berth) (id : Nat) : Berth :=
  let before := b.order.takeWhile (· != id)
  { b with order := b.order.filter (· != id), cur := if b.cur = id then before.getLast?.getD 0 else b.cur, inSlice := b.inSlice && b.cur != id }

/-- No unit holds anything of the world: its keys, its translations, its heaps, its sessions. -/
def State.eraseWorld (s : State) (id : Nat) : State :=
  let b := (s.world id).berth
  let s := s.setBerth b ((s.berth b).unlist id)
  let clean (t : Tab (List TlbEnt)) : Tab (List TlbEnt) := t.map fun e => (e.1, e.2.filter fun x => x.world != id)
  { s with
    worlds := tabDrop s.worlds id
    tlb1 := clean s.tlb1, tlb2 := clean s.tlb2
    heaps := s.heaps.filter fun e => e.1 / 8 != id
    sems := s.sems.filter fun e => e.1 / 2048 != id
    semEcc := s.semEcc.filter fun e => e / 2048 != id
    owned := s.owned.filter fun o => o.1 != id }

/-! Position reports and takeover (R386 to R388). -/

/-- One violation entry (Table 13.7). -/
def violBytes (v : Nat × Nat × Nat × Nat × Nat) : List Byte :=
  bytesOf 8 v.1 ++ bytesOf 1 v.2.1 ++ bytesOf 1 v.2.2.1 ++ bytesOf 1 v.2.2.2.1 ++ bytesOf 1 0 ++ bytesOf 2 v.2.2.2.2 ++ bytesOf 2 0

/-- A position report (Table 13.7). -/
def State.positionBody (s : State) (id : Nat) : List Byte :=
  let w := s.world id
  let late := w.late || (w.takeover && decide (s.reportAt + 110000000 < s.lclock))
  let flags := natOf w.takeover + 2 * natOf late + 4 * natOf ((s.berth w.berth).state == 2) + 8 * natOf w.identity + 16 * natOf w.rotated
  let viol := w.viol.flatMap violBytes
  bytesOf 8 (w.repSeq + 1) ++ bytesOf 8 s.lclock ++ bytesOf 2 id ++ bytesOf 1 flags ++ bytesOf 1 0 ++ bytesOf 2 s.fabId ++
    bytesOf 2 w.berth ++ bytesOf 4 w.gen ++ bytesOf 4 0 ++ bytesOf 32 w.trT.toNat ++ bytesOf 8 w.trCount ++ bytesOf 4 w.violCount ++
    bytesOf 4 w.integ ++ bytesOf 4 w.overruns ++ bytesOf 4 s.alarms ++ bytesOf 8 0 ++ viol ++ bytesOf (160 - viol.length) 0

/-- What has been reported starts anew. -/
def World.reported (w : World) : World :=
  { w with repSeq := w.repSeq + 1, viol := [], violCount := 0, integ := 0, overruns := 0, rotated := false, takeover := false,
           late := false, identity := false }

/-- The MAC of a position report under Key("report", 0) (R365, R386). -/
def World.reportMac (w : World) (body : List Byte) : BitVec 256 := digestOf (hmac (worldKey w.prk reportLabel 0) body)

/-- A world's report travels inside the session of each of its owners. -/
def State.sendPosition (s : State) (id : Nat) : State :=
  let body := s.positionBody id
  let mac := (s.world id).reportMac body
  let owners := (s.owned.filter fun o => o.1 == id && o.2.2.stage == 8).map fun o => o.2.1
  (owners.foldl (fun s role => s.emit (.position id role body mac)) s).modWorld id World.reported

/-- POSITION_REPORT: every 100 ms of the Lodestar clock, to each LIVE world. -/
def execPositionReport (s : State) : Out3 :=
  .next <|
    if s.lodeDown ∨ s.lclock < s.reportAt + 100000000 then s
    else
      let live := (s.worlds.filter fun e => e.2.st == .live).map (·.1)
      let s' := live.foldl State.sendPosition s
      { s' with reportAt := s.lclock, alarms := 0 }

/-- LODESTAR_TAKEOVER: the standby fences the other Lodestar and carries on with what it has mirrored: the queue, the sweep and the question
in progress among it. It signs with its own leaves (R388). -/
def execLodestarTakeover (s : State) : Out3 :=
  .next <|
    if s.standby then s
    else
      let s := s.errAll 14
      let s := { s with
        standby := true, lodeFenced := s.lodeFenced ++ [0]
        worlds := s.worlds.map fun e => if e.2.st = .none then e else (e.1, { e.2 with takeover := true }) }
      if s.lodeQ.any (fun a => a.asked) then s else serveQueue s.lodeQ.length s

end Sys2Proof.Machine
end

