-- ==== Sys2Proof/Machine/LinkEvents.lean ====
section
/-! DEFINITION. Events of the Stolor links and of SPDM sessions (R332 to R335, R356 to R361, R413, R414). -/
namespace Sys2Proof.Machine

/-! The fabric graph (R332, R333). -/

/-- The point that an identifier names. -/
def pointOf (d : Nat) : Nat × Nat × Nat := if d < 961 then (1, d / 31, d % 31) else if d < 992 then (0, 1, d - 961) else (0, 0, 1)

/-- Are two identifiers' points orthogonal modulo 31? -/
def orthogonal (d e : Nat) : Bool :=
  let p := pointOf d
  let q := pointOf e
  (p.1 * q.1 + p.2.1 * q.2.1 + p.2.2 * q.2.2) % 31 == 0

/-- Neighbours of a device, ascending: port p goes to the p-th. -/
def neighbours (d : Nat) : List Nat := (List.range 993).filter fun e => e != d && orthogonal d e

/-- The identifier that a port's peer must attest; none for the port that a self-loop leaves idle. -/
def State.expectedPeer (s : State) (p : Nat) : Option Nat := (neighbours s.fabId)[p]?

/-! Routing tables (R335). -/

/-- A routing table entry (Table 12.1). -/
def routeEntry (min : Nat) (direct : Bool) (others : List Nat) : BitVec 32 :=
  let nm := (others.zip (List.range 4)).foldl (fun n p => n + p.1 % 32 * 2 ^ (10 + 5 * p.2)) 0
  BitVec.ofNat 32 (min % 32 + natOf direct * 2 ^ 5 + 2 ^ 6 + (others.take 4).length * 2 ^ 7 + nm)

/-- The minimal port of a destination: its own, that of a common neighbour that reaches it, else the lowest whose neighbour does. -/
def minPort (nbrs : List Nat) (usable : Nat → Bool) (goes : Nat → Bool) (d : Nat) : Option (Nat × Bool) :=
  let ports := (List.range nbrs.length).filter usable
  match ports.find? fun p => nbrs.getD p 1023 == d with
  | some p => some (p, true)
  | none =>
    ((ports.find? fun p => orthogonal (nbrs.getD p 1023) d && goes (nbrs.getD p 1023)).or
      (ports.find? fun p => goes (nbrs.getD p 1023))).map fun p => (p, false)

/-- The entry of one destination, or none where no port leads there. Non-minimal first hops are the ports 8, 16, 24 and 4 after the minimal
one, where they lead there too (log 32). -/
def routeTo (nbrs : List Nat) (usable : Nat → Bool) (goes : Nat → Bool) (d : Nat) : Option (BitVec 32) :=
  match minPort nbrs usable goes d with
  | none => none
  | some (p, true) => some (routeEntry p true [])
  | some (p, false) =>
    let others := ([8, 16, 24, 4].map fun k => (p + k) % 32).filter fun q =>
      usable q && decide (q < nbrs.length) && goes (nbrs.getD q 1023)
    some (routeEntry p false others)

/-- The Lodestar loads the tables of both hub routers when the set of open links changes; a link in RECOVERY keeps its place until it is DOWN
(R359). -/
def State.loadRoutes (s : State) : State :=
  let nbrs := neighbours s.fabId
  let usable (p : Nat) : Bool := (s.port p).st == .opened || (s.port p).st == .recovery
  let d := s.draw
  { d.2 with routes := [0, 1].flatMap fun hub => (List.range 993).filterMap fun dev =>
      if dev = s.fabId then none
      else (routeTo nbrs usable (fun n => Config.reaches d.1 n dev) dev).map fun e => (hub * 1024 + dev, e) }

/-! Ports. -/

/-- May ports come up: function 0 is there, and bring-up has not failed at a stage before the seventh (R413)? -/
def State.linksUp (s : State) : Bool := decide (5 ≤ s.stage) && (s.failed == 0 || s.failed == 7)

/-- A link that carries nothing any more; what waits for it, and its retry buffer, are lost. -/
def State.closePort (s : State) (p : Nat) (st : PortSt) : State := (s.modPort p fun v => { v with st := st, hold := [], buf := [] }).loadRoutes

/-- LANE_FAIL: the spare takes the place of a data lane, then half rate, then DOWN (R334). -/
def execLaneFail (port lane : Nat) (s : State) : Out3 :=
  .next <|
    let v := s.port port
    if v.lanes = 0 ∨ 2 < lane then s
    else if lane = 2 ∧ !v.spareUsed then s.setPort port { v with spareBad := true }
    else if !v.spareUsed ∧ !v.spareBad then (s.setPort port { v with spareUsed := true }).errAll 9
    else if v.lanes = 1 then (s.setPort port { v with lanes := 0 }).closePort port .down
    else (s.setPort port { v with lanes := v.lanes - 1 }).errAll 9

/-- FLIT_RETRY: visible in RETRY alone (R358). -/
def execFlitRetry (port : Nat) (s : State) : Out3 :=
  .next (s.modPort port fun v => if v.st = .opened then { v with retry := min 0xFFFF (v.retry + 1) } else v)

/-- KEY_RATCHET: a direction's counter reaches its next epoch by packets of which nothing else shows (R357, log 33). -/
def execKeyRatchet (port : Nat) (tx : Bool) (s : State) : Out3 :=
  .next (s.modPort port fun v => if v.st = .opened then v.ratchet tx else v)

/-- LINK_RECOVERY: a tag fails; the fourth within 1,024 packets puts the link into RECOVERY (R359). -/
def execLinkRecovery (port : Nat) (s : State) : Out3 :=
  .next (if (s.port port).st = .opened then s.modPort port fun v => v.tagFailed s.now else s)

/-- LINK_RECOVERY_TIMEOUT: 2,400,000 cycles have passed (R359). -/
def execLinkRecoveryTimeout (port : Nat) (s : State) : Out3 :=
  .next <|
    let v := s.port port
    if v.st = .recovery ∧ v.since + 2400000 ≤ s.now then s.closePort port .down else s

/-- PORT_TRAIN: a port that is not fenced trains and goes on to attest; before the fabric identifier is written none leaves TRAINING (R413, R414). -/
def execPortTrain (port : Nat) (s : State) : Out3 :=
  .next <|
    let v := s.port port
    if !s.linksUp ∨ 32 ≤ port ∨ v.fenced ∨ v.st = .opened ∨ v.st = .recovery then s
    else
      let fresh : Port :=
        { Port.init with
          st := .training, lanes := if v.lanes = 0 then 2 else v.lanes, spareUsed := v.spareUsed, spareBad := v.spareBad }
      if !s.fabIdSet then s.setPort port fresh
      else if (s.expectedPeer port).isNone then s.setPort port { fresh with st := .idle, lanes := 0 }
      else s.setPort port { fresh with st := .attesting }

/-! Members that reset (R360). -/

/-- Entries that list a device behave as left. -/
def World.dropMember (w : World) (dev : Nat) : World :=
  { w with groups := w.groups.map fun e => if e.2.members.any (fun m => m.1 == dev) then (e.1, e.2.left) else e }

/-- Point-to-point operations in flight to a device, by core and number. -/
def State.flightsTo (s : State) (dev : Nat) : List (Nat × Nat) :=
  s.cores.flatMap fun e =>
    (e.2.fab.ops.filter fun o => !o.phase.unstarted && !o.kind.isMulticast && o.remote.dev == dev).map fun o => (e.1, o.n)

/-- Multicast operations in flight with a member that has reset: it is listed with reason 7, whether it had answered or not. -/
def State.castsTo (s : State) (dev : Nat) : List (Nat × Nat) :=
  s.cores.flatMap fun e =>
    (e.2.fab.ops.filter fun o => !o.phase.unstarted && o.kind.isMulticast && o.members.any fun m => m.1 == dev).map fun o => (e.1, o.n)

def FabOp.dropMember (o : FabOp) (dev : Nat) : FabOp :=
  { o with members := o.members.map fun m => if m.1 = dev then (dev, 7) else m, acks := o.acks.filter fun r => r.dev != dev }

/-- The member leaves the operation, which completes if it waits for no other. -/
def State.castDrop (s : State) (dev c n : Nat) : State :=
  let s := s.modFab c n fun o => o.dropMember dev
  match (s.core c).fab.ops.find? fun o => o.n == n with
  | some o => if o.allIn then s.castEnd c o false else s
  | none => s

/-- PEER_RESET: a new incarnation; what was in flight to it is stale, and its links attest anew. -/
def execPeerReset (dev : Nat) (sameMeasurements : Bool) (s : State) : Out3 :=
  .next <|
    let s := { s with
      peerInc := tabSet s.peerInc dev (s.incOf dev + 1)
      cache := tabDrop s.cache dev
      incoming := s.incoming.filter fun x => x.id.dev != dev
      worlds := s.worlds.map fun (e : Nat × World) => (e.1, e.2.dropMember dev) }
    let s := (s.flightsTo dev).foldl (fun s p => s.fabFinish p.1 p.2 (.far 0x3A 0 dev)) s
    let s := (s.castsTo dev).foldl (fun s p => s.castDrop dev p.1 p.2) s
    let ports := (List.range 32).filter fun p => (s.port p).peer == dev
    (ports.foldl (fun s p => s.modPort p fun v =>
      { v with st := if sameMeasurements then .training else .closed, spdm := .none, peer := 1023, hold := [], buf := [] }) s).loadRoutes

/-! SPDM (R356, R364). -/

/-- The session that a message belongs to. -/
def State.spdm (s : State) : Sess → Spdm
  | .port p => (s.port p).spdm
  | .host t => (tabFind s.hostSpdm t).getD .none
  | .owner w r => ((s.owned.find? fun o => o.1 == w && o.2.1 == r).map fun o => o.2.2).getD .none

def State.setSpdm (s : State) (x : Sess) (v : Spdm) : State :=
  match x with
  | .port p => s.modPort p fun q => { q with spdm := v }
  | .host t => { s with hostSpdm := tabSet s.hostSpdm t v }
  | .owner w r => { s with owned := (s.owned.filter fun o => !(o.1 == w && o.2.1 == r)) ++ [(w, r, v)] }

/-- May messages of a session pass: a port that attests or is in RECOVERY or OPEN, a function's mailbox, an owner of a world? -/
def State.sessionUp (s : State) : Sess → Bool
  | .port p =>
    match (s.port p).st with
    | .attesting | .recovery | .opened => s.linksUp
    | .down | .training | .closed | .idle => false
  | .host t => decide (5 ≤ s.stage) && decide (t ≤ 263)
  | .owner w _ => (s.world w).st == .awaiting || (s.world w).st == .live

/-- A message that follows the one of stage n - 1 in its session. -/
def spdmStep (x : Sess) (n : Nat) (f : Spdm → Spdm) (s : State) : Out3 :=
  .next <|
    let v := s.spdm x
    if s.sessionUp x ∧ v.stage + 1 = n then s.setSpdm x { f v with stage := n } else s

/-- GET_VERSION begins a session anew. -/
def execGetVersion (sess : Sess) (s : State) : Out3 :=
  .next (if s.sessionUp sess ∧ (s.spdm sess).stage ≠ 8 then s.setSpdm sess { Spdm.none with stage := 1 } else s)

def execGetCapabilities (sess : Sess) (s : State) : Out3 := spdmStep sess 2 id s

/-- NEGOTIATE_ALGORITHMS: ECDHE P-384, AES-256-GCM and SHA-384, or not. -/
def execNegotiateAlgorithms (sess : Sess) (inSet : Bool) (s : State) : Out3 := spdmStep sess 3 (fun v => { v with algs := inSet }) s

def execGetDigests (sess : Sess) (s : State) : Out3 := spdmStep sess 4 id s

/-- GET_CERTIFICATE: the certificates name the peer's identifier and its public key; this device's own alias key has been signed
(R381, log 34). -/
def execGetCertificate (sess : Sess) (peer : Nat) (key : List Byte) (s : State) : Out3 :=
  spdmStep sess 5 (fun v => { v with peer := peer, key := key })
    (if s.sessionUp sess ∧ (s.spdm sess).stage = 4 then s.signAlias else s)

def execGetMeasurements (sess : Sess) (policyOk : Bool) (s : State) : Out3 := spdmStep sess 6 (fun v => { v with policy := policyOk }) s

/-- KEY_EXCHANGE: the session has its identifier and its application secret. -/
def execKeyExchange (sess : Sess) (mutAuth : Bool) (sid : Nat) (s : State) : Out3 :=
  spdmStep sess 7 (fun v => { v with mutAuth := mutAuth, sid := sid, secret := s.draw.1 })
    (if s.sessionUp sess ∧ (s.spdm sess).stage = 6 then s.draw.2 else s)

/-- Does a port's session show what R356 asks of a link? -/
def State.linkOk (s : State) (p : Nat) (v : Spdm) : Bool :=
  v.algs && v.policy && v.mutAuth && s.expectedPeer p == some v.peer

/-- New keys of both directions of a link: K(0) from an application secret, both counters at 0. The direction from the lower identifier has
bit 0 (R357, R359, log 33). -/
def Port.keyed (v : Port) (own secret : Nat) : Port :=
  let bit := natOf (decide (v.peer < own))
  { v with step := 0, tx := 0, rx := 0, txEpoch := 0, rxEpoch := 0, txKey := linkKey0 secret bit, rxKey := linkKey0 secret (1 - bit)
           rxOld := none, rxNew := 0, fails := [] }

/-- Bring-up ends with the last port that trained: stage 7 is complete with a link open, and fails with none (R413, log 33). -/
def State.linksDone (s : State) : State :=
  let ports := (List.range 32).map s.port
  if s.stage ≠ 6 ∨ s.failed ≠ 0 ∨ ports.any (fun v => v.st == .training || v.st == .attesting) then s
  else if ports.any fun v => v.st == .opened then { s with stage := 7 }
  else { s.errBit 0 15 with failed := 7 }

/-- FINISH of a link: it opens under new keys, or stays CLOSED; PEER of a link that stays CLOSED is unknown, whatever identifier its peer
attested, which the manual leaves open (log 33). -/
def State.finishLink (s : State) (p : Nat) (v : Spdm) : State :=
  let q := s.port p
  let v := { v with stage := 8 }
  let s :=
    if s.linkOk p v then
      s.setPort p ({ q with spdm := v, st := .opened, peer := v.peer, retry := 0, hold := [], buf := [] }.keyed s.fabId v.secret)
    else s.setPort p { q with spdm := v, st := .closed, hold := [], buf := [] }
  s.loadRoutes.linksDone

/-- FINISH: a session of the host or of an owner needs its algorithms in the set. -/
def execFinish (sess : Sess) (s : State) : Out3 :=
  .next <|
    let v := s.spdm sess
    if !s.sessionUp sess ∨ v.stage ≠ 7 then s
    else
      match sess with
      | .port p => s.finishLink p v
      | .host _ => if v.algs then s.setSpdm sess { v with stage := 8 } else s
      | .owner _ _ => if v.algs then s.setSpdm sess { v with stage := 8 } else s

/-- KEY_UPDATE of a link in RECOVERY: it opens under new keys, both counters at 0, the retry buffer is sent again under them, and what
waited goes out after it (R359). -/
def State.rekey (s : State) (p : Nat) : State :=
  let d := s.draw
  let v := s.port p
  let s := d.2.setPort p ({ v with st := .opened, hold := [], buf := [], spdm := { v.spdm with secret := d.1 } }.keyed s.fabId d.1)
  (v.buf ++ v.hold).foldl (fun s o => s.sendOn p o) s

/-- KEY_UPDATE: a recovery that is not complete within 2,400,000 cycles takes the link DOWN instead (R359). -/
def execKeyUpdate (sess : Sess) (s : State) : Out3 :=
  .next <|
    match sess with
    | .port p =>
      if !s.sessionUp sess ∨ (s.port p).st ≠ .recovery then s
      else if s.now ≤ (s.port p).since + 2400000 then (s.rekey p).loadRoutes
      else s.closePort p .down
    | .host _ => s
    | .owner _ _ => s

/-- END_SESSION: a link without a session is CLOSED; an owner's session has ended, and its key stays known. -/
def execEndSession (sess : Sess) (s : State) : Out3 :=
  .next <|
    if (s.spdm sess).stage ≠ 8 then s
    else
      match sess with
      | .port p => (s.setSpdm sess .none).closePort p .closed
      | .host _ => s.setSpdm sess .none
      | .owner _ _ => s.setSpdm sess { s.spdm sess with stage := 9 }

end Sys2Proof.Machine
end

