-- ==== Sys2Proof/Machine/Partition.lean ====
section
/-! DEFINITION. The partition controller: berths, lending, retirement, and the end of a TDI's use of its berth (R397 to R403, R409). -/
namespace Sys2Proof.Machine

/-! Functions and berths (R397, R408, R413). -/

/-- The berth whose descriptor names a TDI. -/
def State.berthOf (s : State) (f : Nat) : Option Nat :=
  (List.range 48).find? fun b => let d := s.berth b; d.tdi == f && f != 0 && d.desc != 0

/-- Functions are present from stage 5 of bring-up; after a failure of stages 1 to 4 function 0 alone is. -/
def State.present (s : State) (f : Nat) : Bool :=
  (decide (5 ≤ s.stage) && decide (f ≤ 263)) || (f == 0 && decide (1 ≤ s.failed) && decide (s.failed ≤ 4))

/-- Worlds that a berth holds. -/
def State.worldsOf (s : State) (b : Nat) : List Nat := (s.worlds.filter fun e => e.2.st != .none && e.2.berth == b).map (·.1)

/-- A function's mailbox leaves the Lodestar's queue. -/
def State.dropHost (s : State) (f : Nat) : State :=
  let q := s.lodeQ.filter fun a =>
    match a.who with
    | .host g => g != f
    | .core _ _ | .sweep _ _ => true
  serveQueue q.length { s with lodeQ := q }

/-! Lending (R400, R401). -/

/-- The die of a cluster (R8). -/
def dieOfCluster (k : Nat) : Nat := k / 12

/-- The ready task at the head of a berth's world in slice, on a die, whose gang the free cores of some clusters cannot hold. -/
def State.starved (s : State) (b die : Nat) (clusters : List Nat) : Bool :=
  let w := (s.berth b).cur
  (s.berth b).inSlice &&
    match s.topReady die w with
    | none => false
    | some (_, idx) =>
      let t := s.taskAt die idx
      let free := (s.freeCores die w).filter fun c => clusters.contains (clusterOf c)
      if t.saved then !t.cores.all free.contains else decide (free.length < t.tcb.gsize)

/-- No task placed on a cluster's cores, and nothing of them in flight. -/
def State.clusterIdle (s : State) (k : Nat) : Bool :=
  (coresOfCluster k).all fun c => (s.core c).task.isNone && (s.core c).drained && !(s.core c).busy

/-- The berth whose slack a cluster is, and its descriptor's other mask. -/
def State.slackOwner (s : State) (k : Nat) : Option Nat := (List.range 48).find? fun b => bitOf (s.berth b).slack k
def State.mooredOwner (s : State) (k : Nat) : Option Nat := (List.range 48).find? fun b => bitOf (s.berth b).moored k

/-- The ready queues of a berth on a die are empty. -/
def State.noneReady (s : State) (b die : Nat) : Bool :=
  (s.worldsOf b).all fun w => (s.tasksIn w [.ready]).all fun p => p.1 != die

/-- Running tasks with a core in a cluster. -/
def State.tasksOn (s : State) (k : Nat) : List (Nat × Nat) :=
  s.tasks.filterMap fun e =>
    if e.2.st = .running ∧ e.2.cores.any fun c => clusterOf c == k then some (e.1 / 4096, e.1 % 4096) else none

/-- Step 3 of R401, once no borrower gang is left on the cluster. -/
def State.tryReturn (s : State) (k : Nat) : State :=
  if s.clusterIdle k then
    (coresOfCluster k).foldl (fun s c => s.scrubCore c 0) { s with lends := s.lends.filter fun (l : Lend) => l.cluster != k }
  else s

/-- Step 1 of R401: borrower gangs are marked, and the cluster returns at once where there is none. -/
def State.demand (s : State) (k : Nat) : State :=
  let s : State := { s with lends := s.lends.map fun (l : Lend) => if l.cluster = k then { l with demanded := some s.now } else l }
  ((s.tasksOn k).foldl (fun s p => s.markYield p.1 p.2) s).tryReturn k

/-! Retirement (R402, R403). -/

/-- A descriptor with a bit put in or taken from its MOORED (base 184) or SLACK (base 112) mask. -/
def Berth.putBit (b : Berth) (base k : Nat) (v : Bool) : Berth :=
  let m := (1 : BitVec 256) <<< (base + k)
  { b with desc := if v then b.desc ||| m else b.desc &&& ~~~m }

/-- A cluster leaves both masks of every berth. -/
def State.unname (s : State) (k : Nat) : State :=
  { s with berths := s.berths.map fun e => (e.1, (e.2.putBit 184 k false).putBit 112 k false) }

/-- A cluster becomes moored to a berth. -/
def State.moor (s : State) (b k : Nat) : State := (s.unname k).setBerth b (((s.unname k).berth b).putBit 184 k true)

/-- Clusters named by no berth: the device reserve, lowest first. -/
def State.reserve (s : State) : List Nat :=
  (List.range 72).filter fun k => !s.deadClusters.contains k && (s.slackOwner k).isNone && (s.mooredOwner k).isNone

/-- Slack clusters of a berth, unlent or lent. -/
def State.slackOf (s : State) (b : Nat) (lent : Bool) : List Nat :=
  (List.range 72).filter fun k => bitOf (s.berth b).slack k && !s.deadClusters.contains k && (s.lends.any fun l => l.cluster == k) == lent

/-- Is a berth before another in yielding: lower RANK, ties to the higher number? -/
def State.yieldsBefore (s : State) (a b : Nat) : Bool :=
  decide ((s.berth a).rank < (s.berth b).rank) || ((s.berth a).rank == (s.berth b).rank && decide (b < a))

/-- The first berth to yield among some. -/
def State.firstToYield (s : State) : List Nat → Option Nat
  | [] => none
  | b :: rest =>
    match s.firstToYield rest with
    | none => some b
    | some c => some (if s.yieldsBefore c b then c else b)

/-- One of some clusters; nothing fixes which (log 14). -/
def State.anyOf (s : State) (ks : List Nat) : Nat × State :=
  let d := s.draw
  (ks.getD ((Config.freeWord d.1).toNat % ks.length) 0, d.2)

/-- A berth becomes DEGRADED, and stays so until its descriptor is rewritten (R403). -/
def Berth.loses (b : Berth) : Berth := { b.withState 2 with degraded := true }

/-- A berth gives up one moored cluster and is DEGRADED: its own failed one, or one that the failing berth takes. The failing berth is among
those that hold moored clusters even where the one that failed was its last, which the manual leaves open (log 38). -/
def State.degrade (s : State) (b : Nat) : State :=
  match s.firstToYield ((List.range 48).filter fun g => g == b || (s.berth g).moored != 0) with
  | none => s
  | some g =>
    let s := s.setBerth g (s.berth g).loses
    if g = b then s
    else
      let r := s.anyOf ((List.range 72).filter fun k => bitOf (s.berth g).moored k)
      r.2.moor b r.1

/-- A substitute for a retired moored cluster of a berth, in the order of R403. -/
def State.substitute (s : State) (b : Nat) : State :=
  let take (ks : List Nat) : State := let r := s.anyOf ks; r.2.moor b r.1
  match s.reserve with
  | k :: _ => s.moor b k
  | [] =>
    if !(s.slackOf b false).isEmpty then take (s.slackOf b false)
    else if !(s.slackOf b true).isEmpty then
      let r := s.anyOf (s.slackOf b true)
      (r.2.moor b r.1).demand r.1
    else
      match s.firstToYield ((List.range 48).filter fun o => o != b && !(s.slackOf o false).isEmpty) with
      | some o => take (s.slackOf o false)
      | none => s.degrade b

/-- A unit that is replaced or gone no longer waits for its retirement, and what takes its number has no errors of its own yet (R418). -/
def State.notRetiring (s : State) (u : HwUnit) : State :=
  { s with retiring := s.retiring.filter (· != u), unitErrs := s.unitErrs.filter fun e => e.1 != u }

/-- A spare serves under a core's number: its state is that of task start, and its CYCLE its own (R9, R120). -/
def State.replaced (s : State) (c : Nat) : State :=
  (s.scrubCore c 0).modCore c fun k => { k with fenced := false, cycle0 := k.cycle0 - Config.spareCycles c }

/-- A cluster no longer waits for its retirement, nor do its cores. -/
def State.clusterDone (s : State) (k : Nat) : State :=
  (coresOfCluster k).foldl (fun s c => s.notRetiring (.core c))
    { s.notRetiring (.cluster k) with swapping := s.swapping.filter fun c => clusterOf c != k }

/-- A cluster retires: the spare cluster of its die takes its number, or it is gone (R402, R403). -/
def State.retireCluster (s : State) (k : Nat) : State :=
  let s := s.clusterDone k
  let die := dieOfCluster k
  if !s.spareCluster.contains die then
    { (coresOfCluster k).foldl (fun s c => s.replaced c) s with
      spareCluster := die :: s.spareCluster, spareCore := s.spareCore.filter (· != k) }
  else
    let owner := s.mooredOwner k
    let s := { s.unname k with deadClusters := k :: s.deadClusters, lends := s.lends.filter fun l => l.cluster != k }
    match owner with
    | some b => s.substitute b
    | none => s

/-- A core of a cluster that the die's spare cluster replaces: the core there takes its number (R402). -/
def State.swapCore (s : State) (c : Nat) : State := { s.replaced c with swapping := s.swapping.filter (· != c) }

/-- A cluster waits for its retirement. -/
def State.retireSoon (s : State) (k : Nat) : State :=
  { s.notRetiring (.cluster k) with retiring := (s.notRetiring (.cluster k)).retiring ++ [.cluster k] }

/-- The spare cluster of a die replaces a cluster core by core: this one now, each other at its next change of world (R402). -/
def State.swapCluster (s : State) (c : Nat) : State :=
  let k := clusterOf c
  let s := s.clusterDone k
  { s with spareCluster := dieOfCluster k :: s.spareCluster, spareCore := s.spareCore.filter (· != k)
           swapping := s.swapping ++ coresOfCluster k }.swapCore c

/-- A core retires at once: its cluster's spare core takes its number, or the cluster retires. The failure is not fatal to the cluster's other
cores: they keep what they run until their change of world, and where no spare cluster is left the cluster goes once nothing runs on it
(R402, R419). -/
def State.retireCore (s : State) (c : Nat) : State :=
  let k := clusterOf c
  let s := s.notRetiring (.core c)
  if s.swapping.contains c then s.swapCore c
  else if !s.spareCore.contains k then { s.replaced c with spareCore := k :: s.spareCore }
  else if s.spareCluster.contains (dieOfCluster k) then s.retireSoon k
  else s.swapCluster c

/-- Retirements that wait take effect at a change of world of a core; that of a cluster that no spare replaces, once nothing runs on it
(R402). -/
def State.retireUnits (s : State) (c : Nat) : State :=
  let k := clusterOf c
  let s := if s.swapping.contains c ∨ s.retiring.contains (.core c) then s.retireCore c else s
  if !s.retiring.contains (.cluster k) then s
  else if !s.spareCluster.contains (dieOfCluster k) then s.swapCluster c
  else if s.clusterIdle k then s.retireCluster k
  else s

/-- A TDI whose stop is under way reaches CONFIG_UNLOCKED once its berth has no world, has its own clusters back and has returned others';
its clusters are scrubbed, retirements that waited for that take effect, and the berth is FREE (R379, R402). -/
def State.finishStop (s : State) (f : Nat) : State :=
  let off (s : State) : State := s.setTdi f { s.tdi f with st := .unlocked, mbx := 0, buf := [], stopping := false }
  if !(s.tdi f).stopping then s
  else
    match s.berthOf f with
    | none => off s
    | some b =>
      if !(s.worldsOf b).isEmpty then s
      else
        let s := (s.lends.filter fun l => l.borrower == b).foldl (fun s l => s.tryReturn l.cluster) s
        if s.lends.any fun l => l.owner == b || l.borrower == b then s
        else
          let cs := (s.clustersHeld b).flatMap coresOfCluster
          let s := cs.foldl (fun s c => s.retireUnits c) (cs.foldl (fun s c => s.scrubCore c 0) s)
          off (s.setBerth b { (s.berth b).withState 0 with freshDone := false, order := [], cur := 0, inSlice := false })

def State.finishStops (s : State) : State := (s.tdis.map (·.1)).foldl State.finishStop s

/-- The change of world of the clusters that have returned since some were lent is one at which a waiting retirement takes effect (R401,
R402); a substitute that it takes may bring back another, and a stop may have waited for one of them (R409). -/
def State.returned : Nat → List Lend → State → State
  | 0, _, s => s
  | n + 1, before, s =>
    let out (l : Lend) : Bool := s.lends.any fun m => m.cluster == l.cluster
    let back := before.filter fun l => !out l
    if back.isEmpty then s
    else State.returned n (before.filter out) (((back.flatMap fun l => coresOfCluster l.cluster).foldl (fun s c => s.retireUnits c) s).finishStops)

/-- An action of the partition controller, and what the return of the clusters that it brings back entails. -/
def State.withReturns (s : State) (f : State → State) : State := State.returned s.lends.length s.lends (f s)

/-- The change of world of every core of a cluster (R379, R402). -/
def State.scrubCluster (s : State) (k world : Nat) : State :=
  (coresOfCluster k).foldl (fun s c => s.retireUnits c) ((coresOfCluster k).foldl (fun s c => s.scrubCore c world) s)

/-! Changes of world (R379, R400). -/

/-- WORLD_CHANGE_SCRUB: an idle core that the berth in slice may use passes to its world. -/
def execWorldChangeScrub (core world : Nat) (s : State) : Out3 :=
  .next <| s.withReturns fun s =>
    let k := s.core core
    if k.task.isNone ∧ k.hrun = .idle ∧ k.drained ∧ !k.busy ∧ !s.asksLode core ∧ k.world ≠ world ∧ s.inSlice world ∧
        (s.clustersUsable (s.world world).berth).contains (clusterOf core) then (s.scrubCore core world).retireUnits core
    else s

/-- A berth whose TDI's stop is under way (R409). -/
def State.berthStops (s : State) (b : Nat) : Bool := (s.tdi (s.berth b).tdi).stopping

/-- LEND_CLUSTER: an idle slack cluster of a berth that lends passes to another ACTIVE berth that lacks cores; neither is being stopped. -/
def execLendCluster (cluster berth : Nat) (s : State) : Out3 :=
  .next <| s.withReturns fun s =>
    match s.slackOwner cluster with
    | none => s
    | some o =>
      let die := dieOfCluster cluster
      if (s.berth o).lend ∧ !s.berthStops o ∧ !s.berthStops berth ∧ o ≠ berth ∧ (s.berth berth).state = 1 ∧ !s.deadClusters.contains cluster ∧
          !(s.lends.any fun l => l.cluster == cluster) ∧ s.clusterIdle cluster ∧ s.noneReady o die ∧
          s.starved berth die (s.clustersHeld berth) then
        State.scrubCluster { s with lends := s.lends ++ [⟨cluster, o, berth, none⟩] } cluster (s.berth berth).cur
      else s

/-! The end of a TDI's use of its berth (R409, R412). -/

/-- STOP_INTERFACE: every world of the berth goes through ENDING, and clusters that it lent are demanded back; the rest follows by itself. -/
def State.stopTdi (s : State) (f : Nat) : State :=
  let t := s.tdi f
  if !s.present f ∨ t.st = .unlocked then s
  else if t.stopping then s.finishStop f
  else
    let s := (s.setTdi f { t with stopping := true }).dropHost f
    match s.berthOf f with
    | none => s.finishStop f
    | some b =>
      let s := (s.worldsOf b).foldl (fun s w => s.endWorld w) s
      let lent := s.lends.filter fun l => l.owner == b && l.demanded.isNone
      (lent.foldl (fun s l => s.demand l.cluster) s).finishStop f

def execStopInterface (tdi : Nat) (s : State) : Out3 := .next (s.withReturns fun s => s.stopTdi tdi)

/-- Every core of a world that ends is scrubbed and belongs to none: whichever world takes the identifier next finds no core of its own
(R366, R375, R379). -/
def State.scrubWorld (s : State) (id : Nat) : State :=
  ((s.cores.filter fun e => e.2.world == id).map (·.1)).foldl (fun s c => (s.scrubCore c 0).retireUnits c) s

/-- ENDING_SCRUB_COMPLETE: the lines are fresh, the cores scrubbed, the keys erased, the identifier free (R366); a stop may be complete
with it. -/
def execEndingScrubComplete (world : Nat) (s : State) : Out3 :=
  .next <| s.withReturns fun s =>
    if (s.world world).st = .ending ∧ s.quiet world then (((s.freshen world).scrubWorld world).eraseWorld world).finishStops else s

/-! Returns (R401). -/

/-- DEMAND_RETURN: the owner has a ready task that cannot be placed without the cluster. After the demand it is the return. -/
def execDemandReturn (cluster : Nat) (s : State) : Out3 :=
  .next <| s.withReturns fun s =>
    match s.lends.find? fun l => l.cluster == cluster with
    | none => s
    | some l =>
      match l.demanded with
      | some _ => (s.tryReturn cluster).finishStops
      | none => if s.starved l.owner (dieOfCluster cluster) (s.clustersUsable l.owner) then s.demand cluster else s

/-- LEND_RETURN_TIMEOUT: 3,480,000 cycles after the demand, gangs that have not yielded stop with OVERRUN. -/
def execLendReturnTimeout (cluster : Nat) (s : State) : Out3 :=
  .next <| s.withReturns fun s =>
    match s.lends.find? fun l => l.cluster == cluster with
    | none => s
    | some l =>
      match l.demanded with
      | none => s
      | some t =>
        if s.now < t + 3480000 then s
        else ((s.tasksOn cluster).foldl (fun s p => s.overrun p.1 p.2) s |>.tryReturn cluster).finishStops

end Sys2Proof.Machine
end

