-- ==== Sys2Proof/Machine/HostReq.lean ====
section
/-! DEFINITION. Requests and register writes of the host: mailbox, TDISP, descriptors, resets, power-good (R397 to R414, R423). -/
namespace Sys2Proof.Machine

/-! The mailbox (R410). -/

/-- Fields of MBXCTL (Table 14.3). -/
def mbxCtl (seqNo req status len : Nat) (go : Bool) : X64 :=
  BitVec.ofNat 64 (seqNo % 2 ^ 32 * 2 ^ 32 + req % 256 * 2 ^ 24 + status % 256 * 2 ^ 16 + len % 2 ^ 15 * 2 + natOf go)

def mbxGo (x : X64) : Bool := x.getLsbD 0
def mbxSame (x : X64) (seqNo req : Nat) : Bool := fieldOf x.toNat 63 32 == seqNo % 2 ^ 32 && fieldOf x.toNat 31 24 == req

/-- What serving a request gives: a status and a response, or not yet. -/
inductive Served where
  | done (s : State) (status : Nat) (body : List Byte)
  | wait

/-- GO written while it is set: function's bit and function 0's (R410, R411). -/
def State.mbxBusy (s : State) (f : Nat) : State := (s.errBit f 6).errBit 0 6

/-- A response and its STATUS are in place, and GO is clear. -/
def State.respond (s : State) (f seqNo req status : Nat) (body : List Byte) : State :=
  (s.setTdi f { s.tdi f with mbx := mbxCtl seqNo req status body.length false, buf := body }).emit (.mailbox f body)

/-- A request is pending. -/
def State.pend (s : State) (f seqNo req len : Nat) : State := s.setTdi f { s.tdi f with mbx := mbxCtl seqNo req 0 len true }

/-- The Lodestar serves a function's request; one that must wait for something else makes room for the next (log 36). -/
def State.serveHost (s : State) (f seqNo req len : Nat) (serveIt : State → Served) : State :=
  let s :=
    match serveIt s with
    | .wait => s.pend f seqNo req len
    | .done s status body => s.respond f seqNo req status body
  if s.lodeQ.any (fun a => a.asked) then s else serveQueue s.lodeQ.length s

/-- Is a function's request in the Lodestar's queue, and is it at the head? -/
def State.hostQueued (s : State) (f : Nat) : Bool :=
  s.lodeQ.any fun a =>
    match a.who with
    | .host g => g == f
    | .core _ _ | .sweep _ _ => false

def State.hostNext (s : State) (f : Nat) : Bool :=
  s.sweep.isNone && !s.lodeDown &&
    match s.lodeQ with
    | ⟨.host g, _, _⟩ :: _ => g == f
    | _ => false

/-- A request takes its turn at the Lodestar (R372, R426). -/
def State.queueHost (s : State) (f seqNo req len : Nat) (serveIt : State → Served) : State :=
  if s.hostNext f then State.serveHost { s with lodeQ := s.lodeQ.drop 1 } f seqNo req len serveIt
  else if s.hostQueued f then s
  else if s.lodeIdle then s.serveHost f seqNo req len serveIt
  else (s.askLode (.host f)).pend f seqNo req len

/-- A request with GO. While another is pending it is ignored; the event of the pending one is its service. In ERROR it is CANCELLED;
requests other than the SPDM relay need RUN and the host's session (R409, R410). -/
def State.mailbox (s : State) (f seqNo req len : Nat) (serveIt : State → Served) : State :=
  let t := s.tdi f
  if s.stage < 5 ∨ !s.present f then s
  else if mbxGo t.mbx ∧ !mbxSame t.mbx seqNo req then s.mbxBusy f
  else if t.st = .error then s.respond f seqNo req 0x40 []
  else if 7936 < len then s.respond f seqNo req 0x02 []
  else if t.stopping ∨ (req ≠ 1 ∧ (t.st ≠ .run ∨ (s.spdm (.host f)).stage ≠ 8)) then s
  else s.queueHost f seqNo req len serveIt

/-! Moves between devices (R406, R407). -/

/-- A world's lines under its transfer key, or back under its own (R406). -/
def State.moveLines (s : State) (id : Nat) (away : Bool) : State :=
  { s with lines := s.lines.map fun e =>
      match e.2 with
      | .written w g bad => if w = id ∧ away then (e.1, .moved w g bad) else e
      | .moved w g bad => if w = id ∧ !away then (e.1, .written w g bad) else e
      | .fresh => e }

/-- A restore has been refused: the world may go on here. -/
def State.resumeWorld (s : State) (id : Nat) : State :=
  if (s.world id).manifest.isNone then s else (s.moveLines id false).modWorld id fun w => { w with manifest := none }

/-- A restore is complete elsewhere: the source world ends. -/
def State.movedAway (s : State) (id : Nat) : State :=
  if (s.world id).manifest.isNone then s else (s.modWorld id fun w => { w with manifest := none }).endWorld id

/-- What relayed messages bring about: the key of an IDE stream of the function, the outcome of a restore. -/
def State.relayed (s : State) (f : Nat) : RelayNote → State
  | .none => s
  | .ideKey stream => if stream < 64 then { s.draw.2 with ide := tabSet s.ide stream (f, s.draw.1) } else s
  | .restored id => s.movedAway id
  | .refused id => s.resumeWorld id

/-- SPDM_RELAY: the messages have their effect as events of their session, and what they bring about beyond it. -/
def execSpdmRelay (tdi seqNo : Nat) (msg : List Byte) (note : RelayNote) (s : State) : Out3 :=
  .next (s.mailbox tdi seqNo 1 msg.length fun s => .done (s.relayed tdi note) 0 [])

/-! CREATE and MBX_SHARE (R364, R365). -/

/-- The lowest free world identifier (R364). -/
def State.freeWorld (s : State) : Option Nat := (upFrom 1 4095).find? fun id => (s.world id).st == .none

/-- CREATE (R364, R397, R405). An owner count other than 1 or 2 answers RESERVED_FIELD, for which the manual names no status (log 36). -/
def State.create (s : State) (f owners : Nat) (nonce : BitVec 256) : Served :=
  match s.berthOf f, s.freeWorld with
  | some b, some id =>
    let d := s.berth b
    if owners ≠ 1 ∧ owners ≠ 2 then .done s 0x02 []
    else if d.short d.guarM d.guarS then .done s 0x44 []
    else if d.wmax ≤ (s.worldsOf b).length then .done s 0x0A []
    else .done (s.setWorld id { World.blank with
      st := .awaiting, berth := b, owners := owners, guarM := d.guarM, guarS := d.guarS, nonce := nonce }) 0 (bytesOf 2 id)
  | _, _ => .done s 0x0A []

def execCreate (tdi seqNo owners : Nat) (nonce : BitVec 256) (s : State) : Out3 :=
  .next (s.mailbox tdi seqNo 2 34 fun s => s.create tdi owners nonce)

/-- MBX_SHARE (R365). -/
def execMbxShare (tdi seqNo : Nat) (blob : List Byte) (s : State) : Out3 :=
  .next (s.mailbox tdi seqNo 3 blob.length fun s =>
    let r := s.takeShare (natAt blob 0 2) blob
    .done (r.1.noteIntegrity (natAt blob 0 2) (r.2.toNat % 256)) (r.2.toNat % 256) (bytesOf 8 r.2.toNat))

/-! LAUNCH (R423). -/

/-- The lowest die on which a berth holds a moored cluster. -/
def Berth.mooredDie (b : Berth) : Nat := (((List.range 72).find? fun c => bitOf b.moored c).getD 0) / 12

/-- The code handle before it is minted: R and X. -/
def codeTemplate (world base len : Nat) : Handle :=
  { format := 1, rights := 0x90, world := BitVec.ofNat 12 world, serial := 0, base := BitVec.ofNat 57 base
    length := BitVec.ofNat 48 len, shape := plainShape, sealv := 0, isSealed := true, revoked := false }

/-- What a LAUNCH has checked. -/
structure LaunchRead where
  tcb : Tcb
  die : Nat
  himg : List Piece
  at0 : State
  deriving DecidableEq, Repr

/-- Every check of step 1: the error is a mailbox status. -/
def State.launchCheck (s : State) (id tcbVa codeVa codeLen : Nat) : Except Nat LaunchRead :=
  let a := engineAcc 0 id
  let b := s.berth (s.world id).berth
  let h := worldHandleAt id tcbVa
  let code := codeTemplate id codeVa codeLen
  match (if 2 ^ 57 ≤ tcbVa then .error ⟨.handleBounds, 0, 0⟩ else s.check a h 0 384 .load 64 [1]) with
  | .error f => .error f.code.num
  | .ok ps =>
    let bs := s.readBytes ps
    if tcbBad bs then .error 0x02
    else if 2 ^ 57 < codeVa + codeLen ∨ 2 ^ 48 ≤ codeLen then .error 0x10
    else
      match s.readLoop a code (Tcb.ofBytes bs) 0 with
      | .error f => .error f.code.num
      | .ok t =>
        let die := if t.die = 15 then b.mooredDie else t.die
        if t.tok ≠ 0 then .error 0x02
        else if s.tooLarge id die t.gsize then .error (if b.state = 2 then 0x44 else 0x0A)
        else if 2 ^ 32 < (s.world id).nextSerial + 1 + t.nh then .error 0x0A
        else
          match t.himg.findSome? fun h => s.templateFault id h with
          | some f => .error f.code.num
          | none =>
            match s.check a h 0x80 (32 * t.nh) .store 1 [1] with
            | .error f => .error f.code.num
            | .ok hp => .ok ⟨t, die, hp, s.cacheTlb 0 id ps⟩

/-- Mint the templates in order. -/
def State.mintAll (s : State) (id : Nat) : List Handle → State × List Handle
  | [] => (s, [])
  | t :: rest =>
    let m := s.mint id t
    let r := m.2.mintAll id rest
    (r.1, m.1 :: r.2)

/-- Steps 2 to 4. -/
def launchDo (id tcbVa codeVa codeLen idx : Nat) (r : LaunchRead) : State × List Byte :=
  let c := r.at0.mint id (codeTemplate id codeVa codeLen)
  let m := c.2.mintAll id r.tcb.himg
  let s := m.1.putBytes id (zipBytes r.himg (m.2.flatMap Handle.bytes))
  let t := newTask (s.taskAt r.die idx) id false { r.tcb with himg := m.2 } c.1 (.viaWorld tcbVa) [] []
  let s := (s.setTask r.die idx t).modWorld id fun w => { w with trT := 0, trCount := 0, readSet := [] }
  (s.arm r.die idx, bytesOf 8 (s.idOf r.die idx).toNat ++ bytesOf 4 c.1.serial.toNat)

def State.launch (s : State) (f : Nat) (buf : List Byte) : Served :=
  let id := natAt buf 0 2
  if (s.world id).st ≠ .live ∨ some (s.world id).berth ≠ s.berthOf f then .done s 0x42 []
  else if natAt buf 2 6 ≠ 0 then .done s 0x02 []
  else
    match s.launchCheck id (natAt buf 8 8) (natAt buf 16 8) (natAt buf 24 8) with
    | .error status => .done (s.noteIntegrity id status) status []
    | .ok r =>
      match s.freeEntry r.die with
      | none => .wait
      | some i =>
        let x := launchDo id (natAt buf 8 8) (natAt buf 16 8) (natAt buf 24 8) i r
        .done x.1 0 x.2

def execLaunch (tdi seqNo : Nat) (buf : List Byte) (s : State) : Out3 :=
  .next (s.mailbox tdi seqNo 4 buf.length fun s => s.launch tdi buf)

/-- DESTROY of a world of the TDI's berth (R366). -/
def execDestroy (tdi seqNo world : Nat) (s : State) : Out3 :=
  .next (s.mailbox tdi seqNo 5 2 fun s =>
    if (s.world world).st ≠ .none ∧ some (s.world world).berth = s.berthOf tdi then .done (s.endWorld world) 0 [] else .done s 0x02 [])

/-! Export and restore (R406, R407). -/

/-- The bytes of a control block, without its record. -/
def Tcb.bytes (t : Tcb) : List Byte :=
  let b (n v : Nat) : List Byte := bytesOf n v
  b 1 1 ++ b 1 (natOf t.sup + 2 * natOf t.ten + 4 * natOf t.res + 8 * natOf t.fsig) ++ b 1 (t.pri + 16 * t.dpri) ++ b 1 (natOf t.hold) ++
    b 1 t.gsize ++ b 1 t.die ++ b 1 (t.narg + 16 * t.nh) ++ b 1 0 ++ b 2 t.lrec ++ b 2 t.tvec ++ b 2 t.resume ++ b 2 0 ++ b 1 t.ws ++
    b 1 t.wcount ++ b 1 t.fs ++ b 1 t.sigs.length ++ b 4 t.n ++ t.sigs.flatMap (b 1) ++ b (8 - t.sigs.length) 0 ++ b 8 t.save ++
    b 8 t.tok.toNat ++ b 16 0 ++ t.args.flatMap (fun x => b 8 x.toNat) ++ t.himg.flatMap Handle.bytes ++ b (256 - 32 * t.himg.length) 0

/-- A task for a manifest. -/
def Task.man (t : Task) (die idx : Nat) : ManTask :=
  { die := die, index := idx, inc := t.inc.toNat, future := t.future, tcb := t.tcb.bytes, pro := t.tcb.pro, ker := t.tcb.ker
    epi := t.tcb.epi, stages := t.tcb.stages, code := t.code.image
    recAt := match t.recAt with
      | .none => .none
      | .viaHandle h off c => .handle h.image off c
      | .viaWorld va => .world va
    reach := t.reach, refs := t.refs, gpos := t.gpos, phase := t.phase, run := t.run
    handles := t.live.map fun hs => hs.map Handle.image
    done := if t.st = .done then some (t.outcome.status, t.outcome.sub, t.outcome.stream, t.outcome.group, t.outcome.value) else none
    pub := t.pub, phaseRegs := t.phaseRegs }

/-- Lines of a world's share that it wrote, by place in the share, with whether they fail to read. -/
def State.writtenLines (s : State) (id : Nat) : List (Nat × Bool) :=
  let b := (s.world id).berth
  s.lines.filterMap fun e =>
    match e.2 with
    | .written w _ bad =>
      if w = id ∧ hbmKey b 0 ≤ 256 * e.1 ∧ 256 * e.1 < hbmKey (b + 1) 0 then some (e.1 - hbmKey b 0 / 256, bad || s.lineGone e.1) else none
    | .fresh | .moved _ _ _ => none

/-- The restore manifest of a world (R406). -/
def State.manifest (s : State) (id : Nat) : Manifest :=
  let w := s.world id
  let lo := hbmKey w.berth 0
  let written := s.writtenLines id
  let mine (k : Nat) : Bool := decide (lo ≤ k) && written.any fun l => lo / 256 + l.1 == k / 256 && !l.2
  { srcDev := s.fabId, world := id, prk := w.prk, gen := w.gen, root := w.root, floor := w.floor, ranges := w.ranges, frozen := w.frozen
    nextSerial := w.nextSerial, trT := w.trT, trCount := w.trCount, moored := w.guarM, share := w.guarS, owners := w.owners, nonce := w.nonce
    tasks := (s.tasksIn id [.waiting, .ready, .held, .done, .yielded]).map fun p => (s.taskAt p.1 p.2).man p.1 p.2
    lines := (s.mem.filter fun e => mine e.1).map fun e => (e.1 - lo, e.2), written := written }

/-- EXPORT: once no gang of the berth is placed or pre-empted, the manifest leaves in the session with the destination, the share's lines pass
under the transfer key, and the world takes no more slices here (R406, R407). -/
def State.exportW (s : State) (f id : Nat) : Served :=
  let b := (s.world id).berth
  if (s.world id).st ≠ .live ∨ some b ≠ s.berthOf f then .done s 0x42 []
  else
    match (s.world id).manifest with
    | some m => .done (s.emit (.manifest id m)) 0 []
    | none =>
      let m := s.manifest id
      if (s.worldsOf b).any fun w => (s.tasksIn w [.running, .ready]).any fun p =>
          (s.taskAt p.1 p.2).st == .running || (s.taskAt p.1 p.2).saved then .wait
      else if (s.world id).rot.isSome then .wait
      else .done (((s.moveLines id true).modWorld id fun w => { w with manifest := some m }).emit (.manifest id m)) 0 []

def execExportWorld (tdi seqNo world : Nat) (s : State) : Out3 :=
  .next (s.mailbox tdi seqNo 6 2 fun s => s.exportW tdi world)

/-- A handle minted anew with its old serial; fabric handles that name the source are revoked (R407). -/
def State.remint (s : State) (id src : Nat) (img : BitVec 256) : Handle :=
  let w := s.world id
  let h := Handle.ofImage img
  if h.format = 0 then .cleared
  else
    let n := w.sealed (w.freezeRights { h with world := BitVec.ofNat 12 id })
    { n with revoked := w.isRevoked h.serial.toNat || (h.format == 4 && h.dev == src) }

/-- A task of a manifest: YIELDED, or DONE with its result. -/
def State.remade (s : State) (id src : Nat) (m : ManTask) : Task :=
  let t := Tcb.ofBytes m.tcb
  { Task.free with
    inc := BitVec.ofNat 32 m.inc, st := if m.done.isSome then .done else .yielded, world := id, future := m.future
    tcb := { t with pro := m.pro, ker := m.ker, epi := m.epi, stages := m.stages, himg := t.himg.map fun h => s.remint id src h.image }
    code := s.remint id src m.code, pri := t.pri, reach := m.reach, refs := m.refs, gpos := m.gpos, phase := m.phase, run := m.run
    phaseRegs := m.phaseRegs
    recAt := match m.recAt with
      | .none => .none
      | .handle h off c => .viaHandle (s.remint id src h) off c
      | .world va => .viaWorld va
    outcome := match m.done with
      | some (status, sub, stream, group, value) => ⟨status, sub, stream, group, value⟩
      | none => ⟨0, 0, 0, 0, 0⟩
    pub := m.pub
    live := m.handles.map fun hs => hs.map (s.remint id src) }

/-- The number that a restored world takes: its own where that is free, for what a program holds of it names it, else the lowest free. -/
def State.freeFor (s : State) (m : Manifest) : Option Nat :=
  if 1 ≤ m.world ∧ m.world ≤ 4095 ∧ (s.world m.world).st = .none then some m.world else s.freeWorld

/-- The entry that a restored task takes: its own, or one that a new task may take; none where there is no room. -/
def State.seatOf (s : State) (m : ManTask) : Option Nat :=
  if (s.taskAt m.die m.index).st = .free then some m.index else s.freeEntry m.die

/-- A task's identifier without its world. -/
def tokenTail (x : X64) : Nat := x.toNat % 2 ^ 52

/-- Every task of a manifest finds an entry, or none does; with what identified each task and what does now. -/
def State.seatAll (s : State) (id src : Nat) : List ManTask → Option (State × List (Nat × X64))
  | [] => some (s, [])
  | m :: rest =>
    match s.seatOf m with
    | none => none
    | some i =>
      let s := s.setTask m.die i (s.remade id src m)
      (s.seatAll id src rest).map fun r =>
        (r.1, (tokenTail (taskId 0 (BitVec.ofNat 32 m.inc) m.die m.future m.index), s.idOf m.die i) :: r.2)

/-- The references of a restored world's tasks name the tasks where they stand now (R407). -/
def State.retoken (s : State) (id : Nat) (moves : List (Nat × X64)) : State :=
  let now (x : X64) : X64 := ((moves.find? fun m => m.1 == tokenTail x).map (·.2)).getD x
  { s with tasks := s.tasks.map fun e =>
      if e.2.world = id then (e.1, { e.2 with refs := e.2.refs.map fun r => (now r.1, r.2) }) else e }

/-- Lines of a manifest in a berth's share, under generation 1; those whose tag failed still fail. -/
def State.putLines (s : State) (id b : Nat) (m : Manifest) : State :=
  let s := s.putBytes id (m.lines.map fun e => (hbmKey b e.1, e.2))
  { s with lines := m.written.foldl (fun t l => tabSet t (hbmKey b 0 / 256 + l.1) (.written id 1 l.2)) s.lines }

/-- The world of a manifest on this device (R407). -/
def State.restored (s : State) (m : Manifest) (id b : Nat) : World :=
  { World.blank with
    st := .live, berth := b, owners := m.owners, guarM := m.moored, guarS := m.share, nonce := m.nonce
    prk := prkOf s.lodestar id m.nonce (digestBytes m.prk), veils := veilsFrom s.fresh
    root := m.root, floor := m.floor, ranges := m.ranges, frozen := m.frozen, nextSerial := m.nextSerial, trT := m.trT
    trCount := m.trCount, identity := true }

/-- Worlds of this device that a manifest came from. -/
def State.sourceOf (s : State) (m : Manifest) (id : Nat) : List Nat :=
  if m.srcDev = s.fabId then (s.worlds.filter fun e => e.1 != id && e.2.manifest == some m).map (·.1) else []

/-- RESTORE (R407). Another device's source world ends, or goes on, by what its own SPDM relay brings it. With no berth, no free number or a
berth that holds WMAX worlds the answer is 0x0A, as for CREATE (log 36). -/
def State.restoreW (s : State) (f : Nat) (m : Manifest) : Served :=
  match s.berthOf f, s.freeFor m with
  | some b, some id =>
    let d := s.berth b
    if d.mooredCount < m.moored ∨ d.share < m.share then .done ((s.sourceOf m id).foldl State.resumeWorld s) 0x43 []
    else if d.wmax ≤ (s.worldsOf b).length then .done s 0x0A []
    else if !d.freshDone then .wait
    else
      let s' := ({ s.setWorld id (s.restored m id b) with fresh := s.fresh + 6 }).putLines id b m
      match s'.seatAll id m.srcDev m.tasks with
      | none => .wait
      | some r => .done ((s.sourceOf m id).foldl State.movedAway ((r.1.retoken id r.2).listWorld id)) 0 (bytesOf 2 id)
  | _, _ => .done s 0x0A []

def execRestore (tdi seqNo : Nat) (man : Manifest) (s : State) : Out3 :=
  .next (s.mailbox tdi seqNo 7 0 fun s => s.restoreW tdi man)

/-- REPORT (R384): to the host, or to an owner through its own session, which the relay carries. -/
def State.reportW (s : State) (f world : Nat) (nonce : BitVec 512) (owner : Option Nat) : Served :=
  let up (role : Nat) : Bool := s.owned.any fun o => o.1 == world && o.2.1 == role && o.2.2.stage == 8
  if (s.world world).st = .none ∨ some (s.world world).berth ≠ s.berthOf f then .done s 0x42 []
  else
    let r := s.signReport world (bytesOf 64 nonce.toNat)
    match owner with
    | none => .done r.2.2 0 r.1
    | some role => if up role then .done (r.2.2.emit (.report world role r.1)) 0 [] else .done s 0x42 []

def execReport (tdi seqNo world : Nat) (nonce : BitVec 512) (owner : Option Nat) (s : State) : Out3 :=
  .next (s.mailbox tdi seqNo (if owner.isSome then 1 else 8) 66 fun s => s.reportW tdi world nonce owner)

/-! TDISP (R409). -/

def State.setTdiSt (s : State) (f : Nat) (st : TdiSt) : State := s.setTdi f { s.tdi f with st := st }

/-- LOCK_INTERFACE: the descriptor and the base address registers are frozen and reported, the berth ACTIVE, or DEGRADED still (R403); its
lines are to be made fresh under a key of its own (R97, R409). -/
def execLockInterface (tdi : Nat) (s : State) : Out3 :=
  .next <|
    if !s.present tdi ∨ (s.tdi tdi).st ≠ .unlocked then s
    else
      let s := s.setTdiSt tdi .locked
      match s.berthOf tdi with
      | some b =>
        let v := s.berth b
        let d := s.draw
        (d.2.setBerth b { v.withState (if v.degraded then 2 else 1) with
          zeroKey := Config.drbg d.1, freshDone := false, order := [], cur := 0, inSlice := false }).emit
            (.interface tdi v.desc (s.tdi tdi).bars)
      | none => s.emit (.interface tdi 0 (s.tdi tdi).bars)

def execStartInterface (tdi : Nat) (s : State) : Out3 :=
  .next (if s.present tdi ∧ (s.tdi tdi).st = .locked then s.setTdiSt tdi .run else s)

/-- A TDI in LOCKED or RUN enters ERROR; a pending request is cancelled. -/
def State.tdiError (s : State) (f : Nat) : State :=
  match (s.tdi f).st with
  | .locked | .run =>
    let x := (s.tdi f).mbx
    let s := ((s.setTdiSt f .error).errBit f 8).errBit 0 8
    if mbxGo x then (s.respond f (fieldOf x.toNat 63 32) (fieldOf x.toNat 31 24) 0x40 []).dropHost f else s
  | .unlocked | .error => s

/-- TDI_ERROR: a locked setting changed, or traffic came outside the stream. -/
def execTdiError (tdi : Nat) (s : State) : Out3 := .next (s.tdiError tdi)

/-! Registers of function 0 and of every function (R397, R408, R411, R414). -/

/-- Descriptors of other berths that are in use. -/
def State.others (s : State) (b : Nat) : List Berth :=
  ((List.range 48).filter fun i => i != b).map s.berth |>.filter fun d => d.desc != 0

def sumOf (f : Berth → Nat) (ds : List Berth) : Nat := ds.foldl (fun n d => n + f d) 0

/-- The conditions of R397 on a descriptor beside the others. -/
def descOk (d : Berth) (others : List Berth) : Bool :=
  let mask (d : Berth) : Nat := Nat.lor d.moored d.slack
  let count (d : Berth) : Nat := ((List.range 72).filter fun c => bitOf d.moored c).length
  Nat.land d.moored d.slack == 0 && others.all (fun o => Nat.land (mask o) (mask d) == 0) && decide (sumOf count (d :: others) ≤ 48) &&
    decide (1 ≤ d.share) && decide (sumOf Berth.share (d :: others) ≤ 512) && decide (sumOf Berth.portw (d :: others) ≤ 64) &&
    decide (1 ≤ d.slice) && decide (d.slice ≤ 1000) && decide (1 ≤ d.wmax) && decide (d.wmax ≤ 16) &&
    others.all (fun o => o.tdi != d.tdi) && decide (1 ≤ d.tdi) && decide (d.tdi ≤ 263)

/-- Bits of a descriptor that function 0 writes. -/
def descMask : BitVec 256 := BitVec.ofNat 256 (2 ^ 256 - 2 ^ 63 + 2 ^ 60)

/-- BERTH_DESCRIPTOR_WRITE. Function 0 takes it once bring-up has come to it (R413). The share of a new descriptor is of
lines that have a place (R404, log 38). -/
def execBerthDescriptorWrite (berth : Nat) (desc : BitVec 256) (s : State) : Out3 :=
  .next <|
    let old := s.berth berth
    let d : Berth := { Berth.free with desc := desc &&& descMask }
    let new : Berth := { d with guarM := d.mooredCount, guarS := d.share }
    if s.stage < 5 then s
    else if 48 ≤ berth ∨ old.state ≠ 0 ∨ (old.desc ≠ 0 ∧ (s.tdi old.tdi).st ≠ .unlocked) ∨ (s.tdi new.tdi).st ≠ .unlocked ∨
        !descOk new (s.others berth) then s.errBit 0 7
    else { s.setBerth berth new with lost := s.lost.filter fun l => decide (l < hbmKey berth 0 / 256) || decide (hbmKey (berth + 1) 0 / 256 ≤ l) }

/-- FABRIC_ID_WRITE: once for an incarnation (R414), and only where bring-up has come to it (R413). -/
def execFabricIdWrite (id : Nat) (s : State) : Out3 :=
  .next <|
    if s.stage < 5 then s
    else if s.fabIdSet ∨ 992 < id then s.errBit 0 7
    else { s with fabId := id, fabIdSet := true, stage := if s.failed = 0 then max 6 s.stage else s.stage }

/-- ERRSTAT_CLEAR: bits written with 1. -/
def execErrstatClear (fn : Nat) (mask : X64) (s : State) : Out3 :=
  .next (if s.present fn then s.setTdi fn { s.tdi fn with err := (s.tdi fn).err &&& ~~~mask } else s)

/-- Bytes written into the mailbox buffer. -/
def bufPut (buf : List Byte) (at_ : Nat) (bs : List Byte) : List Byte :=
  let old := buf ++ List.replicate (at_ + bs.length - buf.length) 0
  old.take at_ ++ bs ++ old.drop (at_ + bs.length)

/-- A write of MBXCTL at 0x0000. With GO while GO is set it is ignored; with GO and a request of Table 14.3 it is that request's own event;
with GO and another it gets ILLEGAL_OP. Without GO it sets SEQ, REQ and LEN, or while GO is set changes nothing and sets no MBX: R410
speaks of a write of GO alone (log 36). -/
def State.writeCtl (s : State) (f : Nat) (v : X64) : State :=
  let t := s.tdi f
  let req := fieldOf v.toNat 31 24
  let seqNo := fieldOf v.toNat 63 32
  let len := fieldOf v.toNat 15 1
  if mbxGo v ∧ mbxGo t.mbx then s.mbxBusy f
  else if mbxGo v then (if 1 ≤ req ∧ req ≤ 8 then s else s.mailbox f seqNo req len fun s => .done s 0x01 [])
  else if mbxGo t.mbx then s
  else s.setTdi f { t with mbx := mbxCtl seqNo req (fieldOf t.mbx.toNat 23 16) len false }

/-- REGISTER_WRITE: the power limit of function 0, at most 2,600 W; the owner of a virtual function, by function 0, both once bring-up has
come to it (R413); a base address register, which a locked interface does not let change; MBXCTL and the mailbox buffer (R408 to R410,
R420). -/
def execRegisterWrite (fn : Nat) (reg : DevReg) (value : X64) (s : State) : Out3 :=
  .next <|
    let t := s.tdi fn
    if !s.present fn then s
    else
      match reg with
      | .powerLimit => if fn = 0 ∧ 5 ≤ s.stage ∧ value.toNat ≤ 2600 then { s with powerLimit := value.toNat } else s
      | .vfOwner vf =>
        if fn = 0 ∧ 5 ≤ s.stage ∧ vf < 256 ∧ value.toNat ≤ 7 then { s with vfOwner := tabSet s.vfOwner vf value.toNat } else s
      | .bar n =>
        if 6 ≤ n then s
        else if t.st = .unlocked then s.setTdi fn { t with bars := t.bars.set n value }
        else if t.bars.getD n 0 = value then s
        else s.tdiError fn
      | .other addr =>
        if s.stage < 5 ∨ fn = 0 then s
        else if addr = 0 then s.writeCtl fn value
        else if 0x100 ≤ addr ∧ addr + 8 ≤ 0x2000 then s.setTdi fn { t with buf := bufPut t.buf (addr - 0x100) (bytesOf 8 value.toNat) }
        else s

/-! Resets and power-good (R382, R412, R413). -/

/-- The physical function that owns a virtual function: what function 0 has assigned, else runs of 32 (R408). -/
def State.ownerOf (s : State) (vf : Nat) : Nat := (tabFind s.vfOwner vf).getD (if vf < 224 then 1 + vf / 32 else 0)

/-- FUNCTION_LEVEL_RESET: function 0's registers; another function's TDI, and those of its virtual functions. -/
def execFunctionLevelReset (fn : Nat) (s : State) : Out3 :=
  .next <| s.withReturns fun s =>
    if !s.present fn then s
    else if fn = 0 then { s.setTdi 0 .init with powerLimit := 2600 }
    else if fn ≤ 7 then
      (fn :: ((List.range 256).filter fun v => s.ownerOf v == fn).map (8 + ·)).foldl (fun s f => s.stopTdi f) s
    else s.stopTdi fn

/-- What a reset of the device leaves: the leaf counters, a new incarnation, and what is no part of the machine's own state: time, the
counter of free values, what has left it. Its tests find worn parts anew (R382, R412, R421). -/
def State.afterReset (s : State) : State :=
  { State.reset with
    now := s.now, fresh := s.fresh, agenda := s.agenda, cur := s.cur, curSt := s.curSt, power := s.power, out := s.out
    leaves := s.leaves, incarnation := s.incarnation + 1
    cores := s.cores.map fun e => (e.1, { Core.init with cycle0 := e.2.cycle0 }) }

/-- DEVICE_RESET: every world is gone, every link closed; bring-up repeats with POWER_GOOD. -/
def execDeviceReset (s : State) : Out3 := .next s.afterReset

/-- HBM of a stack is replaced: by a spare bank of the stack, else by a gibibyte that no SHARE claims (R404, log 38). -/
def State.hbmSpare (s : State) (stack : Nat) : Option State :=
  let used := (tabFind s.banksUsed stack).getD 0
  if used < Config.spareBanks stack then some { s with banksUsed := tabSet s.banksUsed stack (used + 1) }
  else if sumOf Berth.share ((List.range 48).map s.berth) + s.hbmTaken < 512 then some { s with hbmTaken := s.hbmTaken + 1 }
  else none

/-- A core or a cluster that fails its self-test at bring-up, when no core runs anything (R402). -/
def State.failTest (s : State) : HwUnit → State
  | .core c => if s.spareCore.contains (clusterOf c) then s.retireCluster (clusterOf c) else s.retireCore c
  | .cluster k => s.retireCluster k
  | .hbmChannel _ | .port _ | .lodestar => s

/-- Stages 3 and 4: what their tests found is replaced, and ERRSTAT says so (Table 14.5). -/
def State.selfTest (s : State) (banks : List Nat) (units : List HwUnit) : State :=
  let s := banks.foldl (fun s n => (s.hbmSpare n).getD s) s
  let s := units.foldl State.failTest s
  let s := if banks.isEmpty then s else s.errBit 0 10
  if units.isEmpty then s else s.errBit 0 11

/-- The number of the last stage completed and of a failed stage, as the management interface gives them at command code 0x10; function 0's
vendor capability holds the latter (R413). -/
def State.smbusStatus (s : State) : BitVec 8 := BitVec.ofNat 8 (s.stage + 16 * s.failed)

/-- POWER_GOOD: stages 1 to 5 run, or stop at the stage that fails (0: none; 6 fails after them). Stage 5 leaves no PCIe path. After a loss of
power every core counts its cycles anew (R120). -/
def execPowerGood (failedStage : Nat) (banks : List Nat) (units : List HwUnit) (s : State) : Out3 :=
  .next <|
    let n := min failedStage 6
    if s.power ∧ (s.stage ≠ 0 ∨ s.failed ≠ 0) then s
    else
      let s := if s.power then s else (List.range 576).foldl (fun s c => s.modCore c fun k => { k with cycle0 := s.now }) s
      let s := { s with power := true, stage := if n = 0 then 5 else n - 1, failed := n }
      let s := s.selfTest (if 3 ≤ s.stage then banks else []) (if 4 ≤ s.stage then units else [])
      if n = 0 ∨ n = 5 then s else s.errBit 0 15

end Sys2Proof.Machine
end

