-- ==== Sys2Proof/Machine/Package.lean ====
section
/-! DEFINITION. Events of the package: errors of its units, containment, the lines of HBM, power and heat (R97, R386, R402, R404, R417 to
R421). -/
namespace Sys2Proof.Machine

/-! Errors of units (R402, R411, R417 to R419). -/

/-- The functions told of a unit: function 0, and those of the berths that hold a core's cluster, or every function whose TDI is in RUN. -/
def State.unitFns (s : State) (u : HwUnit) : List Nat :=
  let holders (k : Nat) : List Nat :=
    (((List.range 48).filter fun b => bitOf (s.berth b).moored k || bitOf (s.berth b).slack k).map fun b => (s.berth b).tdi).filter (· != 0)
  0 :: match u with
    | .core c => holders (clusterOf c)
    | .cluster k => holders k
    | .hbmChannel _ | .port _ | .lodestar => ((s.tdis.filter fun e => e.2.st == .run).map (·.1)).filter (· != 0)

/-- A corrected error, counted up to 63 (Table 14.4). -/
def State.corr (s : State) (f : Nat) : State :=
  let t := s.tdi f
  if t.err.toNat % 64 = 63 then s else s.setTdi f { t with err := t.err + 1 }

/-- The bit that a unit's retirement sets. -/
def retireBit : HwUnit → Option Nat
  | .core _ | .cluster _ => some 11
  | .hbmChannel _ => some 10
  | .port _ | .lodestar => none

def State.noteRetire (s : State) (u : HwUnit) : State :=
  match retireBit u with
  | some bit => (s.unitFns u).foldl (fun s f => s.errBit f bit) s
  | none => s

/-- A berth loses what no longer holds its share: it is DEGRADED, and its SHARE is reduced by the gibibyte that is no longer whole, which
nothing can claim any more (R404, log 38). -/
def State.loseShare (s : State) (berth : Nat) : State :=
  let b := (s.berth berth).loses
  let share := (BitVec.ofNat 256 (b.share - 1)) <<< 102
  { s.setBerth berth { b with desc := (b.desc &&& ~~~((1023 : BitVec 256) <<< 102)) ||| share } with hbmTaken := s.hbmTaken + 1 }

/-- A line whose content could not be read as it moved: its tag fails until it is written whole. -/
def Line.unread : Line → Line
  | .fresh => .fresh
  | .written w g _ => .written w g true
  | .moved w g _ => .moved w g true

/-- The lines of a channel have a new place. Those of one that is fenced could not be read: they move as they stand and keep failing (R404,
R419, log 38). -/
def State.replaceChannel (s : State) (n : Nat) : State :=
  if s.fencedChans.contains n then
    { s with fencedChans := s.fencedChans.filter (· != n)
             lines := s.lines.map fun e => (e.1, if onChannel e.1 n then e.2.unread else e.2) }
  else s

/-- A channel of HBM retires. Its lines move to a spare bank of its stack or to unclaimed capacity, which only time shows; with neither it
serves nothing, and each berth whose share held a line there loses of it (R398, R404, log 38). -/
def State.retireChannel (s : State) (n : Nat) : State :=
  let s := s.notRetiring (.hbmChannel n)
  if s.deadChans.contains n then s
  else
    match s.hbmSpare (Config.stackOf n) with
    | some s => s.replaceChannel n
    | none =>
      ((List.range 48).filter fun b => decide (0 < (s.berth b).share) && Config.placed n b).foldl State.loseShare
        { s with deadChans := s.deadChans ++ [n], fencedChans := s.fencedChans.filter (· != n) }

/-- A unit retires at once. A port has its lanes' spare, the Lodestar its standby (R334, R388). -/
def State.retireUnit (s : State) : HwUnit → State
  | .core c => s.retireCore c
  | .cluster k => s.retireCluster k
  | .hbmChannel n => s.retireChannel n
  | .port _ | .lodestar => s

/-- The replacement of a core or a cluster waits for the next change of world; that of a channel waits for nothing (R402, R404). -/
def State.retireLater (s : State) (u : HwUnit) : State :=
  match u with
  | .core _ | .cluster _ => if s.retiring.contains u then s else { s with retiring := s.retiring ++ [u] }
  | .hbmChannel n => s.retireChannel n
  | .port _ | .lodestar => s

/-- A gang stops with INTEGRITY and SUB 3, and its world counts the event. -/
def State.failGang (s : State) (die idx : Nat) : State :=
  let w := (s.taskAt die idx).world
  (s.endTask die idx false ⟨0x1A, 3, 0, 0, 0⟩).modWorld w fun v => { v with integ := v.integ + 1 }

/-- Cores of a unit. -/
def unitCores : HwUnit → List Nat
  | .core c => [c]
  | .cluster k => coresOfCluster k
  | .hbmChannel _ | .port _ | .lodestar => []

/-- The unit itself is cut off: no gang is placed on a fenced core, no line of a fenced channel is read, a fenced port is DOWN and stays so,
and a fenced Lodestar serves nothing (R388, R419). -/
def State.cutUnit (s : State) (u : HwUnit) : State :=
  match u with
  | .core _ | .cluster _ => (unitCores u).foldl (fun s c => s.modCore c fun k => { k with fenced := true }) s
  | .hbmChannel n => { s with fencedChans := if s.fencedChans.contains n then s.fencedChans else s.fencedChans ++ [n] }
  | .port p => (s.setPort p { Port.init with fenced := true }).loadRoutes
  | .lodestar => { s with lodeFenced := s.lodeFenced ++ [s.lodestar] }

/-- Containment: every gang with a core in the unit ends, and the unit is fenced. -/
def State.fenceUnit (s : State) (u : HwUnit) : State :=
  let cs := unitCores u
  let hit := s.tasks.filterMap fun e => if e.2.st = .running ∧ e.2.cores.any cs.contains then some (e.1 / 4096, e.1 % 4096) else none
  ((hit.foldl (fun s p => s.failGang p.1 p.2) s).cutUnit u).errAll 15

/-- UNIT_FENCE. -/
def execUnitFence (u : HwUnit) (s : State) : Out3 := .next (s.fenceUnit u)

/-- A double-bit error comes up in a word of a core's memories, or of a semaphore of its world on its die; nothing fixes which (R417,
log 18). -/
def State.eccError (s : State) (c : Nat) : State :=
  let d := s.draw
  let x := (Config.freeWord d.1).toNat
  let i := x / 4
  if x % 4 = 0 then { d.2 with ecc2 := s.ecc2 ++ [scrKey (scrBase c) / 8 + i % 262144] }
  else if x % 4 = 1 then { d.2 with ecc2 := s.ecc2 ++ [imemKey c 0 / 8 + i % 24576] }
  else if x % 4 = 2 then { d.2 with semEcc := s.semEcc ++ [semKey (s.core c).world (dieOf c) (i % 256)] }
  else
    let rows := (List.range 16).map tileGran ++ (List.range 1024).map slotGran ++ [weightGran false, weightGran true] ++
      (List.range 1024).map accGran
    d.2.modCore c fun k => { k with ecc := k.ecc ++ [rows.getD (i % rows.length) 0] }

/-- One hour of the Lodestar clock, in nanoseconds. -/
def hourNs : Nat := 3600000000000

/-- An uncorrectable error of a unit: the second within one hour retires it (R418). -/
def State.unitError (s : State) (u : HwUnit) : State :=
  let s := match (unitCores u).head? with
    | some c => s.eccError c
    | none => s
  let again := s.unitErrs.any fun e => e.1 == u && decide (s.lclock ≤ e.2 + hourNs)
  let s := { s with unitErrs := s.unitErrs.filter (fun e => e.1 != u) ++ (if again then [] else [(u, s.lclock)]) }
  if again then (s.noteRetire u).retireLater u else s

/-- UNIT_RETIRE: what a unit reports of itself. A corrected error is counted; a second uncorrectable one within an hour or a failed self-test
retires the unit at the next change of world; a failure that cannot be confined fences it and retires it at once. -/
def execUnitRetire (u : HwUnit) (why : UnitErr) (s : State) : Out3 :=
  .next <| s.withReturns fun s =>
    match why with
    | .corrected => (s.unitFns u).foldl State.corr s
    | .uncorrectable => s.unitError u
    | .selfTest => (s.noteRetire u).retireLater u
    | .fatal => ((s.fenceUnit u).noteRetire u).retireUnit u

/-! HBM (R404). -/

/-- HBM_RETIRE: with a spare bank of the stack or unclaimed capacity the lines move, and only time shows it; without, the line is lost for
good and the berth loses of its share. -/
def execHbmRetire (berth line stack : Nat) (s : State) : Out3 :=
  .next <|
    let s := s.errBerth berth 10
    match s.hbmSpare stack with
    | some s => s
    | none =>
      let l := hbmKey berth (256 * line) / 256
      { s.loseShare berth with lost := if s.lost.contains l then s.lost else s.lost ++ [l] }

/-! Fresh lines (R97). -/

/-- A world that has all its shares becomes LIVE. -/
def State.wake (s : State) (id : Nat) : State :=
  let w := s.world id
  if w.st = .awaiting ∧ w.shares.length = w.owners then s.liven id else s

/-- FRESH_SCRUB_COMPLETE: every line of the berth's share is fresh, and its worlds may become LIVE. -/
def execFreshScrubComplete (berth : Nat) (s : State) : Out3 :=
  .next <|
    let b := s.berth berth
    if b.state = 0 ∨ b.freshDone then s
    else
      let lo := hbmKey berth 0
      let hi := hbmKey (berth + 1) 0
      let out (k unit : Nat) : Bool := decide (k * unit < lo) || decide (hi ≤ k * unit)
      let s := { s.setBerth berth { b with freshDone := true } with
        mem := s.mem.filter fun e => out e.1 1
        lines := s.lines.filter fun e => out e.1 256 }
      (s.worldsOf berth).foldl State.wake s

/-! Power and heat (R420, R421, R386). -/

/-- Change the minimum class of every core; what the buckets gained so far stays. -/
def State.allMin (s : State) (f : Nat → Nat) : State :=
  (List.range 576).foldl (fun s c => s.modCore c fun k => { k.settle s.now with minCls := f k.minCls }) s

/-- POWER_LIMIT: over 10 ms the package drew more than the limit; one step up. -/
def execPowerLimit (s : State) : Out3 := .next { (s.allMin fun n => min 3 (n + 1)).errAll 12 with powerAt := s.now }

/-- POWER_RELAX: 100 ms have passed within the limit; one step down. -/
def execPowerRelax (s : State) : Out3 := .next (if s.now < s.powerAt + 120000000 then s else s.allMin fun n => n - 1)

/-- An environmental alarm of the next position reports (Table 13.7). -/
def State.alarm (s : State) (bit : Nat) : State := { s with alarms := Nat.lor s.alarms (2 ^ bit) }

def execVoltageAlarm (s : State) : Out3 := .next (s.alarm 0)
def execClockAlarm (s : State) : Out3 := .next (s.alarm 1)

/-- THERMAL_ALARM, at 105 °C. -/
def execThermalAlarm (s : State) : Out3 := .next ((s.alarm 2).errAll 13)

/-- Leaf counters after a loss of power: the next stored block (R382). -/
def Leaves.resume (v : Leaves) : Leaves :=
  { v with topNext := v.topStored * 1024, bot := v.botStored * 1024 }

/-- The package without power: the leaf counters stay. -/
def State.dark (s : State) : State := { s.afterReset with power := false, leaves := s.leaves.map fun e => (e.1, e.2.resume) }

/-- THERMAL_SHUTDOWN, at 115 °C: tasks stop, keys are gone, and only the leaf counters stay. What the stops write is lost. -/
def execThermalShutdown (s : State) : Out3 := .next s.dark

/-- POWER_LOSS. -/
def execPowerLoss (s : State) : Out3 := .next s.dark

end Sys2Proof.Machine
end

