-- ==== Sys2Proof/Machine/Dispatch.lean ====
section
/-! DEFINITION. The dispatcher: one arm per constructor of `Instr`, each one call of that instruction's meaning. -/
namespace Sys2Proof.Machine

/-- What an instruction or an event does. -/
def exec (i : Instr) (s : State) : Host.Outcome State Fault Refusal :=
  match i with
  | .add c xd xa xb => Sys2Proof.Machine.execAdd c xd xa xb s
  | .addi c xd xa imm => Sys2Proof.Machine.execAddi c xd xa imm s
  | .sub c xd xa xb => Sys2Proof.Machine.execSub c xd xa xb s
  | .mul c xd xa xb => Sys2Proof.Machine.execMul c xd xa xb s
  | .mulh c xd xa xb => Sys2Proof.Machine.execMulh c xd xa xb s
  | .mulhn c xd xa xb => Sys2Proof.Machine.execMulhn c xd xa xb s
  | .div c xd xa xb => Sys2Proof.Machine.execDiv c xd xa xb s
  | .divn c xd xa xb => Sys2Proof.Machine.execDivn c xd xa xb s
  | .rem c xd xa xb => Sys2Proof.Machine.execRem c xd xa xb s
  | .remn c xd xa xb => Sys2Proof.Machine.execRemn c xd xa xb s
  | .and c xd xa xb => Sys2Proof.Machine.execAnd c xd xa xb s
  | .andi c xd xa imm => Sys2Proof.Machine.execAndi c xd xa imm s
  | .or c xd xa xb => Sys2Proof.Machine.execOr c xd xa xb s
  | .ori c xd xa imm => Sys2Proof.Machine.execOri c xd xa imm s
  | .xor c xd xa xb => Sys2Proof.Machine.execXor c xd xa xb s
  | .xori c xd xa imm => Sys2Proof.Machine.execXori c xd xa imm s
  | .shl c xd xa amt => Sys2Proof.Machine.execShl c xd xa amt s
  | .shr c xd xa amt => Sys2Proof.Machine.execShr c xd xa amt s
  | .sra c xd xa amt => Sys2Proof.Machine.execSra c xd xa amt s
  | .min c nat xd xa xb => Sys2Proof.Machine.execMin c nat xd xa xb s
  | .max c nat xd xa xb => Sys2Proof.Machine.execMax c nat xd xa xb s
  | .clz c xd xa => Sys2Proof.Machine.execClz c xd xa s
  | .movi c xd imm => Sys2Proof.Machine.execMovi c xd imm s
  | .cmp c rel cd xa xb => Sys2Proof.Machine.execCmp c rel cd xa xb s
  | .cmpi c rel cd xa imm => Sys2Proof.Machine.execCmpi c rel cd xa imm s
  | .ccomb c op cd ca cb => Sys2Proof.Machine.execCcomb c op cd ca cb s
  | .slate c b imm => Sys2Proof.Machine.execSlate c b imm s
  | .slatex c b xa => Sys2Proof.Machine.execSlatex c b xa s
  | .cut c b => Sys2Proof.Machine.execCut c b s
  | .cutl c b bl => Sys2Proof.Machine.execCutl c b bl s
  | .bsel c b xd xa imm => Sys2Proof.Machine.execBsel c b xd xa imm s
  | .slinv c b => Sys2Proof.Machine.execSlinv c b s
  | .slinvAll c => Sys2Proof.Machine.execSlinvAll c s
  | .ld c w race acq xd h xa imm => Sys2Proof.Machine.execLd c w race acq xd h xa imm s
  | .st c w race rel h xa imm xb => Sys2Proof.Machine.execSt c w race rel h xa imm xb s
  | .hld c race acq hd hm xa imm => Sys2Proof.Machine.execHld c race acq hd hm xa imm s
  | .hst c race rel hm xa imm hs => Sys2Proof.Machine.execHst c race rel hm xa imm hs s
  | .hnarrow c hd hs xa xb mask shape => Sys2Proof.Machine.execHnarrow c hd hs xa xb mask shape s
  | .hmov c hd hs => Sys2Proof.Machine.execHmov c hd hs s
  | .hget c sel xd hs => Sys2Proof.Machine.execHget c sel xd hs s
  | .hclr c hd => Sys2Proof.Machine.execHclr c hd s
  | .hchk c cd hs xa xb rights => Sys2Proof.Machine.execHchk c cd hs xa xb rights s
  | .fork c imm => Sys2Proof.Machine.execFork c imm s
  | .join c => Sys2Proof.Machine.execJoin c s
  | .joinAbandon c => Sys2Proof.Machine.execJoinAbandon c s
  | .qmap c imm => Sys2Proof.Machine.execQmap c imm s
  | .oqsend c st q xa => Sys2Proof.Machine.execOqsend c st q xa s
  | .halt c => Sys2Proof.Machine.execHalt c s
  | .trap c value => Sys2Proof.Machine.execTrap c value s
  | .tret c => Sys2Proof.Machine.execTret c s
  | .csrr c xd sel => Sys2Proof.Machine.execCsrr c xd sel s
  | .csrw c sel xa => Sys2Proof.Machine.execCsrw c sel xa s
  | .brk c value => Sys2Proof.Machine.execBrk c value s
  | .waiti c xa => Sys2Proof.Machine.execWaiti c xa s
  | .nop c => Sys2Proof.Machine.execNop c s
  | .tld ctl mode pad t mem => Sys2Proof.Machine.execTld ctl mode pad t mem s
  | .vld ctl len dst mem ty => Sys2Proof.Machine.execVld ctl len dst mem ty s
  | .vlds ctl dst mem sq ty => Sys2Proof.Machine.execVlds ctl dst mem sq ty s
  | .vgather ctl dst mem idx ty => Sys2Proof.Machine.execVgather ctl dst mem idx ty s
  | .tfullL ctl t => Sys2Proof.Machine.execTfullL ctl t s
  | .temptyL ctl t => Sys2Proof.Machine.execTemptyL ctl t s
  | .padapplyL ctl op => Sys2Proof.Machine.execPadapplyL ctl op s
  | .tst ctl mode pad keep t mem => Sys2Proof.Machine.execTst ctl mode pad keep t mem s
  | .vst ctl len mem src ty => Sys2Proof.Machine.execVst ctl len mem src ty s
  | .vsts ctl mem src sq ty => Sys2Proof.Machine.execVsts ctl mem src sq ty s
  | .vscatter ctl mem src idx ty => Sys2Proof.Machine.execVscatter ctl mem src idx ty s
  | .tfullS ctl t => Sys2Proof.Machine.execTfullS ctl t s
  | .temptyS ctl t => Sys2Proof.Machine.execTemptyS ctl t s
  | .padapplyS ctl op => Sys2Proof.Machine.execPadapplyS ctl op s
  | .vadd w => Sys2Proof.Machine.execVadd w s
  | .vsub w => Sys2Proof.Machine.execVsub w s
  | .vmul w => Sys2Proof.Machine.execVmul w s
  | .vfma w cc => Sys2Proof.Machine.execVfma w cc s
  | .vfms w cc => Sys2Proof.Machine.execVfms w cc s
  | .vdiv w => Sys2Proof.Machine.execVdiv w s
  | .vsqrt w => Sys2Proof.Machine.execVsqrt w s
  | .vrsq w => Sys2Proof.Machine.execVrsq w s
  | .vrcp w => Sys2Proof.Machine.execVrcp w s
  | .vmin w => Sys2Proof.Machine.execVmin w s
  | .vmax w => Sys2Proof.Machine.execVmax w s
  | .vabs w => Sys2Proof.Machine.execVabs w s
  | .vneg w => Sys2Proof.Machine.execVneg w s
  | .vexp2 w => Sys2Proof.Machine.execVexp2 w s
  | .vlog2 w => Sys2Proof.Machine.execVlog2 w s
  | .viadd w => Sys2Proof.Machine.execViadd w s
  | .visub w => Sys2Proof.Machine.execVisub w s
  | .vimul w => Sys2Proof.Machine.execVimul w s
  | .vimulh w => Sys2Proof.Machine.execVimulh w s
  | .vand w => Sys2Proof.Machine.execVand w s
  | .vor w => Sys2Proof.Machine.execVor w s
  | .vxor w => Sys2Proof.Machine.execVxor w s
  | .vshl w => Sys2Proof.Machine.execVshl w s
  | .vshr w => Sys2Proof.Machine.execVshr w s
  | .vsra w => Sys2Proof.Machine.execVsra w s
  | .vimin w => Sys2Proof.Machine.execVimin w s
  | .vimax w => Sys2Proof.Machine.execVimax w s
  | .vcmp ctl pred kd a b ty rel => Sys2Proof.Machine.execVcmp ctl pred kd a b ty rel s
  | .vsel w ks => Sys2Proof.Machine.execVsel w ks s
  | .vcvt ctl pred dst a dty sty rnd sat part => Sys2Proof.Machine.execVcvt ctl pred dst a dty sty rnd sat part s
  | .vscale w => Sys2Proof.Machine.execVscale w s
  | .vmov ctl pred dst b ty => Sys2Proof.Machine.execVmov ctl pred dst b ty s
  | .vperm ctl pred dst a idx ty => Sys2Proof.Machine.execVperm ctl pred dst a idx ty s
  | .vslide ctl pred dst a b ty n => Sys2Proof.Machine.execVslide ctl pred dst a b ty n s
  | .vcompress ctl pred dst a ty => Sys2Proof.Machine.execVcompress ctl pred dst a ty s
  | .vexpand ctl pred dst a ty => Sys2Proof.Machine.execVexpand ctl pred dst a ty s
  | .vbcast ctl pred dst a ty j => Sys2Proof.Machine.execVbcast ctl pred dst a ty j s
  | .vindex ctl pred dst base step ty sat => Sys2Proof.Machine.execVindex ctl pred dst base step ty sat s
  | .vredsum w => Sys2Proof.Machine.execVredsum w s
  | .vredmax w => Sys2Proof.Machine.execVredmax w s
  | .vredmin w => Sys2Proof.Machine.execVredmin w s
  | .vscansum w => Sys2Proof.Machine.execVscansum w s
  | .vscanmax w => Sys2Proof.Machine.execVscanmax w s
  | .kand ctl inv kd ka kb => Sys2Proof.Machine.execKand ctl inv kd ka kb s
  | .kor ctl inv kd ka kb => Sys2Proof.Machine.execKor ctl inv kd ka kb s
  | .kxor ctl inv kd ka kb => Sys2Proof.Machine.execKxor ctl inv kd ka kb s
  | .kset ctl kd n ty => Sys2Proof.Machine.execKset ctl kd n ty s
  | .kcount ctl dst ka ty => Sys2Proof.Machine.execKcount ctl dst ka ty s
  | .mpush ctl ka => Sys2Proof.Machine.execMpush ctl ka s
  | .minv ctl => Sys2Proof.Machine.execMinv ctl s
  | .mpop ctl => Sys2Proof.Machine.execMpop ctl s
  | .mldw ctl kp ws t sc => Sys2Proof.Machine.execMldw ctl kp ws t sc s
  | .mlds ctl ws sc => Sys2Proof.Machine.execMlds ctl ws sc s
  | .mma ctl cons row0 t sq n1 fent ws cbm pos => Sys2Proof.Machine.execMma ctl cons row0 t sq n1 fent ws cbm pos s
  | .mmag ctl n1 h sq idx fent ws cbm pos race => Sys2Proof.Machine.execMmag ctl n1 h sq idx fent ws cbm pos race s
  | .mzero ctl n1 cbm pos => Sys2Proof.Machine.execMzero ctl n1 cbm pos s
  | .mrd ctl dst ty rnd sat pos => Sys2Proof.Machine.execMrd ctl dst ty rnd sat pos s
  | .mwr ctl src ty cbm pos => Sys2Proof.Machine.execMwr ctl src ty cbm pos s
  | .mfmt ctl fixed arg => Sys2Proof.Machine.execMfmt ctl fixed arg s
  | .mbud ctl cls => Sys2Proof.Machine.execMbud ctl cls s
  | .mstat ctl dst => Sys2Proof.Machine.execMstat ctl dst s
  | .msync ctl arg => Sys2Proof.Machine.execMsync ctl arg s
  | .loop q imm => Sys2Proof.Machine.execLoop q imm s
  | .endloop => Sys2Proof.Machine.execEndloop s
  | .skipz q n => Sys2Proof.Machine.execSkipz q n s
  | .skipzMask n => Sys2Proof.Machine.execSkipzMask n s
  | .nopStream ctl => Sys2Proof.Machine.execNopStream ctl s
  | .rdv ctl q => Sys2Proof.Machine.execRdv ctl q s
  | .cpy q bar race ha hb xa xb xc k => Sys2Proof.Machine.execCpy q bar race ha hb xa xb xc k s
  | .cpyt q bar race x16 ha hb xa xb xc k => Sys2Proof.Machine.execCpyt q bar race x16 ha hb xa xb xc k s
  | .cpymIn q bar race mode ha t xa xb xc k => Sys2Proof.Machine.execCpymIn q bar race mode ha t xa xb xc k s
  | .cpymOut q bar race mode ha t xa xb xc keep k => Sys2Proof.Machine.execCpymOut q bar race mode ha t xa xb xc keep k s
  | .cchain q ha xa k => Sys2Proof.Machine.execCchain q ha xa k s
  | .qpush q xa cd => Sys2Proof.Machine.execQpush q xa cd s
  | .strbind q bar race sn ha xa xc k => Sys2Proof.Machine.execStrbind q bar race sn ha xa xc k s
  | .cfill q bar race hb xa xb xc k => Sys2Proof.Machine.execCfill q bar race hb xa xb xc k s
  | .cstat q xa xc sel => Sys2Proof.Machine.execCstat q xa xc sel s
  | .ccancel q xc => Sys2Proof.Machine.execCcancel q xc s
  | .ctlread q xc sel => Sys2Proof.Machine.execCtlread q xc sel s
  | .swait arg die => Sys2Proof.Machine.execSwait arg die s
  | .ssig arg die => Sys2Proof.Machine.execSsig arg die s
  | .sset n xb xc die => Sys2Proof.Machine.execSset n xb xc die s
  | .barrArrive h xa xc imm => Sys2Proof.Machine.execBarrArrive h xa xc imm s
  | .barrWait h xa xc imm => Sys2Proof.Machine.execBarrWait h xa xc imm s
  | .barrInit h xa xb xc imm => Sys2Proof.Machine.execBarrInit h xa xb xc imm s
  | .barrReset h xa xc imm => Sys2Proof.Machine.execBarrReset h xa xc imm s
  | .bwait h xa xb xc imm => Sys2Proof.Machine.execBwait h xa xb xc imm s
  | .amo op w acq rel h xa xb xc imm => Sys2Proof.Machine.execAmo op w acq rel h xa xb xc imm s
  | .vamo op w acq rel ret ha hb xa xb xc => Sys2Proof.Machine.execVamo op w acq rel ret ha hb xa xb xc s
  | .fence scope => Sys2Proof.Machine.execFence scope s
  | .fenceTranslation scope xa xb => Sys2Proof.Machine.execFenceTranslation scope xa xb s
  | .tlwait ctx arg => Sys2Proof.Machine.execTlwait ctx arg s
  | .flwait rel h xa xb xc imm => Sys2Proof.Machine.execFlwait rel h xa xb xc imm s
  | .heapalloc xa xc => Sys2Proof.Machine.execHeapalloc xa xc s
  | .heapfree xa => Sys2Proof.Machine.execHeapfree xa s
  | .spawn h xa xc carry imm => Sys2Proof.Machine.execSpawn h xa xc carry imm s
  | .fref xa => Sys2Proof.Machine.execFref xa s
  | .fdrop xa => Sys2Proof.Machine.execFdrop xa s
  | .fget drop xa xc => Sys2Proof.Machine.execFget drop xa xc s
  | .fdone xa => Sys2Proof.Machine.execFdone xa s
  | .rpoint => Sys2Proof.Machine.execRpoint s
  | .tlaunch h xa xc carry imm => Sys2Proof.Machine.execTlaunch h xa xc carry imm s
  | .tarm h xa xb imm => Sys2Proof.Machine.execTarm h xa xb imm s
  | .tcancel xa xc => Sys2Proof.Machine.execTcancel xa xc s
  | .requeue xa xb xc => Sys2Proof.Machine.execRequeue xa xb xc s
  | .yield xa => Sys2Proof.Machine.execYield xa s
  | .gpos xc => Sys2Proof.Machine.execGpos xc s
  | .gang xa xc => Sys2Proof.Machine.execGang xa xc s
  | .tstat sel xa xc => Sys2Proof.Machine.execTstat sel xa xc s
  | .rmst ha hb xa xb xc sig flag => Sys2Proof.Machine.execRmst ha hb xa xb xc sig flag s
  | .rmld ha hb xa xb xc sig => Sys2Proof.Machine.execRmld ha hb xa xb xc sig s
  | .rmamo op w ha hb xa xb xc sig res => Sys2Proof.Machine.execRmamo op w ha hb xa xb xc sig res s
  | .mcst ha hb xa xb xc sig flag => Sys2Proof.Machine.execMcst ha hb xa xb xc sig flag s
  | .mcld op w ha hb xa xb xc sig => Sys2Proof.Machine.execMcld op w ha hb xa xb xc sig s
  | .spred fadd det ha hb xa xb xc sig flag => Sys2Proof.Machine.execSpred fadd det ha hb xa xb xc sig flag s
  | .rfence xc => Sys2Proof.Machine.execRfence xc s
  | .gjoin ha xa xb xc => Sys2Proof.Machine.execGjoin ha xa xb xc s
  | .gleave xb => Sys2Proof.Machine.execGleave xb s
  | .linkst xa xc sel => Sys2Proof.Machine.execLinkst xa xc sel s
  | .lmint ha hd xa xc => Sys2Proof.Machine.execLmint ha hd xa xc s
  | .lseal hd xc => Sys2Proof.Machine.execLseal hd xc s
  | .lrevoke ha xa xb xc imm => Sys2Proof.Machine.execLrevoke ha xa xb xc imm s
  | .lshare ha xa xb xc => Sys2Proof.Machine.execLshare ha xa xb xc s
  | .lrotate xc sig => Sys2Proof.Machine.execLrotate xc sig s
  | .lscrub xc mask => Sys2Proof.Machine.execLscrub xc mask s
  | .lfreeze ha hb xa xc => Sys2Proof.Machine.execLfreeze ha hb xa xc s
  | .lreport ha hb xa xb xc => Sys2Proof.Machine.execLreport ha hb xa xb xc s
  | .ltrans ha xa xc => Sys2Proof.Machine.execLtrans ha xa xc s
  | .lworldState xa xc => Sys2Proof.Machine.execLworldState xa xc s
  | .lworldRoot xa xc => Sys2Proof.Machine.execLworldRoot xa xc s
  | .lworldProgress xa xc => Sys2Proof.Machine.execLworldProgress xa xc s
  | .lworldClock xa xc => Sys2Proof.Machine.execLworldClock xa xc s
  | .lwindowExport ha xa xb xc => Sys2Proof.Machine.execLwindowExport ha xa xb xc s
  | .lwindowImport xa xb xc => Sys2Proof.Machine.execLwindowImport xa xb xc s
  | .lwindowClose xa xb xc => Sys2Proof.Machine.execLwindowClose xa xb xc s
  | .sectionIssue core st => Sys2Proof.Machine.execSectionIssue core st s
  | .hSectionHeader core => Sys2Proof.Machine.execHSectionHeader core s
  | .streamEnd core st => Sys2Proof.Machine.execStreamEnd core st s
  | .groupUnblock core st => Sys2Proof.Machine.execGroupUnblock core st s
  | .stallMonitorExpiry core => Sys2Proof.Machine.execStallMonitorExpiry core s
  | .takeTrap core => Sys2Proof.Machine.execTakeTrap core s
  | .slateFillDone core slot => Sys2Proof.Machine.execSlateFillDone core slot s
  | .codeFill core gran count => Sys2Proof.Machine.execCodeFill core gran count s
  | .sweepAgentMark agent => Sys2Proof.Machine.execSweepAgentMark agent s
  | .copyStart core q n => Sys2Proof.Machine.execCopyStart core q n s
  | .copyBurst core q n => Sys2Proof.Machine.execCopyBurst core q n s
  | .copyComplete core q n => Sys2Proof.Machine.execCopyComplete core q n s
  | .streamElementDeliver core q n => Sys2Proof.Machine.execStreamElementDeliver core q n s
  | .chainCopy core q n => Sys2Proof.Machine.execChainCopy core q n s
  | .chainLoop core q n => Sys2Proof.Machine.execChainLoop core q n s
  | .chainIf core q n => Sys2Proof.Machine.execChainIf core q n s
  | .chainSignal core q n => Sys2Proof.Machine.execChainSignal core q n s
  | .chainMatrix core q n => Sys2Proof.Machine.execChainMatrix core q n s
  | .chainEnd core q n => Sys2Proof.Machine.execChainEnd core q n s
  | .followonAccept core q n => Sys2Proof.Machine.execFollowonAccept core q n s
  | .followonTake core => Sys2Proof.Machine.execFollowonTake core s
  | .waiterWithdraw core st => Sys2Proof.Machine.execWaiterWithdraw core st s
  | .taskPlace die world => Sys2Proof.Machine.execTaskPlace die world s
  | .phaseStart die idx => Sys2Proof.Machine.execPhaseStart die idx s
  | .taskComplete die idx => Sys2Proof.Machine.execTaskComplete die idx s
  | .reclaim die idx => Sys2Proof.Machine.execReclaim die idx s
  | .preempt die idx => Sys2Proof.Machine.execPreempt die idx s
  | .taskRestore die idx => Sys2Proof.Machine.execTaskRestore die idx s
  | .sliceEnd berth => Sys2Proof.Machine.execSliceEnd berth s
  | .gangYield die idx => Sys2Proof.Machine.execGangYield die idx s
  | .sliceStart berth => Sys2Proof.Machine.execSliceStart berth s
  | .overrunStop die idx => Sys2Proof.Machine.execOverrunStop die idx s
  | .worldChangeScrub core world => Sys2Proof.Machine.execWorldChangeScrub core world s
  | .bankDrowsy core bank => Sys2Proof.Machine.execBankDrowsy core bank s
  | .fabricStart core n => Sys2Proof.Machine.execFabricStart core n s
  | .remoteStorePacket id w off total data flag => Sys2Proof.Machine.execRemoteStorePacket id w off total data flag s
  | .remoteLoadRequest id w off len => Sys2Proof.Machine.execRemoteLoadRequest id w off len s
  | .remoteAtomicRequest id w off op wd operand compare => Sys2Proof.Machine.execRemoteAtomicRequest id w off op wd operand compare s
  | .multicastDelivery id w inc off data flag => Sys2Proof.Machine.execMulticastDelivery id w inc off data flag s
  | .multicastLoadRequest id w off len => Sys2Proof.Machine.execMulticastLoadRequest id w off len s
  | .spredPairs id w total pairs fadd det flag => Sys2Proof.Machine.execSpredPairs id w total pairs fadd det flag s
  | .mergeEvict n => Sys2Proof.Machine.execMergeEvict n s
  | .remoteReply core n r => Sys2Proof.Machine.execRemoteReply core n r s
  | .resendTimeout core n => Sys2Proof.Machine.execResendTimeout core n s
  | .laneFail port lane => Sys2Proof.Machine.execLaneFail port lane s
  | .flitRetry port => Sys2Proof.Machine.execFlitRetry port s
  | .keyRatchet port tx => Sys2Proof.Machine.execKeyRatchet port tx s
  | .linkRecovery port => Sys2Proof.Machine.execLinkRecovery port s
  | .linkRecoveryTimeout port => Sys2Proof.Machine.execLinkRecoveryTimeout port s
  | .peerReset dev sameMeasurements => Sys2Proof.Machine.execPeerReset dev sameMeasurements s
  | .getVersion sess => Sys2Proof.Machine.execGetVersion sess s
  | .getCapabilities sess => Sys2Proof.Machine.execGetCapabilities sess s
  | .negotiateAlgorithms sess inSet => Sys2Proof.Machine.execNegotiateAlgorithms sess inSet s
  | .getDigests sess => Sys2Proof.Machine.execGetDigests sess s
  | .getCertificate sess peer key => Sys2Proof.Machine.execGetCertificate sess peer key s
  | .getMeasurements sess policyOk => Sys2Proof.Machine.execGetMeasurements sess policyOk s
  | .keyExchange sess mutAuth sid => Sys2Proof.Machine.execKeyExchange sess mutAuth sid s
  | .finish sess => Sys2Proof.Machine.execFinish sess s
  | .keyUpdate sess => Sys2Proof.Machine.execKeyUpdate sess s
  | .endSession sess => Sys2Proof.Machine.execEndSession sess s
  | .rotationScrubLine world region => Sys2Proof.Machine.execRotationScrubLine world region s
  | .rotationEnd world => Sys2Proof.Machine.execRotationEnd world s
  | .worldDestroy world => Sys2Proof.Machine.execWorldDestroy world s
  | .positionReport => Sys2Proof.Machine.execPositionReport s
  | .lodestarTakeover => Sys2Proof.Machine.execLodestarTakeover s
  | .spdmRelay tdi seqNo msg note => Sys2Proof.Machine.execSpdmRelay tdi seqNo msg note s
  | .create tdi seqNo owners nonce => Sys2Proof.Machine.execCreate tdi seqNo owners nonce s
  | .mbxShare tdi seqNo blob => Sys2Proof.Machine.execMbxShare tdi seqNo blob s
  | .launch tdi seqNo buf => Sys2Proof.Machine.execLaunch tdi seqNo buf s
  | .destroy tdi seqNo world => Sys2Proof.Machine.execDestroy tdi seqNo world s
  | .exportWorld tdi seqNo world => Sys2Proof.Machine.execExportWorld tdi seqNo world s
  | .restore tdi seqNo man => Sys2Proof.Machine.execRestore tdi seqNo man s
  | .report tdi seqNo world nonce owner => Sys2Proof.Machine.execReport tdi seqNo world nonce owner s
  | .lockInterface tdi => Sys2Proof.Machine.execLockInterface tdi s
  | .startInterface tdi => Sys2Proof.Machine.execStartInterface tdi s
  | .stopInterface tdi => Sys2Proof.Machine.execStopInterface tdi s
  | .tdiError tdi => Sys2Proof.Machine.execTdiError tdi s
  | .berthDescriptorWrite berth desc => Sys2Proof.Machine.execBerthDescriptorWrite berth desc s
  | .fabricIdWrite id => Sys2Proof.Machine.execFabricIdWrite id s
  | .errstatClear fn mask => Sys2Proof.Machine.execErrstatClear fn mask s
  | .registerWrite fn reg value => Sys2Proof.Machine.execRegisterWrite fn reg value s
  | .functionLevelReset fn => Sys2Proof.Machine.execFunctionLevelReset fn s
  | .deviceReset => Sys2Proof.Machine.execDeviceReset s
  | .powerGood failedStage banks units => Sys2Proof.Machine.execPowerGood failedStage banks units s
  | .portTrain port => Sys2Proof.Machine.execPortTrain port s
  | .lendCluster cluster berth => Sys2Proof.Machine.execLendCluster cluster berth s
  | .demandReturn cluster => Sys2Proof.Machine.execDemandReturn cluster s
  | .lendReturnTimeout cluster => Sys2Proof.Machine.execLendReturnTimeout cluster s
  | .unitRetire u why => Sys2Proof.Machine.execUnitRetire u why s
  | .hbmRetire berth line stack => Sys2Proof.Machine.execHbmRetire berth line stack s
  | .unitFence u => Sys2Proof.Machine.execUnitFence u s
  | .powerLimit => Sys2Proof.Machine.execPowerLimit s
  | .powerRelax => Sys2Proof.Machine.execPowerRelax s
  | .thermalAlarm => Sys2Proof.Machine.execThermalAlarm s
  | .thermalShutdown => Sys2Proof.Machine.execThermalShutdown s
  | .waitiDeadline core => Sys2Proof.Machine.execWaitiDeadline core s
  | .bucketRefill core => Sys2Proof.Machine.execBucketRefill core s
  | .arrayPassComplete core => Sys2Proof.Machine.execArrayPassComplete core s
  | .packetForward port what => Sys2Proof.Machine.execPacketForward port what s
  | .windowOpenQuery q => Sys2Proof.Machine.execWindowOpenQuery q s
  | .voltageAlarm => Sys2Proof.Machine.execVoltageAlarm s
  | .clockAlarm => Sys2Proof.Machine.execClockAlarm s
  | .powerLoss => Sys2Proof.Machine.execPowerLoss s
  | .endingScrubComplete world => Sys2Proof.Machine.execEndingScrubComplete world s
  | .freshScrubComplete berth => Sys2Proof.Machine.execFreshScrubComplete berth s

end Sys2Proof.Machine
end

