-- ==== Sys2Proof/Machine/Turns.lean ====
section
/-! DEFINITION. Helpers of the step: which syntax is an event, the passing of time, one turn, and the placing of a word
where the next step fetches it (log 1, log 3, log 6). -/
namespace Sys2Proof.Machine

/-- The rows of the opcode table that are events of an agent or of the outside, not words of a stream. -/
def isEvent (i : Instr) : Bool :=
  match i with
  | .sectionIssue .. | .hSectionHeader .. | .streamEnd .. | .groupUnblock .. | .stallMonitorExpiry .. | .takeTrap ..
  | .slateFillDone .. | .codeFill .. | .sweepAgentMark .. | .copyStart .. | .copyBurst .. | .copyComplete ..
  | .streamElementDeliver .. | .chainCopy .. | .chainLoop .. | .chainIf .. | .chainSignal .. | .chainMatrix ..
  | .chainEnd .. | .followonAccept .. | .followonTake .. | .waiterWithdraw .. | .taskPlace .. | .phaseStart ..
  | .taskComplete .. | .reclaim .. | .preempt .. | .taskRestore .. | .sliceEnd .. | .gangYield .. | .sliceStart ..
  | .overrunStop .. | .worldChangeScrub .. | .bankDrowsy .. | .fabricStart .. | .remoteStorePacket ..
  | .remoteLoadRequest .. | .remoteAtomicRequest .. | .multicastDelivery .. | .multicastLoadRequest ..
  | .spredPairs .. | .mergeEvict .. | .remoteReply .. | .resendTimeout .. | .laneFail .. | .flitRetry ..
  | .keyRatchet .. | .linkRecovery .. | .linkRecoveryTimeout .. | .peerReset .. | .getVersion .. | .getCapabilities ..
  | .negotiateAlgorithms .. | .getDigests .. | .getCertificate .. | .getMeasurements .. | .keyExchange .. | .finish ..
  | .keyUpdate .. | .endSession .. | .rotationScrubLine .. | .rotationEnd .. | .worldDestroy .. | .positionReport
  | .lodestarTakeover | .spdmRelay .. | .create .. | .mbxShare .. | .launch .. | .destroy .. | .exportWorld ..
  | .restore .. | .report .. | .lockInterface .. | .startInterface .. | .stopInterface .. | .tdiError ..
  | .berthDescriptorWrite .. | .fabricIdWrite .. | .errstatClear .. | .registerWrite .. | .functionLevelReset ..
  | .deviceReset | .powerGood .. | .portTrain .. | .lendCluster .. | .demandReturn .. | .lendReturnTimeout ..
  | .unitRetire .. | .hbmRetire .. | .unitFence .. | .powerLimit | .powerRelax | .thermalAlarm | .thermalShutdown
  | .waitiDeadline .. | .bucketRefill .. | .arrayPassComplete .. | .packetForward .. | .windowOpenQuery ..
  | .voltageAlarm | .clockAlarm | .powerLoss | .endingScrubComplete .. | .freshScrubComplete .. => true
  | _ => false

/-- Time passes with a step, by an amount that nothing fixes (log 3); pairs that routers have held too long go on (R352). -/
def State.advance (s : State) : State := State.agePairs { s with now := s.now + Config.elapsed s.fresh, fresh := s.fresh + 1 }

/-- One turn of the stream that is served. -/
def serve (ex : Instr → State → Out3) (s : State) : Out3 :=
  match s.curSt with
  | .h => helmTurn ex (State.prepare s.cur .h) s.cur s
  | .l => streamTurn ex (State.prepare s.cur .l) s.cur .l s
  | .s => streamTurn ex (State.prepare s.cur .s) s.cur .s s
  | .v => streamTurn ex (State.prepare s.cur .v) s.cur .v s
  | .m => streamTurn ex (State.prepare s.cur .m) s.cur .m s

/-- One turn of the schedule: its oldest entry, or the stream last served again. -/
def turn (ex : Instr → State → Out3) (s : State) : Out3 :=
  match s.agenda with
  | [] => serve ex s
  | .stream c st :: rest => serve ex { s with agenda := rest, cur := c, curSt := st }
  | .event e :: rest => if isEvent e then ex e { s with agenda := rest } else .next { s with agenda := rest }

/-- A code handle that reaches all of instruction memory, for a core in which a word is placed (log 6). -/
def probeCode (h : Handle) : Handle := { h with format := 1, rights := h.rights ||| 0x10, length := 196608, revoked := false }

/-- A core that runs, with its code handle reaching the word placed. -/
def probeCore (k : Core) (pc : Nat) : Core :=
  { k with hrun := .running, pend := [], absent := [], h := tabSet k.h 2 (probeCode k.code), filled := (pc, 3) :: k.filled }

/-- Place a word at the pc of the stream that owns it, in the core being served, so that the next step runs it. -/
def placeWord (s : State) (w : Word96) : State :=
  let st := ownerOf w
  let v := s.strm s.cur st
  let pc := if v.pc.toNat + 3 ≤ 49152 then v.pc else 0
  let v := { v with run := .running, pc := pc, grp := none, wait := none, blocked := none, sec := if st = .h then v.sec else some (pc.toNat + 3) }
  let k := (probeCore s.me pc.toNat).setStrm st v
  { s.setMe k with
    power := true, agenda := [], curSt := st
    ecc2 := s.ecc2.filter fun w => decide (8 * w + 8 ≤ imemKey s.cur (4 * pc.toNat)) || decide (imemKey s.cur (4 * pc.toNat + 12) ≤ 8 * w)
    mem := memPuts s.mem ((upFrom (imemKey s.cur (4 * pc.toNat)) 12).zip (bytesOf 12 w.toNat)) }

end Sys2Proof.Machine
end

