-- ==== Sys2Proof/Machine/Step.lean ====
section
/-! DEFINITION. One step of the package, and the placing of a word where the next step fetches it. -/
namespace Sys2Proof.Machine

/-- One step: time passes, then the schedule's next turn. Without power only POWER_GOOD does anything (R413, R421). -/
def step (s : State) : Host.Outcome State Fault Refusal :=
  if s.power then turn exec s.advance
  else
    match s.agenda with
    | .event (.powerGood n banks units) :: rest => exec (.powerGood n banks units) { s with agenda := rest }
    | _ => .fault .poweredDown

/-- The state with a word, its bits numbered from its first granule, placed where the next step fetches it (log 6). -/
def State.withFetchWord (s : State) (_nbits w : Nat) : State := placeWord s (BitVec.ofNat 96 w)

end Sys2Proof.Machine
end

