-- ==== Sys2Proof/Safety.lean ====
section
/-! DEFINITION. What counts as a sound state, and the terms in which statements are made. -/
namespace Sys2Proof.Machine

/-- Memory.wf: the byte memory is in canonical form. -/
def Memory.wf (m : Tab Byte) : Bool := memCanon m

/-- The memory of a state is in canonical form. -/
def State.memWf (s : State) : Bool := Memory.wf s.mem

/-- The Helm of the core served retires an item: its core becomes `k`, its pc moves by `d` granules, and it has made progress. -/
def State.retired (s : State) (k : Core) (pc : BitVec 16) : State :=
  s.setMe { k with progress := s.now, hs := { k.hs with pc := pc } }

/-- A Helm instruction faults at its pc: it has no effect, a wait it was in is over, and the trap is taken (R127, R129). -/
def State.helmFault (s : State) (f : Flt) : State :=
  (s.modStrm s.cur .h fun v => { v with wait := none }).takeTrap s.cur f .h s.me.hs.pc 0

/-- The guard of a format H instruction (R49). -/
def guardOf : Instr → Option CReg
  | .add c _ _ _ | .addi c _ _ _ | .sub c _ _ _ | .mul c _ _ _ | .mulh c _ _ _ | .mulhn c _ _ _ | .div c _ _ _
  | .divn c _ _ _ | .rem c _ _ _ | .remn c _ _ _ | .and c _ _ _ | .andi c _ _ _ | .or c _ _ _ | .ori c _ _ _
  | .xor c _ _ _ | .xori c _ _ _ | .shl c _ _ _ | .shr c _ _ _ | .sra c _ _ _ | .min c _ _ _ _ | .max c _ _ _ _
  | .clz c _ _ | .movi c _ _ | .cmp c _ _ _ _ | .cmpi c _ _ _ _ | .ccomb c _ _ _ _ | .slate c _ _ | .slatex c _ _
  | .cut c _ | .cutl c _ _ | .bsel c _ _ _ _ | .slinv c _ | .slinvAll c | .ld c _ _ _ _ _ _ _ | .st c _ _ _ _ _ _ _
  | .hld c _ _ _ _ _ _ | .hst c _ _ _ _ _ _ | .hnarrow c _ _ _ _ _ _ | .hmov c _ _ | .hget c _ _ _ | .hclr c _
  | .hchk c _ _ _ _ _ | .fork c _ | .join c | .joinAbandon c | .qmap c _ | .oqsend c _ _ _ | .halt c | .trap c _
  | .tret c | .csrr c _ _ | .csrw c _ _ | .brk c _ | .waiti c _ | .nop c => some c
  | _ => none

/-- What a word of a group leaves: its latch joins the group, which commits with its last word (R15, R45). -/
def State.wordDone (s : State) (ctl : Ctl) (g : Grp) (lat : Option Vec) : State :=
  let g := { g with lats := g.lats ++ [lat] }
  if ctl.g then s.finishGroup s.cur s.curSt g else s.setStrm s.cur s.curSt { s.me.strm s.curSt with grp := some g }

/-- The stream that is served, and the group it has open. -/
def State.served (s : State) : StreamSt := s.me.strm s.curSt
def State.inGroup (s : State) (g : Grp) : Prop := s.served.grp = some g

/-- Element j of size e of a vector (R188). -/
def lane (v : Vec) (e j : Nat) : Nat := elemOf v.toNat e j

/-- Is element j of size e active: under the word's predicate, inverted where asked, and the mask-stack top (R205)? -/
def activeAt (k : Core) (p : PSel) (e j : Nat) : Bool :=
  ((k.getK p.k.toNat).getLsbD (j * e) != p.neg) && (k.mask.headD allTrue).getLsbD (j * e)

/-- The entries that a group's staged effects push on a vector queue at a time, in order (R15, R193, R200). -/
def entriesOn (q now : Nat) (es : List Eff) : List VEnt :=
  es.filterMap fun e =>
    match e with
    | .push p v short => if p = q then some ⟨v, short, now, false⟩ else none
    | _ => none

/-- A tile's bytes and full bit after a group's staged effects, in order (R15, R166, R172). -/
def tileAfter (n : Nat) (es : List Eff) (old : TileBits × Bool) : TileBits × Bool :=
  es.foldl (fun x e =>
    match e with
    | .tile t bits => if t = n then (bits, true) else x
    | .tileState t full => if t = n then (x.1, full) else x
    | _ => x) old

/-- A predicate register after a group's staged effects; k0 always reads all true (R204). -/
def predAfter (n : Nat) (es : List Eff) (old : Pred) : Pred :=
  if n = 0 then allTrue
  else
    es.foldl (fun x e =>
      match e with
      | .pred m v => if m = n then v else x
      | _ => x) old

/-- The column and row edges after a group's staged effects (R173). -/
def edgesAfter (es : List Eff) (old : Nat × Nat) : Nat × Nat :=
  es.foldl (fun x e =>
    match e with
    | .cedge n => (n, x.2)
    | .redge n => (x.1, n)
    | _ => x) old

/-- The bytes that a group's staged effects write, in order (R15). -/
def bytesStored (es : List Eff) : List (Nat × Byte) :=
  es.flatMap fun e =>
    match e with
    | .write bs => bs
    | _ => []

/-- The mask stack after a group's mask words (R206). -/
def maskAfter : List Eff → List Pred → List Pred
  | [], m => m
  | .mpush v :: t, m => maskAfter t ((m.headD allTrue &&& v) :: m)
  | .minv :: t, x :: m => maskAfter t ((m.headD allTrue &&& ~~~x) :: m)
  | .mpop :: t, m => maskAfter t (m.drop 1)
  | _ :: t, m => maskAfter t m

/-- The granule after a group's last word. -/
def Grp.after (g : Grp) : BitVec 16 := g.start + BitVec.ofNat 16 (3 * g.lats.length)

/-- Do the last checks of a group's commit hold: no level is left open, no queue overfills, the mask stack keeps its depth, and no later
stream has changed one of its queues or tiles in this cycle (R16, R180, R193, R206)? -/
def Core.mayCommit (k : Core) (now : Nat) (st : Stream) (g : Grp) : Prop :=
  k.tooLate now st g = false ∧ (k.strm st).leavesOpen g.after = false ∧ k.overfull g = none ∧ maskFault g.effs k.mask.length = none

/-- What the commit of a group of a stream leaves of a core's engines, memory and registers: every staged effect in order and nothing
else (R15, R166, R193, R201, R206). -/
def State.committed (s t : State) (c : Nat) (st : Stream) (g : Grp) : Prop :=
  let k := s.core c
  let k' := t.core c
  let v := k.strm st
  let v' := k'.strm st
  (∀ q, k'.vqueue q = (k.vqueue q).drop (g.pops.count q) ++ entriesOn q s.now g.effs) ∧
  (∀ n, k'.srq n = (k.srq n).drop (g.spops.count n)) ∧
  (∀ q, v'.oqs.getD q [] = (v.oqs.getD q []).drop (g.opops.count q)) ∧
  (∀ n, ((k'.tile n).bits, (k'.tile n).full) = tileAfter n g.effs ((k.tile n).bits, (k.tile n).full) ∧ (k'.tile n).held = (k.tile n).held) ∧
  (∀ n, k'.getK n = predAfter n g.effs (k.getK n)) ∧ k'.mask = maskAfter g.effs k.mask ∧
  (v'.cedge, v'.redge) = edgesAfter g.effs (v.cedge, v.redge) ∧ v'.pc = g.after ∧ v'.grp = none ∧ v'.levels = v.levels ∧
  t.mem = memPuts s.mem (bytesStored g.effs) ∧ (∀ a, a ∉ (bytesStored g.effs).map (·.1) → memGet t.mem a = memGet s.mem a) ∧
  t.sectors = g.tab.getD s.sectors ∧
  k'.x = k.x ∧ k'.c = k.c ∧ k'.h = k.h ∧ k'.status = k.status ∧ k'.hs.pc = k.hs.pc ∧ k'.pend = k.pend ∧
  (∀ st', st' ≠ st → (k'.strm st').oqs = (k.strm st').oqs ∧ (k'.strm st').pc = (k.strm st').pc ∧ (k'.strm st').run = (k.strm st').run)

end Sys2Proof.Machine
end

