-- ==== Sys2Proof/Certificates/Slice0/Obligations.lean ====
section
/-! DEFINITION. The statements for the provers. -/

open Sys2Proof Sys2Proof.Machine

/-- R113: x0 reads zero and c7 reads true in every state, and a write to either leaves the core as it was; every other
register reads what was last written to it, and no other register changes. -/
def Claims.HardwiredRegisters : Prop :=
  ∀ (k : Core) (r q : XReg) (v : X64) (c d : CReg) (b : Bool),
    k.getX 0 = 0 ∧ k.getC 7 = true ∧ k.setX 0 v = k ∧ k.setC 7 b = k ∧
      (r ≠ 0 → (k.setX r v).getX r = v) ∧ (q ≠ r → (k.setX r v).getX q = k.getX q) ∧
      (c ≠ 7 → (k.setC c b).getC c = b) ∧ (d ≠ c → (k.setC c b).getC d = k.getC d)

/-- R49: a format H instruction whose guard register is false retires with no effect but the advance of the program
counter (and the progress that the stall monitor sees, R22); it raises no fault. -/
def Claims.FalseGuardRetires : Prop :=
  ∀ (i : Instr) (c : CReg) (s : State), guardOf i = some c → s.me.getC c = false →
    exec i s = .next (s.retired s.me (s.me.hs.pc + 3))

/-- R133, Table 5.9: the result of each operation of two registers or of a register and the sign-extended immediate goes to
xd, the pc moves past the word, and nothing else changes (a write to x0 changes no register, R113). -/
def Claims.IntegerResults : Prop :=
  ∀ (c : CReg) (xd xa xb : XReg) (imm : BitVec 48) (s : State), s.me.getC c = true →
    let a := s.me.getX xa
    let b := s.me.getX xb
    let i := imm.signExtend 64
    let put (v : X64) : Host.Outcome State Fault Refusal := .next (s.retired (s.me.setX xd v) (s.me.hs.pc + 3))
    exec (.add c xd xa xb) s = put (a + b) ∧ exec (.addi c xd xa imm) s = put (a + i) ∧
    exec (.sub c xd xa xb) s = put (a - b) ∧ exec (.mul c xd xa xb) s = put (a * b) ∧
    exec (.and c xd xa xb) s = put (a &&& b) ∧ exec (.andi c xd xa imm) s = put (a &&& i) ∧
    exec (.or c xd xa xb) s = put (a ||| b) ∧ exec (.ori c xd xa imm) s = put (a ||| i) ∧
    exec (.xor c xd xa xb) s = put (a ^^^ b) ∧ exec (.xori c xd xa imm) s = put (a ^^^ i) ∧
    exec (.movi c xd imm) s = put i ∧
    exec (.min c false xd xa xb) s = put (if a.toInt ≤ b.toInt then a else b) ∧
    exec (.min c true xd xa xb) s = put (if a.toNat ≤ b.toNat then a else b) ∧
    exec (.max c false xd xa xb) s = put (if a.toInt ≤ b.toInt then b else a) ∧
    exec (.max c true xd xa xb) s = put (if a.toNat ≤ b.toNat then b else a)

/-- R133: MULH and MULHN write the high 64 bits of the 128-bit product, signed or natural. -/
def Claims.HighProducts : Prop :=
  ∀ (c : CReg) (xd xa xb : XReg) (s : State), s.me.getC c = true →
    let a := s.me.getX xa
    let b := s.me.getX xb
    let put (v : X64) : Host.Outcome State Fault Refusal := .next (s.retired (s.me.setX xd v) (s.me.hs.pc + 3))
    exec (.mulh c xd xa xb) s = put ((a.signExtend 128 * b.signExtend 128).extractLsb' 64 64) ∧
    exec (.mulhn c xd xa xb) s = put ((a.setWidth 128 * b.setWidth 128).extractLsb' 64 64)

/-- R133: the shifts by b[5:0] or imm[5:0], and CLZ, whose result n is 64 for zero and otherwise puts a between 2^(63-n) and
2^(64-n). -/
def Claims.ShiftsAndLeadingZeros : Prop :=
  ∀ (c : CReg) (xd xa xb : XReg) (n : BitVec 6) (s : State), s.me.getC c = true →
    let a := s.me.getX xa
    let m := (s.me.getX xb).toNat % 64
    let put (v : X64) : Host.Outcome State Fault Refusal := .next (s.retired (s.me.setX xd v) (s.me.hs.pc + 3))
    exec (.shl c xd xa (.reg xb)) s = put (a <<< m) ∧ exec (.shl c xd xa (.imm n)) s = put (a <<< n.toNat) ∧
    exec (.shr c xd xa (.reg xb)) s = put (a >>> m) ∧ exec (.shr c xd xa (.imm n)) s = put (a >>> n.toNat) ∧
    exec (.sra c xd xa (.reg xb)) s = put (a.sshiftRight m) ∧ exec (.sra c xd xa (.imm n)) s = put (a.sshiftRight n.toNat) ∧
    ∃ z : Nat, exec (.clz c xd xa) s = put (BitVec.ofNat 64 z) ∧
      (a = 0 → z = 64) ∧ (a ≠ 0 → z < 64 ∧ 2 ^ (63 - z) ≤ a.toNat ∧ a.toNat < 2 ^ (64 - z))

/-- R134: a zero divisor raises ARITH with subcode 0 and value 0 at the word, xd unwritten; otherwise quotient and remainder
are those of division toward zero, and -2^63 by -1 gives -2^63 and 0. -/
def Claims.DivisionResults : Prop :=
  ∀ (c : CReg) (xd xa xb : XReg) (s : State), s.me.getC c = true →
    let a := s.me.getX xa
    let b := s.me.getX xb
    let put (v : X64) : Host.Outcome State Fault Refusal := .next (s.retired (s.me.setX xd v) (s.me.hs.pc + 3))
    (b = 0 → ∀ i ∈ [Instr.div c xd xa xb, .divn c xd xa xb, .rem c xd xa xb, .remn c xd xa xb],
      exec i s = .next (s.helmFault ⟨.arith, 0, 0⟩)) ∧
    (b ≠ 0 →
      exec (.div c xd xa xb) s = put (BitVec.ofInt 64 (a.toInt.tdiv b.toInt)) ∧
      exec (.divn c xd xa xb) s = put (BitVec.ofNat 64 (a.toNat / b.toNat)) ∧
      exec (.rem c xd xa xb) s = put (BitVec.ofInt 64 (a.toInt.tmod b.toInt)) ∧
      exec (.remn c xd xa xb) s = put (BitVec.ofNat 64 (a.toNat % b.toNat))) ∧
    (a = 0x8000000000000000 → b = 0xFFFFFFFFFFFFFFFF →
      exec (.div c xd xa xb) s = put 0x8000000000000000 ∧ exec (.rem c xd xa xb) s = put 0)

/-- R135: CMP and CMPI write cd with the relation of Table 5.10, CCOMB with the combination; a write to c7 is discarded. -/
def Claims.ConditionResults : Prop :=
  ∀ (c cd ca cb : CReg) (xa xb : XReg) (imm : BitVec 48) (s : State), s.me.getC c = true →
    let a := s.me.getX xa
    let b := s.me.getX xb
    let i := imm.signExtend 64
    let p := s.me.getC ca
    let q := s.me.getC cb
    let put (v : Bool) : Host.Outcome State Fault Refusal := .next (s.retired (s.me.setC cd v) (s.me.hs.pc + 3))
    exec (.cmp c .eq cd xa xb) s = put (decide (a = b)) ∧ exec (.cmpi c .eq cd xa imm) s = put (decide (a = i)) ∧
    exec (.cmp c .ne cd xa xb) s = put (decide (a ≠ b)) ∧ exec (.cmpi c .ne cd xa imm) s = put (decide (a ≠ i)) ∧
    exec (.cmp c .lt cd xa xb) s = put (decide (a.toInt < b.toInt)) ∧
    exec (.cmpi c .lt cd xa imm) s = put (decide (a.toInt < i.toInt)) ∧
    exec (.cmp c .ge cd xa xb) s = put (decide (b.toInt ≤ a.toInt)) ∧
    exec (.cmpi c .ge cd xa imm) s = put (decide (i.toInt ≤ a.toInt)) ∧
    exec (.cmp c .ltn cd xa xb) s = put (decide (a.toNat < b.toNat)) ∧
    exec (.cmpi c .ltn cd xa imm) s = put (decide (a.toNat < i.toNat)) ∧
    exec (.cmp c .gen cd xa xb) s = put (decide (b.toNat ≤ a.toNat)) ∧
    exec (.cmpi c .gen cd xa imm) s = put (decide (i.toNat ≤ a.toNat)) ∧
    exec (.ccomb c .and cd ca cb) s = put (p && q) ∧ exec (.ccomb c .or cd ca cb) s = put (p || q) ∧
    exec (.ccomb c .xor cd ca cb) s = put (p ^^ q) ∧ exec (.ccomb c .andn cd ca cb) s = put (p && !q) ∧
    exec (.ccomb c .orn cd ca cb) s = put (p || !q) ∧
    ∀ w : Word96, w.extractLsb' 88 8 = 0x1A → w.extractLsb' 82 6 = 5 → decodeWord .h w = .illegal

/-- R136: SLATE and SLATEX set the target and the valid bit and start the fill, or raise HANDLE_BOUNDS with the target where it
lies outside the code handle; the register is then unchanged. -/
def Claims.SlateSetsTarget : Prop :=
  ∀ (c : CReg) (b : BReg) (imm : BitVec 48) (xa : XReg) (s : State), s.me.getC c = true →
    let rel : Int := s.me.hs.pc.toNat + imm.toInt
    let abs : Int := (s.me.getX xa).toNat
    let inside (t : Int) : Prop := 0 ≤ t ∧ t + 3 ≤ codeLenOf s.me.code
    let slated (t : Int) : State :=
      s.retired (s.me.setSlate b ⟨BitVec.ofNat 16 t.toNat, true, .filling⟩) (s.me.hs.pc + 3)
    (inside rel → exec (.slate c b imm) s = .next (slated rel)) ∧
    (¬ inside rel → exec (.slate c b imm) s = .next (s.helmFault ⟨.handleBounds, 0, BitVec.ofInt 64 rel⟩)) ∧
    (inside abs → exec (.slatex c b xa) s = .next (slated abs)) ∧
    (¬ inside abs → exec (.slatex c b xa) s = .next (s.helmFault ⟨.handleBounds, 0, BitVec.ofInt 64 abs⟩))

/-- R137, R138, R141: a true CUT transfers to the target of a valid register and keeps target and valid bit, CUTL also slates its
link register to the granule after it, and either raises UNSLATED with the register's number where the valid bit is 0;
SLINV clears the valid bit of one register or of all eight of the current mode and never faults. -/
def Claims.CutTransfers : Prop :=
  ∀ (c : CReg) (b bl : BReg) (s : State), s.me.getC c = true → s.me.slates.length = 10 →
    let v := s.me.slate b
    let kept (k : Core) : Core := k.setSlate b (if v.buf = .empty then { v with buf := .filling } else v)
    (v.valid = true →
      exec (.cut c b) s = .next (s.retired (kept s.me) v.target) ∧
      exec (.cutl c b bl) s =
        .next (s.retired ((kept s.me).setSlate bl ⟨BitVec.ofNat 16 (s.me.hs.pc.toNat + 3), true, .filling⟩) v.target)) ∧
    (v.valid = false → ∀ i ∈ [Instr.cut c b, .cutl c b bl],
      exec i s = .next (s.helmFault ⟨.unslated, 0, b.setWidth 64⟩)) ∧
    exec (.slinv c b) s = .next (s.retired (s.me.setSlate b { v with valid := false, buf := .empty }) (s.me.hs.pc + 3)) ∧
    ∃ k : Core, exec (.slinvAll c) s = .next (s.retired k (s.me.hs.pc + 3)) ∧
      (∀ r : BReg, k.slate r = { s.me.slate r with valid := false, buf := .empty }) ∧
      (∀ j, (∀ r : BReg, s.me.slateIx r ≠ j) → k.slates[j]? = s.me.slates[j]?) ∧ k = { s.me with slates := k.slates }

/-- R140: BSEL over a table in instruction memory selects the least bucket whose size reaches the dimension, slates the register to its
target, and writes the size, PADM.PAD and PADM.EDGE. The table is present, free of errors (R417) and well formed; `size j` and `target j`
are its granules. -/
def Claims.BselSelectsLeastBucket : Prop :=
  ∀ (c : CReg) (b : BReg) (xd xa : XReg) (imm : BitVec 48) (s : State) (t n i : Nat), s.me.getC c = true →
    let d := (s.me.getX xa).toNat
    let size (j : Nat) : Nat := s.gran s.cur (t + 1 + 2 * j)
    let target (j : Nat) : Nat := s.gran s.cur (t + 2 + 2 * j)
    (s.me.hs.pc.toNat : Int) + imm.toInt = t → s.gran s.cur t = n → 1 ≤ n → n ≤ 16 →
    t + 1 + 2 * n ≤ codeLenOf s.me.code → s.ecc2 = [] → (∀ g, t ≤ g → g < t + 1 + 2 * n → s.me.hasGran g = true) →
    i < n → d ≤ size i → (∀ j < i, size j < d) → (0 < i → size (i - 1) < size i) → target i + 3 ≤ codeLenOf s.me.code →
    exec (.bsel c b xd xa imm) s =
      .next (s.retired
        { (s.me.setSlate b ⟨BitVec.ofNat 16 (target i), true, .filling⟩).setX xd (BitVec.ofNat 64 (size i)) with
          padm := BitVec.ofNat 64 ((size i - d) % 2 ^ 32 * 2 ^ 32 + (if d = 0 then 0 else (d - 1) % 128 + 1)) }
        (s.me.hs.pc + 3))

/-- R140: BSEL raises HANDLE_BOUNDS for a table or a target outside the code handle (its ETVAL free, log 16), ARITH with subcode 1 and the
table's granule for a count of 0 or above 16 or reserved bits, and with subcode 2 and the dimension for one beyond the last bucket. The
granules of the table that it reads are present and free of errors. -/
def Claims.BselFaults : Prop :=
  ∀ (c : CReg) (b : BReg) (xd xa : XReg) (imm : BitVec 48) (s : State) (t n i : Nat), s.me.getC c = true → s.ecc2 = [] →
    let d := (s.me.getX xa).toNat
    let len := codeLenOf s.me.code
    let size (j : Nat) : Nat := s.gran s.cur (t + 1 + 2 * j)
    let target (j : Nat) : Nat := s.gran s.cur (t + 2 + 2 * j)
    let pos : Int := s.me.hs.pc.toNat + imm.toInt
    let traps (code : Code) (sub : Nat) (v : X64) : Prop := exec (.bsel c b xd xa imm) s = .next (s.helmFault ⟨code, sub, v⟩)
    let present (m : Nat) : Prop := ∀ g, t ≤ g → g < t + m → s.me.hasGran g = true
    (pos < 0 ∨ (len : Int) < pos + 1 → ∃ v, traps .handleBounds 0 v) ∧
    (pos = t → t + 1 ≤ len → present 1 →
      (s.gran s.cur t % 256 = 0 ∨ 16 < s.gran s.cur t % 256 ∨ s.gran s.cur t / 256 ≠ 0 → traps .arith 1 (BitVec.ofNat 64 t)) ∧
      (s.gran s.cur t = n → 1 ≤ n → n ≤ 16 →
        (len < t + 1 + 2 * n → ∃ v, traps .handleBounds 0 v) ∧
        (t + 1 + 2 * n ≤ len → present (1 + 2 * n) →
          ((∀ j < n, size j < d) → traps .arith 2 (BitVec.ofNat 64 d)) ∧
          (i < n → d ≤ size i → (∀ j < i, size j < d) → len < target i + 3 → ∃ v, traps .handleBounds 0 v))))

/-- R84, R167: the checks of an access in the order of CheckAccess up to ALIGN, each with its value. The first that fails decides;
HANDLE_BOUNDS tells the lowest byte that lies outside the handle or the scratchpads that the accessor reaches. -/
def Claims.AccessChecksInOrder : Prop :=
  ∀ (s : State) (a : Acc) (h : Handle) (off : Int) (size : Nat) (k : Kind) (align : Nat) (formats : List Nat),
    let va : Int := h.base.toNat + off
    let at_ : X64 := BitVec.ofInt 64 va
    let fails (c : Code) (v : X64) : Prop := s.check a h off size k align formats = .error ⟨c, 0, v⟩
    let right : Bool := match k with
      | .load => h.rights.getLsbD 7
      | .store => h.rights.getLsbD 6 && !h.rights.getLsbD 1
      | .atomic => h.rights.getLsbD 5 && !h.rights.getLsbD 1
      | .fetch => h.rights.getLsbD 4
    (h.format = 0 → fails .handleRights at_) ∧
    (h.format ≠ 0 → h.revoked = true → fails .handleRevoked at_) ∧
    (h.format ≠ 0 → h.revoked = false → h.world.toNat ≠ a.world → fails .handleWorld at_) ∧
    (h.format ≠ 0 → h.revoked = false → h.world.toNat = a.world →
      (h.format.toNat ∉ formats → fails .handleRights at_) ∧
      (h.format.toNat ∈ formats → right = false → fails .handleRights at_) ∧
      (h.format.toNat ∈ formats → right = true →
        (off < 0 → fails .handleBounds at_) ∧
        (0 ≤ off → (h.length.toNat : Int) < off + size → (h.length.toNat : Int) ≤ off → fails .handleBounds at_) ∧
        (0 ≤ off → (h.length.toNat : Int) < off + size → off < h.length.toNat →
          (h.format ≠ 2 → fails .handleBounds (BitVec.ofInt 64 (h.base.toNat + h.length.toNat))) ∧
          (h.format = 2 → va < a.lo ∨ (a.hi : Int) ≤ va → fails .handleBounds at_) ∧
          (h.format = 2 → (a.lo : Int) ≤ va → va < a.hi →
            fails .handleBounds (BitVec.ofInt 64 (min ((h.base.toNat + h.length.toNat : Nat) : Int) a.hi)))) ∧
        (0 ≤ off → off + size ≤ h.length.toNat →
          (h.format = 2 → 0 < size → va < a.lo ∨ (a.hi : Int) ≤ va → fails .handleBounds at_) ∧
          (h.format = 2 → (a.lo : Int) ≤ va → va < a.hi → (a.hi : Int) < va + size →
            fails .handleBounds (BitVec.ofNat 64 a.hi)) ∧
          ((h.format = 2 → (a.lo : Int) ≤ va ∧ va + size ≤ a.hi) →
            (h.format = 1 ∨ h.format = 3 → va + size ≤ (2 : Int) ^ 57) → va % align ≠ 0 → fails .align at_))))

/-- R84, R85: an access through a scratchpad handle of the accessor's world with the right, within the handle and within the
scratchpads the accessor reaches, aligned, and with no line that fails its read, passes; its bytes lie at the package scratchpad
address base + offset. -/
def Claims.ScratchpadAccessPasses : Prop :=
  ∀ (s : State) (a : Acc) (h : Handle) (off size : Nat) (k : Kind) (align : Nat) (formats : List Nat),
    let va : Nat := h.base.toNat + off
    h.format = 2 → h.revoked = false → h.world.toNat = a.world → 2 ∈ formats → h.hasRights k = true →
    off + size ≤ h.length.toNat → a.lo ≤ va → va + size ≤ a.hi → va % align = 0 → 0 < size → s.ecc2 = [] →
    s.check a h off size k align formats = .ok [⟨va, scrKey va, size⟩]

/-- R84, R88 to R91, R96: an access through a handle of format 1 or 3 that passes the checks up to ALIGN is translated by the world's page
tree. `tables` are the tables that its walk has come by, the root first; what the entry of the last one says decides: each malformed, invalid
or outlying entry raises TRANSLATION with its subcode, a leaf that forbids the kind of access with 1 or 2, and a leaf inside the share places
the bytes. A read of a line whose tag fails, or a write of less than the line, raises INTEGRITY. Stated of an access within one page of 4 KiB
for which no TLB holds an entry. That INTEGRITY of an entry's line reports that line's address is the model's choice (log 29). -/
def Claims.TranslatedAccess : Prop :=
  ∀ (s : State) (a : Acc) (h : Handle) (off size : Nat) (k : Kind) (align : Nat) (formats tables : List Nat) (table : Nat),
    let va := h.base.toNat + off
    let b := (s.world a.world).berth
    let share := (s.berth b).desc.toNat / 2 ^ 102 % 2 ^ 10 * 2 ^ 30
    let bits (e hi lo : Nat) : Nat := e / 2 ^ lo % 2 ^ (hi + 1 - lo)
    let spot (lvl t : Nat) : Nat := t + 8 * bits va (56 - 9 * lvl) (48 - 9 * lvl)
    let entry (lvl t : Nat) : Nat := s.word64 (hbmKey b (spot lvl t))
    let reads (pa : Nat) : Bool := s.readable a.world (hbmKey b pa / 256)
    let clean (e : Nat) : Prop := bits e 63 48 = 0 ∧ bits e 11 9 = 0 ∧ bits e 2 2 = 0
    let fails (c : Code) (sub v : Nat) : Prop := s.check a h off size k align formats = .error ⟨c, sub, BitVec.ofNat 64 v⟩
    h.format = 1 ∨ h.format = 3 → h.revoked = false → h.world.toNat = a.world → h.format.toNat ∈ formats → h.hasRights k = true →
    off + size ≤ h.length.toNat → va + size ≤ 2 ^ 57 → va % align = 0 → 0 < size → va % 4096 + size ≤ 4096 → b < 48 →
    tlbHit ((tabFind s.tlb1 a.core).getD []) a.world va = none → tlbHit ((tabFind s.tlb2 (dieOf a.core)).getD []) a.world va = none →
    tables.length ≤ 4 → (tables ++ [table]).head? = some (s.world a.world).root →
    (∀ j t n, tables[j]? = some t → (tables ++ [table])[j + 1]? = some n →
      reads (spot j t) = true ∧ clean (entry j t) ∧ bits (entry j t) 0 0 = 1 ∧ bits (entry j t) 1 1 = 0 ∧ bits (entry j t) 8 3 = 0 ∧
        n = bits (entry j t) 47 12 * 4096 ∧ n < share) →
    let lvl := tables.length
    let e := entry lvl table
    let next := bits e 47 12 * 4096
    let sz := bits e 6 3
    let page := 2 ^ [12, 14, 16, 18, 20, 21, 22, 24, 26, 28, 30, 32].getD sz 12
    let level := if sz < 5 then 4 else if sz < 10 then 3 else 2
    let pa := next + va % page
    (reads (spot lvl table) = false → fails .integrity 0 (spot lvl table / 256 * 256)) ∧
    (reads (spot lvl table) = true →
      (bits e 0 0 = 0 → fails .translation 0 va) ∧
      (bits e 0 0 = 1 → ¬ clean e → fails .translation 3 va) ∧
      (bits e 0 0 = 1 → clean e → bits e 1 1 = 0 →
        (lvl = 4 ∨ bits e 8 3 ≠ 0 → fails .translation 3 va) ∧
        (lvl ≠ 4 → bits e 8 3 = 0 → share ≤ next → fails .translation 4 va)) ∧
      (bits e 0 0 = 1 → clean e → bits e 1 1 = 1 →
        (11 < sz ∨ level ≠ lvl ∨ next % page ≠ 0 → fails .translation 3 va) ∧
        (sz ≤ 11 → level = lvl → next % page = 0 →
          (k = .store ∨ k = .atomic → bits e 8 8 = 0 → fails .translation 1 va) ∧
          (k = .fetch → bits e 7 7 = 0 → fails .translation 2 va) ∧
          ((k = .store ∨ k = .atomic → bits e 8 8 = 1) → (k = .fetch → bits e 7 7 = 1) →
            (share ≤ pa → fails .translation 4 va) ∧
            (pa < share →
              ((∀ j < size, reads (pa + j) = true) → s.check a h off size k align formats = .ok [⟨va, hbmKey b pa, size⟩]) ∧
              (va % 256 + size ≤ 256 → k ≠ .store ∨ size < 256 → reads pa = false → fails .integrity 0 (va / 256 * 256)))))))

/-- R142: a load whose checks pass writes xd with the bytes read, lowest address in the low bits, zero-extended. Memory, every
other register, the conditions and every other core stay as they were. -/
def Claims.LoadWritesRegister : Prop :=
  ∀ (c : CReg) (w : Width) (race acq : Bool) (xd : XReg) (h : HReg) (xa : XReg) (imm : BitVec 48) (s : State)
    (ps : List Piece) (tab : Tab Sector), s.me.getC c = true →
    let n := widthBytes w
    s.access (s.accOf s.cur .h) (s.me.getH h) ((s.me.getX xa).toInt + imm.toInt) n .load n race [1, 2, 3] s.sectors = .ok (ps, tab) →
    ∃ t, exec (.ld c w race acq xd h xa imm) s = .next t ∧
      (xd ≠ 0 → t.me.getX xd = BitVec.ofNat 64 (ofBytes ((piecesKeys ps).map (memGet s.mem)))) ∧
      (∀ r, r ≠ xd → t.me.getX r = s.me.getX r) ∧ t.mem = s.mem ∧ t.lines = s.lines ∧ t.me.c = s.me.c ∧ t.me.h = s.me.h ∧
      t.me.status = s.me.status ∧ t.me.hs.pc = s.me.hs.pc + 3 ∧ t.sectors = tab ∧ (∀ d, d ≠ s.cur → t.core d = s.core d)

/-- R142: a store whose checks pass writes the low bytes of xb, lowest first, at the bytes that the check located, and no other
byte; no register of the core changes. -/
def Claims.StoreWritesMemory : Prop :=
  ∀ (c : CReg) (w : Width) (race rel : Bool) (h : HReg) (xa : XReg) (imm : BitVec 48) (xb : XReg) (s : State)
    (ps : List Piece) (tab : Tab Sector), s.me.getC c = true →
    let n := widthBytes w
    s.access (s.accOf s.cur .h) (s.me.getH h) ((s.me.getX xa).toInt + imm.toInt) n .store n race [1, 2, 3] s.sectors = .ok (ps, tab) →
    ∃ t, exec (.st c w race rel h xa imm xb) s = .next t ∧
      t.mem = memPuts s.mem ((piecesKeys ps).zip (bytesOf n (s.me.getX xb).toNat)) ∧
      (∀ a, a ∉ piecesKeys ps → memGet t.mem a = memGet s.mem a) ∧
      t.me.x = s.me.x ∧ t.me.c = s.me.c ∧ t.me.h = s.me.h ∧ t.me.status = s.me.status ∧ t.me.slates = s.me.slates ∧
      t.me.hs.pc = s.me.hs.pc + 3 ∧ t.sectors = tab

/-- R84, R142, R144, R145, R129: a load or store, of a register or of a handle image, whose checks fail traps with the fault of the
check and does nothing else. -/
def Claims.FailedAccessTraps : Prop :=
  ∀ (c : CReg) (w : Width) (race b : Bool) (xd xa xb : XReg) (h hd hs : HReg) (imm : BitVec 48) (s : State) (f : Flt),
    s.me.getC c = true →
    let off := (s.me.getX xa).toInt + imm.toInt
    let fails (n : Nat) (k : Kind) : Prop :=
      s.access (s.accOf s.cur .h) (s.me.getH h) off n k n race [1, 2, 3] s.sectors = .error f
    (fails (widthBytes w) .load → exec (.ld c w race b xd h xa imm) s = .next (s.helmFault f)) ∧
    (fails (widthBytes w) .store → exec (.st c w race b h xa imm xb) s = .next (s.helmFault f)) ∧
    (4 ≤ hd.toNat → fails 32 .load → exec (.hld c race b hd h xa imm) s = .next (s.helmFault f)) ∧
    ((s.me.getH hs).isSealed = true → (s.me.getH hs).revoked = false → fails 32 .store →
      exec (.hst c race b h xa imm hs) s = .next (s.helmFault f))

/-- R144, R368, R369, R370: HLD writes hD with the image read, sealed and not revoked, where its seal is valid, its format is 1 to
4, it is of the core's world and its serial is not revoked; rights are kept but where a frozen region is overlapped. Each image
fault raises its code with the image's address and leaves hD alone. -/
def Claims.HandleLoad : Prop :=
  ∀ (c : CReg) (race acq : Bool) (hd hm : HReg) (xa : XReg) (imm : BitVec 48) (s : State) (ps : List Piece) (tab : Tab Sector),
    s.me.getC c = true → (4 ≤ hd.toNat ∨ s.me.supervisor = true) →
    let off := (s.me.getX xa).toInt + imm.toInt
    let img := Handle.ofImage (BitVec.ofNat 256 (ofBytes ((piecesKeys ps).map (memGet s.mem))))
    let w := s.world img.world.toNat
    let sealOk : Prop := w.st = .live ∧ w.sealOf img = img.sealv ∧ 1 ≤ img.format.toNat ∧ img.format.toNat ≤ 4
    let v := BitVec.ofInt 64 ((s.me.getH hm).base.toNat + off)
    s.access (s.accOf s.cur .h) (s.me.getH hm) off 32 .load 32 race [1, 2, 3] s.sectors = .ok (ps, tab) →
    (¬ sealOk → exec (.hld c race acq hd hm xa imm) s = .next (s.helmFault ⟨.handleSeal, 0, v⟩)) ∧
    (sealOk → img.world.toNat ≠ s.me.world →
      exec (.hld c race acq hd hm xa imm) s = .next (s.helmFault ⟨.handleWorld, 0, v⟩)) ∧
    (sealOk → img.world.toNat = s.me.world → w.isRevoked img.serial.toNat = true →
      exec (.hld c race acq hd hm xa imm) s = .next (s.helmFault ⟨.handleRevoked, 0, v⟩)) ∧
    (sealOk → img.world.toNat = s.me.world → w.isRevoked img.serial.toNat = false →
      ∃ t, exec (.hld c race acq hd hm xa imm) s = .next t ∧
        t.me.getH hd = { w.freezeRights img with isSealed := true } ∧ (∀ r, r ≠ hd → t.me.getH r = s.me.getH r) ∧
        t.mem = s.mem ∧ t.me.x = s.me.x ∧ t.me.c = s.me.c ∧ t.me.status = s.me.status ∧ t.me.hs.pc = s.me.hs.pc + 3)

/-- R145: HST refuses an unsealed or revoked register with the address it would have stored at, and otherwise stores the 32 bytes
of its image where the check located them, and nothing else. -/
def Claims.HandleStore : Prop :=
  ∀ (c : CReg) (race rel : Bool) (hm hs : HReg) (xa : XReg) (imm : BitVec 48) (s : State) (ps : List Piece) (tab : Tab Sector),
    s.me.getC c = true →
    let h := s.me.getH hs
    let off := (s.me.getX xa).toInt + imm.toInt
    let v := BitVec.ofInt 64 ((s.me.getH hm).base.toNat + off)
    (h.isSealed = false → exec (.hst c race rel hm xa imm hs) s = .next (s.helmFault ⟨.handleSeal, 0, v⟩)) ∧
    (h.isSealed = true → h.revoked = true → exec (.hst c race rel hm xa imm hs) s = .next (s.helmFault ⟨.handleRevoked, 0, v⟩)) ∧
    (h.isSealed = true → h.revoked = false →
      s.access (s.accOf s.cur .h) (s.me.getH hm) off 32 .store 32 race [1, 2, 3] s.sectors = .ok (ps, tab) →
      ∃ t, exec (.hst c race rel hm xa imm hs) s = .next t ∧
        t.mem = memPuts s.mem ((piecesKeys ps).zip (bytesOf 32 h.image.toNat)) ∧
        (∀ a, a ∉ piecesKeys ps → memGet t.mem a = memGet s.mem a) ∧
        t.me.x = s.me.x ∧ t.me.c = s.me.c ∧ t.me.h = s.me.h ∧ t.me.status = s.me.status ∧ t.me.hs.pc = s.me.hs.pc + 3)

/-- R121: in task mode HLD, HNARROW, HMOV and HCLR of h0 to h3 raise PRIVILEGE with the register's number, TRET with value 0; CSRR
and CSRW that Table 5.2 refuses raise it with the selector, and a selector that the table lacks raises ILLEGAL_OP (R116, R117). -/
def Claims.PrivilegeInTaskMode : Prop :=
  ∀ (c : CReg) (race acq : Bool) (hd hs : HReg) (xd xa xb : XReg) (imm : BitVec 48) (mask : BitVec 8)
    (shape : Option (BitVec 27)) (sel : BitVec 12) (s : State), s.me.getC c = true →
    let priv (v : X64) : Host.Outcome State Fault Refusal := .next (s.helmFault ⟨.privilege, 0, v⟩)
    let x := s.me.getX xa
    (s.me.supervisor = false →
      (hd.toNat < 4 →
        exec (.hld c race acq hd hs xa imm) s = priv (hd.setWidth 64) ∧
        exec (.hnarrow c hd hs xa xb mask shape) s = priv (hd.setWidth 64) ∧
        exec (.hmov c hd hs) s = priv (hd.setWidth 64) ∧ exec (.hclr c hd) s = priv (hd.setWidth 64)) ∧
      exec (.tret c) s = priv 0 ∧
      (sel = 1 ∨ sel = 2 ∨ sel = 3 ∨ sel = 0x30 →
        exec (.csrr c xd sel) s = priv (sel.setWidth 64) ∧ exec (.csrw c sel xa) s = priv (sel.setWidth 64)) ∧
      exec (.csrw c 4 xa) s = priv 4 ∧
      (s.me.status &&& 0xF ≠ x &&& 0xF → exec (.csrw c 0 xa) s = priv 0)) ∧
    (sel = 0x10 ∨ sel = 0x11 ∨ sel = 0x12 ∨ sel = 0x13 ∨ sel = 0x20 →
      exec (.csrw c sel xa) s = priv (sel.setWidth 64)) ∧
    (sel ∉ [0, 1, 2, 3, 4, 0x10, 0x11, 0x12, 0x13, 0x20, 0x21, 0x22, 0x30] →
      exec (.csrr c xd sel) s = .next (s.helmFault ⟨.illegalOp, 0, sel.setWidth 64⟩) ∧
      exec (.csrw c sel xa) s = .next (s.helmFault ⟨.illegalOp, 0, sel.setWidth 64⟩))

/-- R146: HNARROW refuses, in this order, a revoked source, one without M, a range outside it, and a fabric handle, each with base
plus xa; otherwise hD is the source with the new base, length and rights, Z kept, and neither sealed nor revoked. h0 to h3 are written in
supervisor mode alone (R121); a write of h2 leaves instruction memory to be filled anew and empties the slate buffers (R32, R137). -/
def Claims.HandleNarrowing : Prop :=
  ∀ (c : CReg) (hd hs : HReg) (xa xb : XReg) (mask : BitVec 8) (shape : Option (BitVec 27)) (s : State),
    s.me.getC c = true → (4 ≤ hd.toNat ∨ s.me.supervisor = true) →
    let written (v : Handle) : Core :=
      let k := s.me.setH hd v
      if hd = 2 then { k with slates := k.slates.map fun b => { b with buf := .empty }, filled := [] } else k
    let h := s.me.getH hs
    let a := (s.me.getX xa).toInt
    let b := (s.me.getX xb).toInt
    let i : Instr := .hnarrow c hd hs xa xb mask shape
    let bad (code : Code) : Prop := exec i s = .next (s.helmFault ⟨code, 0, BitVec.ofInt 64 (h.base.toNat + a)⟩)
    let inside : Prop := 0 ≤ a ∧ 0 ≤ b ∧ a + b ≤ h.length.toNat
    (h.revoked = true → bad .handleRevoked) ∧
    (h.revoked = false → h.rights.getLsbD 0 = false → bad .handleRights) ∧
    (h.revoked = false → h.rights.getLsbD 0 = true → ¬ inside → bad .handleBounds) ∧
    (h.revoked = false → h.rights.getLsbD 0 = true → inside → h.format = 4 → bad .handleRights) ∧
    (h.revoked = false → h.rights.getLsbD 0 = true → inside → h.format ≠ 4 →
      exec i s = .next (s.retired (written
        { h with base := BitVec.ofInt 57 (h.base.toNat + a), length := BitVec.ofInt 48 b,
                 rights := (h.rights &&& mask) ||| (h.rights &&& 2), shape := shape.getD h.shape, isSealed := false, revoked := false })
        (s.me.hs.pc + 3)))

/-- R147, R148, R149: HMOV copies a register whole, HCLR clears one, HGET reads a field, and HCHK writes whether an access of the
size with the rights would pass the checks of the handle; a negative size answers false, the model's reading (log 29). A write of h2 leaves
instruction memory to be filled anew. -/
def Claims.HandleMovesAndTests : Prop :=
  ∀ (c cd : CReg) (hd hs : HReg) (xd xa xb : XReg) (rights : BitVec 8) (s : State), s.me.getC c = true →
    let h := s.me.getH hs
    let next (k : Core) : Host.Outcome State Fault Refusal := .next (s.retired k (s.me.hs.pc + 3))
    let off := (s.me.getX xa).toInt
    let size := (s.me.getX xb).toInt
    let lo : Int := s.cur / 8 * 16777216
    let at_ : Int := h.base.toNat + off
    let held (j : Nat) : Bool := h.rights.getLsbD j && !((j == 6 || j == 5) && h.rights.getLsbD 1)
    let written (v : Handle) : Core :=
      let k := s.me.setH hd v
      if hd = 2 then { k with slates := k.slates.map fun b => { b with buf := .empty }, filled := [] } else k
    (4 ≤ hd.toNat ∨ s.me.supervisor = true → exec (.hmov c hd hs) s = next (written h) ∧
      exec (.hclr c hd) s = next (written ⟨0, 0, 0, 0, 0, 0, 0, 0, false, false⟩)) ∧
    exec (.hget c .base xd hs) s = next (s.me.setX xd (h.base.setWidth 64)) ∧
    exec (.hget c .length xd hs) s = next (s.me.setX xd (h.length.setWidth 64)) ∧
    exec (.hget c .rights xd hs) s =
      next (s.me.setX xd ((BitVec.ofBool h.revoked ++ BitVec.ofBool h.isSealed ++ h.rights).setWidth 64)) ∧
    exec (.hget c .world xd hs) s = next (s.me.setX xd (h.world.setWidth 64)) ∧
    exec (.hget c .serial xd hs) s = next (s.me.setX xd (h.serial.setWidth 64)) ∧
    exec (.hget c .shape xd hs) s = next (s.me.setX xd (h.shape.setWidth 64)) ∧
    exec (.hget c .format xd hs) s = next (s.me.setX xd (h.format.setWidth 64)) ∧
    ∃ b : Bool, exec (.hchk c cd hs xa xb rights) s = next (s.me.setC cd b) ∧
      (b = true ↔ h.format ≠ 0 ∧ h.revoked = false ∧ h.world.toNat = s.me.world ∧
        (∀ j < 8, rights.getLsbD j = true → held j = true) ∧ 0 ≤ off ∧ 0 ≤ size ∧ off + size ≤ h.length.toNat ∧
        (h.format = 2 → size ≠ 0 → lo ≤ at_ ∧ at_ + size ≤ lo + 16777216))

/-- R127: a Helm fault, TRAP or BRK with TVEC.EN and IE set, and a stream fault or WATCHDOG with TVEC.EN set, saves the resume point,
writes CAUSE whole and ETVAL, moves MODE to PMODE and IE to PIE, enters supervisor mode with IE clear, and the pc is the handler's;
no register, no other stream, no byte of memory and no other core changes. -/
def Claims.TrapEntrySaves : Prop :=
  ∀ (s : State) (c : Nat) (f : Flt) (st : Stream) (resume group : BitVec 16),
    let k := s.core c
    k.tvec.getLsbD 0 = true → (st = .h → f.code ≠ .watchdog → k.status.getLsbD 2 = true) → f.sub < 256 →
    ∃ t, s.takeTrap c f st resume group = t ∧
      (t.core c).epc = resume.setWidth 64 ∧ (t.core c).etval = f.value ∧
      (t.core c).cause.toNat = f.code.num + f.sub * 2 ^ 8 + streamNum st * 2 ^ 16 + (if k.pend = [] then 0 else 2 ^ 19) +
        group.toNat * 2 ^ 32 ∧
      (t.core c).status.getLsbD 0 = true ∧ (t.core c).status.getLsbD 1 = k.status.getLsbD 0 ∧
      (t.core c).status.getLsbD 2 = false ∧ (t.core c).status.getLsbD 3 = k.status.getLsbD 2 ∧
      (t.core c).status.getLsbD 4 = k.status.getLsbD 4 ∧ (t.core c).status >>> 5 = 0 ∧
      (t.core c).hs = { k.hs with pc := k.tvec.extractLsb' 1 16 } ∧
      (t.core c).x = k.x ∧ (t.core c).c = k.c ∧ (t.core c).h = k.h ∧ (t.core c).slates = k.slates ∧ (t.core c).pend = k.pend ∧
      (t.core c).ls = k.ls ∧ (t.core c).ss = k.ss ∧ (t.core c).vs = k.vs ∧ (t.core c).ms = k.ms ∧
      t.mem = s.mem ∧ (∀ d, d ≠ c → t.core d = s.core d) ∧
      (t.world k.world).integ = (s.world k.world).integ + if f.code = .integrity then 1 else 0

/-- R95, R127, R313, R387: a fault that is not taken, because TVEC.EN is clear or, for a Helm fault, because IE is, stops the whole gang: each core's
streams end, its pending faults drop, and it is released. Under END the task is DONE with the fault's code as status and its record; under
HOLD, or for a TRANSLATION fault in a world with no other supervisor task, it is HELD, its entry and references kept, its FS semaphore
signalled by 1 when FSIG is set, and in the latter case XLATE is set in its berth's TDI. Either way the world counts a violation. Stated
of a task that is not marked, with no record and no waiter at FS, and for END with nothing held or signalled. -/
def Claims.UntakenFaultStops : Prop :=
  ∀ (s : State) (c d i : Nat) (f : Flt) (st : Stream) (resume group : BitVec 16),
    let k := s.core c
    let t := s.taskAt d i
    let w := k.world
    let fs := semKey w d t.tcb.fs
    (k.tvec.getLsbD 0 = false ∨ (st = .h ∧ f.code ≠ .watchdog ∧ k.status.getLsbD 2 = false)) →
    k.task = some (d, i) → t.st = .running → t.marked = false → t.recAt = .none → t.tcb.hold = true ∨ (t.refs = [] ∧ t.tcb.sigs = []) →
    (t.tcb.fsig = true → (s.sem fs).waiters = []) →
    (∀ e ∈ t.cores, (s.core e).task = some (d, i) ∧ ∀ x, ((s.core e).strm x).wait = none) →
    let u := s.takeTrap c f st resume group
    let orphan : Prop := f.code = .translation ∧
      ∀ e ∈ s.tasks, e.2.world = w → e.2.tcb.sup = true → e.1 = d * 4096 + i ∨ e.2.st = .free ∨ e.2.st = .done
    let out : TaskRec := ⟨f.code.num, f.sub, streamNum st, group.toNat, f.value⟩
    u.mem = s.mem ∧ (u.world w).violCount = (s.world w).violCount + 1 ∧
      (∀ e ∈ t.cores, (u.core e).task = none ∧ (u.core e).hrun = .idle ∧ (u.core e).pend = [] ∧ (u.core e).x = (s.core e).x ∧
        ∀ x, x ≠ .h → ((u.core e).strm x).run = .absent ∨ ((u.core e).strm x).run = .ended) ∧
      (u.taskAt d i).outcome = out ∧ (u.taskAt d i).cores = [] ∧
      (t.tcb.hold = false → ¬ orphan →
        (u.taskAt d i).st = if t.future = true ∧ t.reach = 0 then .free else .done) ∧
      (t.tcb.hold = true ∨ orphan →
        (u.taskAt d i).st = .held ∧ (u.taskAt d i).refs = t.refs ∧ (u.taskAt d i).inc = t.inc ∧
          (t.tcb.fsig = false → u.sems = s.sems) ∧
          (t.tcb.fsig = true → fs ∉ s.semEcc →
            (u.sem fs).value.toNat = min (2 ^ 32 - 1) ((s.sem fs).value.toNat + 1)) ∧
          (orphan → (u.tdi (s.berth (s.world w).berth).tdi).err.getLsbD 16 = true))

/-- R128, R156: under a true guard TRAP and BRK complete in every state, the pc past them, and are then taken with the immediate as
their value. Where the handler is on and IE is set, EPC is the next item, ETVAL the immediate, CAUSE.CODE TRAP_SW or DEBUG and
CAUSE.STREAM H; memory and the general registers stay. -/
def Claims.SoftwareTraps : Prop :=
  ∀ (c : CReg) (value : BitVec 48) (s : State), s.me.getC c = true →
    let next : BitVec 16 := s.me.hs.pc + 3
    let taken (code : Code) : State := (s.retired s.me next).takeTrap s.cur ⟨code, 0, value.setWidth 64⟩ .h next 0
    let entered (t : State) (code : Nat) : Prop :=
      t.me.epc = next.setWidth 64 ∧ t.me.etval = value.setWidth 64 ∧
        t.me.cause.toNat = code + (if s.me.pend = [] then 0 else 2 ^ 19) ∧ t.me.hs.pc = s.me.tvec.extractLsb' 1 16 ∧
        t.me.status.getLsbD 0 = true ∧ t.me.status.getLsbD 1 = s.me.status.getLsbD 0 ∧ t.me.status.getLsbD 2 = false ∧
        t.me.status.getLsbD 3 = true ∧ t.me.x = s.me.x ∧ t.me.c = s.me.c ∧ t.me.h = s.me.h ∧ t.mem = s.mem
    exec (.trap c value) s = .next (taken .trapSw) ∧ exec (.brk c value) s = .next (taken .debug) ∧
    (s.me.tvec.getLsbD 0 = true → s.me.status.getLsbD 2 = true → entered (taken .trapSw) 0x3E ∧ entered (taken .debug) 0x3F)

/-- R157: TRET in supervisor mode goes to EPC, takes MODE from PMODE and IE from PIE, and restarts the stream that CAUSE names, where
its fault stopped it, at the granule of CAUSE.GROUP; a fault of a follow-on, which CAUSE.SUB marks (R270), restarts nothing. -/
def Claims.TrapReturnRestores : Prop :=
  ∀ (c : CReg) (s : State), s.me.getC c = true → s.me.status.getLsbD 0 = true →
    ∃ t, exec (.tret c) s = .next t ∧ t.me.hs.pc = s.me.epc.setWidth 16 ∧
      t.me.status.getLsbD 0 = s.me.status.getLsbD 1 ∧ t.me.status.getLsbD 2 = s.me.status.getLsbD 3 ∧
      t.me.status.getLsbD 4 = s.me.status.getLsbD 4 ∧
      (∀ st : Stream, st ≠ .h →
        let hit : Prop := s.me.cause.toNat / 2 ^ 16 % 8 = streamNum st ∧ (s.me.strm st).run = .stopped ∧
          ¬ (st = .m ∧ s.me.cause.getLsbD 15 = true)
        (hit → t.me.strm st = { s.me.strm st with run := .running, pc := s.me.cause.extractLsb' 32 16 }) ∧
        (¬ hit → t.me.strm st = s.me.strm st)) ∧
      t.me.x = s.me.x ∧ t.me.c = s.me.c ∧ t.me.epc = s.me.epc ∧ t.me.cause = s.me.cause ∧ t.me.etval = s.me.etval ∧ t.mem = s.mem

/-- R13, R40, R150, R151: FORK with no stream of an earlier FORK running, over a record that is in instruction memory, free of errors (R417) and well
formed, starts the present streams at their entries with count 0 and the early flag set, leaves the others absent, and sets the Helm's own
count to 0. While such a stream runs, the Helm stalls: nothing changes. -/
def Claims.ForkStartsStreams : Prop :=
  ∀ (c : CReg) (imm : BitVec 48) (s : State) (t : Nat), s.me.getC c = true →
    let g (i : Nat) : Nat := s.gran s.cur (t + i)
    let runs (st : Stream) : Prop := (s.me.strm st).run = .running ∨ (s.me.strm st).run = .stopped
    let place : Stream → Nat
      | .l => 0 | .s => 1 | .v => 2 | .m => 3 | .h => 4
    ((∃ st, st ≠ .h ∧ runs st) → exec (.fork c imm) s = .next s) ∧
    ((∀ st, st ≠ .h → ¬ runs st) → (s.me.hs.pc.toNat : Int) + imm.toInt = t → t + 4 ≤ codeLenOf s.me.code → s.ecc2 = [] →
      (∀ i < 4, s.me.hasGran (t + i) = true ∧ g i / 2 ^ 16 % 2 ^ 15 = 0 ∧
        (2 ^ 31 ≤ g i → g i % 2 ^ 16 < codeLenOf s.me.code)) →
      ∃ n, exec (.fork c imm) s = .next n ∧ n.me.hs.pc = s.me.hs.pc + 3 ∧ n.me.hs.count = 0 ∧ n.me.hs.early = true ∧
        (∀ st, st ≠ .h →
          (2 ^ 31 ≤ g (place st) →
            (n.me.strm st).run = .running ∧ (n.me.strm st).pc.toNat = g (place st) % 2 ^ 16 ∧ (n.me.strm st).sec = none ∧
              (n.me.strm st).levels = [] ∧ (n.me.strm st).grp = none) ∧
          (g (place st) < 2 ^ 31 → (n.me.strm st).run = .absent) ∧
          (n.me.strm st).count = 0 ∧ (n.me.strm st).early = true ∧ (n.me.strm st).oqs = (s.me.strm st).oqs) ∧
        n.me.x = s.me.x ∧ n.me.c = s.me.c ∧ n.me.h = s.me.h ∧ n.me.vq = s.me.vq ∧ n.mem = s.mem)

/-- R13, R152: JOIN waits while a stream of the last FORK runs and otherwise retires; JOIN 1 ends those streams, drops their faults
and open groups and empties every operand queue, entries still in the save area among them (R131), and then retires. -/
def Claims.JoinMeetsStreams : Prop :=
  ∀ (c : CReg) (s : State), s.me.getC c = true →
    let runs (st : Stream) : Prop := (s.me.strm st).run = .running ∨ (s.me.strm st).run = .stopped
    ((∃ st, st ≠ .h ∧ runs st) → exec (.join c) s = .next s) ∧
    ((∀ st, st ≠ .h → ¬ runs st) →
      ∃ t, exec (.join c) s = .next t ∧ t.me.hs.pc = s.me.hs.pc + 3 ∧ (∀ st, st ≠ .h → t.me.strm st = s.me.strm st) ∧
        t.me.x = s.me.x ∧ t.me.c = s.me.c ∧ t.mem = s.mem) ∧
    ((∀ st, (s.me.strm st).wait = none) →
      ∃ t, exec (.joinAbandon c) s = .next t ∧ t.me.hs.pc = s.me.hs.pc + 3 ∧ t.me.pend = s.me.pend.filter (fun p => p.st = .h ∨ (s.me.strm p.st).run = .absent) ∧
        (∀ st, st ≠ .h →
          (runs st → (t.me.strm st).run = .ended) ∧ (¬ runs st → (t.me.strm st).run = (s.me.strm st).run) ∧
          (t.me.strm st).grp = none ∧ (t.me.strm st).sec = none ∧ (t.me.strm st).oqs = [[], [], [], []]) ∧
        t.me.dropped = true ∧ t.me.x = s.me.x ∧ t.me.c = s.me.c ∧ t.me.vq = s.me.vq ∧ t.mem = s.mem)

/-- R153: QMAP over a map that is in instruction memory, free of errors and well formed empties every vector queue, restored entries among
them (R218), applies the 64 depths and records the map's granule in QMAPBASE with V set. -/
def Claims.QueueMapApplies : Prop :=
  ∀ (c : CReg) (imm : BitVec 48) (s : State) (t : Nat), s.me.getC c = true →
    (∀ st, st ≠ .h → (s.me.strm st).run ≠ .running ∧ (s.me.strm st).run ≠ .stopped) →
    let depth (i : Nat) : Nat := s.gran s.cur (t + i / 4) / 2 ^ (8 * (i % 4)) % 256
    (s.me.hs.pc.toNat : Int) + imm.toInt = t → t + 16 ≤ codeLenOf s.me.code → s.ecc2 = [] → (∀ i < 16, s.me.hasGran (t + i) = true) →
    (∀ i < 64, 1 ≤ depth i ∧ depth i ≤ 64) → ((List.range 64).map depth).sum ≤ 1024 →
    exec (.qmap c imm) s = .next (s.retired
      { s.me with absent := s.me.absent.filter (fun o => decide (o < 0x46400 ∨ 0xC6400 ≤ o)),
                  vq := [], heads := [], depths := (List.range 64).map depth,
                  qmapbase := BitVec.ofNat 64 (2 ^ 63 + t) } (s.me.hs.pc + 3))

/-- R20, R154: OQSEND appends xa to the operand queue of the stream it numbers, the other queues kept; it stalls while the queue
holds sixteen entries. -/
def Claims.OqsendAppends : Prop :=
  ∀ (c : CReg) (n : BitVec 2) (q : OQ) (xa : XReg) (s : State), s.me.getC c = true →
    let st : Stream := [Stream.l, .s, .v, .m].getD n.toNat .m
    let oqs := (s.me.strm st).oqs
    oqs.length = 4 →
    (16 ≤ (oqs.getD q.toNat []).length → exec (.oqsend c n q xa) s = .next s) ∧
    ((oqs.getD q.toNat []).length < 16 →
      ∃ t e, exec (.oqsend c n q xa) s = .next t ∧ e.val = s.me.getX xa ∧
        (t.me.strm st).oqs.getD q.toNat [] = oqs.getD q.toNat [] ++ [e] ∧
        (∀ j, j ≠ q.toNat → (t.me.strm st).oqs.getD j [] = oqs.getD j []) ∧
        (∀ st', st' ≠ st → (t.me.strm st').oqs = (s.me.strm st').oqs) ∧
        t.me.hs.pc = s.me.hs.pc + 3 ∧ t.me.x = s.me.x ∧ t.me.c = s.me.c ∧ t.mem = s.mem)

/-- R155: HALT waits while a stream runs or a queue of the core has not drained; then it retires, the core issues nothing more, and
its halt line rises when the phase is its task's last. -/
def Claims.HaltWaitsAndStops : Prop :=
  ∀ (c : CReg) (s : State), s.me.getC c = true →
    let runs : Prop := ∃ st, st ≠ .h ∧ ((s.me.strm st).run = .running ∨ (s.me.strm st).run = .stopped)
    (runs ∨ s.me.drained = false → exec (.halt c) s = .next s) ∧
    (¬ runs → s.me.drained = true →
      ∃ t, exec (.halt c) s = .next t ∧ t.me.hrun = .halted ∧ t.me.haltLine = s.lastPhase s.cur ∧
        t.me.hs.pc = s.me.hs.pc + 3 ∧ t.me.x = s.me.x ∧ t.me.c = s.me.c ∧ t.mem = s.mem)

/-- R116, R117, R118, R119, R158: CSRR reads every control register that the mode may read, CSRW writes those it may write; reserved
bits read zero and ignore writes, and a task-mode write of STATUS changes VFTZ alone. -/
def Claims.ControlRegisters : Prop :=
  ∀ (c : CReg) (xd xa : XReg) (s : State), s.me.getC c = true →
    let k := s.me
    let x := s.me.getX xa
    let got (sel : BitVec 12) (v : X64) : Prop := exec (.csrr c xd sel) s = .next (s.retired (k.setX xd v) (k.hs.pc + 3))
    let put (sel : BitVec 12) (k' : Core) : Prop := exec (.csrw c sel xa) s = .next (s.retired k' (k.hs.pc + 3))
    let sup : Prop := k.status.getLsbD 0 = true
    got 0 k.status ∧ got 4 k.tvec ∧ got 0x10 (BitVec.ofNat 64 k.world) ∧ got 0x11 (BitVec.ofNat 64 s.cur) ∧ got 0x12 k.gang ∧
    got 0x13 (BitVec.ofInt 64 (s.now - k.cycle0)) ∧ got 0x20 k.qmapbase ∧ got 0x21 k.padm ∧ got 0x22 k.ftbase ∧
    (sup → got 1 k.cause ∧ got 2 k.epc ∧ got 3 k.etval ∧ got 0x30 k.savebase) ∧
    put 0x21 { k with padm := x &&& 0xFFFFFFFF000000FF } ∧ put 0x22 { k with ftbase := x &&& 0xFFFF } ∧
    (¬ sup → k.status &&& 0xF = x &&& 0xF → put 0 { k with status := (k.status &&& 0xF) ||| (x &&& 0x10) }) ∧
    (sup → put 0 { k with status := x &&& 0x1F } ∧ put 1 { k with cause := x &&& 0x0000FFFF000FFFFF } ∧
      put 2 { k with epc := x &&& 0xFFFF } ∧ put 3 { k with etval := x } ∧ put 4 { k with tvec := x &&& 0x1FFFF } ∧
      put 0x30 { k with savebase := x &&& 0x01FFFFFFFFFFFF00 })

/-- R22, R159: WAITI retires when a trap is pending or, for a nonzero xa, when CYCLE has reached it, and otherwise stalls where it is;
NOP changes nothing but the pc. -/
def Claims.WaitAndNop : Prop :=
  ∀ (c : CReg) (xa : XReg) (s : State), s.me.getC c = true →
    let x := s.me.getX xa
    let due : Prop := s.me.pend ≠ [] ∨ (x ≠ 0 ∧ x.toNat ≤ (BitVec.ofInt 64 (s.now - s.me.cycle0)).toNat)
    exec (.nop c) s = .next (s.retired s.me (s.me.hs.pc + 3)) ∧
    (due → exec (.waiti c xa) s = .next (s.retired { s.me with hs := { s.me.hs with wait := none } } (s.me.hs.pc + 3))) ∧
    (¬ due → ∃ t, exec (.waiti c xa) s = .next t ∧ t.me.hs.pc = s.me.hs.pc ∧ t.me.x = s.me.x ∧ t.me.c = s.me.c ∧ t.mem = s.mem)

/-- R15, R166, R193, R201, R206: a group of L, S or V whose last checks hold commits whole: its consumed entries leave their vector
queues, operand queues and stream registers; its pushes join theirs in order; its tiles, full bits, predicates, mask words, edges, bytes
and detection apply in order; and the sequencer moves past it. The general registers, the operand queues of other streams and the
Helm's pc stay. -/
def Claims.GroupCommits : Prop :=
  ∀ (s : State) (c : Nat) (st : Stream) (g : Grp), st ≠ .h → st ≠ .m → (s.core c).mayCommit s.now st g →
    s.committed (s.finishGroup c st g) c st g

/-- R15, R269, R271, R273, R275: a group of M whose last checks hold, that yields to no follow-on and whose charge the bucket holds, is
taken whole: its effects are those of a group, the array has what the group made of it, the bucket gives up five fifths a unit, and the
counters grow by the charge and by the time waited. Where it yields, or the bucket is short, the group stays unissued. That a charge above
the bucket's 20,480 needs a full bucket and leaves it empty is the model's choice (log 15). -/
def Claims.MatrixGroupCommits : Prop :=
  ∀ (s : State) (c : Nat) (g : Grp), (s.core c).mayCommit s.now .m g →
    let k := s.core c
    let t := s.finishGroup c .m g
    let m := (t.core c).mx
    let held := min 20480 (k.mx.bucket + refillRate (max k.mx.cls k.minCls) * (s.now - k.mx.refilled))
    let need := min 20480 (5 * g.charge)
    (s.yieldsTo c g.charge = false → need ≤ held →
      s.committed t c .m g ∧
      m = { g.mx.getD k.mx with
              bucket := held - 5 * g.charge, refilled := s.now, charged := (k.mx.charged + g.charge) % 2 ^ 64,
              waited := k.mx.waited + (s.now - k.mx.waitSince.getD s.now), waitSince := none }) ∧
    (s.yieldsTo c g.charge = true ∨ held < need →
      t.mem = s.mem ∧ (t.core c).ms = { k.ms with grp := none } ∧ (t.core c).vq = k.vq ∧ (t.core c).sr = k.sr ∧
      (t.core c).tiles = k.tiles ∧ (t.core c).k = k.k ∧ (t.core c).x = k.x ∧ m.bucket = held ∧ m.charged = k.mx.charged ∧
      m.waited = k.mx.waited ∧ (s.yieldsTo c g.charge = false → m.waitSince = some (k.mx.waitSince.getD s.now)))

/-- R15, R16, R23: a group whose commit would leave the section with a level open, overfill a queue, or break the mask stack's depth
faults at its start: nothing of it is done, its stream stops there, and the fault waits for the Helm. That a group which a later stream
forestalled in this cycle is not committed and stays unissued is the model's choice, by which it keeps R16's order (log 1). -/
def Claims.FailedGroupCommitsNothing : Prop :=
  ∀ (s : State) (c : Nat) (st : Stream) (g : Grp), st ≠ .h →
    let k := s.core c
    let v := k.strm st
    let pc := g.start + BitVec.ofNat 16 (3 * g.lats.length)
    let fails (f : Flt) : Prop :=
      s.finishGroup c st g =
        s.setCore c { k.setStrm st { v with run := .stopped, grp := none, wait := none } with pend := k.pend ++ [⟨f, st, v.pc⟩] }
    (k.tooLate s.now st g = true → s.finishGroup c st g = s.setCore c (k.setStrm st { v with grp := none })) ∧
    (k.tooLate s.now st g = false →
      (v.leavesOpen pc = true → fails ⟨.reservedField, 0, (pc - 3).setWidth 64⟩) ∧
      (v.leavesOpen pc = false → ∀ q, k.overfull g = some q → fails ⟨.queueOverflow, 0, BitVec.ofNat 64 q⟩) ∧
      (st ≠ .m → v.leavesOpen pc = false → k.overfull g = none → ∀ f, maskFault g.effs k.mask.length = some f → fails f))

/-- R174, R175, R176: the vector loads of L. Element j of the result is the little-endian value of the bytes that the check of its
access located; a lane of VGATHER whose index is 0xFFFFFFFF is zero and makes no access. -/
def Claims.VectorLoads : Prop :=
  ∀ (ctl : Ctl) (len : BitVec 2) (dst : VDst) (m : AMem) (sq : OQ) (ix : VSrc) (ty : Ty) (s : State) (g g1 g2 : Grp) (off : Int),
    s.inGroup g → memOff s.served m = .ok off →
    let h := s.me.getH m.h
    (∀ ps, grpAccess s s.cur s.curSt g h m.race off ([512, 16, 8, 4].getD len.toNat 512) ty.size .load [1, 2] = .ok (ps, g1) →
      let x := vecOfBytes ((piecesKeys ps).map (memGet s.mem))
      exec (.vld ctl len dst m ty) s = .next (s.wordDone ctl (g1.dest dst x) (some x))) ∧
    (∀ (stride : X64) (pss : List (List Piece)), headOq s.served sq = .ok stride →
      grpAccesses s s.cur s.curSt h m.race ty.size ty.size .load [1, 2]
        ((List.range (512 / ty.size)).map fun (j : Nat) => off + (j : Int) * stride.toInt) g = .ok (pss, g1) →
      let x := vecOfBytes (pss.flatMap fun ps => (piecesKeys ps).map (memGet s.mem))
      exec (.vlds ctl dst m sq ty) s = .next (s.wordDone ctl (g1.dest dst x) (some x))) ∧
    (∀ (iv : Vec) (pss : List (List Piece)), readSrc s.me s.now g ix = .ok (iv, g1) →
      let lanes := (List.range 128).filter fun i => decide (lane iv 4 i ≠ 0xFFFFFFFF)
      grpAccesses s s.cur s.curSt h m.race 4 4 .load [1, 2] (lanes.map fun i => off + ((4 * lane iv 4 i : Nat) : Int)) g1 =
        .ok (pss, g2) →
      ∃ x : Vec, exec (.vgather ctl dst m ix ty) s = .next (s.wordDone ctl (g2.dest dst x) (some x)) ∧
        (∀ i < 128, lane iv 4 i = 0xFFFFFFFF → lane x 4 i = 0) ∧
        (∀ (n i : Nat) (ps : List Piece), lanes[n]? = some i → pss[n]? = some ps →
          lane x 4 i = ofBytes ((piecesKeys ps).map (memGet s.mem)) % 2 ^ 32))

/-- R174, R175, R176: the vector stores of S stage their bytes, lowest first, at the bytes that the checks located, element by
element, each element a write of its own (R299); a lane of VSCATTER whose index is 0xFFFFFFFF stores nothing. -/
def Claims.VectorStores : Prop :=
  ∀ (ctl : Ctl) (len : BitVec 2) (m : AMem) (src ix : VSrc) (sq : OQ) (ty : Ty) (s : State) (g g1 g2 g3 : Grp) (off : Int) (x : Vec),
    s.inGroup g → memOff s.served m = .ok off → readSrc s.me s.now g src = .ok (x, g1) →
    let h := s.me.getH m.h
    let n := [512, 16, 8, 4].getD len.toNat 512
    (∀ ps, grpAccess s s.cur s.curSt g1 h m.race off n ty.size .store [1, 2] = .ok (ps, g2) →
      exec (.vst ctl len m src ty) s =
        .next (s.wordDone ctl (g2.add (.write ((piecesKeys ps).zip (bytesOf n x.toNat)))) none)) ∧
    (∀ (stride : X64) (pss : List (List Piece)), headOq s.served sq = .ok stride →
      grpAccesses s s.cur s.curSt h m.race ty.size ty.size .store [1, 2]
        ((List.range (512 / ty.size)).map fun (j : Nat) => off + (j : Int) * stride.toInt) g1 = .ok (pss, g2) →
      exec (.vsts ctl m src sq ty) s = .next (s.wordDone ctl (g2.addWrites
        ((pss.zip (vecElems x ty.size)).map fun p => (piecesKeys p.1).zip (bytesOf ty.size p.2))) none)) ∧
    (∀ (iv : Vec) (pss : List (List Piece)), readSrc s.me s.now g1 ix = .ok (iv, g2) →
      let lanes := (List.range 128).filter fun i => decide (lane iv 4 i ≠ 0xFFFFFFFF)
      grpAccesses s s.cur s.curSt h m.race 4 4 .store [1, 2] (lanes.map fun i => off + ((4 * lane iv 4 i : Nat) : Int)) g2 =
        .ok (pss, g3) →
      exec (.vscatter ctl m src ix ty) s = .next (s.wordDone ctl (g3.addWrites
        ((pss.zip (lanes.map fun i => lane x 4 i)).map fun p => (piecesKeys p.1).zip (bytesOf 4 p.2))) none))

/-- R168, R170, R171: a tile load into an empty tile stages the tile whose byte (i, b) is the memory byte that its checked offset
names, zero outside the pad edges; a tile store from a full tile stages the bytes the other way, element by element, and, but with
KP, the tile's becoming empty. A load blocks on a full or held tile, a store on an empty one: the group stays unissued. -/
def Claims.TileTransfers : Prop :=
  ∀ (ctl : Ctl) (mode : BitVec 2) (pad keep : Bool) (t : TReg) (m : AMem) (s : State) (g g1 : Grp) (off : Int)
    (pss : List (List Piece)), s.inGroup g → memOff s.served m = .ok off →
    let h := s.me.getH m.h
    let md := mode.toNat
    let esz := tileEsz h md
    let rows := if pad then s.served.redge else 128
    let cols := if pad then min 128 (s.served.cedge * esz) else 128
    let tile := s.me.tile t.toNat
    let offs := tileElems h md off rows cols
    let blocked : State := s.setStrm s.cur s.curSt { s.served with grp := none }
    (tile.full = true ∨ tile.held ≠ none → exec (.tld ctl mode pad t m) s = .next blocked) ∧
    (tile.full = false → tile.held = none →
      grpAccesses s s.cur s.curSt h m.race esz esz .load [1, 2] offs g = .ok (pss, g1) →
      ∃ bits : TileBits, exec (.tld ctl mode pad t m) s =
          .next (s.wordDone ctl { g1.add (.tile t.toNat bits) with edge := true } none) ∧
        ∀ i < 128, ∀ b < 128, bits.extractLsb' (8 * (128 * i + b)) 8 =
          if i < rows ∧ b < cols then
            memGet s.mem (s.byteKey (s.accGrp s.cur s.curSt g1) h (tileOff h md off i b) .load)
          else 0) ∧
    (tile.full = false → exec (.tst ctl mode pad keep t m) s = .next blocked) ∧
    (tile.full = true →
      grpAccesses s s.cur s.curSt h m.race esz esz .store [1, 2] offs
        { g with clk := clkJoin g.clk tile.clk, edge := true } = .ok (pss, g1) →
      let stored := g1.addWrites ((tileList rows (cols / esz)).map fun p => (List.range esz).map fun e =>
        (s.byteKey (s.accGrp s.cur s.curSt g1) h (tileOff h md off p.1 (p.2 * esz + e)) .store,
          tile.bits.extractLsb' (8 * (128 * p.1 + (p.2 * esz + e))) 8))
      exec (.tst ctl mode pad keep t m) s =
        .next (s.wordDone ctl (if keep then stored else stored.add (.tileState t.toNat false)) none))

/-- R15, R166, R172, R173: TFULL and TEMPTY stage the tile's full bit, whatever the bit is at issue; what the group staged before is
applied before it, so that after the group's words the bit stands as the last of them set it and the bytes stay. PADAPPLY stages the
edges: 128 both, or the low byte of a consumed queue entry, at most 128, for columns or for rows; it blocks where the queue is empty. -/
def Claims.TileBitsAndPads : Prop :=
  ∀ (ctl : Ctl) (t : TReg) (q : OQ) (s : State) (g : Grp), s.inGroup g →
    let put (b : Bool) : Grp := { g.add (.tileState t.toNat b) with edge := true }
    let blocked : State := s.setStrm s.cur s.curSt { s.served with grp := none }
    exec (.tfullL ctl t) s = .next (s.wordDone ctl (put true) none) ∧
    exec (.tfullS ctl t) s = .next (s.wordDone ctl (put true) none) ∧
    exec (.temptyL ctl t) s = .next (s.wordDone ctl (put false) none) ∧
    exec (.temptyS ctl t) s = .next (s.wordDone ctl (put false) none) ∧
    (∀ (b : Bool) (n : Nat) (old : TileBits × Bool),
      tileAfter n (put b).effs old = ((tileAfter n g.effs old).1, if n = t.toNat then b else (tileAfter n g.effs old).2)) ∧
    exec (.padapplyL ctl .reset) s = .next (s.wordDone ctl ((g.add (.cedge 128)).add (.redge 128)) none) ∧
    exec (.padapplyS ctl .reset) s = .next (s.wordDone ctl ((g.add (.cedge 128)).add (.redge 128)) none) ∧
    (∀ (x : X64) (g1 : Grp), readOq s.served g q false = .ok (x, g1) →
      exec (.padapplyL ctl (.col q)) s = .next (s.wordDone ctl (g1.add (.cedge (min (x.toNat % 256) 128))) none) ∧
      exec (.padapplyS ctl (.col q)) s = .next (s.wordDone ctl (g1.add (.cedge (min (x.toNat % 256) 128))) none) ∧
      exec (.padapplyL ctl (.row q)) s = .next (s.wordDone ctl (g1.add (.redge (min (x.toNat % 256) 128))) none) ∧
      exec (.padapplyS ctl (.row q)) s = .next (s.wordDone ctl (g1.add (.redge (min (x.toNat % 256) 128))) none)) ∧
    (readOq s.served g q false = .error .block →
      exec (.padapplyL ctl (.col q)) s = .next blocked ∧ exec (.padapplyS ctl (.col q)) s = .next blocked ∧
      exec (.padapplyL ctl (.row q)) s = .next blocked ∧ exec (.padapplyS ctl (.row q)) s = .next blocked)

/-- R60, R64, R69, R205, R209, R210, Tables 7.4 to 7.6: float words of two and three sources. Each active element of the result is the
exact result on the elements as read, rounded once under the word's mode and VFTZ; an inactive element is that of the first source.
VMIN and VMAX select as R68 states. -/
def Claims.FloatWords : Prop :=
  ∀ (w : VBin) (cc : VSrc) (s : State) (g g1 g2 : Grp) (a b : Vec), s.inGroup g →
    readSrc s.me s.now g w.a = .ok (a, g1) → readOpd s.me s.now s.served g1 w.ty w.b = .ok (b, g2) →
    let e := w.ty.size
    let out (i : Instr) (gx : Grp) (f : Nat → Nat) : Prop :=
      ∃ r : Vec, exec i s = .next (s.wordDone w.ctl (gx.dest w.dst r) (some r)) ∧
        ∀ j < 512 / e, lane r e j = if activeAt s.me w.pred e j then f j % 2 ^ (8 * e) else lane a e j
    let rd (v : Vec) (j : Nat) : FVal := decodeF w.ty.fmt (readFtz w.ty.fmt s.me.vftz (lane v e j))
    let rnd (v : FVal) : Nat := roundFtz w.ty.fmt w.rnd s.me.vftz v
    let raw (v : Vec) (j : Nat) : Nat := readFtz w.ty.fmt s.me.vftz (lane v e j)
    out (.vadd w) g2 (fun j => rnd (addF w.rnd (rd a j) (rd b j))) ∧
    out (.vsub w) g2 (fun j => rnd (addF w.rnd (rd a j) (negF (rd b j)))) ∧
    out (.vmul w) g2 (fun j => rnd (mulF (rd a j) (rd b j))) ∧
    out (.vdiv w) g2 (fun j => rnd (divF (rd a j) (rd b j))) ∧
    out (.vmin w) g2 (fun j => minmaxF w.ty.fmt false (raw a j) (raw b j)) ∧
    out (.vmax w) g2 (fun j => minmaxF w.ty.fmt true (raw a j) (raw b j)) ∧
    (∀ (z : Vec) (g3 : Grp), readSrc s.me s.now g2 cc = .ok (z, g3) →
      out (.vfma w cc) g3 (fun j => rnd (addF w.rnd (mulF (rd a j) (rd b j)) (rd z j))) ∧
      out (.vfms w cc) g3 (fun j => rnd (addF w.rnd (mulF (rd a j) (rd b j)) (negF (rd z j)))))

/-- R209, R210, Tables 7.4, 7.6: words of one source. VABS and VNEG act on the sign bit of a float and are fitted on an integer. VEXP2 and
VLOG2 give the correctly rounded power and logarithm, the model's reading (log 12). -/
def Claims.OneSourceWords : Prop :=
  ∀ (w : VUn) (s : State) (g g1 : Grp) (a : Vec), s.inGroup g → readSrc s.me s.now g w.a = .ok (a, g1) →
    let e := w.ty.size
    let out (i : Instr) (f : Nat → Nat) : Prop :=
      ∃ r : Vec, exec i s = .next (s.wordDone w.ctl (g1.dest w.dst r) (some r)) ∧
        ∀ j < 512 / e, lane r e j = if activeAt s.me w.pred e j then f j % 2 ^ (8 * e) else lane a e j
    let rd (j : Nat) : FVal := decodeF w.ty.fmt (readFtz w.ty.fmt s.me.vftz (lane a e j))
    let rnd (v : FVal) : Nat := roundFtz w.ty.fmt w.rnd s.me.vftz v
    let int (j : Nat) : Int := intVal w.ty (lane a e j)
    out (.vsqrt w) (fun j => rnd (sqrtF (rd j))) ∧ out (.vrsq w) (fun j => rnd (rsqF (rd j))) ∧
    out (.vrcp w) (fun j => rnd (rcpF (rd j))) ∧ out (.vexp2 w) (fun j => rnd (exp2F (rd j))) ∧
    out (.vlog2 w) (fun j => rnd (log2F (rd j))) ∧
    (w.ty.isFloat = true →
      out (.vabs w) (fun j => lane a e j % 2 ^ (8 * e - 1)) ∧ out (.vneg w) (fun j => Nat.xor (lane a e j) (2 ^ (8 * e - 1)))) ∧
    (w.ty.isFloat = false →
      out (.vabs w) (fun j => fitInt w.ty w.sat (if int j < 0 then -(int j) else int j)) ∧
      out (.vneg w) (fun j => fitInt w.ty w.sat (-(int j))))

/-- R60, R205, R209, Table 7.4: integer, bitwise and shift words. Each active element is the exact integer result fitted to the type,
or the bits; a shift amount of 64 or more acts as 64. -/
def Claims.IntegerWords : Prop :=
  ∀ (w : VBin) (s : State) (g g1 g2 : Grp) (a b : Vec), s.inGroup g →
    readSrc s.me s.now g w.a = .ok (a, g1) → readOpd s.me s.now s.served g1 w.ty w.b = .ok (b, g2) →
    let e := w.ty.size
    let out (i : Instr) (f : Nat → Nat) : Prop :=
      ∃ r : Vec, exec i s = .next (s.wordDone w.ctl (g2.dest w.dst r) (some r)) ∧
        ∀ j < 512 / e, lane r e j = if activeAt s.me w.pred e j then f j % 2 ^ (8 * e) else lane a e j
    let x (j : Nat) : Int := intVal w.ty (lane a e j)
    let y (j : Nat) : Int := intVal w.ty (lane b e j)
    let fit (v : Int) : Nat := fitInt w.ty w.sat v
    let sh (j : Nat) : Nat := min (lane b e j) 64
    out (.viadd w) (fun j => fit (x j + y j)) ∧ out (.visub w) (fun j => fit (x j - y j)) ∧
    out (.vimul w) (fun j => fit (x j * y j)) ∧ out (.vimulh w) (fun j => fit (x j * y j / 2 ^ (8 * e))) ∧
    out (.vimin w) (fun j => fit (min (x j) (y j))) ∧ out (.vimax w) (fun j => fit (max (x j) (y j))) ∧
    out (.vand w) (fun j => Nat.land (lane a e j) (lane b e j)) ∧ out (.vor w) (fun j => Nat.lor (lane a e j) (lane b e j)) ∧
    out (.vxor w) (fun j => Nat.xor (lane a e j) (lane b e j)) ∧
    out (.vshl w) (fun j => fit (x j * 2 ^ sh j)) ∧ out (.vshr w) (fun j => lane a e j / 2 ^ sh j) ∧
    out (.vsra w) (fun j => fitInt w.ty false (x j / 2 ^ sh j))

/-- R69, R196, R205, R208, Table 7.4: VSEL, VSCALE and VMOV. An inactive element of VMOV is zero. -/
def Claims.SelectScaleMove : Prop :=
  ∀ (w : VBin) (ks : KReg) (s : State) (g g1 g2 : Grp) (a b : Vec), s.inGroup g →
    let e := w.ty.size
    let out (i : Instr) (gx : Grp) (f p : Nat → Nat) : Prop :=
      ∃ r : Vec, exec i s = .next (s.wordDone w.ctl (gx.dest w.dst r) (some r)) ∧
        ∀ j < 512 / e, lane r e j = if activeAt s.me w.pred e j then f j % 2 ^ (8 * e) else p j
    let rd (j : Nat) : FVal := decodeF w.ty.fmt (readFtz w.ty.fmt s.me.vftz (lane a e j))
    (readSrc s.me s.now g w.a = .ok (a, g1) → readOpd s.me s.now s.served g1 w.ty w.b = .ok (b, g2) →
      out (.vsel w ks) g2 (fun j => if (s.me.getK ks.toNat).getLsbD (j * e) then lane a e j else lane b e j) (lane a e)) ∧
    (∀ ns, readSrc s.me s.now g w.a = .ok (a, g1) → scaleExps s.me s.now s.served g1 w.ty w.b = .ok (ns, g2) →
      out (.vscale w) g2 (fun j => roundFtz w.ty.fmt w.rnd s.me.vftz (scaleF (rd j) (ns.getD j 0))) (lane a e)) ∧
    (∀ (bv : Vec) (gb : Grp), readOpd s.me s.now s.served g w.ty w.b = .ok (bv, gb) →
      out (.vmov w.ctl w.pred w.dst w.b w.ty) gb (lane bv e) (fun _ => 0))

/-- R204, R211: VCMP makes a predicate whose element is true where the element is active and the relation holds, floats unordered with
a NaN, integers by value; it goes to kD, and the latch gets 0xFF in the bytes of true bits. -/
def Claims.CompareWritesPredicate : Prop :=
  ∀ (ctl : Ctl) (pred : PSel) (kd : Option KReg) (a : VSrc) (b : VOpd) (ty : Ty) (rel : VRel) (s : State) (g g1 g2 : Grp) (x y : Vec),
    s.inGroup g → readSrc s.me s.now g a = .ok (x, g1) → readOpd s.me s.now s.served g1 ty b = .ok (y, g2) →
    let e := ty.size
    let fl (v : Vec) (j : Nat) : FVal := decodeF ty.fmt (readFtz ty.fmt s.me.vftz (lane v e j))
    let order (j : Nat) : Option Ordering :=
      if ty.isFloat then cmpF (fl x j) (fl y j) else some (compare (intVal ty (lane x e j)) (intVal ty (lane y e j)))
    let holds (o : Option Ordering) : Bool := match rel with
      | .eq => o == some .eq
      | .ne => o != some .eq
      | .lt => o == some .lt
      | .le => o == some .lt || o == some .eq
      | .gt => o == some .gt
      | .ge => o == some .gt || o == some .eq
      | .un => o == none
    ∃ p : Pred,
      exec (.vcmp ctl pred kd a b ty rel) s =
        .next (s.wordDone ctl (match kd with
          | some d => g2.add (.pred d.toNat p)
          | none => g2) (some (predVec p))) ∧
      (∀ j < 512 / e, ∀ n < e, p.getLsbD (j * e + n) = (activeAt s.me pred e j && holds (order j))) ∧
      (∀ n < 512, lane (predVec p) 1 n = if p.getLsbD n then 255 else 0)

/-- R212: VCVT. Where the destination is at least as wide, element k of the result is the conversion of source element part × n + k;
where it is narrower, the n results go to elements part × n and up, the others zero. Inactive elements are zero. -/
def Claims.ConvertWord : Prop :=
  ∀ (ctl : Ctl) (pred : PSel) (dst : VDst) (a : VSrc) (dty sty : Ty) (rnd : Rnd) (sat : Bool) (part : BitVec 2) (s : State)
    (g g1 : Grp) (x : Vec), s.inGroup g → readSrc s.me s.now g a = .ok (x, g1) →
    let n := 512 / max sty.size dty.size
    let p := part.toNat
    let conv (j : Nat) : Nat := convElem sty dty rnd sat (lane x sty.size j) % 2 ^ (8 * dty.size)
    ∃ r : Vec, exec (.vcvt ctl pred dst a dty sty rnd sat part) s = .next (s.wordDone ctl (g1.dest dst r) (some r)) ∧
      (sty.size ≤ dty.size → p * n + n ≤ 512 / sty.size →
        ∀ k < n, lane r dty.size k = if activeAt s.me pred dty.size k then conv (p * n + k) else 0) ∧
      (dty.size < sty.size → ∀ d < 512 / dty.size,
        lane r dty.size d = if p * n ≤ d ∧ d < p * n + n ∧ activeAt s.me pred dty.size d = true then conv (d - p * n) else 0)

/-- R213, Table 7.8: VPERM, VSLIDE, VBCAST, VCOMPRESS, VEXPAND and VINDEX, element by element. -/
def Claims.Rearrangements : Prop :=
  ∀ (ctl : Ctl) (pred : PSel) (dst : VDst) (a b : VSrc) (ty : Ty) (s : State) (g g1 : Grp) (x : Vec), s.inGroup g →
    let e := ty.size
    let n := 512 / e
    let act := activeAt s.me pred e
    let out (i : Instr) (gx : Grp) (val : Nat → Nat) : Prop :=
      ∃ r : Vec, exec i s = .next (s.wordDone ctl (gx.dest dst r) (some r)) ∧ ∀ j < n, lane r e j = val j
    let keep (f : Nat → Nat) (j : Nat) : Nat := if act j then f j else lane x e j
    (readSrc s.me s.now g a = .ok (x, g1) →
      (∀ (y : Vec) (g2 : Grp), readSrc s.me s.now g1 b = .ok (y, g2) →
        out (.vperm ctl pred dst a b ty) g2 (keep fun j => if lane y e j < n then lane x e (lane y e j) else 0) ∧
        (∀ d : BitVec 11, out (.vslide ctl pred dst a b ty d) g2 (keep fun j =>
          let i : Int := j + d.toInt
          if 0 ≤ i ∧ i < n then lane x e i.toNat else lane y e (i % n).toNat))) ∧
      (∀ j0 : BitVec 10, j0.toNat < n → out (.vbcast ctl pred dst a ty j0) g1 (keep fun _ => lane x e j0.toNat)) ∧
      (let m := ((List.range n).filter act).map (lane x e)
       out (.vcompress ctl pred dst a ty) g1 (fun j => m.getD j 0)) ∧
      out (.vexpand ctl pred dst a ty) g1 (fun j =>
        if act j then lane x e ((List.range j).filter act).length else 0)) ∧
    (∀ (base : IdxBase) (step : BitVec 15) (sat : Bool) (b0 : Int), idxBase s.served g ty base = .ok (b0, g1) →
      out (.vindex ctl pred dst base step ty sat) g1 (fun j =>
        if act j then fitInt ty sat (b0 + (j : Int) * step.toInt) % 2 ^ (8 * e) else 0))

/-- R74, R75, R214, R215: a reduction puts the tree's result over the active elements into every element, and the identity where none
is active; a scan passes through the elements in order. That a scan flushes its first active element under VFTZ, and how a reduction reads a
NaN, are the model's readings (log 17). -/
def Claims.ReductionsAndScans : Prop :=
  ∀ (w : VUn) (s : State) (g g1 : Grp) (x : Vec), s.inGroup g → readSrc s.me s.now g w.a = .ok (x, g1) →
    let e := w.ty.size
    let act := activeAt s.me w.pred e
    let red (i : Instr) (o : RedOp) : Prop :=
      ∃ r : Vec, exec i s = .next (s.wordDone w.ctl (g1.dest w.dst r) (some r)) ∧
        (∀ j < 512 / e, lane r e j = lane r e 0) ∧
        lane r e 0 = ((treeGo (redOp s.me w o) 10 ((List.range (512 / e)).map fun j =>
          if act j then some (redRead s.me w.ty (lane x e j)) else none)).getD (redIdentity w.ty o)) % 2 ^ (8 * e) ∧
        ((∀ j < 512 / e, act j = false) → lane r e 0 = redIdentity w.ty o % 2 ^ (8 * e))
    let rd (v : Nat) : Nat := if w.ty.isFloat then readFtz w.ty.fmt s.me.vftz v else v
    let scan (i : Instr) (o : RedOp) : Prop :=
      ∃ r : Vec, exec i s = .next (s.wordDone w.ctl (g1.dest w.dst r) (some r)) ∧
        (∀ j < 512 / e, act j = false → lane r e j = lane x e j) ∧
        (∀ j < 512 / e, act j = true → lane r e j =
          ((((List.range (j + 1)).filter act).map (lane x e)).foldl
            (fun (acc : Option Nat) v => match acc with
              | none => some (rd v)
              | some u => some (redOp s.me w o u v)) none |>.getD 0) % 2 ^ (8 * e))
    red (.vredsum w) .sum ∧ red (.vredmax w) .max ∧ red (.vredmin w) .min ∧ scan (.vscansum w) .sum ∧ scan (.vscanmax w) .max

/-- R204, R206, R207, R216: the predicate words, over all 512 bits, and the mask words, staged. -/
def Claims.PredicateWords : Prop :=
  ∀ (ctl : Ctl) (inv : Bool) (kd ka kb : KReg) (dst : VDst) (ty : Ty) (s : State) (g : Grp), s.inGroup g →
    let p := s.me.getK ka.toNat
    let q := if inv then ~~~(s.me.getK kb.toNat) else s.me.getK kb.toNat
    let put (gx : Grp) (v : Pred) : Host.Outcome State Fault Refusal :=
      .next (s.wordDone ctl (gx.add (.pred kd.toNat v)) (some (predVec v)))
    let below (n : Nat) (v : Pred) : Prop := ∀ j < 512 / ty.size, ∀ b < ty.size, v.getLsbD (j * ty.size + b) = decide (j < n)
    exec (.kand ctl inv kd ka kb) s = put g (p &&& q) ∧ exec (.kor ctl inv kd ka kb) s = put g (p ||| q) ∧
    exec (.kxor ctl inv kd ka kb) s = put g (p ^^^ q) ∧
    (∀ n : BitVec 10, ∃ v, exec (.kset ctl kd (.imm n) ty) s = put g v ∧ below n.toNat v) ∧
    (∀ (o : OQ) (keep : Bool) (x : X64) (g1 : Grp), readOq s.served g o keep = .ok (x, g1) →
      ∃ v, exec (.kset ctl kd (.oq o keep) ty) s = put g1 v ∧ below (x.toNat % 2 ^ 32) v) ∧
    (∃ r : Vec, exec (.kcount ctl dst ka ty) s = .next (s.wordDone ctl (g.dest dst r) (some r)) ∧
      ∀ i < 128, lane r 4 i = ((List.range (512 / ty.size)).filter fun j => p.getLsbD (j * ty.size)).length) ∧
    exec (.mpush ctl ka) s = .next (s.wordDone ctl (g.add (.mpush p)) none) ∧
    exec (.minv ctl) s = .next (s.wordDone ctl (g.add .minv) none) ∧
    exec (.mpop ctl) s = .next (s.wordDone ctl (g.add .mpop) none)

/-- R249, R256, R257: MLDW and MLDS. A weight slot takes the tile's rows, the format entry's weight type and the scale; the tile empties
with KP clear; MLDS writes the scale alone. Types are those of the valid entries (R253). -/
def Claims.WeightSlots : Prop :=
  ∀ (ctl : Ctl) (kp ws : Bool) (t : TReg) (sc : MScale) (s : State) (g g1 : Grp) (x : BitVec 32), s.inGroup g →
    readScale s.served g sc = .ok (x, g1) →
    let m := g.mxOf s.me
    let e := m.pick s.served.levels false none
    let ts := tilePair t e.b
    (¬ (e.b = 2 ∧ t = 15) → (∀ i ∈ ts, (s.me.tile i).full = true ∧ (s.me.tile i).held = none) →
      ∃ g2 v, exec (.mldw ctl kp ws t sc) s = .next (s.wordDone ctl g2 none) ∧ g2.mx = some (m.setSlot ws v) ∧
        v.scale = x ∧ v.ty = BitVec.ofNat 4 e.b ∧ (∀ j < 128, v.row j = rowAt (s.me.tileImage ts) (rowBytes e.b) j) ∧
        (kp = true → ∀ i b, Eff.tileState i b ∈ g2.effs → Eff.tileState i b ∈ g1.effs) ∧
        (kp = false → ∀ i ∈ ts, Eff.tileState i false ∈ g2.effs)) ∧
    exec (.mlds ctl ws sc) s =
      .next (s.wordDone ctl { g1 with mx := some (m.setSlot ws { m.slot ws with scale := x }) } none)

/-- R258, R260, R261, R263: MMA folds n activation rows of its tile, from row0 up, into n accumulator rows from the base up, pass by pass
under the entry and the slot; `.cons` empties the tile. MMAG does the same with rows gathered from the scratchpad. An empty slot, or one of INT8
where the entry is not or the other way round, raises ILLEGAL_OP with SUB 1 and the slot; a BF16 operand in tile 15 RESERVED_FIELD. -/
def Claims.MatrixPasses : Prop :=
  ∀ (ctl : Ctl) (cons : Bool) (row0 : BitVec 7) (t : TReg) (sq : OQ) (n1 : BitVec 7) (fent : Option (BitVec 4)) (ws : Bool)
    (cbm : BitVec 4) (pos : MPos) (h : HReg) (ix : VSrc) (race : Bool) (s : State) (g g1 g2 : Grp) (base : Nat) (sas : List Nat),
    s.inGroup g →
    let m := g.mxOf s.me
    let e := m.pick s.served.levels false fent
    let slot := m.slot ws
    let n := n1.toNat + 1
    let traps (f : Flt) : Prop := exec (.mma ctl cons row0 t sq n1 fent ws cbm pos) s = .next (s.streamFault s.cur s.curSt f)
    (slot.ty = 0 ∨ ¬ (e.a = 5 ↔ slot.ty = 5) → traps ⟨.illegalOp, 1, if ws then 1 else 0⟩) ∧
    (slot.ty ≠ 0 → (e.a = 5 ↔ slot.ty = 5) → e.a = 2 → t = 15 → traps ⟨.reservedField, 0, 15⟩) ∧
    (slot.ty ≠ 0 → (e.a = 5 ↔ slot.ty = 5) → accBase s.served pos n = .ok base →
    (let ts := tilePair t e.a
     ¬ (e.a = 2 ∧ t = 15) → (∀ i ∈ ts, (s.me.tile i).full = true ∧ (s.me.tile i).held = none) →
     rowScales s.served e sq n g = .ok (sas, g1) →
     let rows := (List.range n).map fun i => rowAt (s.me.tileImage ts) (rowBytes e.a) (row0.toNat + i)
     let folded : Grp := { g1 with mx := some (m.passes e ws cbm rows sas base), edge := true,
                                   clk := ts.foldl (fun c i => clkJoin c (s.me.tile i).clk) g1.clk }
     exec (.mma ctl cons row0 t sq n1 fent ws cbm pos) s = .next (s.wordDone ctl
       (if cons then ts.foldl (fun g i => g.add (.tileState i false)) folded else folded) none)) ∧
    (∀ (iv : Vec) (off : Int) (rows : List Nat) (g3 : Grp), s.curSt = .m → readSrc s.me s.now g ix = .ok (iv, g1) →
      let hd := s.me.getH h
      checkHandle s.me.world hd 0 .load [2] = .ok () → gatherBase s.served pos = .ok off →
      gatherRows s (s.accGrp s.cur .m g) hd race (rowBytes e.a)
        (gatherOffs iv n off (if hd.pitch = 0 then rowBytes e.a else hd.pitch)) g1 = .ok (rows, g2) →
      rowScales s.served e sq n g2 = .ok (sas, g3) →
      exec (.mmag ctl n1 h sq ix fent ws cbm pos race) s =
        .next (s.wordDone ctl { g3 with mx := some (m.passes e ws cbm rows sas base) } none)))

/-- R261, Tables 9.5, 9.6: one pass changes one accumulator row, and of it only the columns of the enabled blocks. A float sum folds
128 products in ascending row order, each step rounded to FP32; q times the sum is added to, subtracted from, or replaces the
element as the entry says. -/
def Claims.PassFoldsRow : Prop :=
  ∀ (m : Mx) (e : Ent) (ws : Bool) (row sa r : Nat) (cbm : BitVec 4), (e.a ≠ 5) →
    let slot := m.slot ws
    let one : Nat := 0x3F800000
    let q := if e.scale = 2 then one else rn32 (mulF (f32 (if e.scale = 0 then sa else one)) (f32 slot.scale.toNat))
    let a (k : Nat) : FVal := (rowVals e.a row).getD k .nan
    let wt (k j : Nat) : FVal := (rowVals slot.ty.toNat (slot.row k)).getD j .nan
    let sum (j : Nat) : Nat := (List.range 128).foldl (fun acc k => rn32 (addF .rne (f32 acc) (mulF (a k) (wt k j)))) 0
    let t := m.pass e ws row sa r cbm
    (∀ r', r' ≠ r → t.accRow r' = m.accRow r') ∧ t.ws0 = m.ws0 ∧ t.ws1 = m.ws1 ∧ t.ftab = m.ftab ∧ t.cls = m.cls ∧
    (∀ j < 128, cbm.getLsbD (j / 32) = false → lane (t.accRow r) 4 j = lane (m.accRow r) 4 j) ∧
    (∀ j < 128, cbm.getLsbD (j / 32) = true → lane (t.accRow r) 4 j =
      (let p := mulF (f32 (sum j)) (f32 q)
       if e.acc = 1 then rn32 p
       else rn32 (addF .rne (f32 (lane (m.accRow r) 4 j)) (if e.acc = 2 then negF p else p))) % 2 ^ 32)

/-- R72, R261, Table 9.6: a pass of INT8. The column sum is exact; it is added with saturation to the element as INT32, or rounded with its
scale to FP32 and added to, subtracted from or put in place of the element, as the entry says. -/
def Claims.IntegerPassFoldsRow : Prop :=
  ∀ (m : Mx) (e : Ent) (ws : Bool) (row sa r : Nat) (cbm : BitVec 4), e.a = 5 →
    let slot := m.slot ws
    let one : Nat := 0x3F800000
    let q := if e.scale = 2 then one else rn32 (mulF (f32 (if e.scale = 0 then sa else one)) (f32 slot.scale.toNat))
    let a (k : Nat) : Int := (rowInts row).getD k 0
    let wt (k j : Nat) : Int := (rowInts (slot.row k)).getD j 0
    let sum (j : Nat) : Int := (List.range 128).foldl (fun acc k => acc + a k * wt k j) 0
    let t := m.pass e ws row sa r cbm
    (∀ r', r' ≠ r → t.accRow r' = m.accRow r') ∧ t.ws0 = m.ws0 ∧ t.ws1 = m.ws1 ∧ t.ftab = m.ftab ∧ t.cls = m.cls ∧
    (∀ j < 128, cbm.getLsbD (j / 32) = false → lane (t.accRow r) 4 j = lane (m.accRow r) 4 j) ∧
    (∀ j < 128, cbm.getLsbD (j / 32) = true → lane (t.accRow r) 4 j =
      (let old := lane (m.accRow r) 4 j
       let p := rn32 (mulF (ofIntF (sum j)) (f32 q))
       if e.acc = 3 then (max (-(2 : Int) ^ 31) (min ((2 : Int) ^ 31 - 1) (signedOf 32 old + sum j)) % (2 : Int) ^ 32).toNat
       else if e.acc = 1 then p
       else rn32 (addF .rne (f32 old) (if e.acc = 2 then negF (f32 p) else f32 p))) % 2 ^ 32)

/-- R263 to R266: MZERO zeroes the enabled columns of n accumulator rows, MWR writes those of one row, MRD pushes one row, as it is for
FP32 and INT32, rounded for BF16 and FP16, narrowed for FP8. -/
def Claims.AccumulatorRows : Prop :=
  ∀ (ctl : Ctl) (n1 : BitVec 7) (cbm : BitVec 4) (pos : MPos) (dst : VDst) (ty : Ty) (rnd : Rnd) (sat : Bool) (src : VSrc)
    (s : State) (g g1 : Grp) (x : Vec) (base : Nat), s.inGroup g →
    let m := g.mxOf s.me
    (accBase s.served pos (n1.toNat + 1) = .ok base →
      ∃ g2 m', exec (.mzero ctl n1 cbm pos) s = .next (s.wordDone ctl g2 none) ∧ g2.mx = some m' ∧
        (∀ r, r < base ∨ base + n1.toNat + 1 ≤ r → m'.accRow r = m.accRow r) ∧
        (∀ r, base ≤ r → r < base + n1.toNat + 1 → ∀ j < 128,
          lane (m'.accRow r) 4 j = if cbm.getLsbD (j / 32) then 0 else lane (m.accRow r) 4 j)) ∧
    (accBase s.served pos 1 = .ok base →
      let row := m.accRow base
      (ty = .f32 ∨ ty = .i32 → exec (.mrd ctl dst ty rnd sat pos) s = .next (s.wordDone ctl (g.dest dst row) (some row))) ∧
      (ty = .bf16 ∨ ty = .f16 →
        ∃ r : Vec, exec (.mrd ctl dst ty rnd sat pos) s = .next (s.wordDone ctl (g.dest dst r) (some r)) ∧
          ∀ j < 128, lane r 2 j = roundF ty.fmt rnd (f32 (lane row 4 j)) % 2 ^ 16) ∧
      (ty = .e4m3 ∨ ty = .e5m2 →
        ∃ r : Vec, exec (.mrd ctl dst ty rnd sat pos) s = .next (s.wordDone ctl (g.dest dst r) (some r)) ∧
          ∀ j < 128, lane r 1 j = narrow8 ty.fmt rnd sat (f32 (lane row 4 j)) % 2 ^ 8)) ∧
    (readSrc s.me s.now g src = .ok (x, g1) → accBase s.served pos 1 = .ok base →
      ∃ g2 m', exec (.mwr ctl src ty cbm pos) s = .next (s.wordDone ctl g2 none) ∧ g2.mx = some m' ∧
        (∀ r, r ≠ base → m'.accRow r = m.accRow r) ∧
        (∀ j < 128, lane (m'.accRow base) 4 j = if cbm.getLsbD (j / 32) then lane x 4 j else lane (m.accRow base) 4 j))

/-- R255, R271 to R274: MFMT loads the sixteen entries at FTBASE and the selector; MBUD stages the budget class; MSTAT reads in lanes 0 to
3 the charged units and the waited cycles, its own group's among them, in lanes 4 and 5 the follow-ons accepted and completed, in lane
6 the class and in lane 7 what the bucket then holds, in whole units; MSYNC passes once the follow-ons it names are done, and blocks
before, the number immediate or a consumed queue entry. That lane 6 shows a class that the group itself has set, and that lane 7 stops at 0,
are the model's choices (log 24, log 15). -/
def Claims.MatrixControl : Prop :=
  ∀ (ctl : Ctl) (fixed : Bool) (arg : BitVec 4) (cls : BitVec 2) (dst : VDst) (n : BitVec 30) (q : OQ) (s : State) (g : Grp), s.inGroup g →
    let k := s.me
    let m := g.mxOf k
    let t := k.ftSnap.toNat
    let es := (List.range 16).map fun i => BitVec.ofNat 16 (s.gran s.cur (t + i / 2) / 2 ^ (16 * (i % 2)))
    let blocked : State := s.setStrm s.cur s.curSt { s.served with grp := none }
    let held := min 20480 (k.mx.bucket + refillRate (max k.mx.cls k.minCls) * (s.now - k.mx.refilled))
    let charged := (k.mx.charged + g.charge) % 2 ^ 64
    let waited := k.mx.waited + (s.now - k.mx.waitSince.getD s.now)
    let done (n : BitVec 32) : Prop := (k.foc - n).toNat < 2 ^ 31
    (t + 8 ≤ codeLenOf k.code → s.ecc2 = [] → (∀ i < 8, k.hasGran (t + i) = true) → (∀ e ∈ es, (Ent.ofBits e).valid = true) →
      exec (.mfmt ctl fixed arg) s = .next (s.wordDone ctl
        { g with mx := some { m with ftab := es, sel := if fixed then .fixed arg.toNat else .level (arg.toNat % 8) } } none)) ∧
    exec (.mbud ctl cls) s = .next (s.wordDone ctl { g with mx := some { m with cls := cls.toNat } } none) ∧
    (∃ r : Vec, exec (.mstat ctl dst) s = .next (s.wordDone ctl (g.dest dst r) (some r)) ∧
      lane r 4 0 = charged % 2 ^ 32 ∧ lane r 4 1 = charged / 2 ^ 32 ∧ lane r 4 2 = waited % 2 ^ 32 ∧
      lane r 4 3 = waited / 2 ^ 32 % 2 ^ 32 ∧ lane r 4 4 = k.foa.toNat ∧ lane r 4 5 = k.foc.toNat ∧ (m.cls < 4 → lane r 4 6 = m.cls) ∧
      lane r 4 7 = (held - 5 * g.charge) / 5 ∧ ∀ i, 8 ≤ i → i < 128 → lane r 4 i = 0) ∧
    (done (n.setWidth 32) → exec (.msync ctl (.imm n)) s = .next (s.wordDone ctl g none)) ∧
    (¬ done (n.setWidth 32) → exec (.msync ctl (.imm n)) s = .next blocked) ∧
    (∀ (x : X64) (g1 : Grp), readOq s.served g q false = .ok (x, g1) →
      (done (x.setWidth 32) → exec (.msync ctl (.oq q)) s = .next (s.wordDone ctl g1 none)) ∧
      (¬ done (x.setWidth 32) → exec (.msync ctl (.oq q)) s = .next blocked)) ∧
    (readOq s.served g q false = .error .block → exec (.msync ctl (.oq q)) s = .next blocked)

/-- R177 to R182: LOOP with a nonzero trip count, from its descriptor or a consumed queue entry, opens a level with its strides and goes on
at the next word; with trip count 0 it goes past its ENDLOOP; a seventh level faults. ENDLOOP goes back to the body while instances
remain, closes the level after the last, and faults with none open; SKIPZ consumes the head of its queue, or looks at the mask-stack
top, and goes past its n words where that is zero; NOP and RDV do only what they say. The words go to granules away from the section's
end, where the instance would retire. That a LOOP at depth six faults before its descriptor or queue is looked at, and the checks of the words
that SKIPZ and LOOP go past, are the model's choices (log 23). -/
def Claims.LoopsAndSkips : Prop :=
  ∀ (ctl : Ctl) (q : OQ) (imm : BitVec 30) (n : BitVec 12) (s : State) (d : Nat), s.curSt ≠ .h →
    let v := s.served
    let pc := v.pc.toNat
    let sec := v.sec.getD 0
    let away (g : Nat) : Prop := v.sec ≠ some (g % 65536)
    let at_ (t : State) (levels : List Level) (next : Nat) : Prop :=
      (t.strm s.cur s.curSt).pc = BitVec.ofNat 16 next ∧ (t.strm s.cur s.curSt).levels = levels ∧ t.mem = s.mem ∧
        (t.core s.cur).x = s.me.x ∧ (t.core s.cur).vq = s.me.vq ∧ (t.core s.cur).hs.pc = s.me.hs.pc
    let taken (t : State) (es : List OqEnt) : Prop := q.toNat < v.oqs.length → (t.strm s.cur s.curSt).oqs.getD q.toNat [] = es
    let fault (i : Instr) : Prop := exec i s = .next (s.streamFault s.cur s.curSt ⟨.reservedField, 0, BitVec.ofNat 64 pc⟩)
    let level (trip : Nat) : Level :=
      ⟨BitVec.ofNat 32 trip, 0, BitVec.ofNat 16 (pc + 3), (List.range 4).map fun i => BitVec.ofNat 32 (s.gran s.cur (d + 1 + i))⟩
    (6 ≤ v.levels.length → fault (.loop none imm) ∧ fault (.loop (some q) imm)) ∧
    (v.levels.length < 6 → (pc : Int) + imm.toInt = d → d + 5 ≤ codeLenOf s.me.code → s.ecc2 = [] → (∀ i < 5, s.me.hasGran (d + i) = true) →
      (s.gran s.cur d ≠ 0 → away (pc + 3) →
        ∃ t, exec (.loop none imm) s = .next t ∧ at_ t (v.levels ++ [level (s.gran s.cur d)]) (pc + 3)) ∧
      (∀ e es, v.oqs.getD q.toNat [] = e :: es → e.val ≠ 0 → e.val.toNat < 2 ^ 32 → away (pc + 3) →
        ∃ t, exec (.loop (some q) imm) s = .next t ∧ at_ t (v.levels ++ [level e.val.toNat]) (pc + 3) ∧ taken t es) ∧
      (∀ after last, s.gran s.cur d = 0 → matchGo s.cur s.curSt sec 4096 s (pc + 3) 0 = .ok (some after, s) →
        decodeOver s.cur s.curSt sec after 4096 s (pc + 3) pc = .ok (last, s) → away after →
        ∃ t, exec (.loop none imm) s = .next t ∧ at_ t v.levels after)) ∧
    (v.levels = [] → fault .endloop) ∧
    (∀ outer l, v.levels = outer ++ [l] →
      (l.count.toNat + 1 < l.trip.toNat → away l.body.toNat →
        ∃ t, exec .endloop s = .next t ∧ at_ t (outer ++ [{ l with count := l.count + 1 }]) l.body.toNat) ∧
      (l.trip.toNat ≤ l.count.toNat + 1 → away (pc + 3) →
        ∃ t, exec .endloop s = .next t ∧ at_ t outer (pc + 3))) ∧
    (s.skipCheck s.cur s.curSt sec pc n.toNat = .ok s →
      let past := pc + 3 + 3 * n.toNat
      (away (pc + 3) →
        (∀ e es, v.oqs.getD q.toNat [] = e :: es → e.val ≠ 0 →
          ∃ t, exec (.skipz q n) s = .next t ∧ at_ t v.levels (pc + 3) ∧ taken t es) ∧
        (maskTop s.me.mask ≠ 0 → ∃ t, exec (.skipzMask n) s = .next t ∧ at_ t v.levels (pc + 3))) ∧
      (∀ last, decodeOver s.cur s.curSt sec past 4096 s (pc + 3) pc = .ok (last, s) → away past →
        (∀ e es, v.oqs.getD q.toNat [] = e :: es → e.val = 0 →
          ∃ t, exec (.skipz q n) s = .next t ∧ at_ t v.levels past ∧ taken t es) ∧
        (maskTop s.me.mask = 0 → ∃ t, exec (.skipzMask n) s = .next t ∧ at_ t v.levels past))) ∧
    (∀ g, s.inGroup g →
      exec (.nopStream ctl) s = .next (s.wordDone ctl g none) ∧
      (∀ (x : X64) (g1 : Grp), readOq v g q false = .ok (x, g1) → exec (.rdv ctl q) s = .next (s.wordDone ctl g1 none)))

/-- R219 to R221, R224, R229 to R236: a Copy instruction on a queue that holds fewer than sixteen operations takes the next number and
joins the queue's tail with its operands, shape, snapshot of handles and completion fields, and the Helm goes on; on a full queue it
stalls. The shape register gives the row length in its low and the row count in its high 32 bits. -/
def Claims.CopiesAreQueued : Prop :=
  ∀ (q : CQ) (bar : BarCnt) (race b : Bool) (mode : BitVec 2) (ha hb : HReg) (t : TReg) (sn : BitVec 3) (xa xb xc : XReg) (k : Compl)
    (s : State), s.me.cqs.length = 4 →
    let x (r : XReg) : X64 := s.me.getX r
    let w := (x xc).toNat % 2 ^ 32
    let r := (x xc).toNat / 2 ^ 32
    let old := s.me.cq q.toNat
    let snap (hs : List HReg) : List (Nat × Handle) := hs.map fun h => (h.toNat, s.me.getH h)
    let all := snap ((List.range 32).map (BitVec.ofNat 5))
    let queued (i : Instr) (body : OpBody) (k : Compl) (bar : BarCnt) (sn : List (Nat × Handle)) (fo : Option Word96)
        (pre : Option CStat) : Prop :=
      (16 ≤ old.ops.length → exec i s = .next s) ∧
      (old.ops.length < 16 →
        ∃ n o, exec i s = .next n ∧ (n.me.cq q.toNat).assigned = old.assigned + 1 ∧ (n.me.cq q.toNat).ops = old.ops ++ [o] ∧
          (n.me.cq q.toNat).completed = old.completed ∧ o.n = old.assigned + 1 ∧ o.body = body ∧ o.k = k ∧ o.bar = bar ∧
          o.snap = sn ∧ o.fo = fo ∧ o.pre = pre ∧ o.phase = .queued ∧ (∀ j, j ≠ q.toNat → n.me.cq j = s.me.cq j) ∧
          n.me.hs.pc = s.me.hs.pc + 3 ∧ n.me.x = s.me.x ∧ n.me.c = s.me.c ∧ n.me.h = s.me.h ∧ n.mem = s.mem)
    let off (r : XReg) : Int := (x r).toInt
    queued (.cpy q bar race ha hb xa xb xc k)
      (.job ⟨.copy, race, ha.toNat, hb.toNat, 0, 0, off xa, off xb, w, r, false⟩) k bar (snap [ha, hb]) none none ∧
    queued (.cpyt q bar race b ha hb xa xb xc k)
      (.job ⟨.trans (if b then 2 else 1), race, ha.toNat, hb.toNat, 0, 0, off xa, off xb, w, r, false⟩) k bar (snap [ha, hb]) none none ∧
    queued (.cfill q bar race hb xa xb xc k)
      (.job ⟨.fill (x xa), race, hb.toNat, hb.toNat, 0, 0, 0, off xb, w, r, false⟩) k bar (snap [hb]) none none ∧
    queued (.cpymIn q bar race mode ha t xa 0 0 k)
      (.job ⟨.tileIn, race, ha.toNat, ha.toNat, t.toNat, mode.toNat, off xa, off xa, 0, 0, false⟩) k bar (snap [ha]) none none ∧
    queued (.cpymOut q bar race mode ha t xa 0 0 b k)
      (.job ⟨.tileOut, race, ha.toNat, ha.toNat, t.toNat, mode.toNat, off xa, off xa, 0, 0, b⟩) k bar (snap [ha]) none none ∧
    (xb ≠ 0 → ∀ v, followCheck (((x xb).setWidth 32 : BitVec 32) ++ x xc) = .ok v →
      queued (.cpymIn q bar race mode ha t xa xb xc k)
        (.job ⟨.tileIn, race, ha.toNat, ha.toNat, t.toNat, mode.toNat, off xa, off xa, 0, 0, false⟩) k bar all
        (some (((x xb).setWidth 32 : BitVec 32) ++ x xc))
        (if (x xb).toNat < 2 ^ 32 then none else some ⟨2, 0, 0, 0, 0⟩)) ∧
    queued (.cchain q ha xa k) (.chain ha.toNat (off xa)) k ⟨.none, 0⟩ all none none ∧
    queued (.strbind q bar race sn ha xa xc k)
      (.job ⟨.bind sn.toNat, race, ha.toNat, ha.toNat, 0, 0, off xa, 0, 512, w, false⟩) k bar (snap [ha]) none
      (if (x xc).toNat < 2 ^ 32 then none else some ⟨2, 0, 0, 0, 0⟩)

/-- R222, R240 to R242, Table 8.2: QPUSH queues the 64 bytes of eight registers and writes cd false, or cd true on a full queue without
waiting; CSTAT reads a held record's status word or offset, or the first failure, which selector 3 clears; CTLREAD reads the two
numbers of the queue; CCANCEL cancels what has not started and counts it. -/
def Claims.CopyQueueReads : Prop :=
  ∀ (q : CQ) (xa xc : XReg) (cd : CReg) (s : State), s.me.cqs.length = 4 →
    let v := s.me.cq q.toNat
    let n := (s.me.getX xa).toNat
    let put (x : X64) : Host.Outcome State Fault Refusal := .next (s.retired (s.me.setX xc x) (s.me.hs.pc + 3))
    let held (st : CStat) : Prop := n ≠ 0 ∧ n ≤ v.assigned ∧ v.assigned < n + 32 ∧ tabFind v.recs n = some st
    (16 ≤ v.ops.length → exec (.qpush q xa cd) s = .next (s.retired (s.me.setC cd true) (s.me.hs.pc + 3))) ∧
    (v.ops.length < 16 →
      ∃ t o, exec (.qpush q xa cd) s = .next t ∧ (t.me.cq q.toNat).ops = v.ops ++ [o] ∧ o.n = v.assigned + 1 ∧
        (t.me.cq q.toNat).assigned = v.assigned + 1 ∧
        o.body = .record ((List.range 8).flatMap fun i => bytesOf 8 (s.me.getX (xa + BitVec.ofNat 6 i)).toNat) ∧
        (cd ≠ 7 → t.me.getC cd = false) ∧ t.me.x = s.me.x ∧ t.me.hs.pc = s.me.hs.pc + 3 ∧ t.mem = s.mem) ∧
    (∀ st, held st →
      exec (.cstat q xa xc 0) s = put (BitVec.ofNat 64
        (st.code % 2 ^ 8 + 2 ^ 8 + st.side % 2 * 2 ^ 9 + st.sub % 16 * 2 ^ 12 + st.entry % 2 ^ 48 * 2 ^ 16)) ∧
      exec (.cstat q xa xc 1) s = put (BitVec.ofNat 64 st.off)) ∧
    ((∀ st, ¬ held st) → exec (.cstat q xa xc 0) s = put 0 ∧ exec (.cstat q xa xc 1) s = put 0) ∧
    exec (.cstat q xa xc 2) s = put (BitVec.ofNat 64 v.firstFail) ∧
    (∃ t, exec (.cstat q xa xc 3) s = .next t ∧ (xc ≠ 0 → t.me.getX xc = BitVec.ofNat 64 v.firstFail) ∧
      t.me.cq q.toNat = { v with firstFail := 0 } ∧ t.mem = s.mem ∧ t.me.hs.pc = s.me.hs.pc + 3) ∧
    exec (.ctlread q xc false) s = put (BitVec.ofNat 64 v.completed) ∧
    exec (.ctlread q xc true) s = put (BitVec.ofNat 64 v.assigned) ∧
    (v.unstarted = [] → exec (.ccancel q xc) s = put 0) ∧
    (∃ t, exec (.ccancel q xc) s = .next (t.retired (t.me.setX xc (BitVec.ofNat 64 v.unstarted.length)) (s.me.hs.pc + 3)) ∧
      t = v.unstarted.foldl (fun u n => u.cancelOp s.cur q.toNat n) s)

/-- R222, R242: an operation that is cancelled completes with CANCELLED: it leaves its queue, its record holds code 0x40, the timeline
advances over it in number order, and the first failure stays. -/
def Claims.CancelCompletes : Prop :=
  ∀ (s : State) (c q : Nat) (o : CopyOp), q < 4 → (s.core c).cqs.length = 4 → (s.core c).op q o.n = some o →
    o.phase = .queued → o.cur = none → o.fo = none → o.k.se = false → o.bar.mode = .none →
    let v := (s.core c).cq q
    let t := (s.cancelOp c q o.n).core c
    (t.cq q).ops = v.ops.filter (fun x => x.n ≠ o.n) ∧ tabFind (t.cq q).recs o.n = some ⟨0x40, 0, 0, 0, 0⟩ ∧
    (t.cq q).firstFail = v.firstFail ∧ (t.cq q).assigned = v.assigned ∧
    (o.n = v.completed + 1 → v.done = [] → (t.cq q).completed = o.n) ∧ t.x = (s.core c).x ∧ (s.cancelOp c q o.n).mem = s.mem

/-- R284 to R287: SWAIT of 0 retires at once; SWAIT of k on a semaphore without waiters takes k where the value reaches it, in the same
step, and otherwise waits in the semaphore's list. The register form takes number and count from xa and xb, and raises ARITH with subcode 5
and the register's value where it does not fit, xa before xb (log 27). SSIG adds k, or raises ARITH with subcode 5 and the number where the sum passes
2^32 - 1; SSET writes the value and returns the old one, or raises ARITH where xb passes 2^32 - 1. Each raises INTEGRITY where the
semaphore's word holds a double-bit error (R417, log 18). -/
def Claims.SemaphoreWords : Prop :=
  ∀ (n : BitVec 8) (cnt : BitVec 16) (xa xb xc : XReg) (die : BitVec 4) (s : State), s.curSt = .h → s.me.hs.wait = none →
    let key := s.me.world * 2048 + (if die = 15 then s.cur / 96 else die.toNat) * 256 + n.toNat
    let m := s.sem key
    let k := cnt.toNat
    let x := s.me.getX xb
    let goes (i : Instr) (v : BitVec 32) : Prop :=
      ∃ t, exec i s = .next t ∧ (t.sem key).value = v ∧ (t.sem key).waiters = [] ∧ (∀ j, j ≠ key → t.sem j = s.sem j) ∧
        t.me.hs.pc = s.me.hs.pc + 3 ∧ t.me.c = s.me.c ∧ t.mem = s.mem ∧ t.me.hs.wait = none
    let a := s.me.getX xa
    let traps (f : Flt) : Prop :=
      exec (.swait (.reg xa xb) die) s = .next (s.helmFault f) ∧ exec (.ssig (.reg xa xb) die) s = .next (s.helmFault f)
    (256 ≤ a.toNat → traps ⟨.arith, 5, a⟩) ∧ (a.toNat < 256 → 65536 ≤ x.toNat → traps ⟨.arith, 5, x⟩) ∧
    (a = n.setWidth 64 → x = cnt.setWidth 64 →
      exec (.swait (.reg xa xb) die) s = exec (.swait (.imm n cnt) die) s ∧
      exec (.ssig (.reg xa xb) die) s = exec (.ssig (.imm n cnt) die) s) ∧
    (s.semEcc.contains key = true → ∃ v, ∀ i ∈ [Instr.swait (.imm n cnt) die, .ssig (.imm n cnt) die, .sset n xb xc die],
      exec i s = .next (s.helmFault ⟨.integrity, 0, v⟩)) ∧
    (s.semEcc.contains key = false → m.waiters = [] →
    (k = 0 → goes (.swait (.imm n cnt) die) m.value) ∧
    (0 < k → k ≤ m.value.toNat → goes (.swait (.imm n cnt) die) (m.value - BitVec.ofNat 32 k)) ∧
    (m.value.toNat < k →
      ∃ t, exec (.swait (.imm n cnt) die) s = .next t ∧ (t.sem key).value = m.value ∧
        (t.sem key).waiters = [.strm s.cur .h k] ∧ t.me.hs.pc = s.me.hs.pc ∧ t.me.x = s.me.x ∧ t.mem = s.mem) ∧
    (m.value.toNat + k < 2 ^ 32 → goes (.ssig (.imm n cnt) die) (m.value + BitVec.ofNat 32 k)) ∧
    (2 ^ 32 ≤ m.value.toNat + k →
      exec (.ssig (.imm n cnt) die) s = .next (s.helmFault ⟨.arith, 5, n.setWidth 64⟩)) ∧
    (x.toNat < 2 ^ 32 → goes (.sset n xb xc die) (x.setWidth 32) ∧
      ∀ t, exec (.sset n xb xc die) s = .next t → xc ≠ 0 → t.me.getX xc = m.value.setWidth 64) ∧
    (2 ^ 32 ≤ x.toNat → exec (.sset n xb xc die) s = .next (s.helmFault ⟨.arith, 5, x⟩)))

/-- R44, R284, R286: SWAIT in L, S, V or M takes its count where the value reaches it and goes on at the next word, and otherwise stays where it
is, last in the semaphore's list. Stated for a word whose next is not the end of its section and of a semaphore without waiters. -/
def Claims.StreamSemaphoreWaits : Prop :=
  ∀ (n : BitVec 8) (cnt : BitVec 16) (die : BitVec 4) (s : State), s.curSt ≠ .h → s.served.wait = none →
    let key := s.me.world * 2048 + (if die = 15 then s.cur / 96 else die.toNat) * 256 + n.toNat
    let m := s.sem key
    let pc := s.served.pc
    s.served.leavesOpen (pc + 3) = false → s.served.sec ≠ some (pc + 3).toNat → s.semEcc.contains key = false → m.waiters = [] →
    (cnt.toNat ≤ m.value.toNat →
      ∃ t, exec (.swait (.imm n cnt) die) s = .next t ∧ (t.sem key).value = m.value - cnt.setWidth 32 ∧ (t.sem key).waiters = [] ∧
        (∀ j, j ≠ key → t.sem j = s.sem j) ∧ t.served.pc = pc + 3 ∧ t.served.wait = none ∧ t.served.levels = s.served.levels ∧
        t.me.x = s.me.x ∧ t.me.hs.pc = s.me.hs.pc ∧ t.mem = s.mem) ∧
    (m.value.toNat < cnt.toNat →
      ∃ t w, exec (.swait (.imm n cnt) die) s = .next t ∧ (t.sem key).value = m.value ∧
        (t.sem key).waiters = [.strm s.cur s.curSt cnt.toNat] ∧ t.served.pc = pc ∧ t.served.wait = some w ∧ w.done = false ∧
        t.me.x = s.me.x ∧ t.me.hs.pc = s.me.hs.pc ∧ t.mem = s.mem)

/-- R284, R287: a semaphore's oldest waiter is granted first, and no waiter is passed over: a signal that leaves the value below what
the oldest waiter asks grants nothing, and one that reaches it takes that much and answers it. -/
def Claims.SemaphoreGrantsOldest : Prop :=
  ∀ (s : State) (key c k : Nat) (st : Stream) (clk : Clock) (rest : List SemWaiter) (w : Wait), 0 < k →
    let m := s.sem key
    s.semEcc.contains key = false → m.waiters = .strm c st k :: rest → m.value.toNat + 1 < 2 ^ 32 → (s.strm c st).wait = some w →
    (m.value.toNat + 1 < k →
      ((s.signal key clk).sem key).value = m.value + 1 ∧ ((s.signal key clk).sem key).waiters = m.waiters ∧
        (s.signal key clk).cores = s.cores) ∧
    (k ≤ m.value.toNat + 1 → rest = [] →
      ((s.signal key clk).sem key).value = m.value + 1 - BitVec.ofNat 32 k ∧ ((s.signal key clk).sem key).waiters = [] ∧
        ((s.signal key clk).strm c st).wait.map (·.done) = some true ∧ (s.signal key clk).mem = s.mem)

/-- R288 to R292: an arrival at a well-formed record with PEND above 0 returns GEN and lowers PEND; the last one, with IN and OUT at 0,
starts the next generation with the counts reloaded. BARR fn 2 writes a record that was never used, fn 3 moves to the next
generation, BWAIT returns GEN where it has moved on and waits where it has not, and an arrival at a record that is malformed or exhausted
raises ARITH with subcode 7 or 6 and the scratchpad address of the home record. -/
def Claims.BarrierWords : Prop :=
  ∀ (h : HReg) (xa xb xc : XReg) (imm : BitVec 32) (s s1 : State) (key addr : Nat), s.me.hs.wait = none →
    (∀ d i, s.me.task = some (d, i) → (s.taskAt d i).marked = false) → s.barWs = [] →
    let off := (s.me.getX xa).toInt + imm.toInt
    let hd := s.me.getH h
    let r := s.barRec key
    let x := s.me.getX xb
    let good : Prop := 1 ≤ r.exp ∧ r.exp ≤ 96 ∧ r.pend ≤ r.exp ∧ r.rsv = 0
    let same (t : State) (v : X64) (pc : BitVec 16) : Prop :=
      (xc ≠ 0 → t.me.getX xc = v) ∧ t.me.hs.pc = pc ∧ t.me.c = s.me.c ∧
        (∀ a, a < key ∨ key + 16 ≤ a → memGet t.mem a = memGet s.mem a)
    let gen := BitVec.ofNat 64 r.gen
    let home : X64 := BitVec.ofNat 64 (key - 2 ^ 48)
    let pc := s.me.hs.pc
    let next : BarRec := { r with gen := (r.gen + 1) % 16, pend := r.exp, inn := r.inr, out := r.outr }
    let arrived : BarRec := if r.pend = 1 ∧ r.inn = 0 ∧ r.out = 0 then next else { r with pend := r.pend - 1 }
    (s.barCheck hd off true = .ok (key, addr, s1) →
      (good → 0 < r.pend →
        (∃ t, exec (.barrArrive h xa xc imm) s = .next t ∧ t.barRec key = arrived ∧ same t gen (pc + 3)) ∧
        (r.pend = 1 → r.inn = 0 → r.out = 0 →
          ∃ t, exec (.barrWait h xa xc imm) s = .next t ∧ t.barRec key = arrived ∧ same t gen (pc + 3)) ∧
        (¬ (r.pend = 1 ∧ r.inn = 0 ∧ r.out = 0) →
          ∃ t, exec (.barrWait h xa xc imm) s = .next t ∧ t.barRec key = arrived ∧ t.me.hs.pc = pc ∧ t.me.x = s.me.x ∧
            ∃ w, t.barWs = [⟨key, r.gen, s.cur, true, w⟩])) ∧
      (∀ i ∈ [Instr.barrArrive h xa xc imm, .barrWait h xa xc imm],
        (¬ good → exec i s = .next (s.helmFault ⟨.arith, 7, home⟩)) ∧
        (good → r.pend = 0 → exec i s = .next (s.helmFault ⟨.arith, 6, home⟩))) ∧
      (r.exp = 0 → x.toNat / 2 ^ 56 = 0 → 1 ≤ x.toNat % 256 → x.toNat % 256 ≤ 96 →
        ∃ t, exec (.barrInit h xa xb xc imm) s = .next t ∧ same t 1 (pc + 3) ∧
          t.barRec key = ⟨0, x.toNat % 256, x.toNat % 256, x.toNat / 2 ^ 8 % 2 ^ 24, x.toNat / 2 ^ 32 % 2 ^ 24,
            x.toNat / 2 ^ 8 % 2 ^ 24, x.toNat / 2 ^ 32 % 2 ^ 24, 0⟩) ∧
      (¬ (x.toNat / 2 ^ 56 = 0 ∧ 1 ≤ x.toNat % 256 ∧ x.toNat % 256 ≤ 96) →
        exec (.barrInit h xa xb xc imm) s = .next (s.helmFault ⟨.arith, 7, x⟩)) ∧
      (∃ t, exec (.barrReset h xa xc imm) s = .next t ∧ t.barRec key = next ∧ same t (BitVec.ofNat 64 next.gen) (pc + 3))) ∧
    (s.barCheck hd off false = .ok (key, addr, s1) →
      (16 ≤ x.toNat → exec (.bwait h xa xb xc imm) s = .next (s.helmFault ⟨.arith, 7, x⟩)) ∧
      (x.toNat < 16 → r.gen ≠ x.toNat → ∃ t, exec (.bwait h xa xb xc imm) s = .next t ∧ t.mem = s.mem ∧ same t gen (pc + 3)) ∧
      (r.gen = x.toNat → ∃ t, exec (.bwait h xa xb xc imm) s = .next t ∧ t.mem = s.mem ∧ t.me.hs.pc = pc ∧ t.me.x = s.me.x ∧
        ∃ w, t.barWs = [⟨key, x.toNat, s.cur, false, w⟩]))

/-- R294, R295, Table 10.5: AMO on an operand whose checks pass writes the new value of the operation, computed from the value read and
its registers, over that operand alone, and returns the value read: in xc, or for 128 bits in the pair xc and xc + 1. -/
def Claims.AtomicReadModifyWrite : Prop :=
  ∀ (op : AmoOp) (w : AmoWidth) (acq rel : Bool) (h : HReg) (xa xb xc : XReg) (imm : BitVec 32) (s : State) (ps : List Piece)
    (tab : Tab Sector),
    let n := match w with
      | .w4 => 4
      | .w8 => 8
      | .w16 => 16
    let arg (r : XReg) : Nat := if w = .w16 then (s.me.getX r).toNat + 2 ^ 64 * (s.me.getX (r + 1)).toNat else (s.me.getX r).toNat % 2 ^ (8 * n)
    let o := ofBytes ((piecesKeys ps).map (memGet s.mem))
    let b := arg xb
    let c := arg xc
    let sg (v : Nat) : Int := signedOf (8 * n) v
    let new : Nat := match op with
      | .add => (o + b) % 2 ^ (8 * n)
      | .fadd => fadd32 o b
      | .min => if sg b < sg o then b else o
      | .minn => min o b
      | .max => if sg o < sg b then b else o
      | .maxn => max o b
      | .and => Nat.land o b
      | .or => Nat.lor o b
      | .xor => Nat.xor o b
      | .swap => b
      | .cas => if o = c then b else o
    s.access (s.accOf s.cur .h) (s.me.getH h) ((s.me.getX xa).toInt + imm.toInt) n .atomic n false [1, 2, 3] s.sectors = .ok (ps, tab) →
    ∃ t, exec (.amo op w acq rel h xa xb xc imm) s = .next t ∧
      t.mem = memPuts s.mem ((piecesKeys ps).zip (bytesOf n new)) ∧
      (∀ a, a ∉ piecesKeys ps → memGet t.mem a = memGet s.mem a) ∧
      (w ≠ .w16 → xc ≠ 0 → t.me.getX xc = BitVec.ofNat 64 o) ∧
      (w = .w16 → xc.toNat % 2 = 0 → (xc ≠ 0 → t.me.getX xc = BitVec.ofNat 64 o) ∧ t.me.getX (xc + 1) = BitVec.ofNat 64 (o / 2 ^ 64)) ∧
      (∀ r, r ≠ xc → (w = .w16 → r ≠ xc + 1) → t.me.getX r = s.me.getX r) ∧ t.me.c = s.me.c ∧ t.me.h = s.me.h ∧
      t.me.hs.pc = s.me.hs.pc + 3

/-- R295, R296: VAMO whose block and lanes pass their checks applies its active lanes in ascending order, each as one atomic on what the
lanes before it left, its operand from the block, and writes their number to xc. With RET it then writes each lane's old value over
that lane's operand; without, the block keeps its bytes as far as no lane names them. No other byte changes. -/
def Claims.VectorAtomicsApply : Prop :=
  ∀ (op : AmoOp) (wd : AmoWidth) (acq rel ret : Bool) (ha hb : HReg) (xa xb xc : XReg) (s : State) (ps : List Piece)
    (tab tab2 : Tab Sector) (ls : List (Nat × List Piece)),
    let w := match wd with
      | .w4 => 4
      | .w8 => 8
      | .w16 => 16
    let a := s.accOf s.cur .h
    let block := (piecesKeys ps).map (memGet s.mem)
    let lanes := (List.range 128).filter fun i => decide (ofBytes ((block.drop (4 * i)).take 4) ≠ 0xFFFFFFFF)
    let operand (i : Nat) : Nat := ofBytes ((block.drop (512 + i * w)).take w)
    let old (m : Tab Byte) (l : Nat × List Piece) : Nat := ofBytes ((piecesKeys l.2).map (memGet m))
    let apply (m : Tab Byte) (l : Nat × List Piece) : Tab Byte :=
      memPuts m ((piecesKeys l.2).zip (bytesOf w (amoNew op (8 * w) (old m l) (operand l.1) 0)))
    let before (n : Nat) : Tab Byte := (ls.take n).foldl apply s.mem
    let back : List (Nat × Byte) := (List.range ls.length).flatMap fun n =>
      ((ls[n]?).map fun l => (((piecesKeys ps).drop (512 + l.1 * w)).take w).zip (bytesOf w (old (before n) l))).getD []
    (ret = true → checkHandle s.me.world (s.me.getH hb) (s.me.getX xb).toInt .load [2] = .ok ()) →
    s.access a (s.me.getH hb) (s.me.getX xb).toInt (512 + 128 * w) (if ret then .store else .load) 4 false [2] s.sectors = .ok (ps, tab) →
    vamoCheck s a (s.me.getH ha) w (vamoLanes block (s.me.getX xa).toInt w) tab = .ok (ls, tab2) →
    ∃ t, exec (.vamo op wd acq rel ret ha hb xa xb xc) s = .next t ∧ ls.map (·.1) = lanes ∧
      (xc ≠ 0 → t.me.getX xc = BitVec.ofNat 64 lanes.length) ∧ (∀ r, r ≠ xc → t.me.getX r = s.me.getX r) ∧
      t.mem = memPuts (before ls.length) (if ret then back else []) ∧
      (∀ k, (∀ l ∈ ls, k ∉ piecesKeys l.2) → (ret = true → k ∉ piecesKeys ps) → memGet t.mem k = memGet s.mem k) ∧
      t.me.hs.pc = s.me.hs.pc + 3 ∧ t.me.c = s.me.c ∧ t.me.h = s.me.h

/-- R93, R104, R297: FENCE enters the world's fence order and changes no register and no byte; the translation fence needs supervisor
mode, does nothing for a length of 0, and otherwise leaves no cached translation of the world that overlaps the range in the TLB of a core
that its scope covers, nor in the second-level TLB of the issuer's die, or of every die from the scope of the device on; the TLBs of other
cores stay. -/
def Claims.Fences : Prop :=
  ∀ (scope : BitVec 3) (xa xb : XReg) (s : State),
    let x := (s.me.getX xa).toNat
    let n := (s.me.getX xb).toNat
    let covers (d : Nat) : Prop := match scope.toNat with
      | 0 => d = s.cur
      | 1 => s.gangOf d = s.gangOf s.cur
      | 2 => d / 96 = s.cur / 96
      | _ => True
    let overlaps (e : TlbEnt) : Prop := e.world = s.me.world ∧ e.va < min (x + n) (2 ^ 57) ∧ x < e.va + e.size
    (∃ t, exec (.fence scope) s = .next t ∧ t.me.x = s.me.x ∧ t.me.c = s.me.c ∧ t.me.h = s.me.h ∧ t.mem = s.mem ∧
      t.me.hs.pc = s.me.hs.pc + 3 ∧ ∃ f, t.fences = s.fences ++ [f] ∧ f.world = s.me.world ∧ f.core = s.cur ∧ f.scope = scope.toNat) ∧
    (s.me.status.getLsbD 0 = false → exec (.fenceTranslation scope xa xb) s = .next (s.helmFault ⟨.privilege, 0, 0⟩)) ∧
    (s.me.status.getLsbD 0 = true → n = 0 →
      exec (.fenceTranslation scope xa xb) s = .next (s.retired s.me (s.me.hs.pc + 3))) ∧
    (s.me.status.getLsbD 0 = true → 0 < n →
      ∃ t, exec (.fenceTranslation scope xa xb) s = .next t ∧ t.mem = s.mem ∧ t.me.x = s.me.x ∧ t.me.hs.pc = s.me.hs.pc + 3 ∧
        (∀ d, covers d → ∀ e ∈ (tabFind t.tlb1 d).getD [], ¬ overlaps e) ∧ (∀ d, ¬ covers d → tabFind t.tlb1 d = tabFind s.tlb1 d) ∧
        (∀ z, 3 ≤ scope.toNat ∨ z = s.cur / 96 → ∀ e ∈ (tabFind t.tlb2 z).getD [], ¬ overlaps e))

/-- R110, R298: TLWAIT on the Helm writes xc with the completed value once it has reached xa, and stalls before. -/
def Claims.TimelineWait : Prop :=
  ∀ (ctx : BitVec 4) (xa xc : XReg) (q : OQ) (s : State),
    let done := if ctx.toNat = 4 then s.me.fab.completed else (s.me.cq ctx.toNat).completed
    (s.curSt = .h → done < (s.me.getX xa).toNat → exec (.tlwait ctx (.h xa xc)) s = .next s) ∧
    (s.curSt = .h → (s.me.getX xa).toNat ≤ done →
      ∃ t, exec (.tlwait ctx (.h xa xc)) s = .next t ∧ (xc ≠ 0 → t.me.getX xc = BitVec.ofNat 64 done) ∧
        (∀ r, r ≠ xc → t.me.getX r = s.me.getX r) ∧ t.me.hs.pc = s.me.hs.pc + 3 ∧ t.me.c = s.me.c ∧ t.mem = s.mem) ∧
    (s.curSt ≠ .h → s.served.leavesOpen (s.served.pc + 3) = false →
      ∀ e es, s.served.oqs.getD q.toNat [] = e :: es → e.val.toNat ≤ done → s.served.sec ≠ some (s.served.pc + 3).toNat →
        ∃ t, exec (.tlwait ctx (.oq q)) s = .next t ∧ t.served.pc = s.served.pc + 3 ∧
          (q.toNat < s.served.oqs.length → t.served.oqs.getD q.toNat [] = es) ∧ t.mem = s.mem)

/-- R299: FLWAIT retires with the flag's value where it satisfies the relation when the request arrives, and otherwise waits on it. -/
def Claims.FlagWait : Prop :=
  ∀ (rel : Rel) (h : HReg) (xa xb xc : XReg) (imm : BitVec 32) (s : State) (ps : List Piece), s.me.hs.wait = none →
    s.check (s.accOf s.cur .h) (s.me.getH h) ((s.me.getX xa).toInt + imm.toInt) 8 .load 8 [1, 3] = .ok ps →
    let v := BitVec.ofNat 64 (ofBytes ((piecesKeys ps).map (memGet s.mem)))
    let ok := Rel.holds rel v (s.me.getX xb)
    (ok = true → ∃ t, exec (.flwait rel h xa xb xc imm) s = .next t ∧ (xc ≠ 0 → t.me.getX xc = v) ∧
      (∀ r, r ≠ xc → t.me.getX r = s.me.getX r) ∧ t.me.hs.pc = s.me.hs.pc + 3 ∧ t.mem = s.mem) ∧
    (ok = false → ∃ t w, exec (.flwait rel h xa xb xc imm) s = .next t ∧ t.me.hs.pc = s.me.hs.pc ∧ t.me.x = s.me.x ∧ t.mem = s.mem ∧
      t.me.hs.wait = some w ∧ w.done = false)

/-- R301, R302: HEAPALLOC takes the lowest free run that holds the size rounded up to 64, zeroes it and returns its offset, or raises
SYNC_OVERFLOW with the size; HEAPFREE gives back the run that starts at its operand, or raises ARITH with subcode 9. -/
def Claims.SyncHeapWords : Prop :=
  ∀ (xa xc : XReg) (s : State),
    let x := s.me.getX xa
    let key := s.me.world * 8 + s.cur / 96
    let runs := (s.heap s.me.world (s.cur / 96)).runs
    let size := (x.toNat + 63) / 64 * 64
    let off := freeRun size runs 0
    let h := s.me.getH 3
    (x = 0 → ∃ v, exec (.heapalloc xa xc) s = .next (s.helmFault ⟨.arith, 8, v⟩)) ∧
    (x ≠ 0 → h.length.toNat < off + size → exec (.heapalloc xa xc) s = .next (s.helmFault ⟨.syncOverflow, 0, x⟩)) ∧
    (x ≠ 0 → off + size ≤ h.length.toNat → ∀ ps tab,
      s.access (s.accOf s.cur .h) h off size .store 1 true [3] s.sectors = .ok (ps, tab) →
      ∃ t v, exec (.heapalloc xa xc) s = .next t ∧ (xc ≠ 0 → t.me.getX xc = BitVec.ofNat 64 off) ∧
        tabFind t.heaps key = some v ∧ (∀ r, r ∈ v.runs ↔ r = (off, size) ∨ r ∈ runs) ∧
        t.mem = memPuts s.mem ((piecesKeys ps).zip (List.replicate size 0)) ∧ t.me.hs.pc = s.me.hs.pc + 3) ∧
    ((∀ r ∈ runs, r.1 ≠ x.toNat) → exec (.heapfree xa) s = .next (s.helmFault ⟨.arith, 9, x⟩)) ∧
    ((∃ r ∈ runs, r.1 = x.toNat) →
      ∃ t v, exec (.heapfree xa) s = .next t ∧ tabFind t.heaps key = some v ∧ v.runs = runs.filter (fun r => r.1 ≠ x.toNat) ∧
        t.mem = s.mem ∧ t.me.x = s.me.x ∧ t.me.hs.pc = s.me.hs.pc + 3)

/-- R303, R310, R311, R314, R324: SPAWN and TLAUNCH in a world that is not ending, with a control block that reads and checks and a free
entry, take that entry: a new incarnation of the issuer's world, WAITING on its first semaphore or READY at the tail of its level; xc gets
the identifier, and a future's first reference is the issuer's. Memory and the other registers stay. That a carried timeline is taken at the
number last assigned is the model's choice, its reading of R111 and R324 (log 30). -/
def Claims.LaunchTakesEntry : Prop :=
  ∀ (h : HReg) (xa xc : XReg) (carry : BitVec 5) (imm : BitVec 32) (future : Bool) (s : State) (r : TcbRead) (i : Nat),
    s.readTcb (s.me.getH h) ((s.me.getX xa).toInt + imm.toInt) s.me.code = .ok r → s.tokFault r.tcb.tok = none →
    (future = true → s.myRefs.length < 32) → s.freeEntry r.die = some i → (s.world s.me.world).st ≠ .ending →
    (∀ d0 i0, s.me.task = some (d0, i0) → taskKey d0 i0 ≠ taskKey r.die i) →
    let old := s.taskAt r.die i
    let key := semKey s.me.world r.die r.tcb.ws
    let id := taskId s.me.world (old.inc + 1) r.die future i
    ∃ t, exec (if future then .spawn h xa xc carry imm else .tlaunch h xa xc carry imm) s = .next t ∧
      (let n := t.taskAt r.die i
       n.inc = old.inc + 1 ∧ n.world = s.me.world ∧ n.future = future ∧ n.tcb = r.tcb ∧ n.code = s.me.code ∧ n.pri = r.tcb.pri ∧
        n.reach = (if future then 1 else 0) ∧ n.pub = none ∧
        (∀ c q v, (c, q, v) ∈ n.carry ↔ c = s.cur ∧ q < 5 ∧ carry.getLsbD q = true ∧
          v = if q = 4 then s.me.fab.assigned else (s.me.cq q).assigned) ∧
        (r.tcb.tok ≠ 0 → ∃ d' i', s.findTask s.me.world r.tcb.tok = some (d', i') ∧ n.refs = [(s.idOf d' i', 1)]) ∧
        (r.tcb.tok = 0 → n.refs = []) ∧
        (r.tcb.wcount = 0 → n.st = .ready ∧
          t.readyQ r.die s.me.world r.tcb.pri = s.readyQ r.die s.me.world r.tcb.pri ++ [i]) ∧
        (r.tcb.wcount ≠ 0 → (s.sem key).value = 0 → (s.sem key).waiters = [] → s.semEcc.contains key = false →
          n.st = .waiting ∧ (t.sem key).waiters = [.task r.die i n.inc.toNat])) ∧
      (xc ≠ 0 → t.me.getX xc = id) ∧ (∀ q, q ≠ xc → t.me.getX q = s.me.getX q) ∧
      (∀ d0 i0, future = true → s.me.task = some (d0, i0) → holdsRef (t.taskAt d0 i0).refs id = true) ∧
      t.me.c = s.me.c ∧ t.me.h = s.me.h ∧ t.me.hs.pc = s.me.hs.pc + 3 ∧ t.mem = s.mem

/-- R315, Table 11.1: an identifier's fields, and that a task which is not FREE is found by its identifier and by no identifier of
another world or another incarnation. -/
def Claims.TaskIdentifiers : Prop :=
  ∀ (s : State) (d i w : Nat) (id : X64), d ≤ 5 → i < 4096 → (s.taskAt d i).world < 4096 →
    let t := s.taskAt d i
    let n := (s.idOf d i).toNat
    n / 2 ^ 52 = t.world ∧ n / 2 ^ 20 % 2 ^ 32 = t.inc.toNat ∧ n / 2 ^ 16 % 16 = d ∧ n / 2 ^ 15 % 2 = (if t.future then 1 else 0) ∧
      n % 2 ^ 15 = i ∧
      (t.st ≠ .free → s.findTask t.world (s.idOf d i) = some (d, i)) ∧
      (s.findTask w id = some (d, i) → w = id.toNat / 2 ^ 52 ∧ t.world = w ∧ t.inc.toNat = id.toNat / 2 ^ 20 % 2 ^ 32 ∧ t.st ≠ .free)

/-- R314, R316, R327, R328: FREF and FDROP count a reference of the issuer and of the future's reach up and down; FGET of a published
future writes its result, and of a running one waits; FDONE publishes once and answers every Helm that waits. -/
def Claims.FutureWords : Prop :=
  ∀ (xa xc : XReg) (drop : Bool) (s : State) (d i d0 i0 : Nat), s.me.hs.wait = none → s.me.task = some (d0, i0) →
    let id := s.me.getX xa
    let t := s.taskAt d i
    let tok := s.idOf d i
    let mine := (s.taskAt d0 i0).refs
    let count (rs : List (X64 × Nat)) : Nat := ((rs.filter fun r => r.1 = tok).map (·.2)).sum
    let next (u : State) : Prop := u.me.hs.pc = s.me.hs.pc + 3 ∧ u.me.c = s.me.c ∧ u.me.h = s.me.h ∧ u.mem = s.mem
    let me := s.taskAt d0 i0
    (s.findTask s.me.world id = some (d, i) → t.future = true →
      (holdsRef mine tok = true → (mine.map (·.1)).Nodup →
        (t.reach < 65535 →
          ∃ u, exec (.fref xa) s = .next u ∧ next u ∧ u.me.x = s.me.x ∧ (u.taskAt d i).reach = t.reach + 1 ∧
            count (u.taskAt d0 i0).refs = count mine + 1) ∧
        (1 < t.reach →
          ∃ u, exec (.fdrop xa) s = .next u ∧ next u ∧ u.me.x = s.me.x ∧ (u.taskAt d i).reach = t.reach - 1 ∧
            count (u.taskAt d0 i0).refs + 1 = count mine) ∧
        (t.reach = 1 → t.st = .running →
          ∃ u, exec (.fdrop xa) s = .next u ∧ next u ∧ u.me.x = s.me.x ∧ (u.taskAt d i).marked = true) ∧
        (t.reach = 1 → t.st = .done →
          ∃ u, exec (.fdrop xa) s = .next u ∧ next u ∧ u.me.x = s.me.x ∧ (u.taskAt d i).st = .free)) ∧
      (t.st ≠ .waiting → t.st ≠ .ready →
        (∀ v, t.pub = some v →
          ∃ u, exec (.fget false xa xc) s = .next u ∧ next u ∧ (xc ≠ 0 → u.me.getX xc = v) ∧
            (∀ r, r ≠ xc → u.me.getX r = s.me.getX r) ∧ u.tasks = s.tasks) ∧
        (t.pub = none → t.st ≠ .done →
          ∃ u, exec (.fget false xa xc) s = .next u ∧ u.me.hs.pc = s.me.hs.pc ∧ u.me.x = s.me.x ∧ u.mem = s.mem ∧
            u.me.hs.wait = some ⟨.future d i, false, 0, [], 0⟩) ∧
        (t.pub = none → t.st = .done →
          exec (.fget drop xa xc) s = .next (s.helmFault ⟨.futureInvalid, 4, BitVec.ofNat 64 t.outcome.status⟩) ∨
          (drop = true ∧ holdsRef mine tok = false)))) ∧
    (me.future = true → me.pub = none →
      ∃ u, exec (.fdone xa) s = .next u ∧ next u ∧ u.me.x = s.me.x ∧ (u.taskAt d0 i0).pub = some id ∧
        ∀ c w, (s.strm c .h).wait = some w → w.kind = .future d0 i0 → w.done = false →
          ∃ w', (u.strm c .h).wait = some w' ∧ w'.done = true ∧ w'.value = id) ∧
    (me.future = true → me.pub ≠ none → exec (.fdone xa) s = .next (s.helmFault ⟨.futureInvalid, 2, s.idOf d0 i0⟩)) ∧
    (me.future = false → exec (.fdone xa) s = .next (s.helmFault ⟨.futureInvalid, 3, s.idOf d0 i0⟩))

/-- R325, R326: TARM in a world that is not ending arms a HELD task with the control block it names and makes it READY at the tail of its level;
TCANCEL writes the state's code and marks a running task, completes one in another state with CANCELLED, its wait withdrawn or its place in the
ready queue given up, and leaves a DONE one; REQUEUE writes the old priority and sets the new one. That TARM checks the block with the task's own
code handle, and that the task stays on its die, are the model's choices (log 30). -/
def Claims.TaskControl : Prop :=
  ∀ (h : HReg) (xa xb xc : XReg) (imm : BitVec 32) (s : State) (d i : Nat),
    let t := s.taskAt d i
    let next (u : State) : Prop :=
      u.me.hs.pc = s.me.hs.pc + 3 ∧ u.me.c = s.me.c ∧ u.me.h = s.me.h ∧ (∀ r, r ≠ xc → u.me.getX r = s.me.getX r)
    (∀ r, s.findTask s.me.world (s.me.getX xb) = some (d, i) → t.st = .held → (s.world t.world).st ≠ .ending →
      s.readTcb (s.me.getH h) ((s.me.getX xa).toInt + imm.toInt) t.code = .ok r →
      ∃ u, exec (.tarm h xa xb imm) s = .next u ∧ next u ∧ u.me.getX xc = s.me.getX xc ∧ u.mem = s.mem ∧
        (u.taskAt d i).st = .ready ∧ (u.taskAt d i).tcb = r.tcb ∧ (u.taskAt d i).inc = t.inc ∧ (u.taskAt d i).pri = r.tcb.pri ∧
        u.readyQ d t.world r.tcb.pri = s.readyQ d t.world r.tcb.pri ++ [i]) ∧
    (s.findTask s.me.world (s.me.getX xa) = some (d, i) →
      (t.st = .done →
        ∃ u, exec (.tcancel xa xc) s = .next u ∧ next u ∧ (xc ≠ 0 → u.me.getX xc = 5) ∧ u.tasks = s.tasks ∧ u.mem = s.mem) ∧
      (t.st = .running →
        ∃ u, exec (.tcancel xa xc) s = .next u ∧ next u ∧ (xc ≠ 0 → u.me.getX xc = 3) ∧
          u.taskAt d i = { t with marked := true } ∧ u.mem = s.mem) ∧
      (t.st ≠ .free → t.st ≠ .running → t.st ≠ .done → t.refs = [] → t.tcb.sigs = [] → t.cores = [] → t.recAt = .none →
        ∃ u, exec (.tcancel xa xc) s = .next u ∧ next u ∧
          (xc ≠ 0 → u.me.getX xc = if t.st = .waiting then 1 else if t.st = .ready then 2 else if t.st = .held then 4 else 6) ∧
          (t.st = .ready → i ∉ u.readyQ d t.world t.pri) ∧
          (t.st = .waiting → ∀ k, .task d i k ∉ (u.sem (semKey t.world d t.tcb.ws)).waiters) ∧
          (u.taskAt d i).outcome.status = 0x40 ∧ u.mem = s.mem ∧
          (u.taskAt d i).st = if t.future = true ∧ t.reach = 0 then .free else .done) ∧
      ((s.me.getX xb).toNat < 16 →
        ∃ u, exec (.requeue xa xb xc) s = .next u ∧ next u ∧ (xc ≠ 0 → u.me.getX xc = BitVec.ofNat 64 t.pri) ∧ u.mem = s.mem ∧
          (u.taskAt d i).pri = (s.me.getX xb).toNat ∧ (u.taskAt d i).st = t.st ∧
          (t.st = .ready →
            u.readyQ d t.world (s.me.getX xb).toNat =
              (s.readyQ d t.world (s.me.getX xb).toNat).filter (fun j => decide ((s.me.getX xb).toNat ≠ t.pri ∨ j ≠ i)) ++ [i])))

/-- R320, R329, R330, R331: RPOINT of a task that is not marked and YIELD with no yield pending only go on (YIELD of rank 0 adds the
position to the launch transcript); YIELD with one pending, its streams ended and its queues drained, waits for its gang; GPOS,
GANG and TSTAT write what they read. -/
def Claims.TaskPositions : Prop :=
  ∀ (xa xc : XReg) (s : State) (d i : Nat),
    let x := s.me.getX xa
    let t := s.taskAt d i
    let put (v : X64) : Host.Outcome State Fault Refusal := .next (s.retired (s.me.setX xc v) (s.me.hs.pc + 3))
    (s.me.task = some (d, i) →
      (t.marked = false → exec .rpoint s = .next (s.retired s.me (s.me.hs.pc + 3))) ∧
      (t.yieldPend = false →
        ∃ u, exec (.yield xa) s = .next u ∧ u.me = (s.retired s.me (s.me.hs.pc + 3)).me ∧ u.mem = s.mem ∧ u.tasks = s.tasks ∧
          (s.me.gang.toNat % 128 ≠ 0 → u.worlds = s.worlds) ∧
          (s.me.gang.toNat % 128 = 0 → (u.world s.me.world).trCount = (s.world s.me.world).trCount + 1 ∧
            (u.world s.me.world).readSet = [])) ∧
      (t.yieldPend = true → (∀ st, st ≠ .h → (s.me.strm st).run ≠ .running ∧ (s.me.strm st).run ≠ .stopped) → s.me.drained = true →
        ∃ u, exec (.yield xa) s = .next u ∧ u.me.hrun = .yielding ∧ u.me.hs.pc = s.me.hs.pc ∧ u.me.x = s.me.x ∧ u.mem = s.mem ∧
          s.cur ∈ (u.taskAt d i).yielded ∧ (s.me.gang.toNat % 128 = 0 → (u.taskAt d i).yieldPos = x)) ∧
      exec (.gpos xc) s = put t.gpos ∧
      (∀ c, t.cores[x.toNat]? = some c → exec (.gang xa xc) s = put (BitVec.ofNat 64 c)) ∧
      (t.cores[x.toNat]? = none → exec (.gang xa xc) s = .next (s.helmFault ⟨.arith, 11, x⟩))) ∧
    (s.me.task = none → exec .rpoint s = .next (s.retired s.me (s.me.hs.pc + 3)) ∧ exec (.gpos xc) s = put 0) ∧
    (s.findTask s.me.world x = some (d, i) →
      let code : Nat := match t.st with
        | .free => 0
        | .waiting => 1
        | .ready => 2
        | .running => 3
        | .held => 4
        | .done => 5
        | .yielded => 6
      exec (.tstat 0 xa xc) s = put (BitVec.ofNat 64
        (code + t.outcome.status * 2 ^ 8 + t.outcome.sub * 2 ^ 16 + t.pri * 2 ^ 24 + t.reach * 2 ^ 32)) ∧
      (t.pub = none → exec (.tstat 1 xa xc) s = put t.outcome.value) ∧
      (∀ v, t.pub = some v → t.outcome.status = 0 → exec (.tstat 1 xa xc) s = put v) ∧
      (t.st ≠ .running → exec (.tstat 2 xa xc) s = put 0x3FF) ∧
      (∀ c cs, t.st = .running → t.cores = c :: cs → exec (.tstat 2 xa xc) s = put (BitVec.ofNat 64 c)))

/-- R314, R315, R326, R331: FUTURE_INVALID where an identifier names no task of the issuer's world, a plain task where a future is
meant, or a future the issuer holds no reference to; a stale identifier reads 0 in TCANCEL, REQUEUE and TSTAT. -/
def Claims.TaskWordFaults : Prop :=
  ∀ (xa xb xc : XReg) (drop : Bool) (sel : BitVec 2) (s : State), s.me.hs.wait = none →
    let id := s.me.getX xa
    let bad (i : Instr) (n : Nat) : Prop := exec i s = .next (s.helmFault ⟨.futureInvalid, n, id⟩)
    let zero (i : Instr) : Prop := exec i s = .next (s.retired (s.me.setX xc 0) (s.me.hs.pc + 3))
    let stale : Prop := id.toNat / 2 ^ 52 = s.me.world ∧ id.toNat / 2 ^ 16 % 16 ≤ 5
    (s.findTask s.me.world id = none →
      bad (.fref xa) 1 ∧ bad (.fdrop xa) 1 ∧ bad (.fget drop xa xc) 1 ∧
      (stale → zero (.tcancel xa xc) ∧ zero (.tstat sel xa xc) ∧ ((s.me.getX xb).toNat < 16 → zero (.requeue xa xb xc))) ∧
      (¬ stale → bad (.tcancel xa xc) 1 ∧ bad (.tstat sel xa xc) 1 ∧
        ((s.me.getX xb).toNat < 16 → bad (.requeue xa xb xc) 1))) ∧
    (∀ d i, s.findTask s.me.world id = some (d, i) →
      ((s.taskAt d i).future = false → bad (.fref xa) 6 ∧ bad (.fdrop xa) 6 ∧ bad (.fget drop xa xc) 6) ∧
      ((s.taskAt d i).future = true → holdsRef s.myRefs (s.idOf d i) = false →
        bad (.fref xa) 5 ∧ bad (.fdrop xa) 5 ∧ bad (.fget true xa xc) 5))

/-- R339, R342 to R344, R348, R352, Table 12.4: an instruction of the fabric queue takes the next number and joins the queue with
snapshots of its handles, its offsets and its lengths, and the Helm goes on; with 64 operations not complete it stalls. -/
def Claims.FabricOperationsAreQueued : Prop :=
  ∀ (ha hb : HReg) (xa xb xc : XReg) (sig : Option (BitVec 8)) (imm : BitVec 32) (op : AmoOp) (w : AmoWidth) (fadd det : Bool)
    (s : State),
    let x (r : XReg) : X64 := s.me.getX r
    let n := (x xc).toNat
    let len := n % 2 ^ 13
    let rec_ := n / 2 ^ 16
    let old := s.me.fab
    let queued (i : Instr) (kind : FabKind) (lo : Int) (bad : Prop) : Prop :=
      (64 ≤ old.ops.length → exec i s = .next s) ∧
      (old.ops.length < 64 →
        ∃ t o, exec i s = .next t ∧ t.me.fab.assigned = old.assigned + 1 ∧ t.me.fab.ops = old.ops ++ [o] ∧
          t.me.fab.completed = old.completed ∧ o.n = old.assigned + 1 ∧ o.kind = kind ∧ o.remote = s.me.getH ha ∧
          o.localH = s.me.getH hb ∧ o.ro = (x xa).toInt ∧ o.lo = lo ∧ (o.bad = true ↔ bad) ∧ o.sig = sig.map BitVec.toNat ∧
          o.phase = .queued ∧ t.me.hs.pc = s.me.hs.pc + 3 ∧ t.me.x = s.me.x ∧ t.me.c = s.me.c ∧ t.me.h = s.me.h ∧ t.mem = s.mem)
    let lb : Int := (x xb).toInt
    let far (most : Nat) : Prop := n / 2 ^ 13 % 8 ≠ 0 ∨ len = 0 ∨ most < len
    queued (.rmst ha hb xa xb xc sig imm) (.rmst n imm.toNat) lb (65536 < n) ∧
    queued (.rmld ha hb xa xb xc sig) (.rmld n) lb (65536 < n) ∧
    queued (.rmamo op w ha hb xa xb xc sig imm) (.rmamo op w (x xb) (x xc) imm.toInt) imm.toInt False ∧
    queued (.mcst ha hb xa xb xc sig imm) (.mcst len rec_ imm.toNat) lb (far 4096) ∧
    queued (.mcld op w ha hb xa xb xc sig) (.mcld op w len rec_) lb (far 256) ∧
    queued (.spred fadd det ha hb xa xb xc sig imm) (.spred n fadd det imm.toNat) lb (65536 < n)

/-- R346, R347, R355: RFENCE waits until every operation issued has completed and writes the completed value; GJOIN in supervisor mode
writes the group entry that its 136 bytes describe, under the next incarnation; GLEAVE makes an entry not valid and raises its
incarnation. -/
def Claims.FabricFenceAndGroups : Prop :=
  ∀ (ha : HReg) (xa xb xc : XReg) (s : State) (ps : List Piece) (tab : Tab Sector),
    let v := s.me.fab
    let x := (s.me.getX xb).toNat
    let n := ofBytes ((piecesKeys ps).map (memGet s.mem))
    let next (t : State) : Prop :=
      t.me.hs.pc = s.me.hs.pc + 3 ∧ t.me.c = s.me.c ∧ t.me.h = s.me.h ∧ (∀ r, r ≠ xc → t.me.getX r = s.me.getX r) ∧ t.mem = s.mem
    let old := (s.world s.me.world).group x
    (v.completed < v.assigned → exec (.rfence xc) s = .next s) ∧
    (v.assigned ≤ v.completed →
      ∃ t, exec (.rfence xc) s = .next t ∧ next t ∧ (xc ≠ 0 → t.me.getX xc = BitVec.ofNat 64 v.completed)) ∧
    (s.me.status.getLsbD 0 = false → exec (.gjoin ha xa xb xc) s = .next (s.helmFault ⟨.privilege, 0, 0⟩)) ∧
    (s.me.status.getLsbD 0 = true →
      s.access (s.accOf s.cur .h) (s.me.getH ha) (s.me.getX xa).toInt 136 .load 8 false [1, 2, 3] s.sectors = .ok (ps, tab) →
      x ≤ 15 → n / 2 ^ 993 % 2 ^ 31 = 0 → n / 2 ^ 1031 = 0 → (∃ d, d < 993 ∧ n.testBit d = true ∧ d ≠ s.fabId) →
      ∃ t, exec (.gjoin ha xa xb xc) s = .next t ∧ next t ∧ (xc ≠ 0 → t.me.getX xc = (old.inc + 1).setWidth 64) ∧
        (let g := (t.world s.me.world).group x
         g.valid = true ∧ g.inc = old.inc + 1 ∧ g.win = n / 2 ^ 1024 % 128 ∧
          ∀ d k, (d, k) ∈ g.members ↔ d < 993 ∧ n.testBit d = true ∧ d ≠ s.fabId ∧ k = s.incOf d) ∧
        ∀ y, y ≠ x → (t.world s.me.world).group y = (s.world s.me.world).group y) ∧
    (x ≤ 15 →
      ∃ t, exec (.gleave xb) s = .next t ∧ t.me.hs.pc = s.me.hs.pc + 3 ∧ t.me.x = s.me.x ∧ t.mem = s.mem ∧
        (t.world s.me.world).group x = { old with valid := false, inc := old.inc + 1 } ∧
        ∀ y, y ≠ x → (t.world s.me.world).group y = (s.world s.me.world).group y)

/-- R340, R361, Tables 12.3, 12.6: LINKST reads a port's status word, the two numbers of the fabric queue, a held record's status word,
or the first failure, which selector 5 clears. -/
def Claims.LinkStatus : Prop :=
  ∀ (xa xc : XReg) (s : State),
    let x := (s.me.getX xa).toNat
    let v := s.me.fab
    let p := s.port x
    let put (i : Instr) (y : Nat) : Prop := exec i s = .next (s.retired (s.me.setX xc (BitVec.ofNat 64 y)) (s.me.hs.pc + 3))
    let held (st : FStat) : Prop := x ≠ 0 ∧ x ≤ v.assigned ∧ v.assigned < x + 64 ∧ tabFind v.recs x = some st
    let code : Nat := match p.st with
      | .down => 0
      | .training => 1
      | .attesting => 2
      | .opened => 3
      | .recovery => 4
      | .closed => 5
      | .idle => 6
    (x ≤ 31 → put (.linkst xa xc 0)
      (min p.retry 65535 * 2 ^ 48 + p.step % 2 ^ 24 * 2 ^ 24 + (if p.st = .idle then 2 ^ 18 else 0) + p.peer % 1024 * 2 ^ 8 +
        (if p.spareUsed then 2 ^ 6 else 0) + p.lanes % 4 * 2 ^ 4 + code)) ∧
    put (.linkst xa xc 1) v.completed ∧ put (.linkst xa xc 2) v.assigned ∧
    (∀ st, held st →
      put (.linkst xa xc 3) (st.dev % 1024 * 2 ^ 32 + st.sub % 16 * 2 ^ 12 + st.side % 2 * 2 ^ 9 + 2 ^ 8 + st.code % 2 ^ 8)) ∧
    ((∀ st, ¬ held st) → put (.linkst xa xc 3) 0) ∧
    put (.linkst xa xc 4) v.firstFail ∧
    ∃ t, exec (.linkst xa xc 5) s = .next t ∧ (xc ≠ 0 → t.me.getX xc = BitVec.ofNat 64 v.firstFail) ∧
      t.me.fab = { v with firstFail := 0 } ∧ t.me.hs.pc = s.me.hs.pc + 3 ∧ t.mem = s.mem

/-- R335, R336, R345, Table 12.1: a packet's first hop is MIN of its destination's entry, but where MIN's queue holds more than 64 flits more
than that of some non-minimal port in use it is the least occupied of those, the lowest-numbered on a tie. One sent again keeps away from the
hops that it took, where another is left: the model's reading (log 32). -/
def Claims.FirstHopChoice : Prop :=
  ∀ (e : BitVec 32) (flits : Nat → Nat) (taken : List Nat),
    let p := firstHop e [] flits
    (firstHop e taken flits ∈ rtMin e :: rtOther e ∧
      ((∃ q ∈ rtMin e :: rtOther e, q ∉ taken) → firstHop e taken flits ∉ taken)) ∧
    ((∀ q ∈ rtOther e, flits (rtMin e) ≤ flits q + 64) → p = rtMin e) ∧
    ((∃ q ∈ rtOther e, flits q + 64 < flits (rtMin e)) →
      p ∈ rtOther e ∧ ∀ q ∈ rtOther e, flits p < flits q ∨ (flits p = flits q ∧ p ≤ q)) ∧
    (rtOther e).length = e.toNat / 2 ^ 7 % 8 ∧ (∀ k < e.toNat / 2 ^ 7 % 8, (rtOther e)[k]? = some (e.toNat / 2 ^ (10 + 5 * k) % 32))

/-- R348: the copies of a multicast packet leave by the minimal first hops of its members: every member behind a neighbour is listed in one for
its port, none lists more than twelve, and one delivers at the neighbour exactly where that is a member. -/
def Claims.CopiesCoverMembers : Prop :=
  ∀ (s : State) (hub : Nat) (ms : List Nat),
    let copies := (List.range 32).flatMap fun p => copiesOf s hub p ms
    let e (d : Nat) : BitVec 32 := s.routeOf hub d
    (∀ d ∈ ms, rtDirect (e d) = false → ∃ x ∈ copies, x.1 = rtMin (e d) ∧ d ∈ x.2.2) ∧
    (∀ x ∈ copies, x.2.2.length ≤ 12 ∧ ∀ d ∈ x.2.2, d ∈ ms ∧ rtMin (e d) = x.1 ∧ rtDirect (e d) = false) ∧
    (∀ d ∈ ms, rtDirect (e d) = true → ∃ x ∈ copies, x.1 = rtMin (e d) ∧ x.2.1 = true) ∧
    (∀ x ∈ copies, x.2.1 = true → ∃ d ∈ ms, rtMin (e d) = x.1 ∧ rtDirect (e d) = true)

/-- R339, R340, R343, R345, R348: a queued fabric operation whose turn it is starts with its checks: a failing one completes with its code and no
side effect, a load of no byte with OK, and one whose target is not reachable with LINK_DOWN. A load or an atomic leaves as a request under the
next sequence number by its first hop, and waits there in RECOVERY; a multicast operation leaves as its copies to the members that are reachable,
in packets of 256 bytes, or is REMOTE_STALE where its group entry is not valid. Which of the two hubs packets leave by and the wait in RECOVERY
are the model's choices (log 32, log 33). -/
def Claims.FabricStarts : Prop :=
  ∀ (s : State) (c n : Nat) (o : FabOp), o ∈ (s.core c).fab.ops → (∀ x ∈ (s.core c).fab.ops, x.n = n ↔ x = o) → o.phase = .queued →
    s.fabMayStart c o = true →
    let done (t : State) (st : FStat) : Prop :=
      (t.core c).fab.ops = (s.core c).fab.ops.filter (fun x => x.n ≠ n) ∧ tabFind (t.core c).fab.recs n = some st ∧ t.mem = s.mem ∧
        t.out = s.out
    let id : ReqId := ⟨s.fabId, c, s.seq⟩
    let dev := o.remote.base.toNat / 2 ^ 47
    let hub := hubOf c
    let at_ : Int := (o.remote.base.toNat % 2 ^ 40 : Nat) + o.ro
    (∀ f, s.fabCheck c o = .error f →
      ∃ t, exec (.fabricStart c n) s = .next t ∧ done t ⟨f.code.num, if f.code = .translation then f.sub else 0, 0, 0⟩) ∧
    (s.fabCheck c o = .ok () →
      (o.kind = .rmld 0 → ∃ t, exec (.fabricStart c n) s = .next t ∧ done t ⟨0, 0, 0, 0⟩) ∧
      (o.kind.isMulticast = false → o.kind ≠ .rmld 0 → s.reachable hub dev = false →
        ∃ t, exec (.fabricStart c n) s = .next t ∧ done t ⟨0x39, 0, 1, dev⟩) ∧
      (s.reachable hub dev = true → (∃ k, o.kind = .rmld (k + 1)) ∨ (∃ op w a b r, o.kind = .rmamo op w a b r) →
        ∃ t w d, exec (.fabricStart c n) s = .next t ∧
          (let p := firstHop (s.routeOf hub dev) o.avoid (Config.queuedFlits d)
           let packet : Out := .packet p dev id w o.kind at_ none []
           ((s.port p).st = .opened → t.out = s.out ++ [packet]) ∧
           ((s.port p).st = .recovery → t.out = s.out ∧ (t.port p).hold = (s.port p).hold ++ [packet])) ∧
          w.win = o.remote.base.toNat / 2 ^ 40 % 128 ∧ w.inc = s.incOf dev ∧ t.seq = (s.seq + 1) % 2 ^ 32 ∧ t.mem = s.mem ∧
          ∃ o' ∈ (t.core c).fab.ops, o'.n = n ∧ o'.phase = .sent s.seq 0 s.now) ∧
      (∀ op w len r, o.kind = .mcld op w len r →
        let g := (s.world (s.core c).world).group (o.remote.base.toNat / 2 ^ 40 % 128)
        (g.valid = false → ∃ t, exec (.fabricStart c n) s = .next t ∧ done t ⟨0x3A, 0, 1, 0⟩) ∧
        (g.valid = true →
          ∃ t ms, exec (.fabricStart c n) s = .next t ∧
            (∀ d, d ∈ ms ↔ ∃ k, (d, k) ∈ g.members ∧ k = s.incOf d ∧ s.reachable hub d = true) ∧ t.mem = s.mem ∧
            (let copies := (List.range 32).flatMap fun p => copiesOf s hub p ms
             (∀ x ∈ copies, (s.port x.1).st = .opened) →
               t.out = s.out ++ copies.map fun x => .copies x.1 id x.2.1 x.2.2
                 ⟨(s.core c).world, (s.core c).world, g.win, g.inc.toNat⟩ o.kind at_ []))) ∧
      (∀ len r f ps, o.kind = .mcst len r f → o.prog = 0 → s.check (s.accFab c o) o.localH o.lo len .load 1 [1, 2] = .ok ps →
        let g := (s.world (s.core c).world).group (o.remote.base.toNat / 2 ^ 40 % 128)
        let data := (piecesKeys ps).map (memGet s.mem)
        g.valid = true →
          ∃ t ms, exec (.fabricStart c n) s = .next t ∧
            (∀ d, d ∈ ms ↔ ∃ k, (d, k) ∈ g.members ∧ k = s.incOf d ∧ s.reachable hub d = true) ∧ t.mem = s.mem ∧
            (let copies := (List.range 32).flatMap fun p => copiesOf s hub p ms
             (∀ x ∈ copies, (s.port x.1).st = .opened) →
               t.out = s.out ++ copies.flatMap fun x => (List.range (max 1 ((data.length + 255) / 256))).map fun k => .copies x.1 id x.2.1 x.2.2
                 ⟨(s.core c).world, (s.core c).world, g.win, g.inc.toNat⟩ (.mcst len r ((o.remote.base.toNat % 2 ^ 40 : Nat) + f))
                 (at_ + (256 * k : Nat)) ((data.drop (256 * k)).take 256))))

/-- R340, R342 to R345: a reply ends an operation in flight once: with its data written by a load, or with REMOTE_NAK or REMOTE_STALE and the
device; a store ends with the reply to its closing packet, and the source confirms it. After 2^21 cycles without one, or with its path lost, the
request goes out again, at most eight times and over a path that is left, and then it ends with LINK_DOWN. What makes a path is the model's
choice (log 32). Stated of an operation that no sweep has met. -/
def Claims.FabricReplies : Prop :=
  ∀ (u s : State) (q c n seq re since : Nat) (o : FabOp), n ≠ 0 → o ∈ (s.core c).fab.ops →
    (∀ x ∈ (s.core c).fab.ops, x.n = n ↔ x = o) → o.phase = .sent seq re since → o.kind.isMulticast = false → o.cut = none →
    let dev := o.remote.base.toNat / 2 ^ 47
    let hub := hubOf c
    let done (t : State) (st : FStat) : Prop :=
      (t.core c).fab.ops = (s.core c).fab.ops.filter (fun x => x.n ≠ n) ∧ tabFind (t.core c).fab.recs n = some st ∧
        (st.code = 0 → (t.core c).fab.firstFail = (s.core c).fab.firstFail)
    let came (bytes : Nat) : Prop := u.received bytes = .ok (q, s)
    (∀ k f d, o.kind = .rmst k f → o.flagOut = true → came d.length →
      ∃ t x, exec (.remoteReply c n (.ok d)) u = .next t ∧ done t ⟨0, 0, 0, 0⟩ ∧ t.mem = s.mem ∧
        (let p := firstHop (s.routeOf hub dev) o.avoid (Config.queuedFlits x)
         s.reachable hub dev = true → (s.port p).st = .opened → t.out = s.out ++ [.confirm p dev ⟨s.fabId, c, seq⟩])) ∧
    (∀ k d ps, o.kind = .rmld k → o.got = [] → d.length = k → came k →
      s.check (s.accFab c o) o.localH o.lo k .store 1 [1, 2] = .ok ps →
      ∃ t, exec (.remoteReply c n (.ok d)) u = .next t ∧ done t ⟨0, 0, 0, 0⟩ ∧ t.mem = memPuts s.mem ((piecesKeys ps).zip d)) ∧
    (came 0 →
      (∀ r, ∃ t, exec (.remoteReply c n (.nak r)) u = .next t ∧ done t ⟨0x38, r, 1, dev⟩ ∧ t.mem = s.mem) ∧
      (∃ t, exec (.remoteReply c n .stale) u = .next t ∧ done t ⟨0x3A, 0, 1, dev⟩ ∧ t.mem = s.mem)) ∧
    (s.now < since + 2097152 → s.pathLost o = false → exec (.resendTimeout c n) s = .next s) ∧
    (since + 2097152 ≤ s.now ∨ s.pathLost o = true →
      (8 ≤ re ∨ s.reachable hub dev = false →
        ∃ t, exec (.resendTimeout c n) s = .next t ∧ done t ⟨0x39, 0, 1, dev⟩ ∧ t.mem = s.mem) ∧
      (re < 8 → s.reachable hub dev = true →
        (∃ t, exec (.resendTimeout c n) s = .next t ∧ t.mem = s.mem ∧
          ∃ o' ∈ (t.core c).fab.ops, o'.n = n ∧ o'.phase = .sent seq (re + 1) s.now) ∧
        ((∃ k, o.kind = .rmld k) ∨ (∃ op w a b r, o.kind = .rmamo op w a b r) →
          ∃ t w d, exec (.resendTimeout c n) s = .next t ∧
            (let p := firstHop (s.routeOf hub dev) o.ports (Config.queuedFlits d)
             (s.port p).st = .opened → t.out = s.out ++ [.packet p dev ⟨s.fabId, c, seq⟩ w o.kind
               ((o.remote.base.toNat % 2 ^ 40 : Nat) + o.ro) none []]))))

/-- R335, R362, R394: what becomes of a point-to-point operation in flight that a sweep has met, `code` HANDLE_REVOKED or HANDLE_RIGHTS. A store or
reduction sends nothing more and ends so at its next turn, and a store or load at its next resend; a load writes the rest of the 4 KiB that it is
in and ends; an atomic that was applied leaves its old value unwritten. A store that no sweep has met but whose device is out of reach by
now ends with LINK_DOWN. -/
def Claims.SweptOperationsEnd : Prop :=
  ∀ (u s : State) (q c n seq re since code : Nat) (o : FabOp), n ≠ 0 → o ∈ (s.core c).fab.ops →
    (∀ x ∈ (s.core c).fab.ops, x.n = n ↔ x = o) → o.phase = .sent seq re since → o.kind.isMulticast = false →
    let ends (t : State) (st : FStat) : Prop :=
      (t.core c).fab.ops = (s.core c).fab.ops.filter (fun x => x.n ≠ n) ∧ tabFind (t.core c).fab.recs n = some st
    let done (t : State) (st : FStat) : Prop := ends t st ∧ t.out = s.out
    let dev := o.remote.base.toNat / 2 ^ 47
    let stops (i : Instr) (st : FStat) : Prop := ∃ t, exec i s = .next t ∧ done t st ∧ t.mem = s.mem
    ((∃ k f, o.kind = .rmst k f) → o.flagOut = false →
      (o.cut = some code → stops (.fabricStart c n) ⟨code, 0, 0, 0⟩) ∧
      (o.cut = none → s.reachable (hubOf c) dev = false → stops (.fabricStart c n) ⟨0x39, 0, 1, dev⟩)) ∧
    (o.cut = some code →
      (since + 2097152 ≤ s.now ∨ s.pathLost o = true → (∃ k f, o.kind = .rmst k f) ∨ (∃ k, o.kind = .rmld k) →
        stops (.resendTimeout c n) ⟨code, 0, 0, 0⟩) ∧
      (∀ op w a b r d, o.kind = .rmamo op w a b r → u.received d.length = .ok (q, s) →
        ∃ t p, exec (.remoteReply c n (.ok d)) u = .next t ∧ ends t ⟨code, 0, 0, 0⟩ ∧ t.mem = s.mem ∧
          (t.out = s.out ∨ t.out = s.out ++ [.confirm p dev ⟨s.fabId, c, seq⟩])) ∧
      (∀ k d ps, o.kind = .rmld k → o.got = [] → k ≤ 4096 → d.length = k → u.received k = .ok (q, s) →
        s.check (s.accFab c o) { o.localH with revoked := false, rights := (o.localH.rights ||| 0x40) &&& 0xFD } o.lo k .store 1 [1, 2] =
          .ok ps →
        ∃ t, exec (.remoteReply c n (.ok d)) u = .next t ∧ done t ⟨code, 0, 0, 0⟩ ∧ t.mem = memPuts s.mem ((piecesKeys ps).zip d)))

/-- R347, R349: once every member of a multicast store has answered, and its entry is as it was, the store writes its record of 64 bytes: the
number that applied it, the number that did not, the entry's incarnation, and the refusing members with their reasons, at most 28, in ascending
order; it ends with OK where all applied it, and else with REMOTE_NAK, the first one's reason and number. -/
def Claims.MulticastRecords : Prop :=
  ∀ (u s : State) (q c n seq re since len rec_ : Nat) (flag : Int) (o : FabOp) (rs : List MemberReply) (ps : List Piece), n ≠ 0 →
    u.received ((rs.map fun r => r.data.length).sum) = .ok (q, s) → o ∈ (s.core c).fab.ops →
    (∀ x ∈ (s.core c).fab.ops, x.n = n ↔ x = o) → o.phase = .sent seq re since → o.kind = .mcst len rec_ flag →
    o.cut = none → o.acks = [] → (o.members.map (·.1)).Nodup →
    (∀ m ∈ o.members, m.2 = 0) → (rs.map (·.dev)).Nodup → (∀ d, d ∈ rs.map (·.dev) ↔ d ∈ o.members.map (·.1)) →
    let noted := rs.foldl (fun s r => s.noteRefusal c r.reason) s
    noted.castStale c o = false → noted.check (noted.accFab c o) o.localH rec_ 64 .store 1 [1, 2] = .ok ps →
    ∃ (t : State) (order : List MemberReply), exec (.remoteReply c n (.members rs)) u = .next t ∧ order.Perm rs ∧ (order.map (·.dev)).Pairwise (· < ·) ∧
      (let bad := order.filter fun r => r.reason ≠ 0
       let listed := (bad.take 28).flatMap fun r => bytesOf 2 (r.dev % 1024 + r.reason % 16 * 4096)
       t.mem = memPuts s.mem ((piecesKeys ps).zip
         (bytesOf 2 (order.length - bad.length) ++ bytesOf 2 bad.length ++ bytesOf 4 o.inc ++ listed ++ List.replicate (56 - listed.length) 0)) ∧
       (t.core c).fab.ops = (s.core c).fab.ops.filter (fun x => x.n ≠ n) ∧
       tabFind (t.core c).fab.recs n = some (match bad with
         | [] => ⟨0, 0, 0, 0⟩
         | r :: _ => ⟨0x38, r.reason, 1, r.dev⟩))

/-- R338, R342 to R345, R350, R352, R353: at a target, a request of this device's incarnation through a window open to its source is applied
once. A packet of a store writes its bytes and is noted; a pair adds, or waits for the rest of its operation under `.det`; the
closing packet of an operation all of whose bytes have come raises its flag by 1; a delivery does both at once. Loads answer the bytes;
an atomic answers the old value. The reply of what was applied is kept. A reply leaves in packets of at most 256 bytes of data by first hops
of a hub that reaches its source, by its minimal one for a reduction, and for a member by the port that the request came by; it waits there in
RECOVERY. The request has come in by an open port. The closing packet, and the hub and port that a reply leaves by, are the model's choices
(log 32), and so is the wait (log 33). -/
def Claims.TargetRequests : Prop :=
  ∀ (u s : State) (id : ReqId) (w : WinRef) (win : Window) (off flag len total : Nat) (data : List Byte) (op : AmoOp) (wd : AmoWidth)
    (x y : X64) (q k : Nat) (v : BitVec 32) (fadd : Bool) (ps fs : List Piece),
    tabFind (s.world w.world).windows w.win = some win → (id.dev, w.srcWorld) ∈ win.sources → (s.world w.world).st = .live →
    win.opened = true → win.h.revoked = false → w.inc = s.incarnation → s.branches = [] →
    let ok (off size align : Nat) (k : Kind) (ps : List Piece) : Prop :=
      s.check (engineAcc 0 w.world) win.h off size k align [1, 2] = .ok ps
    let read (m : Tab Byte) (ps : List Piece) : List Byte := (piecesKeys ps).map (memGet m)
    let put (m : Tab Byte) (ps : List Piece) (bs : List Byte) : Tab Byte := memPuts m ((piecesKeys ps).zip bs)
    let hub := if s.reachable 0 id.dev then 0 else 1
    let route := s.routeOf hub id.dev
    let parts (r : Reply) : List (Nat × Reply) := match r with
      | .ok bs => (List.range (max 1 ((bs.length + 255) / 256))).map fun k => (256 * k, .ok ((bs.drop (256 * k)).take 256))
      | r => [(0, r)]
    let left (t : State) (hops : List Nat) (r : Reply) : Prop :=
      let all := (hops.zip (parts r)).map fun x => (x.1, Out.reply x.1 id x.2.1 x.2.2)
      t.out = s.out ++ (all.filter fun x => (s.port x.1).st = .opened).map (·.2) ∧
        ∀ p, (s.port p).st = .recovery → (t.port p).hold = (s.port p).hold ++ (all.filter fun x => x.1 = p).map (·.2)
    let sent (way : Way) (t : State) (r : Reply) : Prop := match way with
      | .tree p => left t ((parts r).map fun _ => p) r
      | .minimal => if s.reachable hub id.dev then left t ((parts r).map fun _ => rtMin route) r else t.out = s.out
      | .any taken =>
        if s.reachable hub id.dev then
          ∃ ds : List Nat, ds.length = (parts r).length ∧ left t (ds.map fun d => firstHop route taken (Config.queuedFlits d)) r
        else t.out = s.out
    let came (bytes : Nat) : Prop := u.received bytes = .ok (q, s)
    let kept (way : Way) (t : State) (r : Reply) : Prop := sent way t r ∧ t.cached id = some r
    let raised (m : Tab Byte) : Tab Byte := put m fs (bytesOf 8 (ofBytes (read m fs) + 1))
    let n : Nat := match wd with
      | .w4 => 4
      | .w8 => 8
      | .w16 => 16
    (ok off len 1 .load ps → came 0 →
      ∀ i ∈ [(Instr.remoteLoadRequest id w off len, Way.any []), (.multicastLoadRequest id w off len, .tree q)],
        ∃ t, exec i.1 u = .next t ∧ sent i.2 t (.ok (read s.mem ps)) ∧ t.mem = s.mem ∧ t.cores = s.cores ∧ t.cache = s.cache) ∧
    (s.cached id = none →
      ((∀ z ∈ s.incoming, z.id ≠ id) →
        (ok off data.length 1 .store ps → came data.length →
          ∃ t, exec (.remoteStorePacket id w off total data none) u = .next t ∧ t.mem = put s.mem ps data ∧ t.out = s.out ∧
            t.incoming = s.incoming ++ [⟨id, w, [(off, data.length)], [], 0, none⟩]) ∧
        (ok off 4 4 .atomic ps → came 8 →
          ∃ t, exec (.spredPairs id w total [⟨off, v, [(id, k)]⟩] fadd false none) u = .next t ∧ t.out = s.out ∧
            t.mem = put s.mem ps (bytesOf 4 (pairSum fadd (BitVec.ofNat 32 (ofBytes (read s.mem ps))) v).toNat) ∧
            t.incoming = s.incoming ++ [⟨id, w, [(k, 1)], [], 0, none⟩]) ∧
        (came 8 → ∃ t, exec (.spredPairs id w total [⟨off, v, [(id, k)]⟩] fadd true none) u = .next t ∧ t.out = s.out ∧ t.mem = s.mem ∧
          t.incoming = s.incoming ++ [⟨id, w, [(k, 1)], [(k, ⟨off, v, [(id, k)]⟩)], 0, none⟩])) ∧
      (∀ z, s.incoming = [z] → z.id = id → z.w = w → z.pairs = [] → z.nak = 0 → z.sum = total → ok flag 8 8 .store fs → came 0 →
        (∃ t, exec (.remoteStorePacket id w off total [] (some flag)) u = .next t ∧ t.mem = raised s.mem ∧ kept (.any []) t (.ok []) ∧
          t.incoming = []) ∧
        (∃ t, exec (.spredPairs id w total [] fadd false (some flag)) u = .next t ∧ t.mem = raised s.mem ∧ kept .minimal t (.ok []) ∧
          t.incoming = [])) ∧
      (ok off data.length 1 .store ps → ok flag 8 8 .store fs → came data.length →
        ∃ t, exec (.multicastDelivery id w s.incarnation off data flag) u = .next t ∧ t.mem = raised (put s.mem ps data) ∧
          kept (.tree q) t (.ok [])) ∧
      (ok off n n .atomic ps → came 0 →
        let old := ofBytes (read s.mem ps)
        ∃ t, exec (.remoteAtomicRequest id w off op wd x y) u = .next t ∧ kept (.any []) t (.ok (bytesOf n old)) ∧
          t.mem = put s.mem ps (bytesOf n (amoNew op (8 * n) old (x.toNat % 2 ^ (8 * n)) (y.toNat % 2 ^ (8 * n))))))

/-- R338, R345, R425, Table 12.2: a request whose window is not open to its source is refused with reason 1, and one whose window is revoked
with reason 2, and writes nothing; one of before the target's last reset is stale; one that was applied before gets its reply again and
changes nothing; the Lodestar answers whether a window is open, with its length. How a reply leaves is as for what is applied (log 32). -/
def Claims.TargetRefusalsAndReplays : Prop :=
  ∀ (u s : State) (id : ReqId) (w : WinRef) (off flag len total : Nat) (data : List Byte) (op : AmoOp) (wd : AmoWidth) (x y : X64)
    (q inc : Nat) (ps : List SPair) (fadd det : Bool) (fl : Option Nat) (wq : WinQuery),
    let shut : Prop := ∀ v, tabFind (s.world w.world).windows w.win = some v → (id.dev, w.srcWorld) ∉ v.sources
    let revoked : Prop := ∃ v, tabFind (s.world w.world).windows w.win = some v ∧ (id.dev, w.srcWorld) ∈ v.sources ∧ v.h.revoked = true ∧
      (s.world w.world).st = .live
    let hub := if s.reachable 0 id.dev then 0 else 1
    let route := s.routeOf hub id.dev
    let parts (r : Reply) : List (Nat × Reply) := match r with
      | .ok bs => (List.range (max 1 ((bs.length + 255) / 256))).map fun k => (256 * k, .ok ((bs.drop (256 * k)).take 256))
      | r => [(0, r)]
    let left (t : State) (hops : List Nat) (r : Reply) : Prop :=
      let all := (hops.zip (parts r)).map fun x => (x.1, Out.reply x.1 id x.2.1 x.2.2)
      t.out = s.out ++ (all.filter fun x => (s.port x.1).st = .opened).map (·.2) ∧
        ∀ p, (s.port p).st = .recovery → (t.port p).hold = (s.port p).hold ++ (all.filter fun x => x.1 = p).map (·.2)
    let sent (way : Way) (t : State) (r : Reply) : Prop := match way with
      | .tree p => left t ((parts r).map fun _ => p) r
      | .minimal => if s.reachable hub id.dev then left t ((parts r).map fun _ => rtMin route) r else t.out = s.out
      | .any taken =>
        if s.reachable hub id.dev then
          ∃ ds : List Nat, ds.length = (parts r).length ∧ left t (ds.map fun d => firstHop route taken (Config.queuedFlits d)) r
        else t.out = s.out
    let came (bytes : Nat) : Prop := u.received bytes = .ok (q, s)
    let load : Instr × Nat × Way := (.remoteLoadRequest id w off len, 0, .any [])
    let castLoad : Instr × Nat × Way := (.multicastLoadRequest id w off len, 0, .tree q)
    let store (fl : Option Nat) : Instr × Nat × Way := (.remoteStorePacket id w off total data fl, data.length, .any [])
    let cast : Instr × Nat × Way := (.multicastDelivery id w inc off data flag, data.length, .tree q)
    let atomic : Instr × Nat × Way := (.remoteAtomicRequest id w off op wd x y, 0, .any [])
    let pairs : Instr × Nat × Way := (.spredPairs id w total ps fadd det (some flag), 8 * ps.length, .minimal)
    let replied (r : Reply) (i : Instr × Nat × Way) : Prop := came i.2.1 →
      ∃ t, exec i.1 u = .next t ∧ t.mem = s.mem ∧ t.cores = s.cores ∧ t.cache = s.cache ∧ t.incoming = s.incoming ∧ sent i.2.2 t r
    let refuses (n : Nat) (i : Instr × Nat × Way) : Prop := came i.2.1 →
      ∃ t, exec i.1 u = .next t ∧ t.mem = s.mem ∧ t.cores = s.cores ∧ sent i.2.2 t (.nak n) ∧ t.cached id = some (.nak n)
    (s.branches = [] →
      (∀ r, s.cached id = some r → ∀ i ∈ [store fl, cast, atomic, pairs], replied r i) ∧
      (∀ n : Nat, (n = 1 ∧ shut) ∨ (n = 2 ∧ revoked) →
        (w.inc = s.incarnation → replied (.nak n) castLoad ∧ replied (.nak n) load) ∧
        (s.cached id = none →
          (inc = s.incarnation → refuses n cast) ∧
          (w.inc = s.incarnation → refuses n atomic ∧ ((∀ z ∈ s.incoming, z.id ≠ id) → refuses n (store none))))) ∧
      (w.inc ≠ s.incarnation →
        replied .stale load ∧ replied .stale castLoad ∧
        (s.cached id = none → ∀ i ∈ [store fl, atomic, pairs], replied .stale i)) ∧
      (inc ≠ s.incarnation → s.cached id = none → replied .stale cast)) ∧
    (∀ v, tabFind (s.world wq.world).windows wq.win = some v → v.opened = true → (wq.dev, wq.srcWorld) ∈ v.sources →
      exec (.windowOpenQuery wq) s = .next { s with out := s.out ++ [.window wq true v.h.length.toNat] }) ∧
    ((∀ v, tabFind (s.world wq.world).windows wq.win = some v → v.opened = false ∨ (wq.dev, wq.srcWorld) ∉ v.sources) →
      exec (.windowOpenQuery wq) s = .next { s with out := s.out ++ [.window wq false 0] })

/-- R336, R348, R349, R352: a router sends a merged pair on by its minimal port and drops its entry; it forwards a packet to another device by
the minimal port, a copy to each member listed, taking down whose replies it gathers, and replies toward their source; it does so for
packets of an open port only. The branches that a router keeps and the hub that serves a port are the model's choices (log 32). -/
def Claims.RouterForwards : Prop :=
  ∀ (u s : State) (i port dst : Nat) (id : ReqId) (here : Bool) (ms : List Nat) (w : WinRef) (kd : FabKind) (off : Int) (data : List Byte)
    (rs : List MemberReply) (m : MergeEnt),
    let hub := port / 16
    let hop (h d : Nat) : Nat := rtMin (s.routeOf h d)
    let goes (h d : Nat) : Prop := s.reachable h d = true ∧ d ≠ s.fabId ∧ (s.port (hop h d)).st = .opened
    (s.merge[i]? = some m → s.reachable m.hub m.dst = true → (s.port (hop m.hub m.dst)).st = .opened →
      ∃ t, exec (.mergeEvict i) s = .next t ∧ t.out = s.out ++ [.pairs (hop m.hub m.dst) m.dst m.w m.fadd false [m.pair]] ∧
        t.merge = s.merge.eraseIdx i ∧ t.mem = s.mem) ∧
    let packets (bytes : Nat) : Nat := max 1 ((bytes + 255) / 256)
    let came (bytes : Nat) : Prop := State.arriveBy port (packets bytes) u = .ok s
    ((u.port port).st ≠ .opened → ∀ what, exec (.packetForward port what) u = .next u) ∧
    (came 0 → goes hub dst →
      ∃ t, exec (.packetForward port (.packet dst)) u = .next t ∧ t.out = s.out ++ [.forward (hop hub dst) (.packet dst)] ∧ t.mem = s.mem) ∧
    (came data.length → ms ≠ [] → (∀ d ∈ ms, goes hub d) →
      ∃ t, exec (.packetForward port (.copy id here ms w kd off data)) u = .next t ∧ t.mem = s.mem ∧
        t.out = s.out ++ ms.flatMap (fun d => (List.range (packets data.length)).map fun k =>
          .forward (hop hub d) (.copy id true [d] w kd (off + (256 * k : Nat)) ((data.drop (256 * k)).take 256))) ∧
        t.branches = s.branches.filter (fun b => b.id ≠ id) ++ [⟨id, port, if here then s.fabId :: ms else ms, []⟩]) ∧
    (came ((rs.map fun r => r.data.length).sum) → (∀ b ∈ s.branches, b.id ≠ id) → goes hub id.dev →
      ∃ t, exec (.packetForward port (.replies id rs)) u = .next t ∧ t.out = s.out ++ [.forward (hop hub id.dev) (.replies id rs)] ∧
        t.mem = s.mem)

/-- R352: a pair that enters a router's merge table joins the entry of its element, the sum in place of its value and the operations that
contributed joined; no other entry changes, and nothing leaves. As time passes an entry held for more than 64 cycles goes on, by the minimal
port of its hub. The table's form is the model's (log 32). -/
def Claims.PairsMerge : Prop :=
  ∀ (s : State) (hub dst : Nat) (w : WinRef) (fadd : Bool) (p : SPair) (pre post : List MergeEnt) (m : MergeEnt),
    let same (e : MergeEnt) : Prop := e.hub = hub ∧ e.dst = dst ∧ e.w = w ∧ e.fadd = fadd ∧ e.pair.off = p.off
    s.merge = pre ++ m :: post → same m → (∀ e ∈ pre ++ post, ¬ same e) →
    s.agePairs.merge = s.merge.filter (fun e => decide (s.now ≤ e.since + 64)) ∧
    (let p := rtMin (s.routeOf hub dst)
     m.since + 64 < s.now → (∀ e ∈ pre ++ post, s.now ≤ e.since + 64) → s.reachable hub dst = true → (s.port p).st = .opened →
      s.agePairs.out = s.out ++ [.pairs p dst w fadd false [m.pair]]) ∧
    let t := s.mergePair hub dst w fadd p
    let sum : BitVec 32 :=
      if fadd then BitVec.ofNat 32 (rn32 (addF .rne (f32 m.pair.value.toNat) (f32 p.value.toNat))) else m.pair.value + p.value
    t.merge = pre ++ { m with pair := ⟨p.off, sum, m.pair.ops ++ p.ops⟩ } :: post ∧ t.out = s.out ∧ t.mem = s.mem

/-- R334, R357 to R359, R413, R414, R419: what happens to a port. A spare takes a failed lane's place, a second failure leaves half rate, a third
takes the port down; a retry counts; a ratchet starts the next epoch of a direction under its next key, and the receiver keeps the one before;
the fourth failed tag within 1,024 packets starts RECOVERY, after 2,400,000 cycles of which the link is DOWN; a port that is not fenced trains once
bring-up has come to function 0 and has not failed, and attests only once a fabric identifier is written. That STEP counts both directions, and
the event KEY_RATCHET, are the model's choices (log 33). -/
def Claims.PortEvents : Prop :=
  ∀ (s : State) (p lane : Nat),
    let v := s.port p
    let sets (i : Instr) (v' : Port) : Prop := ∃ t, exec i s = .next t ∧ t.port p = v' ∧ (∀ q, q ≠ p → t.port q = s.port q) ∧
      t.cores = s.cores ∧ t.mem = s.mem
    let near := v.fails.filter fun n => decide (v.rx < n + 1024)
    (lane < 2 → v.lanes ≠ 0 →
      (v.spareUsed = false → v.spareBad = false → sets (.laneFail p lane) { v with spareUsed := true }) ∧
      (v.spareUsed = true ∨ v.spareBad = true →
        (2 ≤ v.lanes → sets (.laneFail p lane) { v with lanes := v.lanes - 1 }) ∧
        (v.lanes = 1 → sets (.laneFail p lane) { v with lanes := 0, st := .down, hold := [], buf := [] }))) ∧
    (v.st = .opened →
      sets (.flitRetry p) { v with retry := min 65535 (v.retry + 1) } ∧
      sets (.keyRatchet p true)
        { v with txEpoch := v.txEpoch + 1, tx := (v.txEpoch + 1) * 2 ^ 24, step := v.step + 1, txKey := linkKeyNext v.txKey v.txEpoch } ∧
      sets (.keyRatchet p false)
        { v with rxEpoch := v.rxEpoch + 1, rx := (v.rxEpoch + 1) * 2 ^ 24, step := v.step + 1, rxKey := linkKeyNext v.rxKey v.rxEpoch,
                 rxOld := some v.rxKey, rxNew := 0 } ∧
      (near.length < 3 → sets (.linkRecovery p) { v with fails := near ++ [v.rx] }) ∧
      (3 ≤ near.length → sets (.linkRecovery p) { v with st := .recovery, since := s.now, fails := [] })) ∧
    (v.st ≠ .opened → exec (.linkRecovery p) s = .next s ∧ sets (.keyRatchet p true) v ∧ sets (.keyRatchet p false) v ∧ sets (.flitRetry p) v) ∧
    (v.st = .recovery → v.since + 2400000 ≤ s.now → sets (.linkRecoveryTimeout p) { v with st := .down, hold := [], buf := [] }) ∧
    (v.st = .recovery → s.now < v.since + 2400000 → exec (.linkRecoveryTimeout p) s = .next s) ∧
    (v.fenced = true → exec (.portTrain p) s = .next s) ∧
    let up : Prop := 5 ≤ s.stage ∧ (s.failed = 0 ∨ s.failed = 7)
    (¬ up → exec (.portTrain p) s = .next s) ∧
    (up → p < 32 → v.st = .down → v.fenced = false → ∃ t, exec (.portTrain p) s = .next t ∧ t.mem = s.mem ∧ t.cores = s.cores ∧
      (s.fabIdSet = false → (t.port p).st = .training) ∧
      (s.fabIdSet = true → (t.port p).st = if (s.expectedPeer p).isSome then .attesting else .idle))

/-- R357, R358: a packet that leaves, or is accepted next in order, moves its direction's counter on by one, and one sent again moves nothing; at
a multiple of 2^24 the direction's key steps by HKDF-Expand (log 7) over the label "stolor ratchet" and the epoch. The receiver holds the key of
its epoch, and that of the one before until it has accepted 4,096 packets. -/
def Claims.PacketCounters : Prop :=
  ∀ (v : Port),
    let label : List Byte := [115, 116, 111, 108, 111, 114, 32, 114, 97, 116, 99, 104, 101, 116]
    let next (k : BitVec 256) (i : Nat) : BitVec 256 := digestOf (hkdfExpand (digestBytes k) (label ++ beBytes 4 i))
    let txEdge := (v.txEpoch + 1) * 2 ^ 24
    let rxEdge := (v.rxEpoch + 1) * 2 ^ 24
    (v.tx + 1 < txEdge → v.sent = { v with tx := v.tx + 1 }) ∧
    (v.tx + 1 = txEdge → v.sent = { v with tx := txEdge, txEpoch := v.txEpoch + 1, step := v.step + 1, txKey := next v.txKey v.txEpoch }) ∧
    (v.rx + 1 < rxEdge →
      v.accepted.rx = v.rx + 1 ∧ v.accepted.rxKey = v.rxKey ∧ v.accepted.rxEpoch = v.rxEpoch ∧
      v.accepted.rxOld = if v.rxNew < 4095 then v.rxOld else none) ∧
    (v.rx + 1 = rxEdge →
      v.accepted.rx = rxEdge ∧ v.accepted.rxEpoch = v.rxEpoch + 1 ∧ v.accepted.rxKey = next v.rxKey v.rxEpoch ∧
      v.accepted.rxOld = some v.rxKey) ∧
    v.acceptedAt v.rx = v.accepted ∧
    (∀ n, n ≠ v.rx → (v.acceptedAt n).rx = v.rx ∧ (v.acceptedAt n).rxEpoch = v.rxEpoch ∧ (v.acceptedAt n).rxKey = v.rxKey ∧
      (v.acceptedAt n).rxOld = if n / 2 ^ 24 = v.rxEpoch ∧ 4095 ≤ v.rxNew then none else v.rxOld) ∧
    v.rxKeyOf v.rxEpoch = some v.rxKey ∧
    ∀ e, e ≠ v.rxEpoch → v.rxKeyOf e = if e + 1 = v.rxEpoch then v.rxOld else none

/-- R357, R359: a packet that goes out by an open port leaves sealed by AES-256-GCM under that direction's key, its nonce the direction's
salt and its 64-bit counter, its header authenticated, and moves the counter on; it stays in the retry buffer. A packet that comes in by an
open port is opened under the key held for its counter's epoch and accepted, or its tag counts as failed; nothing else changes. With no port
open none comes. The header's bytes, what the peer has acknowledged and which port it is are free values (log 33). -/
def Claims.PacketsAreSealed : Prop :=
  ∀ (s : State) (p : Nat) (o : Out),
    let v := s.port p
    let same (q : Nat) (a : State) : Prop := (∀ r, r ≠ q → a.port r = s.port r) ∧ { a with ports := s.ports, fresh := s.fresh } = s
    ((s.port p).st = .opened →
      ∃ x n, (s.sendOn p o).out = s.out ++ [o] ∧ (s.sendOn p o).wire = s.wire ++ [x] ∧
        (s.sendOn p o).port p = { v.sent with buf := v.buf.drop n ++ [o] } ∧ x.port = p ∧ x.counter = v.tx ∧
        (∃ salt : BitVec 32, x.nonce = beBytes 4 salt.toNat ++ beBytes 8 v.tx) ∧
        (∃ pt, gcmOpen (beBytes 32 v.txKey.toNat) x.nonce x.header x.body x.tag = some pt)) ∧
    (v.st = .opened → ∃ x : Wire,
      let far := linkKeyAt v.spdm.secret (if v.peer < s.fabId then 0 else 1) (x.counter / 2 ^ 24)
      x.port = p ∧ x.counter ≤ v.rx ∧ (∃ salt : BitVec 32, x.nonce = beBytes 4 salt.toNat ++ beBytes 8 x.counter) ∧
        (∃ pt, gcmOpen (beBytes 32 far.toNat) x.nonce x.header x.body x.tag = some pt) ∧
        (v.opens x = true ↔ ∃ k pt, v.rxKeyOf (x.counter / 2 ^ 24) = some k ∧
          gcmOpen (beBytes 32 k.toNat) x.nonce x.header x.body x.tag = some pt) ∧
        (v.opens x = true → ∃ a, State.arriveBy p 1 s = .ok a ∧ a.port p = v.acceptedAt x.counter ∧ same p a) ∧
        (v.opens x = false → ∃ a, State.arriveBy p 1 s = .error a ∧ a.port p = v.tagFailed s.now ∧ same p a)) ∧
    (v.st ≠ .opened → ∀ n, State.arriveBy p (n + 1) s = .error s) ∧
    (∀ bytes q a, s.received bytes = .ok (q, a) → q < 32 ∧ (s.port q).st = .opened ∧ same q a ∧
      ∃ b, (b.fresh = s.fresh + 1 ∧ { b with fresh := s.fresh } = s) ∧ State.arriveBy q (max 1 ((bytes + 255) / 256)) b = .ok a) ∧
    ((∀ q < 32, (s.port q).st ≠ .opened) → ∀ bytes, s.received bytes = .error s ∧
      ∀ c n r, n ≠ 0 → exec (.remoteReply c n r) s = .next s)

/-- R356, R357, R359, R364: a session goes through its messages in order. A link opens with FINISH exactly where the algorithms, the
measurements, mutual authentication and the expected peer all hold; otherwise it is CLOSED. KEY_UPDATE opens a link in RECOVERY under new keys
with its counters at 0, and the retry buffer and what waited go out; after 2,400,000 cycles the link is DOWN instead. The linear order, that the
first KEY_UPDATE opens the link, and how keys come from the secret are the model's choices (log 33, log 7). -/
def Claims.SessionMessages : Prop :=
  ∀ (s : State) (x : Sess) (p peer sid : Nat) (key : List Byte) (b : Bool),
    let v := s.spdm x
    let w := s.spdm (.port p)
    let messages : List (Nat × Instr × Spdm) :=
      [(2, .getCapabilities x, v), (3, .negotiateAlgorithms x b, { v with algs := b }), (4, .getDigests x, v),
       (5, .getCertificate x peer key, { v with peer := peer, key := key }), (6, .getMeasurements x b, { v with policy := b }),
       (7, .keyExchange x b sid, { v with mutAuth := b, sid := sid, secret := s.fresh })]
    let keyed (q : Port) (secret : Nat) : Prop :=
      q.st = .opened ∧ q.step = 0 ∧ q.tx = 0 ∧ q.rx = 0 ∧ q.txEpoch = 0 ∧ q.rxEpoch = 0 ∧ q.hold = [] ∧
        q.txKey = linkKey0 secret (if q.peer < s.fabId then 1 else 0) ∧ q.rxKey = linkKey0 secret (if q.peer < s.fabId then 0 else 1)
    (∀ m ∈ messages,
      (s.sessionUp x = true → v.stage + 1 = m.1 →
        ∃ t, exec m.2.1 s = .next t ∧ t.spdm x = { m.2.2 with stage := m.1 } ∧ t.mem = s.mem ∧ t.cores = s.cores) ∧
      (v.stage + 1 ≠ m.1 → exec m.2.1 s = .next s)) ∧
    (s.sessionUp x = true → v.stage ≠ 8 →
      ∃ t, exec (.getVersion x) s = .next t ∧ t.spdm x = { Spdm.none with stage := 1 } ∧ t.mem = s.mem ∧ t.cores = s.cores) ∧
    (s.sessionUp x = true → v.stage = 7 → v.algs = true → (∀ q, x ≠ .port q) →
      ∃ t, exec (.finish x) s = .next t ∧ t.spdm x = { v with stage := 8 } ∧ t.mem = s.mem ∧ t.cores = s.cores) ∧
    (s.sessionUp (.port p) = true → w.stage = 7 →
      let good : Prop := w.algs = true ∧ w.policy = true ∧ w.mutAuth = true ∧ s.expectedPeer p = some w.peer
      ∃ t, exec (.finish (.port p)) s = .next t ∧ t.mem = s.mem ∧ t.cores = s.cores ∧
        (good → keyed (t.port p) w.secret ∧ (t.port p).peer = w.peer) ∧ (¬ good → (t.port p).st = .closed)) ∧
    (s.sessionUp (.port p) = true → (s.port p).st = .recovery → s.now ≤ (s.port p).since + 2400000 →
      ∃ t, exec (.keyUpdate (.port p)) s = .next t ∧ t.mem = s.mem ∧ t.cores = s.cores ∧
        ((s.port p).buf = [] → (s.port p).hold = [] → keyed (t.port p) s.fresh) ∧
        (∀ b o, (s.port p).buf = [b] → (s.port p).hold = [o] →
          t.out = s.out ++ [b, o] ∧ (t.port p).st = .opened ∧ (t.port p).tx = 2)) ∧
    (s.sessionUp (.port p) = true → (s.port p).st = .recovery → (s.port p).since + 2400000 < s.now →
      ∃ t, exec (.keyUpdate (.port p)) s = .next t ∧ t.mem = s.mem ∧ t.cores = s.cores ∧ t.out = s.out ∧ (t.port p).st = .down) ∧
    (w.stage = 8 → ∃ t, exec (.endSession (.port p)) s = .next t ∧ (t.port p).st = .closed ∧ t.spdm (.port p) = Spdm.none ∧
      t.mem = s.mem ∧ t.cores = s.cores)

/-- R345, R360: a peer that resets has a new incarnation; its replay cache goes (log 33), every group entry that lists it, valid or not, is left,
and each operation in flight to it completes with REMOTE_STALE. Stated where one point-to-point operation is in flight to it and
no multicast one. -/
def Claims.PeerResetStales : Prop :=
  ∀ (s : State) (dev c : Nat) (o : FabOp) (same : Bool), s.flightsTo dev = [(c, o.n)] → s.castsTo dev = [] → o ∈ (s.core c).fab.ops →
    (∀ x ∈ (s.core c).fab.ops, x.n = o.n ↔ x = o) →
    ∃ t, exec (.peerReset dev same) s = .next t ∧ t.incOf dev = s.incOf dev + 1 ∧ tabFind t.cache dev = none ∧
      tabFind (t.core c).fab.recs o.n = some ⟨0x3A, 0, 1, dev⟩ ∧ o ∉ (t.core c).fab.ops ∧ t.mem = s.mem ∧
      (∀ w g, let old := (s.world w).group g
        (t.world w).group g = if dev ∈ old.members.map (·.1) then { old with valid := false, inc := old.inc + 1 } else old) ∧
      (∀ p, p < 32 → (s.port p).peer = dev → (t.port p).st = if same then .training else .closed)

/-- R347, R349, R360: a member that resets leaves a multicast operation in flight with reason 7, whether it had answered or not, and the
operation goes on where another member is still awaited. -/
def Claims.PeerResetDropsMember : Prop :=
  ∀ (s : State) (dev c : Nat) (o : FabOp) (same : Bool), s.flightsTo dev = [] → s.castsTo dev = [(c, o.n)] → o ∈ (s.core c).fab.ops →
    (∀ x ∈ (s.core c).fab.ops, x.n = o.n ↔ x = o) →
    (∃ m ∈ o.members, m.1 ≠ dev ∧ m.2 = 0 ∧ ∀ r ∈ o.acks, r.dev ≠ m.1) →
    ∃ t o', exec (.peerReset dev same) s = .next t ∧ o' ∈ (t.core c).fab.ops ∧ o'.n = o.n ∧ o'.phase = o.phase ∧ t.mem = s.mem ∧
      (∀ d r, (d, r) ∈ o'.members ↔ (d = dev ∧ r = 7 ∧ dev ∈ o.members.map (·.1)) ∨ (d ≠ dev ∧ (d, r) ∈ o.members)) ∧
      (∀ r, r ∈ o'.acks ↔ r ∈ o.acks ∧ r.dev ≠ dev)

/-- R368, R370, R390, R391: LMINT of a sound template gives hD the world's next serial and a valid seal; each unsound template answers its
status and mints nothing. LSEAL seals the register it names under the world's present key, or answers why not. Stated while
the Lodestar is idle and the Helm asks afresh; result words are those of Table 13.9. -/
def Claims.MintAndSeal : Prop :=
  ∀ (ha hd : HReg) (xa xc : XReg) (s : State) (ps : List Piece) (tab : Tab Sector), s.lodeIdle = true → s.me.hs.wait = none →
    let id := s.me.world
    let w := s.world id
    let img := Handle.ofImage (BitVec.ofNat 256 (ofBytes ((piecesKeys ps).map (memGet s.mem))))
    let next (t : State) (v : Nat) : Prop :=
      (xc ≠ 0 → t.me.getX xc = BitVec.ofNat 64 v) ∧ (∀ r, r ≠ xc → t.me.getX r = s.me.getX r) ∧ t.me.hs.pc = s.me.hs.pc + 3 ∧
        t.me.c = s.me.c ∧ t.mem = s.mem
    let h := s.me.getH hd
    let sealed (h : Handle) : Handle := { h with sealv := w.sealOf h, isSealed := true }
    (s.me.status.getLsbD 0 = false → exec (.lmint ha hd xa xc) s = .next (s.helmFault ⟨.privilege, 0, 0⟩)) ∧
    (s.me.status.getLsbD 0 = true → hd.toNat < 4 →
      s.access (s.accOf s.cur .h) (s.me.getH ha) (s.me.getX xa).toInt 32 .load 32 false [1, 2, 3] s.sectors = .ok (ps, tab) →
      ∃ t, exec (.lmint ha hd xa xc) s = .next t ∧ next t 0x09 ∧ t.me.h = s.me.h ∧ t.worlds = s.worlds) ∧
    (s.me.status.getLsbD 0 = true → 4 ≤ hd.toNat →
      s.access (s.accOf s.cur .h) (s.me.getH ha) (s.me.getX xa).toInt 32 .load 32 false [1, 2, 3] s.sectors = .ok (ps, tab) →
      let fails (v : Nat) : Prop := ∃ t, exec (.lmint ha hd xa xc) s = .next t ∧ next t v ∧ t.me.h = s.me.h ∧ t.worlds = s.worlds
      let plain : Prop := img.world.toNat = id ∧ img.serial = 0 ∧ img.sealv = 0
      let format : Prop := 1 ≤ img.format.toNat ∧ img.format.toNat ≤ 4
      (¬ plain → fails 0x02) ∧ (plain → ¬ format → fails 0x11) ∧ (plain → format → s.inReach id img = false → fails 0x10) ∧
      (plain → format → s.inReach id img = true → 2 ^ 32 ≤ w.nextSerial → fails (0x0A + 16 * 2 ^ 8)) ∧
      (plain → format → s.inReach id img = true → w.nextSerial < 2 ^ 32 →
        ∃ t, exec (.lmint ha hd xa xc) s = .next t ∧ next t (w.nextSerial * 2 ^ 16) ∧
          t.me.getH hd = { sealed (w.freezeRights { img with serial := BitVec.ofNat 32 w.nextSerial }) with revoked := false } ∧
          (∀ r, r ≠ hd → t.me.getH r = s.me.getH r) ∧ t.world id = { w with nextSerial := w.nextSerial + 1 })) ∧
    (let fails (v : Nat) : Prop := ∃ t, exec (.lseal hd xc) s = .next t ∧ next t v ∧ t.me.h = s.me.h
     let format : Prop := 1 ≤ h.format.toNat ∧ h.format.toNat ≤ 4
     (h.revoked = true → fails 0x13) ∧
     (h.revoked = false →
      (¬ format → fails 0x11) ∧
      (format → h.world.toNat ≠ id → fails 0x14) ∧
      (format → h.world.toNat = id → h.rights.getLsbD 0 = false → fails 0x11) ∧
      (format → h.world.toNat = id → h.rights.getLsbD 0 = true → w.isRevoked h.serial.toNat = true → fails 0x13) ∧
      (format → h.world.toNat = id → h.rights.getLsbD 0 = true → w.isRevoked h.serial.toNat = false →
        ∃ t, exec (.lseal hd xc) s = .next t ∧ next t (h.serial.toNat * 2 ^ 16) ∧ t.me.getH hd = sealed (w.freezeRights h) ∧
          ∀ r, r ≠ hd → t.me.getH r = s.me.getH r)))

/-- R369, R371 to R373, R392, R394: LREVOKE and LFREEZE start a sweep over every agent of the device and wait; the range of LREVOKE is
revoked from that step on. Once the sweep has answered, xc gets its result word. LREVOKE of a range that Table 13.9 excludes
answers ARITH with subcode 17, and one of count 0 has its record at once; that it takes the next sweep number is the model's choice (log 34), as is
the clock at arrival that the record holds (log 35). -/
def Claims.RevokeAndFreeze : Prop :=
  ∀ (ha hb : HReg) (xa xb xc : XReg) (imm : BitVec 32) (s : State) (ps : List Piece) (tab : Tab Sector),
    s.me.status.getLsbD 0 = true →
    let id := s.me.world
    let first := (s.me.getX xa).toNat
    let count := (s.me.getX xb).toNat
    let r := s.me.getH ha
    let same (t : State) : Prop := t.me.c = s.me.c ∧ t.me.h = s.me.h ∧ (∀ q, q ≠ xc → t.me.getX q = s.me.getX q)
    let rev : Instr := .lrevoke ha xa xb xc imm
    let frz : Instr := .lfreeze ha hb xa xc
    (∀ w, s.me.hs.wait = some w → w.seen = 1 →
      (w.done = true → ∀ i ∈ [rev, frz], ∃ t, exec i s = .next t ∧ same t ∧ (xc ≠ 0 → t.me.getX xc = w.value) ∧
        t.me.hs.pc = s.me.hs.pc + 3 ∧ t.me.hs.wait = none ∧ t.mem = s.mem) ∧
      (w.done = false → ∀ i ∈ [rev, frz], exec i s = .next s)) ∧
    (s.me.hs.wait = none → s.lodeIdle = true →
      (s.access (s.accOf s.cur .h) r imm.toInt 64 .store 8 false [1, 2, 3] s.sectors = .ok (ps, tab) →
        (first = 0 ∨ 2 ^ 32 ≤ first ∨ 2 ^ 32 < first + count →
          ∃ t, exec rev s = .next t ∧ same t ∧ (xc ≠ 0 → t.me.getX xc = BitVec.ofNat 64 (0x0A + 17 * 2 ^ 8)) ∧
            t.me.hs.pc = s.me.hs.pc + 3 ∧ t.mem = s.mem ∧ t.worlds = s.worlds ∧ t.sweep = none) ∧
        (0 < first → first < 2 ^ 32 → count = 0 →
          ∃ t, exec rev s = .next t ∧ same t ∧ t.me.hs.pc = s.me.hs.pc + 3 ∧ t.sweep = none ∧
            (xc ≠ 0 → t.me.getX xc = BitVec.ofNat 64 (((s.world id).sweepNo + 1) % 2 ^ 48 * 2 ^ 16)) ∧
            (∀ a, a ∉ piecesKeys ps → memGet t.mem a = memGet s.mem a)) ∧
        (0 < first → first + count ≤ 2 ^ 32 → 0 < count →
          ((s.world id).addRevoked first count).ranges.length ≤ 4096 →
          ∃ t w, exec rev s = .next t ∧ same t ∧ t.me.getX xc = s.me.getX xc ∧ t.me.hs.pc = s.me.hs.pc ∧ t.mem = s.mem ∧
            t.sweep = some w ∧ w.op = .revoke first count ∧ w.world = id ∧ w.who = some s.cur ∧ w.dst = piecesKeys ps ∧
            w.at0 = s.lclock ∧ t.lodeIdle = false ∧
            (∀ n, first ≤ n → n < first + count → (t.world id).isRevoked n = true) ∧
            (∀ n, (s.world id).isRevoked n = true → (t.world id).isRevoked n = true))) ∧
      (r.format ≠ 0 → r.revoked = true →
        ∃ t, exec frz s = .next t ∧ same t ∧ (xc ≠ 0 → t.me.getX xc = 0x13) ∧ t.me.hs.pc = s.me.hs.pc + 3 ∧ t.worlds = s.worlds) ∧
      (r.format ≠ 0 → r.revoked = false → r.world.toNat ≠ id →
        ∃ t, exec frz s = .next t ∧ same t ∧ (xc ≠ 0 → t.me.getX xc = 0x14) ∧ t.me.hs.pc = s.me.hs.pc + 3 ∧ t.worlds = s.worlds) ∧
      (r.format = 1 → r.revoked = false → r.world.toNat = id → r.rights.getLsbD 6 = true → r.rights.getLsbD 0 = true →
        s.access (s.accOf s.cur .h) (s.me.getH hb) (s.me.getX xa).toInt 32 .store 1 false [1, 2, 3] s.sectors = .ok (ps, tab) →
        (256 ≤ (s.world id).frozen.length →
          ∃ t, exec frz s = .next t ∧ same t ∧ (xc ≠ 0 → t.me.getX xc = BitVec.ofNat 64 (0x0A + 19 * 2 ^ 8)) ∧
            t.me.hs.pc = s.me.hs.pc + 3 ∧ t.mem = s.mem) ∧
        ((s.world id).frozen.length < 256 →
          ∃ t w, exec frz s = .next t ∧ same t ∧ t.me.getX xc = s.me.getX xc ∧ t.me.hs.pc = s.me.hs.pc ∧ t.mem = s.mem ∧
            t.sweep = some w ∧ w.op = .freeze r.base.toNat r.length.toNat ∧ w.world = id ∧ w.who = some s.cur ∧ w.dst = piecesKeys ps ∧
            w.at0 = s.lclock ∧ t.worlds = s.worlds)))

/-- R365, R376, R393: LSHARE takes a share that opens and fits, and the last one makes the world LIVE under the key that its shares
derive; LROTATE starts twelve marks at their regions' starts and answers the new generation, or ARITH with subcode 18 while a
rotation runs. Stated while the Lodestar is idle and the Helm asks afresh, in supervisor mode. That the number inside the blob is not compared and
the role is checked before the state are the model's choices (log 34), as is the wait for the berth's fresh scrub (log 36). -/
def Claims.SharesAndRotation : Prop :=
  ∀ (ha : HReg) (xa xb xc : XReg) (sig : Option (BitVec 8)) (s : State) (ps : List Piece) (tab : Tab Sector) (share : BitVec 256),
    s.lodeIdle = true → s.me.hs.wait = none → s.me.status.getLsbD 0 = true →
    let next (t : State) (v : Nat) : Prop :=
      (xc ≠ 0 → t.me.getX xc = BitVec.ofNat 64 v) ∧ (∀ r, r ≠ xc → t.me.getX r = s.me.getX r) ∧ t.me.hs.pc = s.me.hs.pc + 3 ∧
        t.me.c = s.me.c ∧ t.me.h = s.me.h ∧ t.mem = s.mem
    let blob := (piecesKeys ps).map (memGet s.mem)
    let role := (blob.getD 2 0).toNat
    let id := (s.me.getX xb).toNat
    let w := s.world id
    let mine := s.world s.me.world
    let size := (s.berth mine.berth).desc.toNat / 2 ^ 102 % 2 ^ 10 * 2 ^ 30
    let q := ((size + 11) / 12 + 4095) / 4096 * 4096
    let i : Instr := .lshare ha xa xb xc
    (id < 4096 → s.access (s.accOf s.cur .h) (s.me.getH ha) (s.me.getX xa).toInt 128 .load 1 false [1, 2, 3] s.sectors = .ok (ps, tab) →
      (s.openShare blob = none →
        ∃ t, exec i s = .next t ∧ next t (0x1A + 2 * 2 ^ 8) ∧ t.world s.me.world = { mine with integ := mine.integ + 1 } ∧
          ∀ d, d ≠ s.me.world → t.world d = s.world d) ∧
      (s.openShare blob = some share →
        (w.owners = 2 → role = 1 ∨ role = 2 → w.shares = [] → w.st = .awaiting →
          ∃ t, exec i s = .next t ∧ next t 0 ∧ t.world id = { w with shares := [(role, share)] }) ∧
        (w.owners = 1 → role = 3 → w.shares = [] → w.st = .awaiting → (s.berth w.berth).freshDone = true →
          ∃ t, exec i s = .next t ∧ next t (2 ^ 16) ∧ (t.world id).st = .live ∧ (t.world id).shares = [] ∧ (t.world id).gen = 1 ∧
            (t.world id).prk = prkOf s.lodestar id w.nonce (digestBytes share) ∧
            (t.world id).veils = (upFrom s.fresh 6).map Config.drbg ∧ id ∈ (t.berth w.berth).order) ∧
        (w.st ≠ .awaiting → roleFits w.owners role = true → tabFind w.shares role = none →
          ∃ t, exec i s = .next t ∧ next t (0x0A + 20 * 2 ^ 8) ∧ t.worlds = s.worlds) ∧
        (roleFits w.owners role = false ∨ tabFind w.shares role ≠ none →
          ∃ t, exec i s = .next t ∧ next t (0x0A + 21 * 2 ^ 8) ∧ t.worlds = s.worlds))) ∧
    (mine.rot ≠ none → ∃ t, exec (.lrotate xc sig) s = .next t ∧ next t (0x0A + 18 * 2 ^ 8) ∧ t.worlds = s.worlds) ∧
    (mine.rot = none →
      ∃ t rot, exec (.lrotate xc sig) s = .next t ∧ next t ((mine.gen + 1) % 2 ^ 48 * 2 ^ 16) ∧
        (t.world s.me.world).rot = some rot ∧ (t.world s.me.world).gen = mine.gen ∧ rot.marks.length = 12 ∧
        (∀ j < 12, rot.marks[j]? = some (min size (j * q))) ∧ rot.sig = sig.map fun n => (s.cur / 96, n.toNat))

/-- R380, R382, R384, R395: LSCRUB zeroes the banks that its mask selects, waiting until the core's streams have ended and its queues have
drained; LREPORT writes the report body and its signature under the next leaf; LTRANS stores the transcript and its count. That an empty mask does
not wait and that other banks keep what they hold are the model's choices (log 34), as are the orders of bytes that a digest or a signature takes
(log 7). -/
def Claims.ScrubAndReports : Prop :=
  ∀ (ha hb : HReg) (xa xb xc : XReg) (mask : BitVec 4) (s : State) (ps qs : List Piece) (tab tab2 : Tab Sector),
    s.lodeIdle = true → s.me.hs.wait = none →
    let next (t : State) (v : Nat) : Prop :=
      (xc ≠ 0 → t.me.getX xc = BitVec.ofNat 64 v) ∧ (∀ r, r ≠ xc → t.me.getX r = s.me.getX r) ∧ t.me.hs.pc = s.me.hs.pc + 3 ∧
        t.me.c = s.me.c ∧ t.me.h = s.me.h
    let runs : Prop := ∃ st, st ≠ .h ∧ ((s.me.strm st).run = .running ∨ (s.me.strm st).run = .stopped)
    let w := s.world s.me.world
    let a := s.accOf s.cur .h
    let lo := 2 ^ 48 + s.cur * 2097152
    (mask ≠ 0 → runs ∨ s.me.drained = false → exec (.lscrub xc mask) s = .next s) ∧
    (mask = 0 → ∃ t, exec (.lscrub xc mask) s = .next t ∧ next t 0 ∧ t.mem = s.mem ∧ t.me.veil = s.me.veil) ∧
    (mask ≠ 0 → ¬ runs → s.me.drained = true →
      ∃ t, exec (.lscrub xc mask) s = .next t ∧ next t 0 ∧ t.me.veil = Config.drbg s.fresh ∧ t.fresh = s.fresh + 1 ∧
        (∀ k, memGet t.mem k = if mask.getLsbD 0 ∧ lo ≤ k ∧ k < lo + 2097152 then 0 else memGet s.mem k) ∧
        t.me.vq = (if mask.getLsbD 1 then [] else s.me.vq) ∧ t.me.heads = (if mask.getLsbD 1 then [] else s.me.heads) ∧
        t.me.depths = (if mask.getLsbD 1 then List.replicate 64 16 else s.me.depths) ∧ t.me.tiles = (if mask.getLsbD 2 then [] else s.me.tiles) ∧
        t.me.mx.acc = (if mask.getLsbD 3 then [] else s.me.mx.acc)) ∧
    (s.me.status.getLsbD 0 = true → s.access a (s.me.getH ha) (s.me.getX xa).toInt 4116 .store 64 false [1, 2, 3] s.sectors = .ok (ps, tab) →
      s.access a (s.me.getH hb) (s.me.getX xb).toInt 64 .load 1 false [1, 2, 3] tab = .ok (qs, tab2) →
      let n := s.lodestar
      let leaf := (s.leavesOf n).use.1
      let body := s.reportBody s.me.world ((piecesKeys qs).map (memGet s.mem))
      ∃ t, exec (.lreport ha hb xa xb xc) s = .next t ∧ next t ((leaf.1 * 2 ^ 20 + leaf.2) % 2 ^ 48 * 2 ^ 16) ∧
        t.mem = memPuts s.mem ((piecesKeys ps).zip (body ++ bytesOf 3604 (Config.hssSign n leaf.1 leaf.2 body))) ∧
        t.leavesOf n = (s.leavesOf n).use.2) ∧
    (s.access a (s.me.getH ha) (s.me.getX xa).toInt 40 .store 8 false [1, 2, 3] s.sectors = .ok (ps, tab) →
      ∃ t, exec (.ltrans ha xa xc) s = .next t ∧ next t (w.trCount % 2 ^ 48 * 2 ^ 16) ∧
        t.mem = memPuts s.mem ((piecesKeys ps).zip (bytesOf 32 w.trT.toNat ++ bytesOf 8 w.trCount)))

/-- R383, R396: LWORLD answers the world's state, number and generation, takes a new root of the page tree, reads a region's progress,
or the Lodestar clock. Stated while the Lodestar is idle and the Helm asks afresh. -/
def Claims.WorldWords : Prop :=
  ∀ (xa xc : XReg) (s : State), s.lodeIdle = true → s.me.hs.wait = none →
    let id := s.me.world
    let w := s.world id
    let x := (s.me.getX xa).toNat
    let size := (s.berth w.berth).desc.toNat / 2 ^ 102 % 2 ^ 10 * 2 ^ 30
    let q := ((size + 11) / 12 + 4095) / 4096 * 4096
    let code : Nat := match w.st with
      | .none => 0
      | .awaiting => 1
      | .live => 2
      | .ending => 3
    let next (i : Instr) (v : Nat) (t : State) : Prop :=
      exec i s = .next t ∧ (xc ≠ 0 → t.me.getX xc = BitVec.ofNat 64 v) ∧ (∀ r, r ≠ xc → t.me.getX r = s.me.getX r) ∧
        t.me.hs.pc = s.me.hs.pc + 3 ∧ t.me.c = s.me.c ∧ t.me.h = s.me.h ∧ t.mem = s.mem
    let answers (i : Instr) (v : Nat) : Prop := ∃ t, next i v t ∧ t.worlds = s.worlds
    answers (.lworldState xa xc) ((code + id * 2 ^ 2 + w.gen % 2 ^ 32 * 2 ^ 14) % 2 ^ 48 * 2 ^ 16) ∧
    (s.me.status.getLsbD 0 = false → exec (.lworldRoot xa xc) s = .next (s.helmFault ⟨.privilege, 0, 0⟩)) ∧
    (s.me.status.getLsbD 0 = true →
      (x % 4096 ≠ 0 ∨ size ≤ x → answers (.lworldRoot xa xc) (0x18 + 4 * 2 ^ 8)) ∧
      (x % 4096 = 0 → x < size → ∃ t, next (.lworldRoot xa xc) 0 t ∧ t.world id = { w with root := x })) ∧
    (11 < x → answers (.lworldProgress xa xc) (0x0A + 15 * 2 ^ 8)) ∧
    (x ≤ 11 → w.rot = none → answers (.lworldProgress xa xc) (min size ((x + 1) * q) % 2 ^ 48 * 2 ^ 16)) ∧
    (∀ r, x ≤ 11 → w.rot = some r → answers (.lworldProgress xa xc) (2 ^ 8 + r.marks.getD x 0 % 2 ^ 48 * 2 ^ 16)) ∧
    answers (.lworldClock xa xc) (s.lclock % 2 ^ 48 * 2 ^ 16)

/-- R338, R425: LWINDOW. EXPORT opens the window named in xa to a device and a world through a sealed handle with F, or adds a source
to an open one; IMPORT asks the peer's Lodestar and waits, and records the window that it admits; CLOSE closes one. Stated in
supervisor mode while the Lodestar is idle, with operands in range; the order of these checks is the model's choice (log 34). -/
def Claims.WindowWords : Prop :=
  ∀ (ha : HReg) (xa xb xc : XReg) (s : State), s.lodeIdle = true → s.me.status.getLsbD 0 = true →
    let id := s.me.world
    let w := s.world id
    let n := (s.me.getX xa).toNat
    let y := (s.me.getX xb).toNat
    let src : Nat × Nat := (y % 2 ^ 10, y / 2 ^ 16)
    let h := s.me.getH ha
    let next (t : State) (v : Nat) : Prop :=
      (xc ≠ 0 → t.me.getX xc = BitVec.ofNat 64 v) ∧ (∀ r, r ≠ xc → t.me.getX r = s.me.getX r) ∧ t.me.hs.pc = s.me.hs.pc + 3 ∧
        t.me.c = s.me.c ∧ t.me.h = s.me.h ∧ t.mem = s.mem
    n < 128 → y / 2 ^ 10 % 2 ^ 6 = 0 → y < 2 ^ 28 → y % 2 ^ 10 ≤ 992 →
    (s.me.hs.wait = none → h.isSealed = true → h.revoked = false → h.world.toNat = id → h.format = 1 ∨ h.format = 2 → h.rights.getLsbD 3 = true →
      ((∀ v, tabFind w.windows n = some v → v.opened = false) →
        ∃ t, exec (.lwindowExport ha xa xb xc) s = .next t ∧ next t (2 ^ 16) ∧ tabFind (t.world id).windows n = some ⟨true, h, [src]⟩ ∧
          ∀ m, m ≠ n → tabFind (t.world id).windows m = tabFind w.windows m) ∧
      (∀ v, tabFind w.windows n = some v → v.opened = true → v.h.serial = h.serial → src ∉ v.sources → v.sources.length < 16 →
        ∃ t, exec (.lwindowExport ha xa xb xc) s = .next t ∧ next t ((v.sources.length + 1) * 2 ^ 16) ∧
          tabFind (t.world id).windows n = some { v with sources := v.sources ++ [src] }) ∧
      (∀ v, tabFind w.windows n = some v → v.opened = true → v.h.serial ≠ h.serial →
        ∃ t, exec (.lwindowExport ha xa xb xc) s = .next t ∧ next t (0x0A + 22 * 2 ^ 8) ∧ t.worlds = s.worlds)) ∧
    (s.me.hs.wait = none → h.isSealed = false → ∃ t, exec (.lwindowExport ha xa xb xc) s = .next t ∧ next t 0x12 ∧ t.worlds = s.worlds) ∧
    (s.me.hs.wait = none → w.imports.length < 256 →
      (s.reachable s.lodestar src.1 = true →
        ∃ t, exec (.lwindowImport xa xb xc) s = .next t ∧ t.out = s.out ++ [.ask s.cur ⟨src.1, id, src.2, n⟩] ∧
          t.me.hs.pc = s.me.hs.pc ∧ t.me.x = s.me.x ∧ t.mem = s.mem ∧ t.worlds = s.worlds ∧
          (∃ v, t.me.hs.wait = some v ∧ v.done = false) ∧
          t.lodeQ = [⟨.core s.cur (.importWin (s.me.getX xa) (s.me.getX xb)), s.lclock, true⟩]) ∧
      (s.reachable s.lodestar src.1 = false → ∃ t, exec (.lwindowImport xa xb xc) s = .next t ∧ next t 0x39 ∧ t.worlds = s.worlds)) ∧
    (∀ v, s.me.hs.wait = some v → v.done = true → ∀ i ∈ [Instr.lwindowExport ha xa xb xc, .lwindowImport xa xb xc, .lwindowClose xa xb xc],
      ∃ t, exec i s = .next t ∧ next t v.value.toNat ∧ t.me.hs.wait = none ∧ t.worlds = s.worlds) ∧
    (s.me.hs.wait = none → ∃ t, exec (.lwindowClose xa xb xc) s = .next t ∧ next t 0 ∧ tabFind (t.world id).windows n = none ∧
      ∀ m, m ≠ n → tabFind (t.world id).windows m = tabFind w.windows m)

/-- R425: the peer answers an import that a core waits for. Where the peer's window is open and admits the
world, the binding is recorded with the window's length, and the result word holds it; where not, the result is REMOTE_NAK with
SUB 1. The Lodestar then takes the next request. That the answer comes as the event REMOTE_REPLY with number 0 is the model's choice (log 19). -/
def Claims.ImportAnswers : Prop :=
  ∀ (s : State) (c since : Nat) (xa xb : X64) (w : Wait),
    let id := (s.core c).world
    let i (len : Nat) : Import := ⟨xb.toNat % 2 ^ 10, xb.toNat / 2 ^ 16 % 2 ^ 12, xa.toNat % 2 ^ 7, len⟩
    s.lodeQ = [⟨.core c (.importWin xa xb), since, true⟩] → s.sweep = none → s.lodeFenced = [] →
    (s.core c).hs.wait = some w → w.kind = .request → w.seen = 1 → w.done = false →
    (∀ data : List Byte, ∃ t, exec (.remoteReply c 0 (.ok data)) s = .next t ∧
      (t.core c).hs.wait = some { w with done := true, value := BitVec.ofNat 64 (ofBytes data % 2 ^ 48 * 2 ^ 16) } ∧
      i (ofBytes data) ∈ (t.world id).imports ∧ (∀ j ∈ (t.world id).imports, j = i (ofBytes data) ∨ j ∈ (s.world id).imports) ∧
      t.lodeQ = [] ∧ t.mem = s.mem ∧ (t.core c).x = (s.core c).x) ∧
    ∀ reason : Nat, ∃ t, exec (.remoteReply c 0 (.nak reason)) s = .next t ∧
      (t.core c).hs.wait = some { w with done := true, value := 0x138 } ∧ t.worlds = s.worlds ∧ t.lodeQ = [] ∧ t.mem = s.mem

/-- R372, R426: a request that finds the Lodestar busy joins the end of its queue, its Helm waits, and nothing else changes; every instruction
of Table 13.8 waits so, LSCRUB once its core has drained. That an LSCRUB of an empty mask waits for nothing is the model's choice (log 34). -/
def Claims.LodestarServesInTurn : Prop :=
  ∀ (ha hb hd : HReg) (xa xb xc : XReg) (imm : BitVec 32) (sig : Option (BitVec 8)) (mask : BitVec 4) (s : State),
    s.lodeIdle = false → s.me.hs.wait = none → s.me.status.getLsbD 0 = true →
    let waits (i : Instr) : Prop := ∃ t a, exec i s = .next t ∧ t.lodeQ = s.lodeQ ++ [a] ∧ a.since = s.lclock ∧ a.asked = false ∧
      t.me = { s.me with hs := { s.me.hs with wait := some ⟨.request, false, 0, [], 1⟩ } } ∧ t.mem = s.mem ∧ t.worlds = s.worlds ∧
      (∀ c, c ≠ s.cur → t.core c = s.core c)
    (∀ i ∈ [Instr.lmint ha hd xa xc, .lseal hd xc, .lrevoke ha xa xb xc imm, .lshare ha xa xb xc, .lrotate xc sig, .lfreeze ha hb xa xc,
      .lreport ha hb xa xb xc, .ltrans ha xa xc, .lworldState xa xc, .lworldRoot xa xc, .lworldProgress xa xc, .lworldClock xa xc,
      .lwindowExport ha xa xb xc, .lwindowImport xa xb xc, .lwindowClose xa xb xc], waits i) ∧
    (mask ≠ 0 → s.me.busy = false → s.me.drained = true → waits (.lscrub xc mask))

/-- R17, R40, R41: with instance numbers N and E counted from FORK without end, and E within the window that R41 gives, a wait at offset d toward a
stream that is not idle is satisfied exactly where instance N + d precedes the FORK or has retired; 0x80 and an idle stream satisfy
every wait. -/
def Claims.SectionWaitsAreExact : Prop :=
  ∀ (n e : Nat) (d : BitVec 8) (v : StreamSt) (helm : Bool),
    (d = 0x80 → ∀ m early, waitSatisfied m early d v helm = true) ∧
    (helm = false → v.run = .absent ∨ v.run = .ended → ∀ m early, waitSatisfied m early d v helm = true) ∧
    (d ≠ 0x80 → (helm = false → v.run = .running ∨ v.run = .stopped) → v.count.toNat = e % 256 →
      (n : Int) + d.toInt - 127 ≤ e → (e : Int) ≤ n + d.toInt + 128 →
      (waitSatisfied (n % 256) (decide (n < 128)) d v helm = true ↔ (n : Int) + d.toInt < 0 ∨ (n : Int) + d.toInt < e))

/-- R33, R34, R37 to R41: a section header at the pc of L, S, V or M, both its granules present, opens its instance once its waits hold, up to
the section's end; a BK header first stops the stream with DEBUG; a stream-end header restarts the stream at its entry point
while passes remain and ends it after the last. -/
def Claims.SectionsOpenAndEnd : Prop :=
  ∀ (s : State) (c : Nat) (st : Stream), st ≠ .h → (s.core c).absent = [] → (s.core c).ecc = [] → s.ecc2 = [] →
    let v := s.strm c st
    let pc := v.pc.toNat
    let word := BitVec.ofNat 64 (ofBytes ((upFrom (imemKey c (4 * pc)) 8).map (memGet s.mem)))
    v.run = .running → v.sec = none → pc + 2 ≤ codeLenOf (s.core c).code → (s.core c).hasGran pc = true →
    (s.core c).hasGran (pc + 1) = true →
    (∀ n bk offs, decodeHeader false word = .sect n bk offs →
      (s.waitsMet c st offs = false → exec (.sectionIssue c st) s = .next s) ∧
      (s.waitsMet c st offs = true → bk = false ∨ v.broke = true →
        ∃ t, exec (.sectionIssue c st) s = .next t ∧ (t.strm c st).sec = some (pc + 2 + 3 * n) ∧ (t.strm c st).pc = v.pc + 2 ∧
          (t.strm c st).count = v.count ∧ (t.strm c st).run = .running ∧ t.mem = s.mem ∧ ∀ st', st' ≠ st → t.strm c st' = s.strm c st') ∧
      (s.waitsMet c st offs = true → bk = true → v.broke = false →
        ∃ t, exec (.sectionIssue c st) s = .next t ∧ (t.strm c st).run = .stopped ∧ (t.strm c st).broke = true ∧
          (t.core c).pend = (s.core c).pend ++ [⟨⟨.debug, 0, v.pc.setWidth 64⟩, st, v.pc⟩] ∧ t.mem = s.mem)) ∧
    (∀ rep, decodeHeader false word = .endHdr rep →
      (v.passes < rep →
        ∃ t, exec (.streamEnd c st) s = .next t ∧ t.strm c st = { v with passes := v.passes + 1, pc := v.entry } ∧ t.mem = s.mem) ∧
      (rep ≤ v.passes → ∃ t, exec (.streamEnd c st) s = .next t ∧ t.strm c st = { v with run := .ended } ∧ t.mem = s.mem))

/-- R35, R38, R40: a header that the Helm executes, its granules present and every offset 0x80, retires the Helm's instance and goes on
at the word after it, with DEBUG there where BK is set. -/
def Claims.HelmHeaderRetiresInstance : Prop :=
  ∀ (s : State) (c n : Nat) (bk : Bool), (s.core c).absent = [] → (s.core c).ecc = [] → s.ecc2 = [] →
    let k := s.core c
    let pc := k.hs.pc.toNat
    let word := BitVec.ofNat 96 (ofBytes ((upFrom (imemKey c (4 * pc)) 12).map (memGet s.mem)))
    k.hrun = .running → pc + 3 ≤ codeLenOf k.code → (∀ i < 3, k.hasGran (pc + i) = true) → isHelmHeader word = true →
    decodeHeader true (word.extractLsb' 32 64) = .sect n bk [0x80, 0x80, 0x80, 0x80] → k.hs.sec ≠ some pc →
    (bk = false →
      ∃ t, exec (.hSectionHeader c) s = .next t ∧ (t.core c).hs.count = k.hs.count + 1 ∧ (t.core c).hs.pc = k.hs.pc + 3 ∧
        (t.core c).hs.early = (k.hs.early && decide (k.hs.count.toNat ≠ 127)) ∧ (t.core c).x = k.x ∧ (t.core c).h = k.h ∧ t.mem = s.mem) ∧
    (bk = true → k.tvec.getLsbD 0 = true → k.status.getLsbD 2 = true →
      ∃ t, exec (.hSectionHeader c) s = .next t ∧ (t.core c).hs.count = k.hs.count + 1 ∧ (t.core c).epc = (k.hs.pc + 3).setWidth 64 ∧
        (t.core c).etval = k.hs.pc.setWidth 64 ∧ (t.core c).cause.toNat % 256 = 0x3F ∧ (t.core c).hs.pc = k.tvec.extractLsb' 1 16 ∧
        (t.core c).x = k.x ∧ t.mem = s.mem)

/-- R22, R23, R127, R159, R281: a core without progress for 2^24 cycles has WATCHDOG pending; a pending fault is taken before the next Helm item,
those of H first and then L, S, V and M; an interrupted waiter leaves its engine; a WAITI whose time has come has its turn. That GROUP_UNBLOCK and
WAITI_DEADLINE put that turn at the front of the schedule is the model's choice (log 23), as is that only a running Helm is watched (log 41). -/
def Claims.MonitorAndPendingTraps : Prop :=
  ∀ (s : State) (c : Nat) (st : Stream) (p : Pend) (ps : List Pend),
    let k := s.core c
    (k.hrun = .running → k.progress + 2 ^ 24 ≤ s.now → (∀ q ∈ k.pend, q.flt.code ≠ .watchdog) →
      ∃ t v, exec (.stallMonitorExpiry c) s = .next t ∧
        t.core c = { k with pend := k.pend ++ [⟨⟨.watchdog, 0, v⟩, .h, 0⟩], progress := s.now } ∧ t.mem = s.mem ∧
        ∀ d, d ≠ c → t.core d = s.core d) ∧
    (s.now < k.progress + 2 ^ 24 → exec (.stallMonitorExpiry c) s = .next s) ∧
    (k.hrun = .running → k.absent = [] → k.ecc = [] → k.hs.wait = none → k.status.getLsbD 2 = true → k.tvec.getLsbD 0 = true →
      k.pend = p :: ps →
      (∀ q ∈ ps, streamNum p.st ≤ streamNum q.st) → p.flt.sub < 256 →
      ∃ t, exec (.takeTrap c) s = .next t ∧ (t.core c).epc = k.hs.pc.setWidth 64 ∧ (t.core c).etval = p.flt.value ∧
        (t.core c).cause.toNat = p.flt.code.num + p.flt.sub * 2 ^ 8 + streamNum p.st * 2 ^ 16 + (if ps = [] then 0 else 2 ^ 19) +
          p.group.toNat * 2 ^ 32 ∧
        (t.core c).pend = ps ∧ (t.core c).hs.pc = k.tvec.extractLsb' 1 16 ∧ (t.core c).status.getLsbD 0 = true ∧
        (t.core c).status.getLsbD 2 = false ∧ (t.core c).x = k.x ∧ t.mem = s.mem) ∧
    (k.pend = [] → exec (.takeTrap c) s = .next s) ∧
    (∀ die idx w, k.hs.wait = some w → w.kind = .future die idx → w.done = false → k.pend ≠ [] → k.status.getLsbD 2 = true →
      ∃ t, exec (.waiterWithdraw c .h) s = .next t ∧ t.core c = { k with hs := { k.hs with wait := none } } ∧ t.mem = s.mem ∧
        t.sems = s.sems) ∧
    (∀ w, k.hs.wait = some w → w.kind = .request → w.seen = 0 → k.pend ≠ [] →
      exec (.waitiDeadline c) s = .next { s with agenda := .stream c .h :: s.agenda }) ∧
    (k.hs.wait = none → exec (.waitiDeadline c) s = .next s) ∧
    exec (.groupUnblock c st) s = .next { s with agenda := .stream c st :: s.agenda }

/-- R27, R32, R122, R123, R198: a slate fill that has started ends with the granules of its target as instruction memory holds them, up to 24 and
within the code handle. The fetch agent fills granules within the code handle that are not there with the code object's bytes, changing no other
byte of memory, and changes nothing where they are there, where the access fails, or before the code handle has been restored. A drowsy bank shows
only as time. When the agent fills ahead, and that drowsiness has no other effect, are the model's choices (log 22, log 40). -/
def Claims.FillsAndBanks : Prop :=
  ∀ (s : State) (c i bank gran count : Nat) (target : BitVec 16) (v : Bool),
    let k := s.core c
    let n := min 24 (codeLenOf k.code - target.toNat)
    (k.slates[i]? = some ⟨target, v, .filling⟩ →
      ∃ t gs, exec (.slateFillDone c i) s = .next t ∧ (t.core c).slates[i]? = some ⟨target, v, .full gs⟩ ∧ gs.length = n ∧
        (∀ j < n, gs[j]? = some (BitVec.ofNat 32 (s.gran c (target.toNat + j)))) ∧
        (∀ j, j ≠ i → (t.core c).slates[j]? = k.slates[j]?) ∧ (t.core c).x = k.x ∧ (t.core c).hs = k.hs ∧ t.mem = s.mem) ∧
    (k.hrun ≠ .idle → (∀ g, gran ≤ g → g < gran + count → k.hasGran g = true) → exec (.codeFill c gran count) s = .next s) ∧
    (k.hrun ≠ .idle → k.absent = [] → gran < codeLenOf k.code → k.hasGran gran = false →
      (∀ ps, s.check (s.accOf c .h) k.code ((4 * gran : Nat) : Int) 4 .fetch 4 [1] = .ok ps →
        ∃ t, exec (.codeFill c gran 1) s = .next t ∧ (t.core c).hasGran gran = true ∧
          (∀ j < 4, memGet t.mem (imemKey c (4 * gran) + j) = (s.readBytes ps).getD j 0) ∧
          (∀ a, a < imemKey c (4 * gran) ∨ imemKey c (4 * gran) + 4 ≤ a → memGet t.mem a = memGet s.mem a) ∧
          (t.core c).x = k.x ∧ (t.core c).h = k.h ∧ (t.core c).hs = k.hs ∧ (∀ d, d ≠ c → t.core d = s.core d)) ∧
      (∀ f, s.check (s.accOf c .h) k.code ((4 * gran : Nat) : Int) 4 .fetch 4 [1] = .error f → exec (.codeFill c gran 1) s = .next s)) ∧
    (∃ t, exec (.codeFill c gran count) s = .next t ∧ (t.core c).x = k.x ∧ (t.core c).h = k.h ∧ (t.core c).hs = k.hs ∧
      (t = s ∨ ∀ g, gran ≤ g → g < gran + count → g < codeLenOf k.code → (t.core c).hasGran g = true)) ∧
    (k.hrun = .idle ∨ k.absent.contains 0x300 = true ∨ codeLenOf k.code ≤ gran → exec (.codeFill c gran count) s = .next s) ∧
    ∃ t, exec (.bankDrowsy c bank) s = .next t ∧ t.core c = { k with drowsy := (t.core c).drowsy } ∧
      (∀ d, d ≠ c → t.core d = s.core d) ∧ t.mem = s.mem

/-- R268 to R271: a landed word enters the follow-on queue while it holds fewer than eight, and FOA counts it; the array takes the head,
M standing aside and the bucket full, with its whole effect on the accumulators, or discards it with a fault that CAUSE.SUB bit 7
marks and counts it in FOC; a pass that ends counts the follow-on's in FOC; a refill restores the bucket by the class's rate. The place that a
refill gives a waiting group in the schedule is the model's choice (log 23), as are when a follow-on's charge is taken (log 24) and what a charge
above a full bucket does (log 15). -/
def Claims.FollowOns : Prop :=
  ∀ (s : State) (c q n : Nat) (f : FollowOn) (fs : List FollowOn),
    let k := s.core c
    (k.offers.find? (fun e => e.1 == q && e.2.1 == n) = some (q, n, f) →
      (8 ≤ k.fos.length → exec (.followonAccept c q n) s = .next s) ∧
      (k.fos.length < 8 →
        ∃ t, exec (.followonAccept c q n) s = .next t ∧ (t.core c).fos = k.fos ++ [f] ∧ (t.core c).foa = k.foa + 1 ∧
          (t.core c).offers = k.offers.filter (fun e => !(e.1 == q && e.2.1 == n)) ∧ (t.core c).mx = k.mx ∧ t.mem = s.mem)) ∧
    (k.fos = f :: fs → k.absent = [] → k.ecc = [] → k.ms.run ≠ .running → k.mx.bucket = 20480 → ∀ charge, s.foCharge c = some charge →
      let u := s.setCore c { k.settle s.now with fos := fs, passFo := 0 }
      (∀ g r, u.foBody c f { Grp.open 0 with charge := charge } = .ok (g, r) →
        ∃ t, exec (.followonTake c) s = .next t ∧ (t.core c).fos = fs ∧ (t.core c).inFlight = k.inFlight ++ [true] ∧
          (t.core c).foc = k.foc ∧ (∀ m, g.mx = some m → (t.core c).mx.acc = m.acc) ∧ (t.core c).ms.pc = k.ms.pc ∧
          (t.core c).pend = k.pend ∧ t.mem = s.mem) ∧
      (∀ e, u.foBody c f { Grp.open 0 with charge := charge } = .error (.fault e) →
        ∃ t, exec (.followonTake c) s = .next t ∧ (t.core c).fos = fs ∧ (t.core c).foc = k.foc + 1 ∧
          (t.core c).pend = k.pend ++ [⟨{ e with sub := e.sub + 128 }, .m, 0⟩] ∧ (t.core c).mx.acc = k.mx.acc ∧
          (t.core c).tiles = k.tiles ∧ (t.core c).ms = k.ms ∧ t.mem = s.mem)) ∧
    (∀ b rest, k.inFlight = b :: rest →
      ∃ t, exec (.arrayPassComplete c) s = .next t ∧ t.mem = s.mem ∧
        t.core c = { k with inFlight := rest, foc := if b then k.foc + 1 else k.foc }) ∧
    (∃ t, exec (.bucketRefill c) s = .next t ∧ t.mem = s.mem ∧ (t.core c).mx.acc = k.mx.acc ∧ (t.core c).mx.refilled = s.now ∧
      (t.core c).mx.bucket = min 20480 (k.mx.bucket +
        (if max k.mx.cls k.minCls = 0 then 36 else if max k.mx.cls k.minCls = 1 then 27 else if max k.mx.cls k.minCls = 2 then 18 else 9) *
          (s.now - k.mx.refilled)) ∧
      (k.mx.waitSince ≠ none → t.agenda = .stream c .m :: s.agenda))

/-- R219, R220, R222, R223, R225, R417: the first unstarted operation of a queue enters its wait where it has one, and otherwise starts: a job
whose checks pass is in flight, one whose checks fail ends with the check's status and has moved nothing. An ended operation completes once: it
leaves the queue, its status is held, the first failure and the timeline follow. One that counts at a barrier record with a word in double error
ends with INTEGRITY and leaves the record, the model's reading (log 18). -/
def Claims.CopyStartsAndCompletes : Prop :=
  ∀ (s : State) (c q n : Nat) (o : CopyOp) (j : Job),
    let k := s.core c
    let v := k.cq q
    k.op q n = some o → o.body = .job j →
    (o.phase = .queued → o.k.we = true → v.turnOf n = true →
      (let key := semKey k.world (c / 96) o.k.ws.toNat
       (s.sem key).value = 0 → (s.sem key).waiters = [] → s.semEcc.contains key = false →
        ∃ t, exec (.copyStart c q n) s = .next t ∧ (t.core c).op q n = some { o with phase := .waiting } ∧
          (t.sem key).waiters = [.copy c q n] ∧ t.mem = s.mem)) ∧
    (o.phase = .granted ∨ (o.phase = .queued ∧ o.k.we = false) → v.mayStart n o.body = true → o.pre = none →
      (j.tileReady k = false → exec (.copyStart c q n) s = .next s) ∧
      (j.kind = .copy →
        (∀ st, j.check (s.accCopy c q o) o.snap = .error st →
          ∃ t o', exec (.copyStart c q n) s = .next t ∧ (t.core c).op q n = some o' ∧ o'.phase = .ending st ∧ t.mem = s.mem) ∧
        (j.check (s.accCopy c q o) o.snap = .ok () →
          ∃ t o', exec (.copyStart c q n) s = .next t ∧ (t.core c).op q n = some o' ∧ t.mem = s.mem ∧
            o'.phase = if j.w * j.r = 0 then .ending ⟨0, 0, 0, 0, 0⟩ else .running))) ∧
    (∀ st, o.phase = .ending st → o.k.se = false → o.bar.mode = .none →
      ∃ t, exec (.copyComplete c q n) s = .next t ∧ ((t.core c).cq q).ops = v.ops.filter (fun x => x.n ≠ n) ∧
        tabFind ((t.core c).cq q).recs n = some st ∧ ((t.core c).cq q).assigned = v.assigned ∧
        (st.code = 0 ∨ st.code = 0x40 → ((t.core c).cq q).firstFail = v.firstFail) ∧
        (st.code ≠ 0 → st.code ≠ 0x40 → ((t.core c).cq q).firstFail = if v.firstFail = 0 then n else min v.firstFail n) ∧
        (n = v.completed + 1 → v.done = [] → ((t.core c).cq q).completed = n) ∧
        (n ≠ v.completed + 1 → v.done = [] → ((t.core c).cq q).completed = v.completed) ∧ (t.core c).x = k.x ∧ t.mem = s.mem) ∧
    (let word := (2 ^ 48 + o.home * 2097152 + 64 * o.bar.unit.toNat) / 8
     o.phase = .ending ⟨0, 0, 0, 0, 0⟩ → o.k.se = false → o.bar.mode ≠ .none → word ∈ s.ecc2 ∨ word + 1 ∈ s.ecc2 →
      ∃ t, exec (.copyComplete c q n) s = .next t ∧ tabFind ((t.core c).cq q).recs n = some ⟨0x1A, 0, 0, 0, 0⟩ ∧
        (t.world k.world).integ = (s.world k.world).integ + 1 ∧ t.mem = s.mem ∧ t.barClks = s.barClks ∧ t.ecc2 = s.ecc2)

/-- R226 to R229, R231: a burst of a copy or a fill between scratchpads of the core's cluster, within one row and one 4 KiB block of the
destination, writes the source's bytes or the pattern there and nothing else, and ends the operation with the last. -/
def Claims.BurstsMoveBytes : Prop :=
  ∀ (s : State) (c q n w : Nat) (o : CopyOp) (j : Job) (src dst : Nat) (pat : X64),
    let hs := (tabFind o.snap j.src).getD .cleared
    let hd := (tabFind o.snap j.dst).getD .cleared
    (s.core c).op q n = some o → o.body = .job j → o.phase = .running → o.cut = none → o.prog = 0 → j.race = true → j.r = 1 →
    j.w = w → 0 < w →
    j.dst ≠ 2 → hs.format = 2 → hd.format = 2 → hs.revoked = false → hd.revoked = false → s.ecc2 = [] →
    (hs.base.toNat : Int) + j.so = src → (hd.base.toNat : Int) + j.dOff = dst → dst % 4096 + w ≤ 4096 →
    let from_ := (List.range w).map fun i => memGet s.mem (scrKey (src + i))
    let put (bs : List Byte) : Tab Byte := memPuts s.mem (((List.range w).map fun i => scrKey (dst + i)).zip bs)
    let moved (bs : List Byte) : Prop :=
      ∃ t o', exec (.copyBurst c q n) s = .next t ∧ t.mem = put bs ∧ (t.core c).op q n = some o' ∧
        o'.phase = .ending ⟨0, 0, 0, 0, 0⟩ ∧ (t.core c).x = (s.core c).x
    (j.kind = .copy → moved from_) ∧
    (j.kind = .fill pat → moved ((List.range w).map fun i => pat.extractLsb' (8 * (i % 8)) 8))

/-- R21, R235: a bound stream register with room gets the next 512-byte element of its source, in the order of its bindings; full, it
gets none. Stated for a scratchpad source outside race detection. -/
def Claims.StreamElements : Prop :=
  ∀ (s : State) (c q n sn src : Nat) (o : CopyOp) (j : Job) (rest : List (Nat × Nat)),
    let k := s.core c
    let h := (tabFind o.snap j.src).getD .cleared
    k.op q n = some o → o.body = .job j → o.phase = .running → o.cut = none → j.kind = .bind sn → tabFind k.binds sn = some ((q, n) :: rest) →
    h.revoked = false → h.format = 2 → j.race = true → s.ecc2 = [] →
    let pitch := if h.shape.toNat % 2 ^ 23 = 0 then 512 else h.shape.toNat % 2 ^ 23
    (h.base.toNat : Int) + j.so + ((o.prog * pitch : Nat) : Int) = src →
    (4 ≤ (k.srq sn).length → exec (.streamElementDeliver c q n) s = .next s) ∧
    ((k.srq sn).length < 4 →
      ∃ t o', exec (.streamElementDeliver c q n) s = .next t ∧ (t.core c).op q n = some o' ∧ o'.prog = o.prog + 1 ∧
        ((t.core c).srq sn).map (·.v) =
          (k.srq sn).map (·.v) ++ [BitVec.ofNat 4096 (ofBytes ((List.range 512).map fun i => memGet s.mem (scrKey (src + i))))] ∧
        o'.phase = (if j.r ≤ o.prog + 1 then .ending ⟨0, 0, 0, 0, 0⟩ else .running) ∧ t.mem = s.mem)

/-- R245, R394: a job in flight whose snapshot a revocation has marked stops at its next burst with HANDLE_REVOKED, one that a freeze has met
with HANDLE_RIGHTS, the side of the handle and the bytes moved so far in its status, and moves no more. A freeze meets a job that
writes through a handle of its region; that it does so at the turn of its agent in the sweep is the model's choice (log 35). -/
def Claims.SweptCopiesEnd : Prop :=
  ∀ (s : State) (c q n : Nat) (o : CopyOp) (j : Job),
    let src := (tabFind o.snap j.src).getD .cleared
    let dst := (tabFind o.snap j.dst).getD .cleared
    let ends (code side : Nat) : Prop := ∃ t o', exec (.copyBurst c q n) s = .next t ∧ (t.core c).op q n = some o' ∧
      o'.phase = .ending ⟨code, 0, side, 0, j.stopOff o.snap o.prog⟩ ∧ t.mem = s.mem
    (s.core c).op q n = some o → o.body = .job j → o.phase = .running → j.bursts = true →
    (j.reads = true → src.revoked = true → ends 0x13 0) ∧
    (j.reads = false ∨ src.revoked = false →
      (j.writes = true → dst.revoked = true → ends 0x13 1) ∧
      (∀ side, j.writes = false ∨ dst.revoked = false → o.cut = some side → ends 0x11 side)) ∧
    (∀ (w : Sweep) (base len : Nat), s.sweep = some w → w.op = .freeze base len → s.lodeFenced = [] → .copyEngine c ∈ w.todo →
      .copyEngine c ∉ w.marked → .coreRegs c ∉ w.todo → (∃ b ∈ w.todo, b ≠ .copyEngine c) → o.cut = none → j.reads = false →
      j.writes = true → dst.world.toNat = w.world → dst.format = 1 ∨ dst.format = 3 → dst.rights.getLsbD 6 = true →
      base ≤ dst.base.toNat → dst.base.toNat < base + len → 0 < dst.length.toNat →
      ∃ t o', exec (.sweepAgentMark (.copyEngine c)) s = .next t ∧ (t.core c).op q n = some o' ∧ o'.cut = some 1 ∧ o'.phase = .running ∧
        t.mem = s.mem)

/-- R236 to R240: a chain between entries, its entry read: COPY becomes the entry at hand; LOOP opens a level or, with a trip count of 0,
goes past its body; IF goes on or past the entries it names; SIGNAL adds to its semaphore; MATRIX puts its word on the follow-on
queue; END ends the chain. A failing read or a malformed entry ends it with the status and the entry's offset, whatever kind of entry the event
names, and a malformed COPY entry that asks for a signal gives it: both are the model's choices (log 26). -/
def Claims.ChainEntries : Prop :=
  ∀ (s s1 : State) (c q n h : Nat) (off : Int) (o : CopyOp),
    (s.core c).op q n = some o → o.body = .chain h off → o.phase = .running → o.cur = none → o.levels = [] →
    let events : List Instr := [.chainCopy c q n, .chainLoop c q n, .chainIf c q n, .chainSignal c q n, .chainMatrix c q n, .chainEnd c q n]
    let goes (i : Instr) (o' : CopyOp) : Prop :=
      ∃ t, exec i s = .next t ∧ (t.core c).op q n = some o' ∧ t.mem = s.mem ∧ (t.core c).x = (s.core c).x
    let reads (e : Entry) : Prop := ∃ bs, s.entryBytes c q o = .ok (bs, s1) ∧ parseEntry bs 0 0 = .ok e
    let failed (st : CStat) : CopyOp := { o with cur := none, phase := .ending { st with entry := (o.p - off).toNat % 2 ^ 48 } }
    (∀ st, s.entryBytes c q o = .error st → ∀ i ∈ events, goes i (failed st)) ∧
    (∀ bs x, s.entryBytes c q o = .ok (bs, s1) → parseEntry bs 0 0 = .error x →
      (byteAt bs 0 ≠ 1 ∨ byteAt bs 26 % 16 = 0 → ∀ i ∈ events, goes i (failed ⟨x.num, 0, 0, 0, 0⟩)) ∧
      (let key := semKey (s.core c).world (c / 96) (byteAt bs 25)
       byteAt bs 0 = 1 → byteAt bs 26 % 16 = 2 → (s.sem key).waiters = [] → (s.sem key).value.toNat + 1 < 2 ^ 32 →
        s.semEcc.contains key = false → ∀ i ∈ events,
        ∃ t, exec i s = .next t ∧ (t.core c).op q n = some (failed ⟨x.num, 0, 0, 0, 0⟩) ∧
          (t.sem key).value = (s.sem key).value + 1 ∧ t.mem = s.mem)) ∧
    (∀ j k bar, reads (.copy j k bar) → k.we = false → j.kind = .copy →
      ∃ t o' e, exec (.chainCopy c q n) s = .next t ∧ (t.core c).op q n = some o' ∧ o'.cur = some e ∧ e.job = j ∧ e.k = k ∧ e.bar = bar ∧
        o'.p = o.p ∧ t.mem = s.mem ∧
        (j.check (s.accCopy c q o) o.snap = .ok () → 0 < j.w * j.r → e.phase = .running) ∧
        (∀ st, j.check (s.accCopy c q o) o.snap = .error st → e.phase = .ending st)) ∧
    (∀ len trip ss ds, reads (.loop len trip ss ds) →
      (trip = 0 → goes (.chainLoop c q n) { o with p := o.p + 32 * ((len : Int) + 1) }) ∧
      (0 < trip → goes (.chainLoop c q n)
        { o with levels := [⟨trip, 0, o.p + 32, o.p + 32 * len, ss, ds⟩], p := o.p + 32 })) ∧
    (∀ rel hh at_ len cmp bs ps s2, reads (.cond rel hh at_ len cmp) →
      s1.load (s1.accCopy c q o) ((tabFind o.snap hh).getD .cleared) at_ 8 8 false [1, 2, 3] = .ok (bs, ps, s2) →
      goes (.chainIf c q n) { o with p := if Rel.holds rel (BitVec.ofNat 64 (ofBytes bs)) cmp then o.p + 32 else o.p + 32 * ((len : Int) + 1) }) ∧
    (∀ k bar hh at_ value, reads (.signal k bar false hh at_ value) → bar.mode = .none → k.se = true →
      (let key := semKey (s.core c).world (c / 96) k.ss.toNat
       (s.sem key).waiters = [] → (s.sem key).value.toNat + 1 < 2 ^ 32 → s.semEcc.contains key = false →
        ∃ t, exec (.chainSignal c q n) s = .next t ∧ (t.core c).op q n = some { o with p := o.p + 32 } ∧
          (t.sem key).value = (s.sem key).value + 1 ∧ t.mem = s.mem)) ∧
    (∀ w, reads (.matrix w) → (s.core c).fos.length < 8 →
      ∃ t f, exec (.chainMatrix c q n) s = .next t ∧ (t.core c).op q n = some { o with p := o.p + 32 } ∧
        (t.core c).fos = (s.core c).fos ++ [f] ∧ f.word = w ∧ f.snap = o.snap ∧ (t.core c).foa = (s.core c).foa + 1 ∧ t.mem = s.mem) ∧
    (reads .done → goes (.chainEnd c q n) { o with phase := .ending ⟨0, 0, 0, 0, 0⟩ })

/-- R309, Table 11.5: the phases of a loop record in their order, and the stage masks: N - S + 1 kernel runs between prologue and epilogue where
N is at least S, and otherwise N + S - 1 kernel runs in which bit st of the mask of run r is set where stage st holds a real
iteration. -/
def Claims.LoopPhases : Prop :=
  ∀ (t : Tcb) (r st : Nat), 1 ≤ t.stages → t.stages ≤ 8 →
    (t.n = 0 → t.firstPhase.1 = 3) ∧
    (0 < t.n → t.n < t.stages →
      t.firstPhase = (1, 0) ∧ (r + 1 < t.n + t.stages - 1 → t.nextPhase 1 r = (1, r + 1)) ∧ t.nextPhase 1 (t.n + t.stages - 2) = (3, 0) ∧
      (st < 8 → (t.stageMask 1 r).testBit st = decide (st < t.stages ∧ st ≤ r ∧ r - st < t.n))) ∧
    (t.stages ≤ t.n →
      t.firstPhase = (if t.pro = 0xFFFF then (1, 0) else (0, 0)) ∧ t.nextPhase 0 0 = (1, 0) ∧
      (r < t.n - t.stages → t.nextPhase 1 r = (1, r + 1)) ∧
      t.nextPhase 1 (t.n - t.stages) = (if t.epi = 0xFFFF then (3, 0) else (2, 0)) ∧ t.nextPhase 2 0 = (3, 0) ∧
      t.stageMask 0 0 = 0xFF ∧ t.stageMask 1 r = 0xFF ∧ t.stageMask 2 0 = 0xFF)

/-- R28, R309, R312: between two phases every core of a halted gang starts at the next phase's entry with x60 to x62 and k24 to k31 set, every
other field of the core as it was, but for when it last made progress; a gang whose halt lines are all up completes with OK, writes its record,
and leaves its cores. Stated of a task that holds no references and signals nothing; of others CompletionDropsAndSignals says it. -/
def Claims.PhasesStartAndEnd : Prop :=
  ∀ (s : State) (d i : Nat),
    let t := s.taskAt d i
    let p := t.tcb.nextPhase t.phase t.run
    let mask := t.tcb.stageMask p.1 p.2
    (t.st = .running → t.placed = true → t.marked = false → (∀ c ∈ t.cores, (s.core c).hrun = .halted) → p.1 ≠ 3 →
      t.phaseRegs = [] →
      ∃ u, exec (.phaseStart d i) s = .next u ∧ (u.taskAt d i).phase = p.1 ∧ (u.taskAt d i).run = p.2 ∧ u.mem = s.mem ∧
        ∀ c ∈ t.cores, (u.core c).hrun = .running ∧ (u.core c).haltLine = false ∧
          (u.core c).getX 60 = BitVec.ofNat 64 mask ∧ (u.core c).getX 61 = BitVec.ofNat 64 p.1 ∧
          (u.core c).getX 62 = BitVec.ofNat 64 (if p.1 = 1 then p.2 else 0) ∧
          (∀ r : XReg, r.toNat < 60 ∨ r = 63 → (u.core c).getX r = (s.core c).getX r) ∧
          (∀ st < 8, (u.core c).getK (24 + st) = if mask.testBit st then allTrue else 0) ∧
          (∀ n < 24, (u.core c).getK n = (s.core c).getK n) ∧
          u.core c = { s.core c with
            hrun := .running, haltLine := false, progress := s.now, x := (u.core c).x, k := (u.core c).k
            hs := { (s.core c).hs with pc := BitVec.ofNat 16 (t.tcb.entry p.1) } }) ∧
    (t.st = .running → t.placed = true → (∀ c ∈ t.cores, (s.core c).hrun = .halted ∧ (s.core c).haltLine = true) →
      (∀ c ∈ t.cores, (s.core c).task = some (d, i)) →
      t.refs = [] → t.tcb.sigs = [] →
      ∃ u, exec (.taskComplete d i) s = .next u ∧ (u.taskAt d i).outcome.status = 0 ∧
        (u.taskAt d i).st = (if t.future = true ∧ t.reach = 0 then .free else .done) ∧
        (∀ c ∈ t.cores, (u.core c).task = none ∧ (u.core c).hrun = .idle ∧ (u.core c).haltLine = false ∧ (u.core c).x = (s.core c).x) ∧
        (t.recAt = .none → u.mem = s.mem) ∧
        (∀ h off c ps, t.recAt = .viaHandle h off c →
          s.check { engineAcc c t.world with lo := c / 8 * 16777216, hi := (c / 8 + 1) * 16777216 } h (off + 0x30) 16 .store 1 [1, 2, 3] = .ok ps →
          u.mem = memPuts s.mem ((piecesKeys ps).zip
            (bytesOf 8 (if t.pub.isSome then 2 ^ 19 else 0) ++ bytesOf 8 (t.pub.getD 0).toNat)))) ∧
    (t.st ≠ .running → exec (.taskComplete d i) s = .next s)

/-- R285, R312, R314, R316, R317: a task that completes, or that is reclaimed with CANCELLED, drops its references and then signals each
semaphore of its list by 1. A future that keeps references loses those; one with none left is freed when DONE, marked when running, and
else reclaimed in its turn: a future that waits ends with CANCELLED and leaves its semaphore, so that no signal of the list reaches it. A
result that a reclaimed task had published is gone. Stated of one future that holds and signals nothing itself. -/
def Claims.CompletionDropsAndSignals : Prop :=
  ∀ (s : State) (d i d2 i2 n : Nat) (tok : X64),
    let t := s.taskAt d i
    let r := s.taskAt d2 i2
    let key (m : Nat) : Nat := semKey t.world d m
    let bare : Prop := r.refs = [] ∧ r.tcb.sigs = [] ∧ r.recAt = .none ∧ r.bars = [] ∧ r.tcb.res = false ∧ r.cores = []
    let after (u : State) : Prop :=
      (u.taskAt d i).refs = [] ∧
      (n < r.reach → (u.taskAt d2 i2).reach = r.reach - n ∧ (r.st = .running → (u.taskAt d2 i2).marked = r.marked)) ∧
      (n = r.reach → (r.st = .done → (u.taskAt d2 i2).st = .free) ∧ (r.st = .running → (u.taskAt d2 i2).marked = true) ∧
        (r.st = .held ∨ r.st = .waiting ∨ r.st = .ready → bare →
          (u.taskAt d2 i2).st = .free ∧ (u.taskAt d2 i2).outcome.status = 0x40 ∧ (u.taskAt d2 i2).pub = none) ∧
        (r.st = .waiting → bare → ∀ k, .task d2 i2 k ∉ (u.sem (semKey r.world d2 r.tcb.ws)).waiters)) ∧
      (r.st = .done ∨ r.st = .running ∨ n < r.reach → (∀ m ∈ t.tcb.sigs, m < 256 ∧ (s.sem (key m)).waiters = [] ∧ key m ∉ s.semEcc) →
        ∀ m < 256, (u.sem (key m)).value.toNat = if m ∈ t.tcb.sigs then min (2 ^ 32 - 1) ((s.sem (key m)).value.toNat + t.tcb.sigs.count m)
          else (s.sem (key m)).value.toNat)
    t.refs = [(tok, n)] → 0 < n → n ≤ r.reach → r.future = true → s.findTask (tok.toNat / 2 ^ 52) tok = some (d2, i2) → (d2, i2) ≠ (d, i) →
    i < 4096 → t.recAt = .none →
    (t.st = .running → t.placed = true → (∀ c ∈ t.cores, (s.core c).hrun = .halted ∧ (s.core c).haltLine = true ∧ (s.core c).task = some (d, i)) →
      ∃ u, exec (.taskComplete d i) s = .next u ∧ after u ∧ (u.taskAt d i).outcome.status = 0) ∧
    (t.marked = true → t.st = .held ∨ t.st = .yielded → t.cores = [] → t.bars = [] → t.tcb.res = false →
      ∃ u, exec (.reclaim d i) s = .next u ∧ after u ∧ (u.taskAt d i).outcome.status = 0x40 ∧ (u.taskAt d i).pub = none)

/-- R321: a gang that was descheduled in YIELD and has its cores again starts at its resume granule, or at its phase's entry where it has none,
with x60 to x62 and k24 to k31 as they were at the yield. -/
def Claims.YieldedGangResumes : Prop :=
  ∀ (s : State) (d i : Nat),
    let t := s.taskAt d i
    t.st = .running → t.placed = false → (∀ c ∈ t.cores, (s.core c).hrun = .halted) → t.cores.Nodup → t.live ≠ [] →
    t.phaseRegs.length = t.cores.length → (∀ r ∈ t.phaseRegs, r.1.length = 3 ∧ r.2.length = 8) →
    ∃ u, exec (.phaseStart d i) s = .next u ∧ (u.taskAt d i).phase = t.phase ∧ (u.taskAt d i).run = t.run ∧ (u.taskAt d i).placed = true ∧
      u.mem = s.mem ∧
      ∀ (n c : Nat) (r : List X64 × List Pred), t.cores[n]? = some c → t.phaseRegs[n]? = some r →
        (u.core c).hrun = .running ∧ (u.core c).h = (s.core c).h ∧
          (u.core c).hs.pc = BitVec.ofNat 16 (if t.tcb.resume = 0 then t.tcb.entry t.phase else t.tcb.resume) ∧
          (∀ j < 3, (u.core c).getX (BitVec.ofNat 6 (60 + j)) = r.1.getD j 0) ∧
          (∀ j < 8, (u.core c).getK (24 + j) = r.2.getD j 0) ∧
          (∀ x : XReg, x.toNat < 60 ∨ x = 63 → (u.core c).getX x = (s.core c).getX x)

/-- R30, R114, R119, R308, R311, R422: the head of the highest ready level takes the lowest free cores that suffice, leaves its queue and
runs; each of its cores has its rank, world, arguments, mode, trap vector, save area, handles and argument images, what R114 keeps as it
was, and every other register, queue, edge and mask zero, cleared or at its reset value; a tile keeps only the hold of a copy in flight. A
trip count of 0 completes with OK at once, its cores untouched, and a task whose wait read a bad word with INTEGRITY; without cores nothing
starts. That a trip count of 0 waits for cores as well is the model's choice (log 30). -/
def Claims.TasksArePlaced : Prop :=
  ∀ (s : State) (d w p i : Nat), s.inSlice w = true → s.topReady d w = some (p, i) → (s.taskAt d i).saved = false →
    (s.taskAt d i).world = w → (s.taskAt d i).live = [] →
    let t := s.taskAt d i
    let ends (u : State) (status : Nat) : Prop :=
      (u.taskAt d i).outcome.status = status ∧ (u.taskAt d i).st = (if t.future = true ∧ t.reach = 0 then .free else .done) ∧
        i ∉ u.readyQ d w t.pri ∧ u.mem = s.mem ∧ ∀ c, (u.core c).x = (s.core c).x ∧ (u.core c).h = (s.core c).h ∧ (u.core c).task = (s.core c).task
    (t.waitBad = false → s.coresFor d i = none → exec (.taskPlace d w) s = .next s) ∧
    (t.st = .ready → t.refs = [] → t.tcb.sigs = [] → t.recAt = .none → t.cores = [] →
      (t.waitBad = true → ∃ u, exec (.taskPlace d w) s = .next u ∧ ends u 0x1A ∧ (u.world w).integ = (s.world w).integ + 1) ∧
      (∀ cores, t.waitBad = false → s.coresFor d i = some cores → t.tcb.n = 0 → ∃ u, exec (.taskPlace d w) s = .next u ∧ ends u 0)) ∧
    (∀ cores, t.waitBad = false → s.coresFor d i = some cores → t.tcb.n ≠ 0 → t.tcb.narg ≤ 8 →
      ∃ u gid, exec (.taskPlace d w) s = .next u ∧ (u.taskAt d i).st = .running ∧ (u.taskAt d i).cores = cores ∧
        (u.taskAt d i).phase = t.tcb.firstPhase.1 ∧ i ∉ u.readyQ d w t.pri ∧ u.mem = s.mem ∧
        cores = (s.freeCores d w).take t.tcb.gsize ∧
        ∀ r c, cores[r]? = some c →
          let k := u.core c
          k.task = some (d, i) ∧ k.hrun = .halted ∧ k.world = w ∧ k.gang = BitVec.ofNat 64 (gid * 2 ^ 16 + t.tcb.gsize * 2 ^ 8 + r) ∧
            k.status = (if t.tcb.sup then 5 else 4) ∧ k.tvec = BitVec.ofNat 64 (t.tcb.tvec * 2 + if t.tcb.ten then 1 else 0) ∧
            (∀ j : XReg, k.getX j = if 1 ≤ j.toNat ∧ j.toNat ≤ t.tcb.narg then t.tcb.args.getD (j.toNat - 1) 0 else 0) ∧
            (k.getH 0).format = 2 ∧ (k.getH 0).base.toNat = c * 2097152 % 2 ^ 57 ∧ (k.getH 0).length = 2097152 ∧
            (k.getH 1).base.toNat = c / 8 * 16777216 % 2 ^ 57 ∧ (k.getH 1).length = 16777216 ∧ (k.getH 3).format = 3 ∧
            (k.getH 1).format = 2 ∧ (∀ j ∈ [0, 1], (k.getH j).rights = 0xE1 ∧ (k.getH j).serial = 0) ∧
            k.savebase.toNat = (t.tcb.save + r * 0x2000) % 2 ^ 49 * 256 ∧
            (k.getH 2).format = t.code.format ∧ (k.getH 2).world = t.code.world ∧ (k.getH 2).serial = t.code.serial ∧
            (k.getH 2).base = t.code.base ∧ (k.getH 2).length = t.code.length ∧
            (∀ j ∈ [0, 1, 2, 3], (k.getH j).isSealed = true ∧ (k.getH j).shape = 0x7800000 ∧
              (s.sweep = none → (k.getH j).sealv = (s.world w).sealOf (k.getH j))) ∧
            (s.sweep = none → (k.getH 2).rights = ((s.world w).freezeRights t.code).rights ∧
              ∀ j hm, t.tcb.himg[j]? = some hm → j < 28 → (k.getH (BitVec.ofNat 5 (4 + j))).image = hm.image) ∧
            (∀ j : HReg, 4 + t.tcb.himg.length ≤ j.toNat → k.getH j = .cleared) ∧
            (let old := s.core c
             (∀ st, k.strm st = { StreamSt.idle with region := (old.strm st).region + 1, clk := (k.strm st).clk }) ∧
             (∀ j, (k.tile j).full = false ∧ (k.tile j).held = (old.tile j).held) ∧ ((∀ e ∈ old.tiles, e.2.held = none) → k.tiles = []) ∧
             k.mx = { Mx.init old.mx.acc with refilled := s.now } ∧ k.progress = s.now ∧
             k = { Core.init with
               task := k.task, hrun := k.hrun, world := k.world, gang := k.gang, status := k.status, tvec := k.tvec, savebase := k.savebase
               x := k.x, h := k.h, hs := k.hs, ls := k.ls, ss := k.ss, vs := k.vs, ms := k.ms, tiles := k.tiles, ecc := k.ecc, mx := k.mx
               progress := k.progress, cycle0 := old.cycle0, minCls := old.minCls, fenced := old.fenced, binds := old.binds, veil := old.veil
               detEpoch := old.detEpoch, numGen := old.numGen, cqs := old.cqs, fab := old.fab, drowsy := old.drowsy }))

/-- R316, R317, R322: a marked task that does not run is reclaimed with CANCELLED; a gang that has not yielded 4,800,000 cycles after its mark
stops with OVERRUN, which the world counts. Stated for tasks that hold no references and signal nothing. -/
def Claims.ReclaimAndOverrun : Prop :=
  ∀ (s : State) (d i : Nat),
    let t := s.taskAt d i
    t.refs = [] → t.tcb.sigs = [] → t.recAt = .none → t.bars = [] → t.tcb.res = false →
    (t.marked = true → t.st = .held ∨ t.st = .yielded → t.cores = [] →
      ∃ u, exec (.reclaim d i) s = .next u ∧ (u.taskAt d i).outcome.status = 0x40 ∧ (u.taskAt d i).pub = none ∧ u.mem = s.mem ∧
        (u.taskAt d i).st = if t.future = true ∧ t.reach = 0 then .free else .done) ∧
    (t.marked = false → exec (.reclaim d i) s = .next s) ∧
    (t.st = .running → t.yieldPend = true → t.yieldAt + 4800000 ≤ s.now → (∀ c ∈ t.cores, (s.core c).task = some (d, i)) →
      (∀ c ∈ t.cores, ∀ st, ((s.core c).strm st).wait = none) →
      ∃ u, exec (.overrunStop d i) s = .next u ∧ (u.taskAt d i).outcome.status = 0x41 ∧ u.mem = s.mem ∧
        (u.world t.world).overruns = (s.world t.world).overruns + 1 ∧
        (u.taskAt d i).st = (if t.future = true ∧ t.reach = 0 then .free else .done) ∧
        ∀ c ∈ t.cores, (u.core c).task = none ∧ (u.core c).hrun = .idle ∧ (u.core c).pend = [] ∧
          ∀ st, st ≠ .h → ((u.core c).strm st).run = .absent ∨ ((u.core c).strm st).run = .ended) ∧
    (t.yieldPend = false → exec (.overrunStop d i) s = .next s)

/-- R131, R319: a running task at a boundary that a higher level waits for, none going before it, is saved to its areas and becomes READY
at the head of its level, its cores idle; at the head of its level with its cores free it runs on them again once they have drained, its timelines
where they stood and all else that its areas hold still to be filled. That it waits for its cores to drain is the model's choice (log 30). -/
def Claims.PreemptAndRestore : Prop :=
  ∀ (s s1 : State) (d i p : Nat),
    let t := s.taskAt d i
    (s.preemptible d t = true → (∀ e ∈ s.tasks, e.1 / 4096 = d → e.2.world = t.world → s.preemptible d e.2 = true → goesBefore e.2 t = false) →
      s.saveCores t.cores = some s1 →
      ∃ u, exec (.preempt d i) s = .next u ∧ (u.taskAt d i).st = .ready ∧ (u.taskAt d i).saved = true ∧
        (u.taskAt d i).cores = t.cores ∧ (u.taskAt d i).copies = t.cores.map (fun c => (s1.core c).cqs) ∧ u.mem = s1.mem ∧
        (∀ c ∈ t.cores, (u.core c).task = none ∧ (u.core c).hrun = .idle ∧ (u.core c).haltLine = false)) ∧
    (s.preemptible d t = false → exec (.preempt d i) s = .next s) ∧
    (t.saved = true → t.st = .ready → s.inSlice t.world = true → s.topReady d t.world = some (p, i) →
      (∀ c ∈ t.cores, c ∈ s.freeCores d t.world ∧ (s.core c).drained = true) →
      ∃ u, exec (.taskRestore d i) s = .next u ∧ (u.taskAt d i).st = .running ∧ (u.taskAt d i).saved = false ∧
        i ∉ u.readyQ d t.world t.pri ∧ u.mem = s.mem ∧
        (∀ c ∈ t.cores, (u.core c).task = some (d, i) ∧ (u.core c).world = t.world ∧ (u.core c).absent = allGrans) ∧
        (t.cores.Nodup → ∀ (r c q : Nat) (v : CopyQ), t.cores[r]? = some c → (t.copies.getD r [])[q]? = some v →
          ((u.core c).cq q).assigned = v.assigned ∧ ((u.core c).cq q).completed = v.completed))

/-- R320, R321, R399: a slice ends at its time, or with nothing left to run, where another world may follow, and marks every running gang of
its world; a gang all of whose cores wait in YIELD is descheduled with its position and live handles; the next world's slice starts once no
gang of the one before runs, and its yielded tasks are READY again. That a slice begins with the event SLICE_START, and which worlds take
one, are the model's choices (log 37). -/
def Claims.SlicesTurn : Prop :=
  ∀ (s : State) (bi d i w : Nat),
    let b := s.berth bi
    let t := s.taskAt d i
    let follows : Prop := ∃ x ∈ b.order, x ≠ b.cur ∧ s.takesSlices x = true
    (b.inSlice = true →
      (s.takesSlices b.cur = true → ¬ follows → exec (.sliceEnd bi) s = .next s) ∧
      (s.lclock < b.sliceEnd → t.st = .running ∨ t.st = .ready → t.world = b.cur → i < 4096 → exec (.sliceEnd bi) s = .next s) ∧
      (b.sliceEnd ≤ s.lclock ∨ s.tasksIn b.cur [.running, .ready] = [] → follows ∨ s.takesSlices b.cur = false →
        ∃ u, exec (.sliceEnd bi) s = .next u ∧ (u.berth bi).inSlice = false ∧ u.mem = s.mem ∧ u.cores = s.cores ∧
          (t.st = .running → t.world = b.cur → i < 4096 → (u.taskAt d i).yieldPend = true))) ∧
    (b.inSlice = false → exec (.sliceEnd bi) s = .next s) ∧
    (t.st = .running → t.yieldPend = true → t.marked = false → (∀ c ∈ t.cores, (s.core c).hrun = .yielding) → s.inSlice t.world = false →
      (∀ c ∈ t.cores, (s.core c).task = some (d, i)) →
      ∃ u, exec (.gangYield d i) s = .next u ∧ (u.taskAt d i).st = .yielded ∧ (u.taskAt d i).gpos = t.yieldPos ∧
        (u.taskAt d i).cores = [] ∧ u.mem = s.mem ∧ (u.taskAt d i).live.length = t.cores.length ∧
        (u.taskAt d i).phaseRegs = t.cores.map (fun c => (s.core c).phaseRegs) ∧
        (∀ c ∈ t.cores, (u.core c).task = none ∧ (u.core c).hrun = .idle) ∧
        (∀ r c : Nat, t.cores[r]? = some c → ∀ j < 28, ∀ hs : List Handle, (u.taskAt d i).live[r]? = some hs →
          hs[j]? = some (if ((s.core c).getH (BitVec.ofNat 5 (4 + j))).isSealed then (s.core c).getH (BitVec.ofNat 5 (4 + j)) else Handle.cleared))) ∧
    (b.inSlice = false → s.tasksIn b.cur [.running] = [] → nextWorld s.takesSlices b.order b.cur = some w →
      ∃ u, exec (.sliceStart bi) s = .next u ∧ (u.berth bi).cur = w ∧ (u.berth bi).inSlice = true ∧ u.mem = s.mem ∧ u.cores = s.cores ∧
        (u.berth bi).sliceEnd = s.lclock + b.desc.toNat / 2 ^ 77 % 2 ^ 10 * 1000000 ∧
        (t.st = .yielded → t.world = w → i < 4096 → (u.taskAt d i).st = .ready))

/-- R379: an idle core, drained, that passes to another world of its berth's slice is scrubbed: its scratchpad and instruction memory read
zero, every register, queue, timeline, tile, slot and accumulator row is that of a core at reset, its streams with a new region, its veil key and its
detection epoch are new, and CYCLE, the minimum class and a fence stay. -/
def Claims.WorldChangeScrubs : Prop :=
  ∀ (s : State) (c w : Nat),
    let k := s.core c
    let lo := 2 ^ 48 + c * 2097152
    let im := 2 ^ 49 + c * 196608
    (k.task = none → k.hrun = .idle → k.drained = true → (∀ st, st ≠ .h → (k.strm st).run ≠ .running ∧ (k.strm st).run ≠ .stopped) →
      k.world ≠ w → s.asksLode c = false →
      s.retiring = [] → s.swapping = [] → s.inSlice w = true → c / 8 ∈ s.clustersUsable (s.world w).berth →
      ∃ t, exec (.worldChangeScrub c w) s = .next t ∧ (t.core c).world = w ∧ (t.core c).veil = Config.drbg s.fresh ∧ t.fresh = s.fresh + 1 ∧
        (t.core c).detEpoch = k.detEpoch + 1 ∧ (∀ r, (t.core c).getX r = 0) ∧ (∀ r, (t.core c).getH r = Handle.cleared) ∧
        (∀ st, (t.core c).strm st = { StreamSt.idle with region := (k.strm st).region + 1 }) ∧
        t.core c = { Core.init with
          world := w, veil := Config.drbg s.fresh, detEpoch := k.detEpoch + 1, cycle0 := k.cycle0, minCls := k.minCls, fenced := k.fenced
          hs := (t.core c).hs, ls := (t.core c).ls, ss := (t.core c).ss, vs := (t.core c).vs, ms := (t.core c).ms } ∧
        (∀ q < 4, (t.core c).cq q = CopyQ.empty) ∧ (t.core c).fab = FabQ.empty ∧
        (∀ a, memGet t.mem a = if (lo ≤ a ∧ a < lo + 2097152) ∨ (im ≤ a ∧ a < im + 196608) then 0 else memGet s.mem a) ∧
        (∀ e, e ≠ c → t.core e = s.core e)) ∧
    (k.world = w ∨ k.task ≠ none ∨ s.inSlice w = false → exec (.worldChangeScrub c w) s = .next s)

/-- R87, R338, R362, R371 to R373: when an agent's turn comes in a sweep it marks, once, every handle that it holds and that matches, and no other,
and has reported, a fabric queue only once no load that the sweep has met is in flight. Matching windows close, and their handles are revoked.
The last report of a revocation ends it: the number rises, the core that asked has its result, and requests that wait at the Lodestar are marked.
That the registers of a core come before its snapshots, and those requests, are the model's choices (log 35, log 34). -/
def Claims.SweepsMark : Prop :=
  ∀ (s : State) (w : Sweep) (c first count : Nat) (a : SweepAgent), s.sweep = some w → w.op = .revoke first count →
    s.lodeFenced = [] →
    let hit (h : Handle) : Prop := h.world.toNat = w.world ∧ h.format ≠ 0 ∧ h.serial ≠ 0 ∧ first ≤ h.serial.toNat ∧
      h.serial.toNat < first + count
    (a ∉ w.todo → exec (.sweepAgentMark a) s = .next s) ∧
    (.coreRegs c ∈ w.todo → exec (.sweepAgentMark (.copyEngine c)) s = .next s) ∧
    (.coreRegs c ∈ w.todo → .coreRegs c ∉ w.marked → (∃ b ∈ w.todo, b ≠ .coreRegs c) →
      ∃ t w', exec (.sweepAgentMark (.coreRegs c)) s = .next t ∧ t.sweep = some w' ∧ w'.todo = w.todo.filter (fun b => b ≠ .coreRegs c) ∧
        t.mem = s.mem ∧ (t.core c).x = (s.core c).x ∧
        ∀ r, let h := (s.core c).getH r
          (hit h → (t.core c).getH r = { h with revoked := true }) ∧ (¬ hit h → (t.core c).getH r = h)) ∧
    (.fabricQueue c ∈ w.todo → .coreRegs c ∉ w.todo → (∃ b ∈ w.todo, b ≠ .fabricQueue c) →
      let isLoad (o : FabOp) : Prop := (∃ n, o.kind = .rmld n) ∨ ∃ op wd r n, o.kind = .mcld op wd r n
      let rest : List SweepAgent := w.todo.filter (fun b => b ≠ .fabricQueue c)
      (.fabricQueue c ∉ w.marked → (∀ o ∈ (s.core c).fab.ops, o.flagOut = false) →
        ∃ t w', exec (.sweepAgentMark (.fabricQueue c)) s = .next t ∧ t.sweep = some w' ∧ .fabricQueue c ∈ w'.marked ∧ t.mem = s.mem ∧
          (∀ n : Nat, ∀ o : FabOp, (s.core c).fab.ops[n]? = some o → ∃ o', (t.core c).fab.ops[n]? = some o' ∧ o'.phase = o.phase ∧
            (hit o.remote → o'.remote = { o.remote with revoked := true }) ∧ (¬ hit o.remote → o'.remote = o.remote) ∧
            (hit o.localH → o'.localH = { o.localH with revoked := true }) ∧ (¬ hit o.localH → o'.localH = o.localH) ∧
            (o.phase.unstarted = true → o'.cut = o.cut) ∧
            (o.phase.unstarted = false → o.cut = none → o.remote.revoked = false → hit o.remote → o'.cut = some 0x13)) ∧
          ((∃ o ∈ (t.core c).fab.ops, o.cut.isSome = true ∧ isLoad o) → w'.todo = w.todo) ∧
          ((∀ o ∈ (t.core c).fab.ops, isLoad o → o.cut = none) → w'.todo = rest)) ∧
      (.fabricQueue c ∈ w.marked →
        ((∃ o ∈ (s.core c).fab.ops, o.cut.isSome = true ∧ isLoad o) → exec (.sweepAgentMark (.fabricQueue c)) s = .next s) ∧
        ((∀ o ∈ (s.core c).fab.ops, isLoad o → o.cut = none) →
          exec (.sweepAgentMark (.fabricQueue c)) s = .next { s with sweep := some { w with todo := rest } }))) ∧
    (.copyEngine c ∈ w.todo → .copyEngine c ∉ w.marked → .coreRegs c ∉ w.todo → (∃ b ∈ w.todo, b ≠ .copyEngine c) →
      ∃ t, exec (.sweepAgentMark (.copyEngine c)) s = .next t ∧ t.mem = s.mem ∧ (t.core c).h = (s.core c).h ∧
        ∀ (q n : Nat) (o : CopyOp), (s.core c).op q n = some o → ∃ o', (t.core c).op q n = some o' ∧ o'.phase = o.phase ∧
          ∀ (r : Nat) (h : Handle), tabFind o.snap r = some h →
            (hit h → tabFind o'.snap r = some { h with revoked := true }) ∧ (¬ hit h → tabFind o'.snap r = some h)) ∧
    (w.todo = [.windows] → .windows ∉ w.marked → s.lodeQ.length ≤ 1 →
      ∃ t, exec (.sweepAgentMark .windows) s = .next t ∧ t.sweep = none ∧
        (t.world w.world).sweepNo = (s.world w.world).sweepNo + 1 ∧
        (∀ n v, tabFind (s.world w.world).windows n = some v → ∃ v', tabFind (t.world w.world).windows n = some v' ∧
          v'.sources = v.sources ∧ (hit v.h → v'.h = { v.h with revoked := true }) ∧
          (hit v.h → v.h.revoked = false → v'.opened = false) ∧ (¬ hit v.h → v' = v)) ∧
        (∀ d x, w.who = some d → (s.core d).hs.wait = some x → x.kind = .request → x.seen = 1 → x.done = false →
          ∃ x', (t.core d).hs.wait = some x' ∧ x'.done = true ∧
            x'.value = BitVec.ofNat 64 (((s.world w.world).sweepNo + 1) % 2 ^ 48 * 2 ^ 16)))

/-- R376 to R378: the scrub engine takes a region line by line from its mark, brings a line that verifies under the old generation to the new
one, and counts a line whose tag fails; the rotation ends once every mark stands at its region's end, with the generation one
up. -/
def Claims.RotationMovesLines : Prop :=
  ∀ (s : State) (id j : Nat) (r : Rot) (m : Nat),
    let w := s.world id
    let line := (w.berth * 2 ^ 40 + m) / 256
    w.rot = some r → r.marks.length = 12 →
    (j < 12 → r.marks[j]? = some m → m < min r.share ((j + 1) * (((r.share + 11) / 12 + 4095) / 4096 * 4096)) →
      ∃ t r', exec (.rotationScrubLine id j) s = .next t ∧ (t.world id).rot = some r' ∧ r'.marks[j]? = some (m + 256) ∧
        (∀ i, i ≠ j → r'.marks[i]? = r.marks[i]?) ∧ (t.world id).gen = w.gen ∧ t.mem = s.mem ∧ t.cores = s.cores ∧
        (∀ l, l ≠ line → t.line l = s.line l) ∧
        (s.line line = .written id w.gen false → s.lineGone line = false → t.line line = .written id (w.gen + 1) false) ∧
        (s.line line = .written id w.gen false → s.lineGone line = true → t.line line = s.line line ∧ (t.world id).integ = w.integ + 1) ∧
        (s.line line = .written id w.gen true → t.line line = s.line line ∧ (t.world id).integ = w.integ + 1) ∧
        (s.line line = .fresh → t.line line = .fresh)) ∧
    ((∀ i < 12, min r.share ((i + 1) * (((r.share + 11) / 12 + 4095) / 4096 * 4096)) ≤ r.marks.getD i 0) → r.sig = none →
      exec (.rotationEnd id) s = .next (s.setWorld id { w with rot := none, gen := w.gen + 1, rotated := true })) ∧
    ((∃ i < 12, r.marks.getD i 0 < min r.share ((i + 1) * (((r.share + 11) / 12 + 4095) / 4096 * 4096))) →
      exec (.rotationEnd id) s = .next s)

/-- R366: a world all of whose owner sessions have ended goes to ENDING: its tasks that do not run are cancelled, those that run are marked,
and a sweep over every serial starts. Once nothing of it remains it is gone, with its place in the berth's order, its lines,
translations, heaps, semaphores and sessions, and its cores are scrubbed and belong to no world. Stated while the Lodestar is idle and no interface
is being stopped. That ENDING marks the tasks that run, and what else of the world is erased, are the model's choices (log 35). -/
def Claims.WorldsEnd : Prop :=
  ∀ (s : State) (id : Nat),
    (s.ownerless id = true → (s.world id).st = .live → s.tasksIn id [.waiting, .ready, .running, .held, .yielded] = [] →
      s.lodeIdle = true →
      ∃ t w, exec (.worldDestroy id) s = .next t ∧ (t.world id).st = .ending ∧ t.sweep = some w ∧ w.world = id ∧
        w.op = .revoke 1 (2 ^ 32 - 1) ∧ (∀ n, 0 < n → n < 2 ^ 32 → (t.world id).isRevoked n = true) ∧ t.mem = s.mem) ∧
    (s.ownerless id = false → exec (.worldDestroy id) s = .next s) ∧
    (∀ d i, s.ownerless id = true → (s.world id).st = .live → s.tasksIn id [.waiting, .ready, .running, .held, .yielded] = [(d, i)] →
      (s.taskAt d i).st = .running → s.lodeIdle = true →
      ∃ t, exec (.worldDestroy id) s = .next t ∧ (t.world id).st = .ending ∧ (t.taskAt d i).marked = true ∧ t.mem = s.mem) ∧
    ((s.world id).st = .ending → s.tasksIn id [.waiting, .ready, .running, .held, .yielded] = [] → s.sweep = none → s.lodeQ = [] →
      (∀ e ∈ s.tdis, e.2.stopping = false) → s.retiring = [] →
      (∀ c, (s.core c).world = id → (s.core c).task = none ∧ (s.core c).hrun = .idle ∧ (s.core c).drained = true ∧ (s.core c).busy = false) →
      (s.cores.map (·.1)).Nodup →
      let mine (c : Nat) : Prop := ∃ k, (c, k) ∈ s.cores ∧ k.world = id
      ∃ t, exec (.endingScrubComplete id) s = .next t ∧ (t.world id).st = .none ∧ (∀ n : Nat, n < 2048 → t.sem (id * 2048 + n) = .zero) ∧
        (∀ c, mine c → (t.core c).world = 0 ∧ (t.core c).x = [] ∧ (t.core c).h = [] ∧ (t.core c).vq = [] ∧ (t.core c).tiles = []) ∧
        (∀ c, ¬ mine c → t.core c = s.core c) ∧ (∀ e ∈ t.semEcc, e / 2048 ≠ id) ∧
        (∀ c e, e ∈ (tabFind t.tlb1 c).getD [] → e.world ≠ id) ∧ (∀ o ∈ t.owned, o.1 ≠ id) ∧
        id ∉ (t.berth (s.world id).berth).order ∧ (∀ e ∈ t.heaps, e.1 / 8 ≠ id) ∧
        (∀ l g, (s.world id).berth * 2 ^ 32 ≤ l → l < ((s.world id).berth + 1) * 2 ^ 32 → l < 2 ^ 40 → s.line l = .written id g false →
          s.lineGone l = false → t.line l = .fresh ∧ ∀ b < 256, memGet t.mem (l * 256 + b) = 0) ∧
        (∀ c j, mine c → j < 2097152 → memGet t.mem (2 ^ 48 + c * 2097152 + j) = 0) ∧
        (∀ c j, ¬ mine c → c < 576 → j < 2097152 → memGet t.mem (2 ^ 48 + c * 2097152 + j) = memGet s.mem (2 ^ 48 + c * 2097152 + j))) ∧
    ((s.world id).st ≠ .ending → exec (.endingScrubComplete id) s = .next s)

/-- R386, R388: every 100 ms of its clock the Lodestar reports each LIVE world's position, inside the session of each of its owners and
under the key that its shares derived, and starts its counts anew; on takeover the
standby carries on, and each world's next report says so. -/
def Claims.ReportsAndTakeover : Prop :=
  ∀ (s : State) (id : Nat) (v : World),
    (s.lclock < s.reportAt + 100000000 → exec .positionReport s = .next s) ∧
    (s.reportAt + 100000000 ≤ s.lclock → s.worlds = [(id, v)] → v.st = .live → s.lodeFenced = [] →
      let roles := (s.owned.filter fun o => o.1 == id && o.2.2.stage == 8).map fun o => o.2.1
      ∃ t body, exec .positionReport s = .next t ∧ t.out = s.out ++ roles.map (fun r => .position id r body (v.reportMac body)) ∧
        (body.take 8 = bytesOf 8 (v.repSeq + 1)) ∧ ((body.drop 8).take 8 = bytesOf 8 s.lclock) ∧
        (t.world id).repSeq = v.repSeq + 1 ∧ (t.world id).violCount = 0 ∧ (t.world id).integ = 0 ∧ t.reportAt = s.lclock ∧
        t.mem = s.mem ∧ t.cores = s.cores) ∧
    (s.standby = false → s.lodeQ = [] →
      ∃ t, exec .lodestarTakeover s = .next t ∧ t.standby = true ∧ t.mem = s.mem ∧ t.cores = s.cores ∧
        ((s.world id).st ≠ .none → (t.world id).takeover = true) ∧ (t.world id).gen = (s.world id).gen ∧
        (t.tdi 0).err.getLsbD 14 = true ∧ 0 ∈ t.lodeFenced) ∧
    (s.standby = true → exec .lodestarTakeover s = .next s)

/-- R364 to R366, R384, R406, R407, R410, R423: what each mailbox request does, for a function in RUN whose session with the host stands,
with no other request pending and the Lodestar idle: the status and the response in the mailbox, and the request's own effect. A manifest
and an owner's report leave in their own sessions. The statuses of an owner count other than 1 or 2, of a berth that holds WMAX worlds and
of a world that does not exist, and the number that a restored world takes, are the model's choices (log 36). -/
def Claims.MailboxRequests : Prop :=
  ∀ (s : State) (f sq owners id b role : Nat) (nonce : BitVec 256) (n512 : BitVec 512) (msg blob : List Byte) (m : Manifest),
    5 ≤ s.stage → f ≤ 263 → (s.tdi f).mbx.getLsbD 0 = false → (s.tdi f).st = .run → (s.tdi f).stopping = false →
    (s.spdm (.host f)).stage = 8 → s.lodeIdle = true → msg.length ≤ 7936 → blob.length ≤ 7936 →
    s.berthOf f = some b → s.tasksIn id [.waiting, .ready, .running, .held, .yielded] = [] →
    let ctl (req status len : Nat) : X64 := BitVec.ofNat 64
      (sq % 2 ^ 32 * 2 ^ 32 + req % 256 * 2 ^ 24 + status % 256 * 2 ^ 16 + len % 2 ^ 15 * 2)
    let served (i : Instr) (req status : Nat) (body : List Byte) (also : List Out) (t : State) : Prop :=
      exec i s = .next t ∧ (t.tdi f).mbx = ctl req status body.length ∧ (t.tdi f).buf = body ∧ (t.tdi f).st = .run ∧
        t.out = s.out ++ also ++ [.mailbox f body] ∧ t.cores = s.cores
    let w := s.world id
    let d := s.berth b
    (∃ t, served (.spdmRelay f sq msg .none) 1 0 [] [] t ∧ t.mem = s.mem ∧ t.worlds = s.worlds) ∧
    (∀ k < 64, ∃ t, served (.spdmRelay f sq msg (.ideKey k)) 1 0 [] [] t ∧ tabFind t.ide k = some (f, s.fresh) ∧ t.mem = s.mem) ∧
    (w.manifest ≠ none → w.st = .live →
      (∃ t, served (.spdmRelay f sq msg (.restored id)) 1 0 [] [] t ∧ (t.world id).st = .ending) ∧
      (∃ t, served (.spdmRelay f sq msg (.refused id)) 1 0 [] [] t ∧ (t.world id).st = .live ∧ (t.world id).manifest = none ∧
        ∀ l g bad, s.line l = .moved id g bad → t.line l = .written id g bad)) ∧
    (s.freeWorld = some id →
      (owners ≠ 1 → owners ≠ 2 → ∃ t, served (.create f sq owners nonce) 2 0x02 [] [] t ∧ t.worlds = s.worlds) ∧
      (owners = 1 ∨ owners = 2 → d.short d.guarM d.guarS = true →
        ∃ t, served (.create f sq owners nonce) 2 0x44 [] [] t ∧ t.worlds = s.worlds) ∧
      (owners = 1 ∨ owners = 2 → d.short d.guarM d.guarS = false → (s.worldsOf b).length < d.wmax →
        ∃ t, served (.create f sq owners nonce) 2 0 (bytesOf 2 id) [] t ∧ (t.world id).st = .awaiting ∧ (t.world id).berth = b ∧
          (t.world id).owners = owners ∧ (t.world id).nonce = nonce ∧ (t.world id).shares = [] ∧ (t.world id).guarM = d.guarM ∧
          (t.world id).guarS = d.guarS ∧ t.mem = s.mem) ∧
      (d.wmax ≤ (s.worldsOf b).length → owners = 1 ∨ owners = 2 → d.short d.guarM d.guarS = false →
        ∃ t, served (.create f sq owners nonce) 2 0x0A [] [] t ∧ t.worlds = s.worlds)) ∧
    (s.freeWorld = none → ∃ t, served (.create f sq owners nonce) 2 0x0A [] [] t ∧ t.worlds = s.worlds) ∧
    (s.freeFor m = some id →
      (1 ≤ m.world → m.world ≤ 4095 → (s.world m.world).st = .none → id = m.world) ∧
      (((List.range 72).filter fun c => d.moored.testBit c).length < m.moored ∨ d.share < m.share → m.srcDev ≠ s.fabId →
        ∃ t, served (.restore f sq m) 7 0x43 [] [] t ∧ t.worlds = s.worlds) ∧
      (m.moored ≤ ((List.range 72).filter fun c => d.moored.testBit c).length → m.share ≤ d.share →
        (s.worldsOf b).length < d.wmax → d.freshDone = true → m.tasks = [] → m.lines = [] → m.written = [] → m.srcDev ≠ s.fabId →
        ∃ t, served (.restore f sq m) 7 0 (bytesOf 2 id) [] t ∧ (t.world id).st = .live ∧
          (t.world id).prk = prkOf s.lodestar id m.nonce (digestBytes m.prk) ∧ (t.world id).root = m.root ∧
          (t.world id).floor = m.floor ∧ (t.world id).ranges = m.ranges ∧ (t.world id).nextSerial = m.nextSerial ∧
          (t.world id).frozen = m.frozen ∧ id ∈ (t.berth b).order)) ∧
    (∀ share, ofBytes (blob.take 2) = id → ((blob.drop 2).headD 0).toNat = role →
      s.openShare blob = some share → w.owners = 2 → role = 1 ∨ role = 2 → w.shares = [] → w.st = .awaiting →
      ∃ t, served (.mbxShare f sq blob) 3 0 (bytesOf 8 0) [] t ∧ t.world id = { w with shares := [(role, share)] }) ∧
    (w.st = .live → w.berth = b →
      (∃ t, served (.destroy f sq id) 5 0 [] [] t ∧ (t.world id).st = .ending) ∧
      ((∀ v ∈ s.worldsOf b, s.tasksIn v [.running, .ready] = []) → w.rot = none → w.manifest = none →
        ∃ t man, served (.exportWorld f sq id) 6 0 [] [.manifest id man] t ∧ (t.world id).manifest = some man ∧ man.prk = w.prk ∧
          man.root = w.root ∧ man.nextSerial = w.nextSerial ∧ man.ranges = w.ranges ∧ man.srcDev = s.fabId ∧ man.world = id ∧
          t.takesSlices id = false ∧
          (∀ l g bad, s.line l = .written id g bad → t.line l = .moved id g bad) ∧ t.mem = s.mem) ∧
      (let body := (s.signReport id (bytesOf 64 n512.toNat)).1
       (∃ t, served (.report f sq id n512 none) 8 0 body [] t ∧ t.leavesOf s.lodestar = (s.leavesOf s.lodestar).use.2) ∧
       ((∃ o ∈ s.owned, o.1 = id ∧ o.2.1 = role ∧ o.2.2.stage = 8) →
        ∃ t, served (.report f sq id n512 (some role)) 1 0 [] [.report id role body] t ∧
          t.leavesOf s.lodestar = (s.leavesOf s.lodestar).use.2))) ∧
    (w.st = .none → (∃ t, served (.destroy f sq id) 5 0x02 [] [] t ∧ t.worlds = s.worlds) ∧
      (∃ t, served (.exportWorld f sq id) 6 0x42 [] [] t ∧ t.worlds = s.worlds) ∧
      (∃ t, served (.report f sq id n512 none) 8 0x42 [] [] t ∧ t.worlds = s.worlds))

/-- R409, R410: a request that comes while another is pending is ignored and ERRSTAT of the function and of function 0 says so; in ERROR it is
answered CANCELLED; one longer than the buffer is answered RESERVED_FIELD; while the Lodestar is at work it stays pending in its
turn; a function that is not in RUN, or whose interface is being stopped, serves none of these. The answers in ERROR and to one that is too long,
and that the others get none, are the model's choices (log 36). -/
def Claims.MailboxRefusals : Prop :=
  ∀ (s : State) (f sq owners id : Nat) (nonce : BitVec 256) (n512 : BitVec 512) (blob long : List Byte) (m : Manifest),
    5 ≤ s.stage → f ≤ 263 → blob.length ≤ 7936 → 7936 < long.length →
    let t := s.tdi f
    let free : Prop := t.mbx.getLsbD 0 = false
    let answered (i : Instr) (req status : Nat) : Prop := ∃ u, exec i s = .next u ∧
      u.tdi f = { t with mbx := BitVec.ofNat 64 (sq % 2 ^ 32 * 2 ^ 32 + req * 2 ^ 24 + status * 2 ^ 16), buf := [] } ∧
      u.out = s.out ++ [.mailbox f []] ∧ u.worlds = s.worlds ∧ u.tasks = s.tasks ∧ u.mem = s.mem
    let reqs : List (Nat × Instr) := [(2, .create f sq owners nonce), (3, .mbxShare f sq blob), (4, .launch f sq blob),
      (5, .destroy f sq id), (6, .exportWorld f sq id), (7, .restore f sq m), (8, .report f sq id n512 none)]
    (∀ r ∈ reqs,
      (t.mbx.getLsbD 0 = true → t.mbx.toNat / 2 ^ 32 ≠ sq % 2 ^ 32 →
        ∃ u, exec r.2 s = .next u ∧ (u.tdi f).mbx = t.mbx ∧ (u.tdi f).err.getLsbD 6 = true ∧ (u.tdi 0).err.getLsbD 6 = true ∧
          u.worlds = s.worlds ∧ u.tasks = s.tasks ∧ u.mem = s.mem ∧ u.out = s.out) ∧
      (free → t.st = .error → answered r.2 r.1 0x40) ∧
      (free → t.st = .locked ∨ t.st = .unlocked → exec r.2 s = .next s) ∧
      (free → t.st ≠ .error → t.stopping = true → exec r.2 s = .next s) ∧
      (free → t.st = .run → t.stopping = false → (s.spdm (.host f)).stage = 8 → s.lodeIdle = false → (∀ a ∈ s.lodeQ, a.who ≠ .host f) →
        ∃ u, exec r.2 s = .next u ∧ (u.tdi f).mbx.getLsbD 0 = true ∧ u.lodeQ = s.lodeQ ++ [⟨.host f, s.lclock, false⟩] ∧
          u.worlds = s.worlds ∧ u.tasks = s.tasks ∧ u.mem = s.mem ∧ u.out = s.out)) ∧
    (free → t.st ≠ .error → answered (.mbxShare f sq long) 3 0x02 ∧ answered (.launch f sq long) 4 0x02)

/-- R385, R390, R423: LAUNCH of a world of the function's berth, its control block sound and an entry free, mints the code handle, starts the
transcript anew, and answers the identifier of the task, READY where it waits for nothing. -/
def Claims.LaunchStartsWorld : Prop :=
  ∀ (s : State) (f sq b i : Nat) (buf : List Byte) (r : LaunchRead),
    5 ≤ s.stage → f ≤ 263 → (s.tdi f).mbx.getLsbD 0 = false → (s.tdi f).st = .run → (s.tdi f).stopping = false →
    (s.spdm (.host f)).stage = 8 → s.lodeIdle = true → buf.length ≤ 7936 →
    let id := ofBytes (buf.take 2)
    let at_ (k : Nat) : Nat := ofBytes ((buf.drop k).take 8)
    s.berthOf f = some b → (s.world id).st = .live → (s.world id).berth = b → ofBytes ((buf.drop 2).take 6) = 0 →
    s.launchCheck id (at_ 8) (at_ 16) (at_ 24) = .ok r → s.freeEntry r.die = some i → r.tcb.himg = [] → r.tcb.wcount = 0 →
    (s.world id).nextSerial < 2 ^ 32 →
    ∃ t, exec (.launch f sq buf) s = .next t ∧
      (let n := t.taskAt r.die i
       n.st = .ready ∧ n.inc = (s.taskAt r.die i).inc + 1 ∧ n.world = id ∧ n.future = false ∧ n.recAt = .viaWorld (at_ 8) ∧
        n.code.base = BitVec.ofNat 57 (at_ 16) ∧ n.code.rights = 0x90 ∧ n.code.serial = BitVec.ofNat 32 (s.world id).nextSerial ∧
        n.code.isSealed = true ∧ n.tcb = r.tcb ∧
        (t.tdi f).buf = bytesOf 8 (taskId id n.inc r.die false i).toNat ++ bytesOf 4 (s.world id).nextSerial) ∧
      (t.tdi f).mbx.getLsbD 0 = false ∧ (t.world id).nextSerial = (s.world id).nextSerial + 1 ∧ (t.world id).trT = 0 ∧
      (t.world id).trCount = 0 ∧ (t.world id).readSet = []

/-- R97, R397, R403, R409, R412: the TDI of a function is locked, with its interface reported and a new key for its berth's lines, started, put in
ERROR and stopped in the order of its states, and its berth's STATE follows; a stop with worlds left ends them first; a
function-level reset stops the function, and clears the registers of function 0. The stop under way and what LOCK reports are the model's choices
(log 36). -/
def Claims.InterfaceStates : Prop :=
  ∀ (s : State) (f b : Nat), 5 ≤ s.stage → f ≤ 263 → f ≠ 0 → s.lodeQ = [] →
    let t := s.tdi f
    let mine := (s.clustersHeld b).flatMap fun k => upFrom (8 * k) 8
    (s.berthOf f = some b →
      (t.st = .unlocked →
        ∃ u, exec (.lockInterface f) s = .next u ∧ u.tdi f = { t with st := .locked } ∧
          (u.berth b).state = (if (s.berth b).degraded then 2 else 1) ∧ (u.berth b).freshDone = false ∧
          (u.berth b).zeroKey = Config.drbg s.fresh ∧ u.out = s.out ++ [.interface f (s.berth b).desc t.bars] ∧
          u.mem = s.mem ∧ u.cores = s.cores) ∧
      (t.st ≠ .unlocked → t.stopping = false → s.retiring = [] → s.swapping = [] → s.worldsOf b = [] → (∀ l ∈ s.lends, l.owner ≠ b ∧ l.borrower ≠ b) →
        ∀ i ∈ [Instr.stopInterface f, .functionLevelReset f], i = .stopInterface f ∨ 8 ≤ f →
        ∃ u, exec i s = .next u ∧ (u.tdi f).st = .unlocked ∧ (u.tdi f).mbx = 0 ∧ (u.tdi f).stopping = false ∧ (u.tdi f).err = t.err ∧
          (u.berth b).state = 0 ∧ (∀ c ∈ mine, (u.core c).world = 0 ∧ (u.core c).x = [] ∧ (u.core c).h = []) ∧
          (∀ c, c ∉ mine → u.core c = s.core c) ∧ ∀ a, a < 2 ^ 48 → memGet u.mem a = memGet s.mem a) ∧
      (t.st ≠ .unlocked → t.stopping = false → s.worldsOf b ≠ [] →
        ∃ u, exec (.stopInterface f) s = .next u ∧ (u.tdi f).stopping = true ∧ (u.tdi f).st = t.st ∧
          ∀ w ∈ s.worldsOf b, (u.world w).st = .ending)) ∧
    (t.st = .locked → exec (.startInterface f) s = .next (s.setTdi f { t with st := .run })) ∧
    (t.st ≠ .locked → exec (.startInterface f) s = .next s) ∧
    (t.st = .locked ∨ t.st = .run →
      ∃ u, exec (.tdiError f) s = .next u ∧ (u.tdi f).st = .error ∧ (u.tdi f).err = t.err ||| 0x100 ∧
        (u.tdi 0).err = (s.tdi 0).err ||| 0x100 ∧ u.mem = s.mem ∧ u.cores = s.cores ∧
        (t.mbx.getLsbD 0 = false → (u.tdi f).mbx = t.mbx ∧ u.out = s.out) ∧
        (t.mbx.getLsbD 0 = true → (u.tdi f).mbx.getLsbD 0 = false ∧ (u.tdi f).mbx.toNat / 2 ^ 16 % 2 ^ 8 = 0x40 ∧
          u.out = s.out ++ [.mailbox f []])) ∧
    (t.st = .unlocked → exec (.stopInterface f) s = .next s ∧ (8 ≤ f → exec (.functionLevelReset f) s = .next s)) ∧
    (f ≤ 7 → (∀ v < 256, s.ownerOf v = f → (s.tdi (8 + v)).st = .unlocked) →
      exec (.functionLevelReset f) s = exec (.stopInterface f) s) ∧
    exec (.functionLevelReset 0) s = .next { s.setTdi 0 Tdi.init with powerLimit := 2600 }

/-- R397, R408, R411, R414, R420: function 0 writes a descriptor that meets the conditions beside the others, and one that does not meet them is
discarded with ERRSTAT; the fabric identifier is written once, and a device that has failed a stage stays there; a 1 written to ERRSTAT clears its
bit; the power limit is at most 2,600 W, and that a higher one is ignored is the model's choice (log 39). -/
def Claims.HostRegisters : Prop :=
  ∀ (s : State) (b f id : Nat) (desc : BitVec 256) (mask v : X64), 5 ≤ s.stage → f ≤ 263 →
    let old := s.berth b
    let d : Berth := { Berth.free with desc := desc &&& BitVec.ofNat 256 (2 ^ 256 - 2 ^ 63 + 2 ^ 60) }
    let new : Berth := { d with guarM := d.mooredCount, guarS := d.share }
    let bad (i : Instr) : Prop := exec i s = .next (s.setTdi 0 { s.tdi 0 with err := (s.tdi 0).err ||| 0x80 })
    (b < 48 → old.state = 0 → old.desc = 0 ∨ (s.tdi old.tdi).st = .unlocked → (s.tdi new.tdi).st = .unlocked →
      descOk new (s.others b) = true → ∃ t, exec (.berthDescriptorWrite b desc) s = .next t ∧ t = { s.setBerth b new with lost := t.lost } ∧
        ∀ l, l ∈ t.lost ↔ l ∈ s.lost ∧ ¬ (b * 2 ^ 32 ≤ l ∧ l < (b + 1) * 2 ^ 32)) ∧
    (48 ≤ b ∨ old.state ≠ 0 ∨ descOk new (s.others b) = false ∨ (s.tdi new.tdi).st ≠ .unlocked → bad (.berthDescriptorWrite b desc)) ∧
    (descOk new (s.others b) = true → new.moored &&& new.slack = 0 ∧ 1 ≤ new.share ∧ new.share ≤ 512 ∧ new.portw ≤ 64 ∧ 1 ≤ new.slice ∧
      new.slice ≤ 1000 ∧ 1 ≤ new.wmax ∧ new.wmax ≤ 16 ∧ 1 ≤ new.tdi ∧ new.tdi ≤ 263) ∧
    (s.fabIdSet = false → id ≤ 992 → s.failed = 0 →
      exec (.fabricIdWrite id) s = .next { s with fabId := id, fabIdSet := true, stage := max 6 s.stage }) ∧
    (s.fabIdSet = false → id ≤ 992 → s.failed ≠ 0 → exec (.fabricIdWrite id) s = .next { s with fabId := id, fabIdSet := true }) ∧
    (s.fabIdSet = true ∨ 992 < id → bad (.fabricIdWrite id)) ∧
    exec (.errstatClear f mask) s = .next (s.setTdi f { s.tdi f with err := (s.tdi f).err &&& ~~~mask }) ∧
    (v.toNat ≤ 2600 → exec (.registerWrite 0 .powerLimit v) s = .next { s with powerLimit := v.toNat }) ∧
    (2600 < v.toNat ∨ f ≠ 0 → exec (.registerWrite f .powerLimit v) s = .next s)

/-- R413, Table 14.5: while bring-up has not come to function 0, or stays at an earlier stage that has failed, berth descriptors, the fabric
identifier, the power limit and the owners of virtual functions take no write. -/
def Claims.RegistersWaitForBringUp : Prop :=
  ∀ (s : State) (b id vf : Nat) (desc : BitVec 256) (v : X64), s.stage < 5 →
    ∀ i ∈ [Instr.berthDescriptorWrite b desc, .fabricIdWrite id, .registerWrite 0 .powerLimit v, .registerWrite 0 (.vfOwner vf) v],
      exec i s = .next s

/-- R408 to R410: function 0 assigns a virtual function to a physical one; a base address register takes a write while the interface is
unlocked, and a change of a locked one is an error of the interface; a write into the mailbox buffer puts its eight bytes there; a
write of GO while GO is set changes nothing but ERRSTAT. Who owns a virtual function that none has assigned, and that a write of MBXCTL without GO
changes nothing while GO is set, are the model's choices (log 36). -/
def Claims.FunctionRegisters : Prop :=
  ∀ (s : State) (f vf n addr : Nat) (v : X64), 5 ≤ s.stage → f ≤ 263 →
    let t := s.tdi f
    (vf < 256 → v.toNat ≤ 7 → ∃ u, exec (.registerWrite 0 (.vfOwner vf) v) s = .next u ∧ u.ownerOf vf = v.toNat ∧ u.cores = s.cores ∧
      (∀ w, w ≠ vf → u.ownerOf w = s.ownerOf w)) ∧
    (f ≠ 0 → exec (.registerWrite f (.vfOwner vf) v) s = .next s) ∧
    (n < 6 → t.st = .unlocked → exec (.registerWrite f (.bar n) v) s = .next (s.setTdi f { t with bars := t.bars.set n v })) ∧
    (n < 6 → t.st ≠ .unlocked → t.bars.getD n 0 = v → exec (.registerWrite f (.bar n) v) s = .next s) ∧
    (n < 6 → t.st ≠ .unlocked → t.bars.getD n 0 ≠ v → exec (.registerWrite f (.bar n) v) s = exec (.tdiError f) s) ∧
    (f ≠ 0 → 0x100 ≤ addr → addr + 8 ≤ 0x2000 →
      ∃ u, exec (.registerWrite f (.other addr) v) s = .next u ∧ (u.tdi f).mbx = t.mbx ∧ u.cores = s.cores ∧
        (∀ j < 8, (u.tdi f).buf[addr - 0x100 + j]? = some (v.extractLsb' (8 * j) 8)) ∧
        (∀ j, j < t.buf.length → j < addr - 0x100 ∨ addr - 0x100 + 8 ≤ j → (u.tdi f).buf[j]? = t.buf[j]?)) ∧
    (f ≠ 0 → v.getLsbD 0 = true → t.mbx.getLsbD 0 = true →
      ∃ u, exec (.registerWrite f (.other 0) v) s = .next u ∧ (u.tdi f).mbx = t.mbx ∧ (u.tdi f).buf = t.buf ∧
        (u.tdi f).err.getLsbD 6 = true ∧ (u.tdi 0).err.getLsbD 6 = true ∧ u.cores = s.cores ∧ u.worlds = s.worlds) ∧
    (f ≠ 0 → v.getLsbD 0 = false → t.mbx.getLsbD 0 = true → exec (.registerWrite f (.other 0) v) s = .next s)

/-- R382, R386, R412, R413, R420, R421: a device reset, a thermal shutdown and a loss of power leave no world, task, byte of memory or open link, but
the leaf counters; power-good runs the stages that need no outside help, or stops where one fails, and after a loss of power every core counts its
cycles from there; what the self-tests found sets its bit. That the stages run in one step is the model's choice (log 39). -/
def Claims.ResetsAndPower : Prop :=
  ∀ (s : State) (n : Nat),
    let bare (t : State) : Prop := t.worlds = [] ∧ t.tasks = [] ∧ t.mem = [] ∧ t.ports = [] ∧ t.routes = [] ∧ t.berths = [] ∧
      t.lodeQ = [] ∧ t.sweep = none ∧ t.ecc2 = [] ∧ t.deadClusters = [] ∧ t.spareCore = [] ∧ t.spareCluster = [] ∧ t.swapping = [] ∧ t.fencedChans = [] ∧
      t.fabIdSet = false ∧ t.stage = 0 ∧ t.semEcc = [] ∧ t.lost = [] ∧ t.wire = [] ∧ t.incarnation = s.incarnation + 1 ∧ (∀ c r, (t.core c).getX r = 0) ∧
      (∀ c, (t.core c).task = none ∧ (t.core c).hrun = .idle ∧ (t.core c).fenced = false)
    (∃ t, exec .deviceReset s = .next t ∧ bare t ∧ t.power = s.power ∧ t.leaves = s.leaves) ∧
    (∀ i ∈ [Instr.powerLoss, .thermalShutdown], ∃ t, exec i s = .next t ∧ bare t ∧ t.power = false ∧
      ∀ l, (t.leavesOf l).top = (s.leavesOf l).top) ∧
    (s.power = true → s.stage = 0 → s.failed = 0 →
      (exec (.powerGood 0 [] []) s = .next { s with stage := 5, failed := 0 }) ∧
      (1 ≤ n → n ≤ 4 → ∃ t, exec (.powerGood n [] []) s = .next t ∧ t.stage = n - 1 ∧ t.failed = n ∧ (t.tdi 0).err.getLsbD 15 = true ∧
        t.present 0 = true ∧ t.mem = s.mem) ∧
      (∃ t, exec (.powerGood 0 [0] []) s = .next t ∧ t.stage = 5 ∧ (t.tdi 0).err.getLsbD 10 = true)) ∧
    (s.power = true → s.stage ≠ 0 ∨ s.failed ≠ 0 → exec (.powerGood n [] []) s = .next s) ∧
    (s.power = false → ∃ t, exec (.powerGood 0 [] []) s = .next t ∧ t.power = true ∧ t.stage = 5 ∧ t.mem = s.mem ∧
      (∀ c < 576, (t.core c).cycle0 = s.now) ∧ ∀ c, (t.core c).x = (s.core c).x)

/-- R400, R401: an idle slack cluster whose owner lends and has nothing ready passes, scrubbed, to an ACTIVE berth whose ready task lacks cores;
the owner that needs it demands it, which marks its gangs to yield; it returns, scrubbed, once nothing is left on it (log 37: drained, and when). -/
def Claims.ClustersAreLent : Prop :=
  ∀ (s : State) (k o b : Nat) (l : Lend), s.retiring = [] → (∀ e ∈ s.tdis, e.2.stopping = false) →
    let bare (t : State) : Prop := (∀ c ∈ coresOfCluster k, (t.core c).x = [] ∧ (t.core c).h = [] ∧ (t.core c).vq = [] ∧ (t.core c).tiles = []) ∧
      (∀ c, c ∉ coresOfCluster k → t.core c = s.core c) ∧ ∀ a, a < 2 ^ 48 → memGet t.mem a = memGet s.mem a
    let may : Prop := (s.berth o).lend = true ∧ o ≠ b ∧ (s.berth b).state = 1 ∧ k ∉ s.deadClusters ∧ (∀ m ∈ s.lends, m.cluster ≠ k) ∧
      s.clusterIdle k = true ∧ s.noneReady o (k / 12) = true ∧ s.starved b (k / 12) (s.clustersHeld b) = true
    (s.slackOwner k = some o →
      (may → ∃ t, exec (.lendCluster k b) s = .next t ∧ t.lends = s.lends ++ [⟨k, o, b, none⟩] ∧ k ∈ t.clustersUsable b ∧
        k ∉ t.clustersUsable o ∧ bare t ∧ ∀ c ∈ coresOfCluster k, (t.core c).world = (s.berth b).cur) ∧
      (¬ may → exec (.lendCluster k b) s = .next s)) ∧
    (s.slackOwner k = none → exec (.lendCluster k b) s = .next s) ∧
    (s.lends.find? (fun m => m.cluster == k) = none → ∀ i ∈ [Instr.demandReturn k, .lendReturnTimeout k], exec i s = .next s) ∧
    (s.lends.find? (fun m => m.cluster == k) = some l →
      (l.demanded = none → exec (.lendReturnTimeout k) s = .next s ∧
        (s.starved l.owner (k / 12) (s.clustersUsable l.owner) = false → exec (.demandReturn k) s = .next s) ∧
        (s.starved l.owner (k / 12) (s.clustersUsable l.owner) = true →
          (s.clusterIdle k = true → s.tasksOn k = [] →
            ∃ t, exec (.demandReturn k) s = .next t ∧ (∀ m ∈ t.lends, m.cluster ≠ k) ∧ bare t) ∧
          (s.clusterIdle k = false →
            ∃ t, exec (.demandReturn k) s = .next t ∧ t.mem = s.mem ∧ t.cores = s.cores ∧
              (∀ m ∈ t.lends, m.cluster = k → m.demanded = some s.now) ∧ k ∉ t.clustersUsable l.borrower ∧
              ∀ d i, i < 4096 → (s.taskAt d i).st = .running → (∃ c ∈ (s.taskAt d i).cores, c / 8 = k) →
                (t.taskAt d i).yieldPend = true))) ∧
      (∀ at_, l.demanded = some at_ →
        (s.clusterIdle k = true → ∃ t, exec (.demandReturn k) s = .next t ∧ (∀ m ∈ t.lends, m.cluster ≠ k) ∧ bare t) ∧
        (s.clusterIdle k = false → exec (.demandReturn k) s = .next s) ∧
        (s.now < at_ + 3480000 → exec (.lendReturnTimeout k) s = .next s) ∧
        (at_ + 3480000 ≤ s.now → s.tasksOn k = [] → s.clusterIdle k = true →
          ∃ t, exec (.lendReturnTimeout k) s = .next t ∧ (∀ m ∈ t.lends, m.cluster ≠ k) ∧ bare t) ∧
        (at_ + 3480000 ≤ s.now → ∀ d i, s.tasksOn k = [(d, i)] → i < 4096 →
          let g := s.taskAt d i
          g.st = .running → g.refs = [] → g.tcb.sigs = [] → g.recAt = .none → g.bars = [] → g.tcb.res = false →
          (∀ c ∈ g.cores, (s.core c).task = some (d, i) ∧ ∀ st, ((s.core c).strm st).wait = none) →
          ∃ t, exec (.lendReturnTimeout k) s = .next t ∧ (t.taskAt d i).outcome.status = 0x41 ∧
            (t.world g.world).overruns = (s.world g.world).overruns + 1 ∧ ∀ c ∈ g.cores, (t.core c).task = none)))

/-- R402, R411, R418: a corrected error of a unit counts in CORR. The first uncorrectable error within an hour is only noted, with a word of the
core or a semaphore of its world bad; the second, or a failed self-test, retires the unit, which ERRSTAT shows at once and the next change of
world brings about (which word: log 18; when: log 38). -/
def Claims.UnitErrorsCount : Prop :=
  ∀ (s : State) (c : Nat) (u : HwUnit),
    let told (t : State) (bit : Nat) : Prop := (t.tdi 0).err.getLsbD bit = true
    let same (t : State) : Prop := t.mem = s.mem ∧ t.berths = s.berths ∧ t.tasks = s.tasks ∧ t.deadClusters = s.deadClusters ∧
      t.spareCore = s.spareCore ∧ t.spareCluster = s.spareCluster
    ((s.tdi 0).err.toNat % 64 < 63 →
      ∃ t, exec (.unitRetire u .corrected) s = .next t ∧ (t.tdi 0).err = (s.tdi 0).err + 1 ∧ same t ∧ t.cores = s.cores) ∧
    ((s.tdi 0).err.toNat % 64 = 63 → ∃ t, exec (.unitRetire u .corrected) s = .next t ∧ (t.tdi 0).err = (s.tdi 0).err) ∧
    (u = .core c →
      ((∀ e ∈ s.unitErrs, e.1 = u → e.2 + 3600000000000 < s.lclock) →
        ∃ t, exec (.unitRetire u .uncorrectable) s = .next t ∧ (u, s.lclock) ∈ t.unitErrs ∧ t.retiring = s.retiring ∧ t.tdis = s.tdis ∧
          t.ecc2.length + (t.core c).ecc.length + t.semEcc.length = s.ecc2.length + (s.core c).ecc.length + s.semEcc.length + 1 ∧ (t.core c).x = (s.core c).x ∧ same t) ∧
      ((∃ e ∈ s.unitErrs, e.1 = u ∧ s.lclock ≤ e.2 + 3600000000000) →
        ∃ t, exec (.unitRetire u .uncorrectable) s = .next t ∧ told t 11 ∧ u ∈ t.retiring ∧ (∀ e ∈ t.unitErrs, e.1 ≠ u) ∧ same t) ∧
      (∃ t, exec (.unitRetire u .selfTest) s = .next t ∧ told t 11 ∧ u ∈ t.retiring ∧ t.cores = s.cores ∧ same t)) ∧
    (∀ n, u = .hbmChannel n → n ∉ s.fencedChans → ∃ t, exec (.unitRetire u .selfTest) s = .next t ∧ told t 10 ∧ t.retiring = s.retiring ∧ t.cores = s.cores ∧
      t.mem = s.mem ∧ t.lines = s.lines ∧ t.tasks = s.tasks)

/-- R404, R418, R419: an HBM channel that errs twice within an hour, fails its self-test or fails for good is replaced at once by a spare bank of
its stack or a gibibyte that no SHARE claims; with neither no line on it is read, and each berth with a share there loses a gibibyte and is
DEGRADED. Lines of one that failed for good fail until they are written (where lines are, those, and the size: log 38). -/
def Claims.ChannelsRetire : Prop :=
  ∀ (s : State) (n : Nat) (why : UnitErr), n ∉ s.deadChans →
    why = .selfTest ∨ (why = .uncorrectable ∧ ∃ e ∈ s.unitErrs, e.1 = .hbmChannel n ∧ s.lclock ≤ e.2 + 3600000000000) →
    let st := Config.stackOf n
    let used := (tabFind s.banksUsed st).getD 0
    let total := ((List.range 48).map fun e => (s.berth e).share).sum + s.hbmTaken
    let kept (t : State) : Prop := exec (.unitRetire (.hbmChannel n) why) s = .next t ∧ (t.tdi 0).err.getLsbD 10 = true ∧ t.mem = s.mem ∧
      (n ∉ s.fencedChans → t.lines = s.lines) ∧ t.cores = s.cores ∧ t.tasks = s.tasks
    let there (l : Nat) : Bool := Config.channelOf l == n && Config.placed n (l / 2 ^ 32)
    let hit (b : Nat) : Prop := b < 48 ∧ 0 < (s.berth b).share ∧ Config.placed n b = true
    (used < Config.spareBanks st →
      ∃ t, exec (.unitRetire (.hbmChannel n) .fatal) s = .next t ∧ (t.tdi 0).err.getLsbD 10 = true ∧ (t.tdi 0).err.getLsbD 15 = true ∧
        n ∉ t.fencedChans ∧ t.deadChans = s.deadChans ∧ t.berths = s.berths ∧ t.mem = s.mem ∧ t.tasks = s.tasks ∧
        ∀ l, tabFind t.lines l = (tabFind s.lines l).map fun v => if there l then v.unread else v) ∧
    (used < Config.spareBanks st →
      ∃ t, kept t ∧ t.berths = s.berths ∧ t.deadChans = s.deadChans ∧ tabFind t.banksUsed st = some (used + 1)) ∧
    (Config.spareBanks st ≤ used → total < 512 →
      ∃ t, kept t ∧ t.berths = s.berths ∧ t.deadChans = s.deadChans ∧ t.hbmTaken = s.hbmTaken + 1) ∧
    (Config.spareBanks st ≤ used → 512 ≤ total →
      ∃ t, kept t ∧ n ∈ t.deadChans ∧ (∀ w l, there l = true → t.readable w l = false) ∧
        (∀ b, hit b → (t.berth b).state = 2 ∧ (t.berth b).degraded = true ∧ (t.berth b).share = (s.berth b).share - 1) ∧
        ∀ b, ¬ hit b → t.berth b = s.berth b)

/-- R9, R120, R379, R402 to R404, R411, R419: at a core's change of world, or at once after a failure that cannot be confined, the first core of
a cluster that retires is served by its spare core, with the state of task start and a CYCLE of its own, a later one by the die's spare cluster,
the other cores going on; the first cluster of a die by that cluster; beyond that it leaves every berth's masks, and the device reserve gives a
substitute. A loss of HBM with a spare shows only its error bit; without, the line fails for good and the berth is DEGRADED (moment, size, count:
log 38). -/
def Claims.UnitsRetire : Prop :=
  ∀ (s : State) (c k b n w st : Nat) (r : List Nat),
    let told (t : State) (bit : Nat) : Prop := (t.tdi 0).err.getLsbD bit = true
    let idle (d : Nat) : Prop := ∀ e ∈ s.tasks, e.2.st = .running → d ∉ e.2.cores
    let spared (t : State) : Prop := (c / 8) ∈ t.spareCore ∧ (t.core c).fenced = false ∧ (t.core c).x = [] ∧ (t.core c).h = [] ∧
      (t.core c).cycle0 = (s.core c).cycle0 - Config.spareCycles c ∧ (∀ j, j ≠ c → t.core j = s.core j) ∧ t.berths = s.berths ∧
      t.deadClusters = s.deadClusters
    (c / 8 ∉ s.spareCore → c ∉ s.swapping →
      (idle c → ∃ t, exec (.unitRetire (.core c) .fatal) s = .next t ∧ told t 11 ∧ told t 15 ∧ spared t) ∧
      ((s.core c).task = none → (s.core c).hrun = .idle → (s.core c).drained = true → (s.core c).busy = false → s.asksLode c = false →
        (s.core c).world ≠ w → s.inSlice w = true → c / 8 ∈ s.clustersUsable (s.world w).berth → s.retiring = [.core c] →
        ∃ t, exec (.worldChangeScrub c w) s = .next t ∧ t.retiring = [] ∧ spared t)) ∧
    (c / 8 ∈ s.spareCore → c ∉ s.swapping → idle c →
      ∃ t, exec (.unitRetire (.core c) .fatal) s = .next t ∧ told t 11 ∧ told t 15 ∧ t.tasks = s.tasks ∧ t.berths = s.berths ∧
        t.deadClusters = s.deadClusters ∧ (∀ j, j ≠ c → t.core j = s.core j) ∧
        (c / 96 ∉ s.spareCluster → t.spareCluster = c / 96 :: s.spareCluster ∧ (t.core c).fenced = false ∧ (t.core c).x = [] ∧
          ∀ j, j ∈ t.swapping ↔ (j / 8 = c / 8 ∧ j ≠ c) ∨ (j / 8 ≠ c / 8 ∧ j ∈ s.swapping)) ∧
        (c / 96 ∈ s.spareCluster → .cluster (c / 8) ∈ t.retiring ∧ t.core c = { s.core c with fenced := true })) ∧
    (k / 12 ∉ s.spareCluster → (∀ d ∈ coresOfCluster k, idle d) →
      ∃ t, exec (.unitRetire (.cluster k) .fatal) s = .next t ∧ told t 11 ∧ t.spareCluster = k / 12 :: s.spareCluster ∧
        t.berths = s.berths ∧ t.deadClusters = s.deadClusters ∧ ∀ d ∈ coresOfCluster k, (t.core d).fenced = false ∧ (t.core d).x = []) ∧
    (k / 12 ∈ s.spareCluster → (∀ d ∈ coresOfCluster k, idle d) → s.mooredOwner k = some b → s.reserve = n :: r → (∀ l ∈ s.lends, l.cluster ≠ k) →
      ∃ t, exec (.unitRetire (.cluster k) .fatal) s = .next t ∧ told t 11 ∧ k ∈ t.deadClusters ∧ t.mem = s.mem ∧ t.tasks = s.tasks ∧
        (∀ e, (t.berth e).moored.testBit k = false ∧ (t.berth e).slack.testBit k = false) ∧ (t.berth b).moored.testBit n = true ∧
        (∀ e, k ∉ t.clustersHeld e) ∧ ∀ d ∈ coresOfCluster k, (t.core d).fenced = true) ∧
    (let used := (tabFind s.banksUsed st).getD 0
     let total := ((List.range 48).map fun e => (s.berth e).share).sum + s.hbmTaken
     let kept (t : State) : Prop := told t 10 ∧ t.berths = s.berths ∧ t.mem = s.mem ∧ t.lines = s.lines ∧ t.tasks = s.tasks
     (used < Config.spareBanks st → ∃ t, exec (.hbmRetire b n st) s = .next t ∧ kept t ∧ tabFind t.banksUsed st = some (used + 1)) ∧
     (Config.spareBanks st ≤ used → total < 512 → ∃ t, exec (.hbmRetire b n st) s = .next t ∧ kept t ∧ t.hbmTaken = s.hbmTaken + 1) ∧
     (Config.spareBanks st ≤ used → 512 ≤ total →
       ∃ t, exec (.hbmRetire b n st) s = .next t ∧ told t 10 ∧ (t.berth b).state = 2 ∧ (t.berth b).degraded = true ∧
         (t.berth b).share = (s.berth b).share - 1 ∧ t.mem = s.mem ∧ t.tasks = s.tasks ∧
         (∀ v, t.readable v ((b * 2 ^ 40 + 256 * n) / 256) = false) ∧ t.lines = s.lines ∧ t.hbmTaken = s.hbmTaken + 1 ∧
         ∀ v a, a ≠ (b * 2 ^ 40 + 256 * n) / 256 → t.readable v a = s.readable v a))

/-- R333, R419: a fenced core takes no more gangs and stops its gang with INTEGRITY and SUB 3, which the world counts; a fenced port is DOWN and
trains no more; a fenced channel serves no line, a fenced Lodestar no request; function 0 learns of it (log 38). -/
def Claims.UnitsAreFenced : Prop :=
  ∀ (s : State) (c p d i : Nat),
    let g := s.taskAt d i
    ((∀ e ∈ s.tasks, e.2.st = .running → c ∉ e.2.cores) →
      ∃ t, exec (.unitFence (.core c)) s = .next t ∧ t.core c = { s.core c with fenced := true } ∧ (t.tdi 0).err.getLsbD 15 = true ∧
        (∀ die w, c ∉ t.freeCores die w) ∧ t.mem = s.mem ∧ ∀ j, j ≠ c → t.core j = s.core j) ∧
    (s.tasks = [(d * 4096 + i, g)] → i < 4096 → c ∈ g.cores → g.st = .running → g.refs = [] → g.tcb.sigs = [] → g.recAt = .none →
      (∀ a ∈ g.cores, (s.core a).task = some (d, i) ∧ ∀ st, ((s.core a).strm st).wait = none) →
      ∃ t, exec (.unitFence (.core c)) s = .next t ∧ (t.core c).fenced = true ∧ (t.tdi 0).err.getLsbD 15 = true ∧
        (t.taskAt d i).outcome.status = 0x1A ∧ (t.taskAt d i).outcome.sub = 3 ∧
        (t.world g.world).integ = (s.world g.world).integ + 1 ∧ ∀ a ∈ g.cores, (t.core a).task = none) ∧
    (∃ t, exec (.unitFence (.port p)) s = .next t ∧ (t.port p).st = .down ∧
      exec (.portTrain p) t = .next t ∧ (t.tdi 0).err.getLsbD 15 = true ∧ t.mem = s.mem ∧
      t.cores = s.cores ∧ ∀ q, q ≠ p → t.port q = s.port q) ∧
    (∃ t, exec (.unitFence (.hbmChannel p)) s = .next t ∧ (t.tdi 0).err.getLsbD 15 = true ∧ p ∈ t.fencedChans ∧ t.mem = s.mem ∧
      t.cores = s.cores ∧ t.tasks = s.tasks ∧ ∀ w l, Config.channelOf l = p → Config.placed p (l / 2 ^ 32) = true → t.readable w l = false) ∧
    (∃ t, exec (.unitFence .lodestar) s = .next t ∧ (t.tdi 0).err.getLsbD 15 = true ∧ t.lodeDown = true ∧ t.mem = s.mem ∧
      t.cores = s.cores ∧ t.tasks = s.tasks)

/-- R386, R411, R420: a step of the power limit raises every core's minimum class by one, at most to 3; a relaxation, not before 100 ms after the
last step (log 39), lowers it by one; an alarm is in the next position report, the thermal in ERRSTAT. -/
def Claims.PowerAndAlarms : Prop :=
  ∀ (s : State) (c : Nat), c < 576 →
    (∃ t, exec .powerLimit s = .next t ∧ (t.core c).minCls = min 3 ((s.core c).minCls + 1) ∧ (t.tdi 0).err.getLsbD 12 = true ∧
      t.powerAt = s.now ∧ t.mem = s.mem ∧ (t.core c).x = (s.core c).x ∧ (t.core c).h = (s.core c).h) ∧
    (s.now < s.powerAt + 120000000 → exec .powerRelax s = .next s) ∧
    (s.powerAt + 120000000 ≤ s.now → ∃ t, exec .powerRelax s = .next t ∧ (t.core c).minCls = (s.core c).minCls - 1 ∧ t.tdis = s.tdis ∧ t.mem = s.mem ∧
      (t.core c).x = (s.core c).x ∧ (t.core c).h = (s.core c).h) ∧
    exec .voltageAlarm s = .next { s with alarms := s.alarms ||| 1 } ∧ exec .clockAlarm s = .next { s with alarms := s.alarms ||| 2 } ∧
    (∃ t, exec .thermalAlarm s = .next t ∧ t.alarms = s.alarms ||| 4 ∧ (t.tdi 0).err.getLsbD 13 = true ∧ t.mem = s.mem ∧
      t.cores = s.cores ∧ t.tasks = s.tasks)

/-- R97, R365: when the scrub of a berth that is not FREE ends, every line of its share is fresh and reads as zero, others stay, and a world
that has all its shares becomes LIVE. -/
def Claims.FreshScrubEnds : Prop :=
  ∀ (s : State) (b : Nat), b < 48 →
    ((s.berth b).state ≠ 0 → (s.berth b).freshDone = false →
      ∃ t, exec (.freshScrubComplete b) s = .next t ∧ (t.berth b).freshDone = true ∧
        (∀ a, a < 2 ^ 40 → memGet t.mem (b * 2 ^ 40 + a) = 0 ∧ t.line ((b * 2 ^ 40 + a) / 256) = .fresh) ∧
        (∀ a, a < b * 2 ^ 40 ∨ (b + 1) * 2 ^ 40 ≤ a → memGet t.mem a = memGet s.mem a) ∧
        ∀ w, (s.world w).st = .awaiting → (s.world w).berth = b → (s.world w).shares.length = (s.world w).owners → (t.world w).st = .live) ∧
    ((s.berth b).state = 0 ∨ (s.berth b).freshDone = true → exec (.freshScrubComplete b) s = .next s)

/-- R97, R113, R333, R397, R408, R409, R413: right after reset no bring-up stage has run; no world, task, berth, open port or fabric
identifier exists, memory lists nothing, the power limit is 2,600 W, and memory is in canonical form. That every general register reads 0
there is the model's choice (log 5). -/
def Obligations.ResetState : Prop :=
  let s := State.reset
  s.stage = 0 ∧ s.failed = 0 ∧ s.mem = [] ∧ s.memWf = true ∧ s.agenda = [] ∧ s.fabIdSet = false ∧ s.incarnation = 0 ∧ s.sweep = none ∧
    s.powerLimit = 2600 ∧ s.alarms = 0 ∧ s.standby = false ∧
    (∀ w, (s.world w).st = .none) ∧ (∀ d i, (s.taskAt d i).st = .free) ∧ (∀ p, (s.port p).st = .down) ∧ (∀ b, (s.berth b).state = 0) ∧
    s.lodeQ = [] ∧ s.ecc2 = [] ∧ s.retiring = [] ∧
    (∀ f, (s.tdi f).st = .unlocked ∧ (s.tdi f).mbx = 0 ∧ (s.tdi f).err = 0) ∧ (∀ d, tabFind s.routes d = none) ∧
    ∀ c, (s.core c).hrun = .idle ∧ (s.core c).task = none ∧ (∀ r, (s.core c).getX r = 0) ∧ (∀ r, (s.core c).getC r = decide (r = 7)) ∧
      (∀ r, (s.core c).getH r = .cleared) ∧ ∀ st, ((s.core c).strm st).run = .absent

/-- R12, R15, R19, R35, R43, R49, R53: one step serves the turn that the schedule gives. Where the three granules at the pc of a running Helm are
present and no fault waits to be taken, they decode to an instruction and the step is its execution; a word that Table 2.14 rejects is a trap
at the pc. A stream in a section issues the group at its pc, once its channels are ready and no earlier stream waits for its tiles, as the
execution of its words; until then the step only notes what it waits for. Stated of a core with nothing left to restore and no word in
double error. The schedule is the model's (log 1), as is the time that a step takes (log 3), in which the pairs that a router has held too
long go on (R352). -/
def Obligations.StepRunsDecodedInstruction : Prop :=
  ∀ (s t : State) (c : Nat) (st : Stream) (i : Instr),
    let later : State := State.agePairs { s with now := s.now + Config.elapsed s.fresh, fresh := s.fresh + 1 }
    let k := t.core c
    let v := k.strm st
    let pc := v.pc.toNat
    let word := BitVec.ofNat 96 (ofBytes ((upFrom (imemKey c (4 * pc)) 12).map (memGet t.mem)))
    let at_ (f : Code) : Flt := ⟨f, 0, BitVec.ofNat 64 pc⟩
    let prep := State.prepare c st
    let ready (ws : List GWord) : Prop := k.met v (t.groupNeeds c st ws) = true ∧ k.yieldsTile st (t.groupNeeds c st ws) = false
    (s.power = true → (∃ e rest, s.agenda = .event e :: rest ∧ e = i ∧ isEvent e = true ∧ t = { later with agenda := rest }) →
      step s = exec i t) ∧
    (s.power = false → (∀ n bs us rest, s.agenda ≠ .event (.powerGood n bs us) :: rest) → step s = .fault .poweredDown) ∧
    (s.power = true →
      (s.agenda = [] ∧ s.cur = c ∧ s.curSt = st ∧ t = later) ∨
        (∃ rest, s.agenda = .stream c st :: rest ∧ t = { later with agenda := rest, cur := c, curSt := st }) →
      k.absent = [] → k.ecc = [] → t.ecc2 = [] →
      (st = .h → k.hrun ≠ .running → step s = .next t) ∧
      (st ≠ .h → v.run ≠ .running ∨ k.hrun = .idle → step s = .next t) ∧
      (pc + 3 ≤ codeLenOf k.code → (∀ j < 3, k.hasGran (pc + j) = true) →
        (st = .h → k.hrun = .running → k.pend = [] ∨ k.ie = false →
          (isHelmHeader word = true → step s = exec (.hSectionHeader c) t) ∧
          (isHelmHeader word = false →
            (decodeWord .h word = .ok i → step s = exec i t) ∧
            (decodeWord .h word = .illegal → step s = .next (t.takeTrap c (at_ .illegalOp) .h v.pc 0)) ∧
            (decodeWord .h word = .mismatch → step s = .next (t.takeTrap c (at_ .streamMismatch) .h v.pc 0)) ∧
            (decodeWord .h word = .reserved → step s = .next (t.takeTrap c (at_ .reservedField) .h v.pc 0)))) ∧
        (st ≠ .h → k.hrun ≠ .idle → v.run = .running → v.sec.isSome = true →
          (decodeWord st word = .illegal → step s = .next (t.streamFault c st (at_ .illegalOp))) ∧
          (decodeWord st word = .mismatch → step s = .next (t.streamFault c st (at_ .streamMismatch))) ∧
          (decodeWord st word = .reserved → step s = .next (t.streamFault c st (at_ .reservedField))) ∧
          (decodeWord st word = .ok i → endsGroup word = true → latchesOf word = [] → v.issues word = true →
            let ws : List GWord := [⟨word, i, true⟩]
            (¬ ready ws → step s = .next (t.setStrm c st { v with blocked := some (t.groupNeeds c st ws) })) ∧
            (ready ws → i.alone = true → step s = exec i t) ∧
            (ready ws → i.alone = false → ∀ u, t.openGroup prep c st ws = .ok u → step s = exec i u)))) ∧
      (st ≠ .h → k.hrun ≠ .idle → v.run = .running → ∀ sec ws u, v.sec = some sec → t.groupAt c st v.issues sec pc = .ok (ws, t) →
        2 ≤ ws.length → (∀ w ∈ ws, w.ins.alone = false) → ready ws → t.openGroup prep c st ws = .ok u →
        step s = runWords exec prep c st ws u))

/-- R15, R23, R49, R127, R413, R421: in no state does a form of the opcode table end in a fault or a refusal of the model: it answers a next state,
and what that state is the other statements say. A step stops in one case alone, and under one name: the device has no power and the
first turn is not a power-good; with power, and for a power-good, it answers a next state. -/
def Obligations.EveryInstructionAnswers : Prop :=
  (∀ (i : Instr) (s : State), ∃ t, exec i s = .next t) ∧
  ∀ s : State,
    ((∃ t, step s = .next t) ↔ s.power = true ∨ ∃ n bs us rest, s.agenda = .event (.powerGood n bs us) :: rest) ∧
    ((∃ t, step s = .next t) ∨ step s = .fault .poweredDown)

/-- Tables 2.1, 2.17, 5.12, 6.7, 7.11, 8.7, 9.11, 10.6, 11.10, 12.7, 13.10: words that the manual writes out decode to the instructions it writes
beside them, in their streams. -/
def Obligations.EncodedWordsDecode : Prop :=
  decodeWord .h 0x02001040E000FFFFFFFFFFFF = .ok (.addi 7 1 1 0xFFFFFFFFFFFF) ∧
  decodeWord .h 0x19042040E000000000000000 = .ok (.cmpi 7 .ne 2 1 0) ∧
  decodeWord .h 0x1E003000F000000000000000 = .ok (.cutl 7 4 3) ∧
  decodeWord .h 0x21005000E0A8000000000102 = .ok (.ld 7 .b2 false false 5 5 0 0x102) ∧
  decodeWord .l 0xF00C0000020000003FFFFFF0 = .ok (.loop (some 2) 0x3FFFFFF0) ∧
  decodeWord .l 0x402C00000400000010000000 = .ok (.tld ⟨true, false, false⟩ 1 true 0 ⟨4, false, some 0, 0⟩) ∧
  decodeWord .v 0x620002000101000000000000 =
    .ok (.vmul ⟨⟨false, false, false⟩, ⟨0, false⟩, .nul, .q 1 false, .vec (.q 2 false), .f32, .rne, false⟩) ∧
  decodeWord .v 0x600400070142000000000000 =
    .ok (.vadd ⟨⟨true, false, false⟩, ⟨0, false⟩, .q 3 false, .lat 1, .vec (.q 4 true), .f32, .rne, false⟩) ∧
  decodeWord .m 0xA30000040401200000F00280 = .ok (.mmag ⟨false, false, false⟩ 2 4 2 (.q 0 true) none false 0xF ⟨0, some 1⟩ false) ∧
  decodeWord .h 0xB00080001080000000000000 = .ok (.cpy 0 ⟨.none, 0⟩ false 4 0 0 1 2 ⟨false, 0, false, 0⟩) ∧
  decodeWord .h 0xC30800002000000000000100 = .ok (.barrInit 0 0 2 0 0x100) ∧
  decodeWord .h 0xD000E0000280000000000000 = .ok (.spawn 7 0 10 0 0) ∧
  decodeWord .h 0xE30085000040000000001000 = .ok (.mcst 4 5 0 0 1 none 0x1000) ∧
  decodeWord .h 0xEC0000000140010600000000 = .ok (.lrotate 5 (some 6)) ∧
  decodeWord .h 0xEF0800280380000200000000 = .ok (.lworldProgress 10 14) ∧
  decodeWord .h 0x620002000101000000000000 = .mismatch ∧ decodeWord .h 0x36000000E000000000000000 = .illegal ∧
  decodeWord .h 0x02001041E000FFFFFFFFFFFF = .reserved ∧
  decodeHeader false 0xA00A008000808000 = .sect 10 false [0x80, 0, 0x80, 0x80] ∧ decodeHeader false 0xB000000000000000 = .endHdr 0

/-- R33, R43, R45 to R50, Tables 2.5 to 2.14: decoding the word of a well-formed instruction gives the instruction back, with every operand
at every value; whatever a word decodes to in a stream is well formed, and the word of that instruction decodes to it there. -/
def Obligations.DecodeEncodeAgree : Prop :=
  (∀ i : Instr, i.wf = true → isEvent i = false → ∃ w, encode i = some w ∧ decodeWord i.stream w = .ok i) ∧
  ∀ (st : Stream) (w : Word96) (i : Instr), decodeWord st w = .ok i →
    i.wf = true ∧ isEvent i = false ∧ ∃ x, encode i = some x ∧ decodeWord st x = .ok i

/-- The byte memory of the state stays in its one canonical form, addresses rising and no zero listed, whatever a step does. The form is the
model's (log 4). -/
def Obligations.StepKeepsMemoryCanonical : Prop :=
  ∀ s t : State, s.memWf = true → step s = .next t → t.memWf = true

/-- x0 and c7 are hard-wired, a false guard retires a format H word, and CMP, CMPI and CCOMB write their relation:
    HardwiredRegisters, FalseGuardRetires, ConditionResults. -/
def Obligations.HelmRegistersAndConditions : Prop :=
  Claims.HardwiredRegisters ∧ Claims.FalseGuardRetires ∧ Claims.ConditionResults

/-- Each Helm integer instruction writes xd with the result of Table 5.9 and changes nothing else; a zero divisor raises ARITH:
    IntegerResults, HighProducts, ShiftsAndLeadingZeros, DivisionResults. -/
def Obligations.HelmIntegerArithmetic : Prop :=
  Claims.IntegerResults ∧ Claims.HighProducts ∧ Claims.ShiftsAndLeadingZeros ∧ Claims.DivisionResults

/-- SLATE, SLATEX, CUT, CUTL, SLINV and BSEL: targets, valid bits, transfers and bucket selection: SlateSetsTarget, CutTransfers,
    BselSelectsLeastBucket, BselFaults. Clauses rest on choices of the model: log 16. -/
def Obligations.SlatesAndTransfers : Prop :=
  Claims.SlateSetsTarget ∧ Claims.CutTransfers ∧ Claims.BselSelectsLeastBucket ∧ Claims.BselFaults

/-- CheckAccess fails with the first check that fails, each with its value, and locates the bytes of an access that passes, in
    the scratchpad or by the page tree: AccessChecksInOrder, ScratchpadAccessPasses, TranslatedAccess. Clauses rest on choices of
    the model: log 29. -/
def Obligations.AccessChecks : Prop :=
  Claims.AccessChecksInOrder ∧ Claims.ScratchpadAccessPasses ∧ Claims.TranslatedAccess

/-- LD writes xd with the bytes its check located, ST writes them from xb, and nothing else changes: LoadWritesRegister,
    StoreWritesMemory. -/
def Obligations.LoadsAndStores : Prop :=
  Claims.LoadWritesRegister ∧ Claims.StoreWritesMemory

/-- HLD and HST move sealed handle images; a failed check of a load or store traps and does nothing else: HandleLoad,
    HandleStore, FailedAccessTraps. -/
def Obligations.HandleImages : Prop :=
  Claims.HandleLoad ∧ Claims.HandleStore ∧ Claims.FailedAccessTraps

/-- HNARROW, HMOV, HCLR, HGET and HCHK: what each writes, and the order of HNARROW's refusals: HandleNarrowing,
    HandleMovesAndTests. Clauses rest on choices of the model: log 29. -/
def Obligations.HandleOperations : Prop :=
  Claims.HandleNarrowing ∧ Claims.HandleMovesAndTests

/-- Control registers read and write as Table 5.2 says in each mode, and privileged words raise PRIVILEGE in task mode:
    PrivilegeInTaskMode, ControlRegisters. -/
def Obligations.PrivilegeAndControlRegisters : Prop :=
  Claims.PrivilegeInTaskMode ∧ Claims.ControlRegisters

/-- Taking a trap saves pc, cause and mode and goes to the handler; a fault not taken stops the gang; TRAP and BRK; TRET
    restores: TrapEntrySaves, UntakenFaultStops, SoftwareTraps, TrapReturnRestores. -/
def Obligations.TrapsAndReturns : Prop :=
  Claims.TrapEntrySaves ∧ Claims.UntakenFaultStops ∧ Claims.SoftwareTraps ∧ Claims.TrapReturnRestores

/-- FORK starts the streams of its record; JOIN waits for them, and JOIN 1 abandons them: ForkStartsStreams, JoinMeetsStreams. -/
def Obligations.ForkAndJoin : Prop :=
  Claims.ForkStartsStreams ∧ Claims.JoinMeetsStreams

/-- QMAP, OQSEND, HALT, WAITI and NOP: what each waits for and does: QueueMapApplies, OqsendAppends, HaltWaitsAndStops,
    WaitAndNop. -/
def Obligations.HelmSystemWords : Prop :=
  Claims.QueueMapApplies ∧ Claims.OqsendAppends ∧ Claims.HaltWaitsAndStops ∧ Claims.WaitAndNop

/-- An issue group commits whole, every staged effect and nothing else, or, where a last check fails, not at all: GroupCommits,
    MatrixGroupCommits, FailedGroupCommitsNothing. Clauses rest on choices of the model: log 1, log 15. -/
def Obligations.GroupsCommitWhole : Prop :=
  Claims.GroupCommits ∧ Claims.MatrixGroupCommits ∧ Claims.FailedGroupCommitsNothing

/-- The vector loads of L and the vector stores of S, element by element: VectorLoads, VectorStores. -/
def Obligations.VectorMemoryWords : Prop :=
  Claims.VectorLoads ∧ Claims.VectorStores

/-- TLD, TST, TFULL, TEMPTY and PADAPPLY: tile bytes, the full bit and the pad edges: TileTransfers, TileBitsAndPads. -/
def Obligations.TileMemoryWords : Prop :=
  Claims.TileTransfers ∧ Claims.TileBitsAndPads

/-- Float words and words of one source: each active element is the exact result rounded once, or as the table says: FloatWords,
    OneSourceWords. Clauses rest on choices of the model: log 12. -/
def Obligations.FloatAndOneSourceWords : Prop :=
  Claims.FloatWords ∧ Claims.OneSourceWords

/-- Integer, bitwise and shift words, VSEL, VSCALE, VMOV and VCMP, element by element: IntegerWords, SelectScaleMove,
    CompareWritesPredicate. -/
def Obligations.IntegerSelectAndCompareWords : Prop :=
  Claims.IntegerWords ∧ Claims.SelectScaleMove ∧ Claims.CompareWritesPredicate

/-- VCVT, VPERM, VSLIDE, VBCAST, VCOMPRESS, VEXPAND and VINDEX, element by element: ConvertWord, Rearrangements. -/
def Obligations.ConversionsAndRearrangements : Prop :=
  Claims.ConvertWord ∧ Claims.Rearrangements

/-- Reductions, scans, the predicate words and the mask words: ReductionsAndScans, PredicateWords. Clauses rest on choices of the
    model: log 17. -/
def Obligations.ReductionsScansPredicates : Prop :=
  Claims.ReductionsAndScans ∧ Claims.PredicateWords

/-- MLDW, MLDS, MZERO, MWR and MRD: weight slots and accumulator rows: WeightSlots, AccumulatorRows. -/
def Obligations.WeightsAndAccumulatorRows : Prop :=
  Claims.WeightSlots ∧ Claims.AccumulatorRows

/-- MMA and MMAG fold activation rows into accumulator rows, pass by pass, as Tables 9.5 and 9.6 say: MatrixPasses, PassFoldsRow,
    IntegerPassFoldsRow. -/
def Obligations.MatrixMultiplication : Prop :=
  Claims.MatrixPasses ∧ Claims.PassFoldsRow ∧ Claims.IntegerPassFoldsRow

/-- MFMT, MBUD, MSTAT and MSYNC: the format table, the budget class and counters, and waiting for follow-ons: MatrixControl.
    Clauses rest on choices of the model: log 15, log 24. -/
def Obligations.MatrixControlWords : Prop :=
  Claims.MatrixControl

/-- LOOP, ENDLOOP, SKIPZ, NOP and RDV of the streams: LoopsAndSkips. Clauses rest on choices of the model: log 23. -/
def Obligations.StreamControlWords : Prop :=
  Claims.LoopsAndSkips

/-- A Copy instruction takes the next number and joins its queue with its operands and a snapshot, or stalls on a full queue:
    CopiesAreQueued. -/
def Obligations.CopyInstructionsQueue : Prop :=
  Claims.CopiesAreQueued

/-- QPUSH, CSTAT, CTLREAD and CCANCEL: records, first failures, counts and cancellation: CopyQueueReads, CancelCompletes. -/
def Obligations.CopyQueueControl : Prop :=
  Claims.CopyQueueReads ∧ Claims.CancelCompletes

/-- SWAIT, SSIG and SSET with strict grant order; HEAPALLOC and HEAPFREE: SemaphoreWords, StreamSemaphoreWaits,
    SemaphoreGrantsOldest, SyncHeapWords. Clauses rest on choices of the model: log 18, log 27. -/
def Obligations.SemaphoresAndHeaps : Prop :=
  Claims.SemaphoreWords ∧ Claims.StreamSemaphoreWaits ∧ Claims.SemaphoreGrantsOldest ∧ Claims.SyncHeapWords

/-- BARR and BWAIT on a well-formed record: arrival, the last arrival's new generation, waiting, initialising and resetting:
    BarrierWords. -/
def Obligations.Barriers : Prop :=
  Claims.BarrierWords

/-- AMO reads, modifies and writes one operand; VAMO applies its active lanes in ascending order: AtomicReadModifyWrite,
    VectorAtomicsApply. -/
def Obligations.Atomics : Prop :=
  Claims.AtomicReadModifyWrite ∧ Claims.VectorAtomicsApply

/-- FENCE, the translation fence, TLWAIT and FLWAIT: Fences, TimelineWait, FlagWait. -/
def Obligations.FencesAndWaits : Prop :=
  Claims.Fences ∧ Claims.TimelineWait ∧ Claims.FlagWait

/-- SPAWN and TLAUNCH take a table entry with a new identifier, which names that task and no other: LaunchTakesEntry,
    TaskIdentifiers. Clauses rest on choices of the model: log 30. -/
def Obligations.LaunchesAndIdentifiers : Prop :=
  Claims.LaunchTakesEntry ∧ Claims.TaskIdentifiers

/-- FREF, FDROP, FGET and FDONE: references, results and their waiters: FutureWords. -/
def Obligations.Futures : Prop :=
  Claims.FutureWords

/-- TARM, TCANCEL, REQUEUE and TSTAT, and the FUTURE_INVALID faults of task words: TaskControl, TaskWordFaults. Clauses rest on
    choices of the model: log 30. -/
def Obligations.TaskControlWords : Prop :=
  Claims.TaskControl ∧ Claims.TaskWordFaults

/-- RPOINT, YIELD, GPOS, GANG and TSTAT: re-entry points, yielding and positions: TaskPositions. -/
def Obligations.TaskPositionWords : Prop :=
  Claims.TaskPositions

/-- Fabric instructions join the fabric queue; RFENCE, GJOIN, GLEAVE and LINKST: FabricOperationsAreQueued, FabricFenceAndGroups,
    LinkStatus. -/
def Obligations.FabricInstructions : Prop :=
  Claims.FabricOperationsAreQueued ∧ Claims.FabricFenceAndGroups ∧ Claims.LinkStatus

/-- What happens to a port and to its packets, and the messages of a session in their order: PortEvents, PacketCounters,
    PacketsAreSealed, SessionMessages. Clauses rest on choices of the model: log 7, log 33. -/
def Obligations.LinksAndSessions : Prop :=
  Claims.PortEvents ∧ Claims.PacketCounters ∧ Claims.PacketsAreSealed ∧ Claims.SessionMessages

/-- A fabric operation starts with its checks, leaves by its first hop as a request or copies, and ends once: FabricStarts,
    FabricReplies, FirstHopChoice, CopiesCoverMembers, MulticastRecords. Clauses rest on choices of the model: log 32, log 33. -/
def Obligations.FabricStartAndReply : Prop :=
  Claims.FabricStarts ∧ Claims.FabricReplies ∧ Claims.FirstHopChoice ∧ Claims.CopiesCoverMembers ∧ Claims.MulticastRecords

/-- A target applies a request through an open window once, refuses others, and answers a repeat with its cached reply:
    TargetRequests, TargetRefusalsAndReplays. Clauses rest on choices of the model: log 32, log 33. -/
def Obligations.FabricTarget : Prop :=
  Claims.TargetRequests ∧ Claims.TargetRefusalsAndReplays

/-- A router forwards merged pairs and packets; the reset of a peer makes operations and groups stale: RouterForwards,
    PairsMerge, PeerResetStales, PeerResetDropsMember. Clauses rest on choices of the model: log 32, log 33. -/
def Obligations.FabricRouting : Prop :=
  Claims.RouterForwards ∧ Claims.PairsMerge ∧ Claims.PeerResetStales ∧ Claims.PeerResetDropsMember

/-- LMINT and LSEAL: serials, seals, and each status they answer: MintAndSeal. -/
def Obligations.HandleMinting : Prop :=
  Claims.MintAndSeal

/-- LREVOKE and LFREEZE start a sweep and answer after it; a sweep marks exactly the handles that match: RevokeAndFreeze,
    SweepsMark, SweptOperationsEnd. Clauses rest on choices of the model: log 34, log 35. -/
def Obligations.RevocationAndFreezing : Prop :=
  Claims.RevokeAndFreeze ∧ Claims.SweepsMark ∧ Claims.SweptOperationsEnd

/-- LSHARE and LROTATE, and how a rotation moves lines to the new generation: SharesAndRotation, RotationMovesLines. Clauses rest
    on choices of the model: log 34, log 36. -/
def Obligations.SharesAndKeyRotation : Prop :=
  Claims.SharesAndRotation ∧ Claims.RotationMovesLines

/-- LSCRUB, LREPORT, LTRANS and LWORLD, and how every request waits its turn at the Lodestar: ScrubAndReports, WorldWords,
    LodestarServesInTurn. Clauses rest on choices of the model: log 7, log 34. -/
def Obligations.LodestarReports : Prop :=
  Claims.ScrubAndReports ∧ Claims.WorldWords ∧ Claims.LodestarServesInTurn

/-- LWINDOW exports, imports and closes windows, and what answers an import: WindowWords, ImportAnswers. Clauses rest on choices
    of the model: log 19, log 34. -/
def Obligations.Windows : Prop :=
  Claims.WindowWords ∧ Claims.ImportAnswers

/-- Section waits are exact on the 8-bit counts; headers open, retire and end instances: SectionWaitsAreExact,
    SectionsOpenAndEnd, HelmHeaderRetiresInstance. -/
def Obligations.SectionsAndHeaders : Prop :=
  Claims.SectionWaitsAreExact ∧ Claims.SectionsOpenAndEnd ∧ Claims.HelmHeaderRetiresInstance

/-- The stall monitor, pending traps, withdrawn waiters, fills of slates and code, drowsy banks: MonitorAndPendingTraps,
    FillsAndBanks. Clauses rest on choices of the model: log 22, log 23, log 40, log 41. -/
def Obligations.CoreEvents : Prop :=
  Claims.MonitorAndPendingTraps ∧ Claims.FillsAndBanks

/-- Follow-on words enter their queue and the array takes them with their whole effect: FollowOns. Clauses rest on choices of the
    model: log 15, log 23, log 24. -/
def Obligations.FollowOnWords : Prop :=
  Claims.FollowOns

/-- A copy starts with its checks, moves its bytes burst by burst, and completes; stream elements are delivered:
    CopyStartsAndCompletes, BurstsMoveBytes, StreamElements, SweptCopiesEnd. Clauses rest on choices of the model: log 18, log
    35. -/
def Obligations.CopyEvents : Prop :=
  Claims.CopyStartsAndCompletes ∧ Claims.BurstsMoveBytes ∧ Claims.StreamElements ∧ Claims.SweptCopiesEnd

/-- The entries of a chain, read in turn: COPY, LOOP, IF, SIGNAL, MATRIX and END: ChainEntries. Clauses rest on choices of the
    model: log 26. -/
def Obligations.ChainedCopies : Prop :=
  Claims.ChainEntries

/-- The phases of a loop record and their masks, and how a gang passes from one phase to the next and completes: LoopPhases,
    PhasesStartAndEnd, CompletionDropsAndSignals, YieldedGangResumes. -/
def Obligations.TaskPhases : Prop :=
  Claims.LoopPhases ∧ Claims.PhasesStartAndEnd ∧ Claims.CompletionDropsAndSignals ∧ Claims.YieldedGangResumes

/-- The head of the highest level takes the lowest free cores; a pre-empted task is saved and takes its cores again:
    TasksArePlaced, PreemptAndRestore. Clauses rest on choices of the model: log 30. -/
def Obligations.TaskPlacement : Prop :=
  Claims.TasksArePlaced ∧ Claims.PreemptAndRestore

/-- Slices, yielding, reclamation, OVERRUN, and the scrub of a core that changes its world: ReclaimAndOverrun, SlicesTurn,
    WorldChangeScrubs. Clauses rest on choices of the model: log 37. -/
def Obligations.SlicesAndReclamation : Prop :=
  Claims.ReclaimAndOverrun ∧ Claims.SlicesTurn ∧ Claims.WorldChangeScrubs

/-- A world's end, position reports, takeover by the standby, and the scrub that makes a berth's lines fresh: WorldsEnd,
    ReportsAndTakeover, FreshScrubEnds. Clauses rest on choices of the model: log 35. -/
def Obligations.WorldLifecycle : Prop :=
  Claims.WorldsEnd ∧ Claims.ReportsAndTakeover ∧ Claims.FreshScrubEnds

/-- The mailbox: each request's effect, status and response, and when it is refused, cancelled or left pending: MailboxRequests,
    MailboxRefusals, LaunchStartsWorld. Clauses rest on choices of the model: log 36. -/
def Obligations.MailboxServesRequests : Prop :=
  Claims.MailboxRequests ∧ Claims.MailboxRefusals ∧ Claims.LaunchStartsWorld

/-- TDISP states, host registers, resets, power-good and power loss: InterfaceStates, HostRegisters, RegistersWaitForBringUp,
    FunctionRegisters, ResetsAndPower. Clauses rest on choices of the model: log 36, log 39. -/
def Obligations.HostAndPower : Prop :=
  Claims.InterfaceStates ∧ Claims.HostRegisters ∧ Claims.RegistersWaitForBringUp ∧ Claims.FunctionRegisters ∧
    Claims.ResetsAndPower

/-- Lending, error counts, retirement, fencing, the power limit and alarms: ClustersAreLent, UnitErrorsCount, ChannelsRetire,
    UnitsRetire, UnitsAreFenced, PowerAndAlarms. Clauses rest on choices of the model: log 18, log 37, log 38, log 39. -/
def Obligations.LendingRetirementPower : Prop :=
  Claims.ClustersAreLent ∧ Claims.UnitErrorsCount ∧ Claims.ChannelsRetire ∧ Claims.UnitsRetire ∧ Claims.UnitsAreFenced ∧
    Claims.PowerAndAlarms
end

