-- ==== Sys2Proof/Laws/Tab.lean ====
section
/-! SUPPORT. Laws of the sparse tables and of the byte memory: a read after a write, and the canonical form. -/
namespace Sys2Proof.Machine

theorem tabFind_tabSet_same {α : Type} (t : Tab α) (a : Nat) (v : α) : tabFind (tabSet t a v) a = some v := by
  induction t with
  | nil => simp [tabSet, tabFind]
  | cons e t ih =>
    obtain ⟨k, w⟩ := e
    by_cases h : a = k
    · simp [tabSet, tabFind, h]
    · by_cases h' : a < k
      · simp [tabSet, tabFind, h, h']
      · simp [tabSet, tabFind, h, h', ih]

theorem tabFind_tabSet_ne {α : Type} (t : Tab α) {a b : Nat} (v : α) (h : b ≠ a) :
    tabFind (tabSet t a v) b = tabFind t b := by
  induction t with
  | nil => simp [tabSet, tabFind, h]
  | cons e t ih =>
    obtain ⟨k, w⟩ := e
    by_cases hk : a = k
    · subst hk
      simp [tabSet, tabFind, h]
    · by_cases h' : a < k
      · simp [tabSet, tabFind, hk, h', h]
      · simp [tabSet, tabFind, hk, h', ih]

theorem tabFind_tabDrop_same {α : Type} (t : Tab α) (a : Nat) : tabFind (tabDrop t a) a = none := by
  induction t with
  | nil => rfl
  | cons e t ih =>
    obtain ⟨k, w⟩ := e
    by_cases h : k = a
    · simpa [tabDrop, h] using ih
    · have h' : ¬ a = k := fun x => h x.symm
      simpa [tabDrop, tabFind, h, h'] using ih

theorem tabFind_tabDrop_ne {α : Type} (t : Tab α) {a b : Nat} (h : b ≠ a) : tabFind (tabDrop t a) b = tabFind t b := by
  induction t with
  | nil => rfl
  | cons e t ih =>
    obtain ⟨k, w⟩ := e
    by_cases hk : k = a
    · subst hk
      simpa [tabDrop, tabFind, h] using ih
    · by_cases hb : b = k
      · simp [tabDrop, tabFind, hk, hb]
      · simpa [tabDrop, tabFind, hk, hb] using ih

/-- Of two writes to a key, the later one stands. -/
@[simp] theorem tabSet_tabSet {α : Type} (t : Tab α) (a : Nat) (v w : α) : tabSet (tabSet t a v) a w = tabSet t a w := by
  induction t with
  | nil => simp [tabSet]
  | cons e t ih =>
    obtain ⟨k, u⟩ := e
    by_cases h : a = k
    · simp [tabSet, h]
    · by_cases h' : a < k
      · simp [tabSet, h, h']
      · simp [tabSet, h, h', ih]

/-! The byte memory. -/

@[simp] theorem memGet_memPut_same (m : Tab Byte) (a : Nat) (b : Byte) : memGet (memPut m a b) a = b := by
  unfold memGet memPut
  split
  · next h => simp [tabFind_tabDrop_same, h]
  · simp [tabFind_tabSet_same]

theorem memGet_memPut_ne (m : Tab Byte) {a c : Nat} (b : Byte) (h : c ≠ a) : memGet (memPut m a b) c = memGet m c := by
  unfold memGet memPut
  split
  · simp [tabFind_tabDrop_ne m h]
  · simp [tabFind_tabSet_ne m b h]

/-- A write of bytes leaves every other address alone. -/
theorem memGet_memPuts_ne (bs : List (Nat × Byte)) (m : Tab Byte) (c : Nat) (h : ∀ e ∈ bs, e.1 ≠ c) :
    memGet (memPuts m bs) c = memGet m c := by
  induction bs generalizing m with
  | nil => rfl
  | cons e t ih =>
    obtain ⟨a, b⟩ := e
    have ha : c ≠ a := fun x => h (a, b) (by simp) x.symm
    rw [memPuts, ih _ fun e he => h e (by simp [he]), memGet_memPut_ne m b ha]

/-- The last byte written to an address is the byte it reads as. -/
theorem memGet_memPuts_append (pre post : List (Nat × Byte)) (m : Tab Byte) (a : Nat) (b : Byte)
    (h : ∀ e ∈ post, e.1 ≠ a) : memGet (memPuts m (pre ++ (a, b) :: post)) a = b := by
  induction pre generalizing m with
  | nil => simpa [memPuts] using (memGet_memPuts_ne post (memPut m a b) a h).trans (memGet_memPut_same m a b)
  | cons e t ih =>
    obtain ⟨c, d⟩ := e
    simpa [memPuts] using ih (memPut m c d)

/-! The canonical form. -/

/-- The canonical form as a recursion on the list: every byte listed differs from zero, and the keys rise. -/
theorem memCanon_iff (m : Tab Byte) : memCanon m = true ↔ m.Pairwise (fun x y => x.1 < y.1) ∧ ∀ e ∈ m, e.2 ≠ 0 := by
  induction m with
  | nil => simp [memCanon]
  | cons e t ih =>
    obtain ⟨a, b⟩ := e
    cases t with
    | nil => simp [memCanon]
    | cons e' t =>
      obtain ⟨a', b'⟩ := e'
      simp only [memCanon, Bool.and_eq_true, bne_iff_ne, ne_eq, decide_eq_true_eq, ih]
      constructor
      · rintro ⟨⟨hb, ha⟩, hp, hz⟩
        refine ⟨List.pairwise_cons.2 ⟨?_, hp⟩, ?_⟩
        · intro e he
          rcases List.mem_cons.1 he with h | h
          · subst h; exact ha
          · exact Nat.lt_trans ha ((List.pairwise_cons.1 hp).1 e h)
        · intro e he
          rcases List.mem_cons.1 he with h | h
          · subst h; exact hb
          · exact hz e h
      · rintro ⟨hp, hz⟩
        have h := List.pairwise_cons.1 hp
        exact ⟨⟨hz (a, b) (by simp), h.1 (a', b') (by simp)⟩, h.2, fun e he => hz e (by simp only [List.mem_cons] at he ⊢; exact .inr he)⟩

/-- Dropping entries keeps the canonical form. -/
theorem memCanon_filter (m : Tab Byte) (p : Nat × Byte → Bool) (h : memCanon m = true) : memCanon (m.filter p) = true := by
  rw [memCanon_iff] at h ⊢
  exact ⟨h.1.filter p, fun e he => h.2 e ((List.mem_filter.1 he).1)⟩

theorem mem_tabSet {α : Type} (t : Tab α) (a : Nat) (v : α) (e : Nat × α) (h : e ∈ tabSet t a v) : e = (a, v) ∨ e ∈ t := by
  induction t with
  | nil => simpa [tabSet] using h
  | cons x t ih =>
    obtain ⟨k, w⟩ := x
    by_cases hk : a = k
    · simp [tabSet, hk] at h
      rcases h with h | h
      · subst hk; exact .inl h
      · exact .inr (by simp [h])
    · by_cases h' : a < k
      · simpa [tabSet, hk, h'] using h
      · simp [tabSet, hk, h'] at h
        rcases h with h | h
        · exact .inr (by simp [h])
        · rcases ih h with h | h
          · exact .inl h
          · exact .inr (by simp [h])

theorem tabSet_pairwise {α : Type} (t : Tab α) (a : Nat) (v : α) (h : t.Pairwise fun x y => x.1 < y.1) :
    (tabSet t a v).Pairwise fun x y => x.1 < y.1 := by
  induction t with
  | nil => simp [tabSet]
  | cons x t ih =>
    obtain ⟨k, w⟩ := x
    have hc := List.pairwise_cons.1 h
    by_cases hk : a = k
    · subst hk
      simp only [tabSet]
      exact List.pairwise_cons.2 ⟨fun e he => hc.1 e he, hc.2⟩
    · by_cases h' : a < k
      · simp only [tabSet, hk, h', if_true, if_false]
        refine List.pairwise_cons.2 ⟨?_, h⟩
        intro e he
        rcases List.mem_cons.1 he with h | h
        · subst h; exact h'
        · exact Nat.lt_trans h' (hc.1 e h)
      · simp only [tabSet, hk, h', if_false]
        refine List.pairwise_cons.2 ⟨?_, ih hc.2⟩
        intro e he
        rcases mem_tabSet t a v e he with h | h
        · subst h; simp; omega
        · exact hc.1 e h

theorem memCanon_memPut (m : Tab Byte) (a : Nat) (b : Byte) (h : memCanon m = true) : memCanon (memPut m a b) = true := by
  unfold memPut
  split
  · exact memCanon_filter m _ h
  · next hb =>
    rw [memCanon_iff] at h ⊢
    refine ⟨tabSet_pairwise m a b h.1, fun e he => ?_⟩
    rcases mem_tabSet m a b e he with h' | h'
    · subst h'; exact hb
    · exact h.2 e h'

/-- Every write of bytes keeps the canonical form. -/
theorem memCanon_memPuts (bs : List (Nat × Byte)) (m : Tab Byte) (h : memCanon m = true) : memCanon (memPuts m bs) = true := by
  induction bs generalizing m with
  | nil => exact h
  | cons e t ih => exact ih _ (memCanon_memPut m e.1 e.2 h)

/-- Two canonical memories that read alike are equal. -/
theorem memCanon_ext (m n : Tab Byte) (hm : memCanon m = true) (hn : memCanon n = true)
    (h : ∀ a, memGet m a = memGet n a) : m = n := by
  have find_none : ∀ (t : Tab Byte) (a : Nat), (∀ e ∈ t, a < e.1) → tabFind t a = none := by
    intro t a ht
    induction t with
    | nil => rfl
    | cons e t ih =>
      obtain ⟨k, w⟩ := e
      have hk : a < k := ht (k, w) (by simp)
      simp [tabFind, Nat.ne_of_lt hk, ih fun e he => ht e (by simp [he])]
  rw [memCanon_iff] at hm hn
  induction m generalizing n with
  | nil =>
    cases n with
    | nil => rfl
    | cons e t =>
      obtain ⟨k, w⟩ := e
      have := h k
      simp [memGet, tabFind] at this
      exact absurd this.symm (hn.2 (k, w) (by simp))
  | cons e t ih =>
    obtain ⟨k, w⟩ := e
    cases n with
    | nil =>
      have := h k
      simp [memGet, tabFind] at this
      exact absurd this (hm.2 (k, w) (by simp))
    | cons e' t' =>
      obtain ⟨k', w'⟩ := e'
      have hpm := List.pairwise_cons.1 hm.1
      have hpn := List.pairwise_cons.1 hn.1
      have hkk : k = k' := by
        rcases Nat.lt_trichotomy k k' with hlt | heq | hgt
        · have hx := h k
          have : tabFind ((k', w') :: t') k = none := find_none _ k fun e he => by
            rcases List.mem_cons.1 he with h | h
            · subst h; exact hlt
            · exact Nat.lt_trans hlt (hpn.1 e h)
          rw [show memGet ((k', w') :: t') k = 0 by rw [memGet, this]; rfl] at hx
          exact absurd (by simpa [memGet, tabFind] using hx) (hm.2 (k, w) (by simp))
        · exact heq
        · have hx := h k'
          have : tabFind ((k, w) :: t) k' = none := find_none _ k' fun e he => by
            rcases List.mem_cons.1 he with h | h
            · subst h; exact hgt
            · exact Nat.lt_trans hgt (hpm.1 e h)
          rw [show memGet ((k, w) :: t) k' = 0 by rw [memGet, this]; rfl] at hx
          exact absurd (by simpa [memGet, tabFind] using hx.symm) (hn.2 (k', w') (by simp))
      subst hkk
      have hw : w = w' := by simpa [memGet, tabFind] using h k
      subst hw
      have ht : ∀ a, memGet t a = memGet t' a := by
        intro a
        by_cases ha : a = k
        · subst ha
          simp [memGet, find_none t a fun e he => hpm.1 e he, find_none t' a fun e he => hpn.1 e he]
        · simpa [memGet, tabFind, ha] using h a
      rw [ih t' ⟨hpm.2, fun e he => hm.2 e (by simp [he])⟩ ⟨hpn.2, fun e he => hn.2 e (by simp [he])⟩ ht]

end Sys2Proof.Machine
end

