-- ==== Sys2Proof/Laws/Bits.lean ====
section
/-! SUPPORT. Bytes and naturals: each is read back from the other, and memory read back after it is written. -/
namespace Sys2Proof.Machine

@[simp] theorem bytesOf_length (n x : Nat) : (bytesOf n x).length = n := by
  induction n generalizing x with
  | zero => rfl
  | succ n ih => simp [bytesOf, ih]

@[simp] theorem upFrom_length (a n : Nat) : (upFrom a n).length = n := by
  induction n generalizing a with
  | zero => rfl
  | succ n ih => simp [upFrom, ih]

@[simp] theorem mem_upFrom (a n k : Nat) : k ∈ upFrom a n ↔ a ≤ k ∧ k < a + n := by
  induction n generalizing a with
  | zero =>
    simp only [upFrom, List.not_mem_nil, false_iff]
    omega
  | succ n ih => simp [upFrom, ih]; omega

/-- The number read from the low n bytes of x is x modulo 256^n. -/
theorem ofBytes_bytesOf (n x : Nat) : ofBytes (bytesOf n x) = x % 256 ^ n := by
  induction n generalizing x with
  | zero => simp [bytesOf, ofBytes, Nat.mod_one]
  | succ n ih =>
    simp only [bytesOf, ofBytes, ih, BitVec.toNat_ofNat, Nat.shiftRight_eq_div_pow]
    rw [show (256 : Nat) ^ (n + 1) = 256 * 256 ^ n from Nat.pow_succ', Nat.mod_mul]

theorem ofBytes_lt (bs : List Byte) : ofBytes bs < 256 ^ bs.length := by
  induction bs with
  | nil => simp [ofBytes]
  | cons b t ih =>
    have := b.isLt
    simp only [ofBytes, List.length_cons, Nat.pow_succ]
    omega

/-- Bytes written at rising addresses read back. -/
theorem memGet_memPuts_upFrom (m : Tab Byte) (a : Nat) (bs : List Byte) :
    (upFrom a bs.length).map (memGet (memPuts m ((upFrom a bs.length).zip bs))) = bs := by
  induction bs generalizing a m with
  | nil => rfl
  | cons b t ih =>
    have h : memGet (memPuts (memPut m a b) ((upFrom (a + 1) t.length).zip t)) a = b := by
      rw [memGet_memPuts_ne]
      · simp
      · intro e he
        have := (mem_upFrom _ _ _).1 (List.of_mem_zip he).1
        omega
    simp only [List.length_cons, upFrom, List.zip_cons_cons, memPuts, List.map_cons, h, ih]

end Sys2Proof.Machine
end

