-- ==== Sys2Proof/Laws/Crypto.lean ====
section
/-! SUPPORT. Lengths of what the standard functions answer. -/
namespace Sys2Proof.Machine

theorem xorBytes_length (a b : List Byte) : (xorBytes a b).length = min a.length b.length := by simp [xorBytes]

/-- A list of f pieces of n items cuts into f lists of n items. -/
theorem pieces_lengths {α : Type} (n : Nat) (hn : 0 < n) : ∀ (f : Nat) (xs : List α), xs.length = n * f →
    (pieces n f xs).length = f ∧ ∀ p ∈ pieces n f xs, p.length = n
  | 0, _, _ => by simp [pieces]
  | f + 1, xs, h => by
    have h : xs.length = n * f + n := h
    have he : xs.isEmpty = false := by
      cases xs with
      | nil => exact absurd h (by simp only [List.length_nil]; omega)
      | cons a t => rfl
    obtain ⟨h1, h2⟩ := pieces_lengths n hn f (xs.drop n) (by simp [h])
    simp only [pieces, he, Bool.false_eq_true, if_false, List.length_cons, h1, List.mem_cons, forall_eq_or_imp, List.length_take, h, true_and]
    exact ⟨by omega, h2⟩

theorem aesExpand_lengths : ∀ (f i : Nat) (rc : Byte) (ws : List (List Byte)), ws.length = 8 → (∀ w ∈ ws, w.length = 4) →
    (aesExpand f i rc ws).length = f ∧ ∀ w ∈ aesExpand f i rc ws, w.length = 4
  | 0, _, _, _, _, _ => by simp [aesExpand]
  | f + 1, i, rc, ws, h8, h4 => by
    match ws, h8 with
    | [a, b, c, d, e, g, h, p], _ =>
      simp only [List.mem_cons, List.not_mem_nil, or_false, forall_eq_or_imp, forall_eq] at h4
      obtain ⟨ha, hb, hc, hd, he, hg, hh, hp⟩ := h4
      simp only [aesExpand, List.headD_cons, List.drop_succ_cons, List.drop_zero, List.getD_cons_succ, List.getD_cons_zero]
      generalize ht : (if i % 8 = 0 then xorBytes ((p.drop 1 ++ p.take 1).map aesSub) [rc, 0, 0, 0]
        else if i % 8 = 4 then p.map aesSub else p) = t
      have hw : (xorBytes a t).length = 4 := by
        rw [xorBytes_length, ← ht]
        split
        · simp [xorBytes_length, ha, hp]
        · split <;> simp [ha, hp]
      obtain ⟨h1, h2⟩ := aesExpand_lengths f (i + 1) (if i % 8 = 0 then aesTwice rc else rc)
        [b, c, d, e, g, h, p, xorBytes a t] rfl (by simp [hb, hc, hd, he, hg, hh, hp, hw])
      exact ⟨by simpa using h1, by simpa [hw] using h2⟩

theorem flatten_length_four (l : List (List Byte)) (h : ∀ w ∈ l, w.length = 4) : l.flatten.length = 4 * l.length := by
  induction l with
  | nil => rfl
  | cons a t ih =>
    simp only [List.mem_cons, forall_eq_or_imp] at h
    simp [ih h.2, h.1]
    omega

/-- The key schedule of a key of 32 bytes: fifteen round keys of 16 bytes. -/
theorem aesKeys_lengths (key : List Byte) (h : key.length = 32) : (aesKeys key).length = 15 ∧ ∀ k ∈ aesKeys key, k.length = 16 := by
  obtain ⟨h1, h2⟩ := pieces_lengths 4 (by decide) 8 key h
  obtain ⟨h3, h4⟩ := aesExpand_lengths 52 8 1 (pieces 4 8 key) h1 h2
  apply pieces_lengths 16 (by decide)
  rw [flatten_length_four _ fun w hw => (List.mem_append.mp hw).elim (h2 w) (h4 w)]
  rw [List.length_append, h1, h3]

theorem aesRounds_length : ∀ (ks : List (List Byte)) (s : List Byte), ks ≠ [] → (∀ k ∈ ks, k.length = 16) → (aesRounds s ks).length = 16
  | [k], s, _, h => by simp [aesRounds, xorBytes_length, h k, aesShift, show (upFrom 0 16).length = 16 from rfl]
  | k :: l :: t, s, _, h => by
    rw [aesRounds]
    · exact aesRounds_length (l :: t) _ (by simp) fun x hx => h x (List.mem_cons_of_mem _ hx)
    · simp

/-- AES-256 under a key of 32 bytes answers a block of 16 bytes. -/
theorem aes256_length (key blk : List Byte) (h : key.length = 32) : (aes256 key blk).length = 16 := by
  obtain ⟨h1, h2⟩ := aesKeys_lengths key h
  unfold aes256
  match hk : aesKeys key with
  | [] => simp [hk] at h1
  | [_] => simp [hk] at h1
  | k :: l :: t =>
    rw [hk] at h2
    exact aesRounds_length (l :: t) _ (by simp) fun x hx => h2 x (List.mem_cons_of_mem _ hx)

/-- A GCM tag under a key of 32 bytes is 16 bytes long. -/
theorem gcmTag_length (key nonce aad ct : List Byte) (h : key.length = 32) : (gcmTag key nonce aad ct).length = 16 := by
  simp [gcmTag, xorBytes_length, aes256_length _ _ h, beBytes, bytesOf_length]

/-- What GCM sealed opens: the tag that the sealing made is accepted. -/
theorem gcmOpen_isSome (key nonce aad ct : List Byte) : (gcmOpen key nonce aad ct (gcmTag key nonce aad ct)).isSome = true := by
  simp [gcmOpen]

end Sys2Proof.Machine
end

