-- ==== Sys2Proof/Laws/Fabric.lean ====
section
/-! SUPPORT. What a packet that comes in by a port can do (R357, R359), and the port that a payload comes by. -/
namespace Sys2Proof.Machine

/-- By a port that is not open nothing comes. -/
theorem arriveBy_closed (p n : Nat) (s : State) (h : (s.port p).st ≠ .opened) : State.arriveBy p (n + 1) s = .error s := by
  simp [State.arriveBy, h]

/-- A packet that opens counts, and the next one comes. -/
theorem arriveBy_opens (p n : Nat) (s : State) (h : (s.port p).st = .opened) (o : (s.port p).opens (s.wireIn p s.fresh) = true) :
    State.arriveBy p (n + 1) s = State.arriveBy p n (s.draw.2.modPort p fun v => v.acceptedAt (s.wireIn p s.fresh).counter) := by
  simp [State.arriveBy, h, State.draw, o]

/-- A packet that does not open is a failed tag, and nothing more comes. -/
theorem arriveBy_fails (p n : Nat) (s : State) (h : (s.port p).st = .opened) (o : (s.port p).opens (s.wireIn p s.fresh) = false) :
    State.arriveBy p (n + 1) s = .error (s.draw.2.modPort p fun v => v.tagFailed s.now) := by
  simp [State.arriveBy, h, State.draw, o]

/-- What was sealed opens under the same key. -/
theorem gcmOpen_gcmSeal (key nonce aad pt : List Byte) :
    (gcmOpen key nonce aad (gcmSeal key nonce aad pt).1 (gcmSeal key nonce aad pt).2).isSome = true := by
  simp only [gcmSeal, gcmOpen_isSome]

/-- A packet opens where the receiver holds the key that the far end derived for its counter's epoch. -/
theorem opens_of_key (s : State) (p draw : Nat)
    (h : (s.port p).rxKeyOf ((s.wireIn p draw).counter / 2 ^ 24) =
      some (linkKeyAt (s.port p).spdm.secret (1 - s.dirOf p) ((s.wireIn p draw).counter / 2 ^ 24))) :
    (s.port p).opens (s.wireIn p draw) = true := by
  simp only [Port.opens, h]
  simp only [State.wireIn, gcmOpen_gcmSeal]

/-- The packet that is next in order is accepted as such. -/
@[simp] theorem acceptedAt_rx (v : Port) : v.acceptedAt v.rx = v.accepted := by simp [Port.acceptedAt]

/-- With one port open a payload comes by that port. -/
theorem received_single (s : State) (bytes p : Nat) (h : s.openPorts = [p]) :
    s.received bytes = (State.arriveBy p (packetsOf bytes) s.draw.2).map fun s => (p, s) := by
  simp [State.received, h, Nat.mod_one]

end Sys2Proof.Machine
end

