-- ==== Sys2Proof/Laws/Handle.lean ====
section
/-! SUPPORT. A handle is read back from its image, and the bits that its seal covers do not hold the seal (Table 13.3, R367). -/
namespace Sys2Proof.Machine

/-- Reading a handle's image gives the handle with the sealed and revoked bits clear. -/
theorem Handle.ofImage_image (h : Handle) : Handle.ofImage h.image = { h with isSealed := false, revoked := false } := by
  have e : ∀ {n : Nat} (start : Nat) (x : BitVec n), (∀ i < n, h.image.getLsbD (start + i) = x.getLsbD i) →
      h.image.extractLsb' start n = x := by
    intro n st x hx
    apply BitVec.eq_of_getLsbD_eq
    intro i hi
    simp [hi, hx i hi]
  simp only [Handle.ofImage, Handle.mk.injEq, and_true]
  refine ⟨e _ _ ?_, e _ _ ?_, e _ _ ?_, e _ _ ?_, e _ _ ?_, e _ _ ?_, e _ _ ?_, e _ _ ?_⟩ <;>
  · intro i hi
    simp only [Handle.image, BitVec.getLsbD_append]
    repeat' split
    all_goals first | omega | exact congrArg (BitVec.getLsbD _) (by omega)

/-- The sealed bits do not depend on the seal. -/
theorem Handle.image_sealed_part (h : Handle) (v : BitVec 64) :
    ({ h with sealv := v } : Handle).image.extractLsb' 64 192 = h.image.extractLsb' 64 192 := by
  apply BitVec.eq_of_getLsbD_eq
  intro i hi
  have : ¬ 64 + i < 64 := by omega
  simp only [BitVec.getLsbD_extractLsb', Handle.image, BitVec.getLsbD_append (y := v), BitVec.getLsbD_append (y := h.sealv), this,
    if_false, hi]

end Sys2Proof.Machine
end

