-- ==== Sys2Proof/Laws/State.lean ====
section
/-! SUPPORT. What each named update of the state leaves alone, one lemma a field, and what it writes. -/
namespace Sys2Proof.Machine

/-! setCore -/

@[simp] theorem State.setCore_now (s : State) (c : Nat) (k : Core) : (s.setCore c k).now = s.now := rfl
@[simp] theorem State.setCore_fresh (s : State) (c : Nat) (k : Core) : (s.setCore c k).fresh = s.fresh := rfl
@[simp] theorem State.setCore_agenda (s : State) (c : Nat) (k : Core) : (s.setCore c k).agenda = s.agenda := rfl
@[simp] theorem State.setCore_cur (s : State) (c : Nat) (k : Core) : (s.setCore c k).cur = s.cur := rfl
@[simp] theorem State.setCore_curSt (s : State) (c : Nat) (k : Core) : (s.setCore c k).curSt = s.curSt := rfl
@[simp] theorem State.setCore_power (s : State) (c : Nat) (k : Core) : (s.setCore c k).power = s.power := rfl
@[simp] theorem State.setCore_stage (s : State) (c : Nat) (k : Core) : (s.setCore c k).stage = s.stage := rfl
@[simp] theorem State.setCore_failed (s : State) (c : Nat) (k : Core) : (s.setCore c k).failed = s.failed := rfl
@[simp] theorem State.setCore_mem (s : State) (c : Nat) (k : Core) : (s.setCore c k).mem = s.mem := rfl
@[simp] theorem State.setCore_lines (s : State) (c : Nat) (k : Core) : (s.setCore c k).lines = s.lines := rfl
@[simp] theorem State.setCore_sectors (s : State) (c : Nat) (k : Core) : (s.setCore c k).sectors = s.sectors := rfl
@[simp] theorem State.setCore_ecc2 (s : State) (c : Nat) (k : Core) : (s.setCore c k).ecc2 = s.ecc2 := rfl
@[simp] theorem State.setCore_semEcc (s : State) (c : Nat) (k : Core) : (s.setCore c k).semEcc = s.semEcc := rfl
@[simp] theorem State.setCore_releases (s : State) (c : Nat) (k : Core) : (s.setCore c k).releases = s.releases := rfl
@[simp] theorem State.setCore_flagClks (s : State) (c : Nat) (k : Core) : (s.setCore c k).flagClks = s.flagClks := rfl
@[simp] theorem State.setCore_tlb1 (s : State) (c : Nat) (k : Core) : (s.setCore c k).tlb1 = s.tlb1 := rfl
@[simp] theorem State.setCore_tlb2 (s : State) (c : Nat) (k : Core) : (s.setCore c k).tlb2 = s.tlb2 := rfl
@[simp] theorem State.setCore_sems (s : State) (c : Nat) (k : Core) : (s.setCore c k).sems = s.sems := rfl
@[simp] theorem State.setCore_barWs (s : State) (c : Nat) (k : Core) : (s.setCore c k).barWs = s.barWs := rfl
@[simp] theorem State.setCore_barClks (s : State) (c : Nat) (k : Core) : (s.setCore c k).barClks = s.barClks := rfl
@[simp] theorem State.setCore_heaps (s : State) (c : Nat) (k : Core) : (s.setCore c k).heaps = s.heaps := rfl
@[simp] theorem State.setCore_tasks (s : State) (c : Nat) (k : Core) : (s.setCore c k).tasks = s.tasks := rfl
@[simp] theorem State.setCore_ready (s : State) (c : Nat) (k : Core) : (s.setCore c k).ready = s.ready := rfl
@[simp] theorem State.setCore_nextGid (s : State) (c : Nat) (k : Core) : (s.setCore c k).nextGid = s.nextGid := rfl
@[simp] theorem State.setCore_epochs (s : State) (c : Nat) (k : Core) : (s.setCore c k).epochs = s.epochs := rfl
@[simp] theorem State.setCore_fences (s : State) (c : Nat) (k : Core) : (s.setCore c k).fences = s.fences := rfl
@[simp] theorem State.setCore_worlds (s : State) (c : Nat) (k : Core) : (s.setCore c k).worlds = s.worlds := rfl
@[simp] theorem State.setCore_sweep (s : State) (c : Nat) (k : Core) : (s.setCore c k).sweep = s.sweep := rfl
@[simp] theorem State.setCore_sweepDone (s : State) (c : Nat) (k : Core) : (s.setCore c k).sweepDone = s.sweepDone := rfl
@[simp] theorem State.setCore_lodeQ (s : State) (c : Nat) (k : Core) : (s.setCore c k).lodeQ = s.lodeQ := rfl
@[simp] theorem State.setCore_berths (s : State) (c : Nat) (k : Core) : (s.setCore c k).berths = s.berths := rfl
@[simp] theorem State.setCore_lends (s : State) (c : Nat) (k : Core) : (s.setCore c k).lends = s.lends := rfl
@[simp] theorem State.setCore_deadClusters (s : State) (c : Nat) (k : Core) : (s.setCore c k).deadClusters = s.deadClusters := rfl
@[simp] theorem State.setCore_spareCore (s : State) (c : Nat) (k : Core) : (s.setCore c k).spareCore = s.spareCore := rfl
@[simp] theorem State.setCore_spareCluster (s : State) (c : Nat) (k : Core) : (s.setCore c k).spareCluster = s.spareCluster := rfl
@[simp] theorem State.setCore_retiring (s : State) (c : Nat) (k : Core) : (s.setCore c k).retiring = s.retiring := rfl
@[simp] theorem State.setCore_unitErrs (s : State) (c : Nat) (k : Core) : (s.setCore c k).unitErrs = s.unitErrs := rfl
@[simp] theorem State.setCore_deadChans (s : State) (c : Nat) (k : Core) : (s.setCore c k).deadChans = s.deadChans := rfl
@[simp] theorem State.setCore_fencedChans (s : State) (c : Nat) (k : Core) : (s.setCore c k).fencedChans = s.fencedChans := rfl
@[simp] theorem State.setCore_swapping (s : State) (c : Nat) (k : Core) : (s.setCore c k).swapping = s.swapping := rfl
@[simp] theorem State.setCore_banksUsed (s : State) (c : Nat) (k : Core) : (s.setCore c k).banksUsed = s.banksUsed := rfl
@[simp] theorem State.setCore_hbmTaken (s : State) (c : Nat) (k : Core) : (s.setCore c k).hbmTaken = s.hbmTaken := rfl
@[simp] theorem State.setCore_lost (s : State) (c : Nat) (k : Core) : (s.setCore c k).lost = s.lost := rfl
@[simp] theorem State.setCore_lodeFenced (s : State) (c : Nat) (k : Core) : (s.setCore c k).lodeFenced = s.lodeFenced := rfl
@[simp] theorem State.setCore_tdis (s : State) (c : Nat) (k : Core) : (s.setCore c k).tdis = s.tdis := rfl
@[simp] theorem State.setCore_vfOwner (s : State) (c : Nat) (k : Core) : (s.setCore c k).vfOwner = s.vfOwner := rfl
@[simp] theorem State.setCore_ide (s : State) (c : Nat) (k : Core) : (s.setCore c k).ide = s.ide := rfl
@[simp] theorem State.setCore_owned (s : State) (c : Nat) (k : Core) : (s.setCore c k).owned = s.owned := rfl
@[simp] theorem State.setCore_hostSpdm (s : State) (c : Nat) (k : Core) : (s.setCore c k).hostSpdm = s.hostSpdm := rfl
@[simp] theorem State.setCore_ports (s : State) (c : Nat) (k : Core) : (s.setCore c k).ports = s.ports := rfl
@[simp] theorem State.setCore_routes (s : State) (c : Nat) (k : Core) : (s.setCore c k).routes = s.routes := rfl
@[simp] theorem State.setCore_fabId (s : State) (c : Nat) (k : Core) : (s.setCore c k).fabId = s.fabId := rfl
@[simp] theorem State.setCore_fabIdSet (s : State) (c : Nat) (k : Core) : (s.setCore c k).fabIdSet = s.fabIdSet := rfl
@[simp] theorem State.setCore_incarnation (s : State) (c : Nat) (k : Core) : (s.setCore c k).incarnation = s.incarnation := rfl
@[simp] theorem State.setCore_peerInc (s : State) (c : Nat) (k : Core) : (s.setCore c k).peerInc = s.peerInc := rfl
@[simp] theorem State.setCore_seq (s : State) (c : Nat) (k : Core) : (s.setCore c k).seq = s.seq := rfl
@[simp] theorem State.setCore_cache (s : State) (c : Nat) (k : Core) : (s.setCore c k).cache = s.cache := rfl
@[simp] theorem State.setCore_incoming (s : State) (c : Nat) (k : Core) : (s.setCore c k).incoming = s.incoming := rfl
@[simp] theorem State.setCore_merge (s : State) (c : Nat) (k : Core) : (s.setCore c k).merge = s.merge := rfl
@[simp] theorem State.setCore_branches (s : State) (c : Nat) (k : Core) : (s.setCore c k).branches = s.branches := rfl
@[simp] theorem State.setCore_out (s : State) (c : Nat) (k : Core) : (s.setCore c k).out = s.out := rfl
@[simp] theorem State.setCore_wire (s : State) (c : Nat) (k : Core) : (s.setCore c k).wire = s.wire := rfl
@[simp] theorem State.setCore_leaves (s : State) (c : Nat) (k : Core) : (s.setCore c k).leaves = s.leaves := rfl
@[simp] theorem State.setCore_p384Leaf (s : State) (c : Nat) (k : Core) : (s.setCore c k).p384Leaf = s.p384Leaf := rfl
@[simp] theorem State.setCore_reportAt (s : State) (c : Nat) (k : Core) : (s.setCore c k).reportAt = s.reportAt := rfl
@[simp] theorem State.setCore_standby (s : State) (c : Nat) (k : Core) : (s.setCore c k).standby = s.standby := rfl
@[simp] theorem State.setCore_alarms (s : State) (c : Nat) (k : Core) : (s.setCore c k).alarms = s.alarms := rfl
@[simp] theorem State.setCore_powerLimit (s : State) (c : Nat) (k : Core) : (s.setCore c k).powerLimit = s.powerLimit := rfl
@[simp] theorem State.setCore_powerAt (s : State) (c : Nat) (k : Core) : (s.setCore c k).powerAt = s.powerAt := rfl
@[simp] theorem State.setCore_startNo (s : State) (c : Nat) (k : Core) : (s.setCore c k).startNo = s.startNo := rfl

/-! setWorld -/

@[simp] theorem State.setWorld_now (s : State) (w : Nat) (v : World) : (s.setWorld w v).now = s.now := rfl
@[simp] theorem State.setWorld_fresh (s : State) (w : Nat) (v : World) : (s.setWorld w v).fresh = s.fresh := rfl
@[simp] theorem State.setWorld_agenda (s : State) (w : Nat) (v : World) : (s.setWorld w v).agenda = s.agenda := rfl
@[simp] theorem State.setWorld_cur (s : State) (w : Nat) (v : World) : (s.setWorld w v).cur = s.cur := rfl
@[simp] theorem State.setWorld_curSt (s : State) (w : Nat) (v : World) : (s.setWorld w v).curSt = s.curSt := rfl
@[simp] theorem State.setWorld_power (s : State) (w : Nat) (v : World) : (s.setWorld w v).power = s.power := rfl
@[simp] theorem State.setWorld_stage (s : State) (w : Nat) (v : World) : (s.setWorld w v).stage = s.stage := rfl
@[simp] theorem State.setWorld_failed (s : State) (w : Nat) (v : World) : (s.setWorld w v).failed = s.failed := rfl
@[simp] theorem State.setWorld_mem (s : State) (w : Nat) (v : World) : (s.setWorld w v).mem = s.mem := rfl
@[simp] theorem State.setWorld_lines (s : State) (w : Nat) (v : World) : (s.setWorld w v).lines = s.lines := rfl
@[simp] theorem State.setWorld_sectors (s : State) (w : Nat) (v : World) : (s.setWorld w v).sectors = s.sectors := rfl
@[simp] theorem State.setWorld_ecc2 (s : State) (w : Nat) (v : World) : (s.setWorld w v).ecc2 = s.ecc2 := rfl
@[simp] theorem State.setWorld_semEcc (s : State) (w : Nat) (v : World) : (s.setWorld w v).semEcc = s.semEcc := rfl
@[simp] theorem State.setWorld_releases (s : State) (w : Nat) (v : World) : (s.setWorld w v).releases = s.releases := rfl
@[simp] theorem State.setWorld_flagClks (s : State) (w : Nat) (v : World) : (s.setWorld w v).flagClks = s.flagClks := rfl
@[simp] theorem State.setWorld_tlb1 (s : State) (w : Nat) (v : World) : (s.setWorld w v).tlb1 = s.tlb1 := rfl
@[simp] theorem State.setWorld_tlb2 (s : State) (w : Nat) (v : World) : (s.setWorld w v).tlb2 = s.tlb2 := rfl
@[simp] theorem State.setWorld_cores (s : State) (w : Nat) (v : World) : (s.setWorld w v).cores = s.cores := rfl
@[simp] theorem State.setWorld_sems (s : State) (w : Nat) (v : World) : (s.setWorld w v).sems = s.sems := rfl
@[simp] theorem State.setWorld_barWs (s : State) (w : Nat) (v : World) : (s.setWorld w v).barWs = s.barWs := rfl
@[simp] theorem State.setWorld_barClks (s : State) (w : Nat) (v : World) : (s.setWorld w v).barClks = s.barClks := rfl
@[simp] theorem State.setWorld_heaps (s : State) (w : Nat) (v : World) : (s.setWorld w v).heaps = s.heaps := rfl
@[simp] theorem State.setWorld_tasks (s : State) (w : Nat) (v : World) : (s.setWorld w v).tasks = s.tasks := rfl
@[simp] theorem State.setWorld_ready (s : State) (w : Nat) (v : World) : (s.setWorld w v).ready = s.ready := rfl
@[simp] theorem State.setWorld_nextGid (s : State) (w : Nat) (v : World) : (s.setWorld w v).nextGid = s.nextGid := rfl
@[simp] theorem State.setWorld_epochs (s : State) (w : Nat) (v : World) : (s.setWorld w v).epochs = s.epochs := rfl
@[simp] theorem State.setWorld_fences (s : State) (w : Nat) (v : World) : (s.setWorld w v).fences = s.fences := rfl
@[simp] theorem State.setWorld_sweep (s : State) (w : Nat) (v : World) : (s.setWorld w v).sweep = s.sweep := rfl
@[simp] theorem State.setWorld_sweepDone (s : State) (w : Nat) (v : World) : (s.setWorld w v).sweepDone = s.sweepDone := rfl
@[simp] theorem State.setWorld_lodeQ (s : State) (w : Nat) (v : World) : (s.setWorld w v).lodeQ = s.lodeQ := rfl
@[simp] theorem State.setWorld_berths (s : State) (w : Nat) (v : World) : (s.setWorld w v).berths = s.berths := rfl
@[simp] theorem State.setWorld_lends (s : State) (w : Nat) (v : World) : (s.setWorld w v).lends = s.lends := rfl
@[simp] theorem State.setWorld_deadClusters (s : State) (w : Nat) (v : World) : (s.setWorld w v).deadClusters = s.deadClusters := rfl
@[simp] theorem State.setWorld_spareCore (s : State) (w : Nat) (v : World) : (s.setWorld w v).spareCore = s.spareCore := rfl
@[simp] theorem State.setWorld_spareCluster (s : State) (w : Nat) (v : World) : (s.setWorld w v).spareCluster = s.spareCluster := rfl
@[simp] theorem State.setWorld_retiring (s : State) (w : Nat) (v : World) : (s.setWorld w v).retiring = s.retiring := rfl
@[simp] theorem State.setWorld_unitErrs (s : State) (w : Nat) (v : World) : (s.setWorld w v).unitErrs = s.unitErrs := rfl
@[simp] theorem State.setWorld_deadChans (s : State) (w : Nat) (v : World) : (s.setWorld w v).deadChans = s.deadChans := rfl
@[simp] theorem State.setWorld_fencedChans (s : State) (w : Nat) (v : World) : (s.setWorld w v).fencedChans = s.fencedChans := rfl
@[simp] theorem State.setWorld_swapping (s : State) (w : Nat) (v : World) : (s.setWorld w v).swapping = s.swapping := rfl
@[simp] theorem State.setWorld_banksUsed (s : State) (w : Nat) (v : World) : (s.setWorld w v).banksUsed = s.banksUsed := rfl
@[simp] theorem State.setWorld_hbmTaken (s : State) (w : Nat) (v : World) : (s.setWorld w v).hbmTaken = s.hbmTaken := rfl
@[simp] theorem State.setWorld_lost (s : State) (w : Nat) (v : World) : (s.setWorld w v).lost = s.lost := rfl
@[simp] theorem State.setWorld_lodeFenced (s : State) (w : Nat) (v : World) : (s.setWorld w v).lodeFenced = s.lodeFenced := rfl
@[simp] theorem State.setWorld_tdis (s : State) (w : Nat) (v : World) : (s.setWorld w v).tdis = s.tdis := rfl
@[simp] theorem State.setWorld_vfOwner (s : State) (w : Nat) (v : World) : (s.setWorld w v).vfOwner = s.vfOwner := rfl
@[simp] theorem State.setWorld_ide (s : State) (w : Nat) (v : World) : (s.setWorld w v).ide = s.ide := rfl
@[simp] theorem State.setWorld_owned (s : State) (w : Nat) (v : World) : (s.setWorld w v).owned = s.owned := rfl
@[simp] theorem State.setWorld_hostSpdm (s : State) (w : Nat) (v : World) : (s.setWorld w v).hostSpdm = s.hostSpdm := rfl
@[simp] theorem State.setWorld_ports (s : State) (w : Nat) (v : World) : (s.setWorld w v).ports = s.ports := rfl
@[simp] theorem State.setWorld_routes (s : State) (w : Nat) (v : World) : (s.setWorld w v).routes = s.routes := rfl
@[simp] theorem State.setWorld_fabId (s : State) (w : Nat) (v : World) : (s.setWorld w v).fabId = s.fabId := rfl
@[simp] theorem State.setWorld_fabIdSet (s : State) (w : Nat) (v : World) : (s.setWorld w v).fabIdSet = s.fabIdSet := rfl
@[simp] theorem State.setWorld_incarnation (s : State) (w : Nat) (v : World) : (s.setWorld w v).incarnation = s.incarnation := rfl
@[simp] theorem State.setWorld_peerInc (s : State) (w : Nat) (v : World) : (s.setWorld w v).peerInc = s.peerInc := rfl
@[simp] theorem State.setWorld_seq (s : State) (w : Nat) (v : World) : (s.setWorld w v).seq = s.seq := rfl
@[simp] theorem State.setWorld_cache (s : State) (w : Nat) (v : World) : (s.setWorld w v).cache = s.cache := rfl
@[simp] theorem State.setWorld_incoming (s : State) (w : Nat) (v : World) : (s.setWorld w v).incoming = s.incoming := rfl
@[simp] theorem State.setWorld_merge (s : State) (w : Nat) (v : World) : (s.setWorld w v).merge = s.merge := rfl
@[simp] theorem State.setWorld_branches (s : State) (w : Nat) (v : World) : (s.setWorld w v).branches = s.branches := rfl
@[simp] theorem State.setWorld_out (s : State) (w : Nat) (v : World) : (s.setWorld w v).out = s.out := rfl
@[simp] theorem State.setWorld_wire (s : State) (w : Nat) (v : World) : (s.setWorld w v).wire = s.wire := rfl
@[simp] theorem State.setWorld_leaves (s : State) (w : Nat) (v : World) : (s.setWorld w v).leaves = s.leaves := rfl
@[simp] theorem State.setWorld_p384Leaf (s : State) (w : Nat) (v : World) : (s.setWorld w v).p384Leaf = s.p384Leaf := rfl
@[simp] theorem State.setWorld_reportAt (s : State) (w : Nat) (v : World) : (s.setWorld w v).reportAt = s.reportAt := rfl
@[simp] theorem State.setWorld_standby (s : State) (w : Nat) (v : World) : (s.setWorld w v).standby = s.standby := rfl
@[simp] theorem State.setWorld_alarms (s : State) (w : Nat) (v : World) : (s.setWorld w v).alarms = s.alarms := rfl
@[simp] theorem State.setWorld_powerLimit (s : State) (w : Nat) (v : World) : (s.setWorld w v).powerLimit = s.powerLimit := rfl
@[simp] theorem State.setWorld_powerAt (s : State) (w : Nat) (v : World) : (s.setWorld w v).powerAt = s.powerAt := rfl
@[simp] theorem State.setWorld_startNo (s : State) (w : Nat) (v : World) : (s.setWorld w v).startNo = s.startNo := rfl

/-! setBerth -/

@[simp] theorem State.setBerth_now (s : State) (b : Nat) (v : Berth) : (s.setBerth b v).now = s.now := rfl
@[simp] theorem State.setBerth_fresh (s : State) (b : Nat) (v : Berth) : (s.setBerth b v).fresh = s.fresh := rfl
@[simp] theorem State.setBerth_agenda (s : State) (b : Nat) (v : Berth) : (s.setBerth b v).agenda = s.agenda := rfl
@[simp] theorem State.setBerth_cur (s : State) (b : Nat) (v : Berth) : (s.setBerth b v).cur = s.cur := rfl
@[simp] theorem State.setBerth_curSt (s : State) (b : Nat) (v : Berth) : (s.setBerth b v).curSt = s.curSt := rfl
@[simp] theorem State.setBerth_power (s : State) (b : Nat) (v : Berth) : (s.setBerth b v).power = s.power := rfl
@[simp] theorem State.setBerth_stage (s : State) (b : Nat) (v : Berth) : (s.setBerth b v).stage = s.stage := rfl
@[simp] theorem State.setBerth_failed (s : State) (b : Nat) (v : Berth) : (s.setBerth b v).failed = s.failed := rfl
@[simp] theorem State.setBerth_mem (s : State) (b : Nat) (v : Berth) : (s.setBerth b v).mem = s.mem := rfl
@[simp] theorem State.setBerth_lines (s : State) (b : Nat) (v : Berth) : (s.setBerth b v).lines = s.lines := rfl
@[simp] theorem State.setBerth_sectors (s : State) (b : Nat) (v : Berth) : (s.setBerth b v).sectors = s.sectors := rfl
@[simp] theorem State.setBerth_ecc2 (s : State) (b : Nat) (v : Berth) : (s.setBerth b v).ecc2 = s.ecc2 := rfl
@[simp] theorem State.setBerth_semEcc (s : State) (b : Nat) (v : Berth) : (s.setBerth b v).semEcc = s.semEcc := rfl
@[simp] theorem State.setBerth_releases (s : State) (b : Nat) (v : Berth) : (s.setBerth b v).releases = s.releases := rfl
@[simp] theorem State.setBerth_flagClks (s : State) (b : Nat) (v : Berth) : (s.setBerth b v).flagClks = s.flagClks := rfl
@[simp] theorem State.setBerth_tlb1 (s : State) (b : Nat) (v : Berth) : (s.setBerth b v).tlb1 = s.tlb1 := rfl
@[simp] theorem State.setBerth_tlb2 (s : State) (b : Nat) (v : Berth) : (s.setBerth b v).tlb2 = s.tlb2 := rfl
@[simp] theorem State.setBerth_cores (s : State) (b : Nat) (v : Berth) : (s.setBerth b v).cores = s.cores := rfl
@[simp] theorem State.setBerth_sems (s : State) (b : Nat) (v : Berth) : (s.setBerth b v).sems = s.sems := rfl
@[simp] theorem State.setBerth_barWs (s : State) (b : Nat) (v : Berth) : (s.setBerth b v).barWs = s.barWs := rfl
@[simp] theorem State.setBerth_barClks (s : State) (b : Nat) (v : Berth) : (s.setBerth b v).barClks = s.barClks := rfl
@[simp] theorem State.setBerth_heaps (s : State) (b : Nat) (v : Berth) : (s.setBerth b v).heaps = s.heaps := rfl
@[simp] theorem State.setBerth_tasks (s : State) (b : Nat) (v : Berth) : (s.setBerth b v).tasks = s.tasks := rfl
@[simp] theorem State.setBerth_ready (s : State) (b : Nat) (v : Berth) : (s.setBerth b v).ready = s.ready := rfl
@[simp] theorem State.setBerth_nextGid (s : State) (b : Nat) (v : Berth) : (s.setBerth b v).nextGid = s.nextGid := rfl
@[simp] theorem State.setBerth_epochs (s : State) (b : Nat) (v : Berth) : (s.setBerth b v).epochs = s.epochs := rfl
@[simp] theorem State.setBerth_fences (s : State) (b : Nat) (v : Berth) : (s.setBerth b v).fences = s.fences := rfl
@[simp] theorem State.setBerth_worlds (s : State) (b : Nat) (v : Berth) : (s.setBerth b v).worlds = s.worlds := rfl
@[simp] theorem State.setBerth_sweep (s : State) (b : Nat) (v : Berth) : (s.setBerth b v).sweep = s.sweep := rfl
@[simp] theorem State.setBerth_sweepDone (s : State) (b : Nat) (v : Berth) : (s.setBerth b v).sweepDone = s.sweepDone := rfl
@[simp] theorem State.setBerth_lodeQ (s : State) (b : Nat) (v : Berth) : (s.setBerth b v).lodeQ = s.lodeQ := rfl
@[simp] theorem State.setBerth_lends (s : State) (b : Nat) (v : Berth) : (s.setBerth b v).lends = s.lends := rfl
@[simp] theorem State.setBerth_deadClusters (s : State) (b : Nat) (v : Berth) : (s.setBerth b v).deadClusters = s.deadClusters := rfl
@[simp] theorem State.setBerth_spareCore (s : State) (b : Nat) (v : Berth) : (s.setBerth b v).spareCore = s.spareCore := rfl
@[simp] theorem State.setBerth_spareCluster (s : State) (b : Nat) (v : Berth) : (s.setBerth b v).spareCluster = s.spareCluster := rfl
@[simp] theorem State.setBerth_retiring (s : State) (b : Nat) (v : Berth) : (s.setBerth b v).retiring = s.retiring := rfl
@[simp] theorem State.setBerth_unitErrs (s : State) (b : Nat) (v : Berth) : (s.setBerth b v).unitErrs = s.unitErrs := rfl
@[simp] theorem State.setBerth_deadChans (s : State) (b : Nat) (v : Berth) : (s.setBerth b v).deadChans = s.deadChans := rfl
@[simp] theorem State.setBerth_fencedChans (s : State) (b : Nat) (v : Berth) : (s.setBerth b v).fencedChans = s.fencedChans := rfl
@[simp] theorem State.setBerth_swapping (s : State) (b : Nat) (v : Berth) : (s.setBerth b v).swapping = s.swapping := rfl
@[simp] theorem State.setBerth_banksUsed (s : State) (b : Nat) (v : Berth) : (s.setBerth b v).banksUsed = s.banksUsed := rfl
@[simp] theorem State.setBerth_hbmTaken (s : State) (b : Nat) (v : Berth) : (s.setBerth b v).hbmTaken = s.hbmTaken := rfl
@[simp] theorem State.setBerth_lost (s : State) (b : Nat) (v : Berth) : (s.setBerth b v).lost = s.lost := rfl
@[simp] theorem State.setBerth_lodeFenced (s : State) (b : Nat) (v : Berth) : (s.setBerth b v).lodeFenced = s.lodeFenced := rfl
@[simp] theorem State.setBerth_tdis (s : State) (b : Nat) (v : Berth) : (s.setBerth b v).tdis = s.tdis := rfl
@[simp] theorem State.setBerth_vfOwner (s : State) (b : Nat) (v : Berth) : (s.setBerth b v).vfOwner = s.vfOwner := rfl
@[simp] theorem State.setBerth_ide (s : State) (b : Nat) (v : Berth) : (s.setBerth b v).ide = s.ide := rfl
@[simp] theorem State.setBerth_owned (s : State) (b : Nat) (v : Berth) : (s.setBerth b v).owned = s.owned := rfl
@[simp] theorem State.setBerth_hostSpdm (s : State) (b : Nat) (v : Berth) : (s.setBerth b v).hostSpdm = s.hostSpdm := rfl
@[simp] theorem State.setBerth_ports (s : State) (b : Nat) (v : Berth) : (s.setBerth b v).ports = s.ports := rfl
@[simp] theorem State.setBerth_routes (s : State) (b : Nat) (v : Berth) : (s.setBerth b v).routes = s.routes := rfl
@[simp] theorem State.setBerth_fabId (s : State) (b : Nat) (v : Berth) : (s.setBerth b v).fabId = s.fabId := rfl
@[simp] theorem State.setBerth_fabIdSet (s : State) (b : Nat) (v : Berth) : (s.setBerth b v).fabIdSet = s.fabIdSet := rfl
@[simp] theorem State.setBerth_incarnation (s : State) (b : Nat) (v : Berth) : (s.setBerth b v).incarnation = s.incarnation := rfl
@[simp] theorem State.setBerth_peerInc (s : State) (b : Nat) (v : Berth) : (s.setBerth b v).peerInc = s.peerInc := rfl
@[simp] theorem State.setBerth_seq (s : State) (b : Nat) (v : Berth) : (s.setBerth b v).seq = s.seq := rfl
@[simp] theorem State.setBerth_cache (s : State) (b : Nat) (v : Berth) : (s.setBerth b v).cache = s.cache := rfl
@[simp] theorem State.setBerth_incoming (s : State) (b : Nat) (v : Berth) : (s.setBerth b v).incoming = s.incoming := rfl
@[simp] theorem State.setBerth_merge (s : State) (b : Nat) (v : Berth) : (s.setBerth b v).merge = s.merge := rfl
@[simp] theorem State.setBerth_branches (s : State) (b : Nat) (v : Berth) : (s.setBerth b v).branches = s.branches := rfl
@[simp] theorem State.setBerth_out (s : State) (b : Nat) (v : Berth) : (s.setBerth b v).out = s.out := rfl
@[simp] theorem State.setBerth_wire (s : State) (b : Nat) (v : Berth) : (s.setBerth b v).wire = s.wire := rfl
@[simp] theorem State.setBerth_leaves (s : State) (b : Nat) (v : Berth) : (s.setBerth b v).leaves = s.leaves := rfl
@[simp] theorem State.setBerth_p384Leaf (s : State) (b : Nat) (v : Berth) : (s.setBerth b v).p384Leaf = s.p384Leaf := rfl
@[simp] theorem State.setBerth_reportAt (s : State) (b : Nat) (v : Berth) : (s.setBerth b v).reportAt = s.reportAt := rfl
@[simp] theorem State.setBerth_standby (s : State) (b : Nat) (v : Berth) : (s.setBerth b v).standby = s.standby := rfl
@[simp] theorem State.setBerth_alarms (s : State) (b : Nat) (v : Berth) : (s.setBerth b v).alarms = s.alarms := rfl
@[simp] theorem State.setBerth_powerLimit (s : State) (b : Nat) (v : Berth) : (s.setBerth b v).powerLimit = s.powerLimit := rfl
@[simp] theorem State.setBerth_powerAt (s : State) (b : Nat) (v : Berth) : (s.setBerth b v).powerAt = s.powerAt := rfl
@[simp] theorem State.setBerth_startNo (s : State) (b : Nat) (v : Berth) : (s.setBerth b v).startNo = s.startNo := rfl

/-! setTask -/

@[simp] theorem State.setTask_now (s : State) (d i : Nat) (t : Task) : (s.setTask d i t).now = s.now := rfl
@[simp] theorem State.setTask_fresh (s : State) (d i : Nat) (t : Task) : (s.setTask d i t).fresh = s.fresh := rfl
@[simp] theorem State.setTask_agenda (s : State) (d i : Nat) (t : Task) : (s.setTask d i t).agenda = s.agenda := rfl
@[simp] theorem State.setTask_cur (s : State) (d i : Nat) (t : Task) : (s.setTask d i t).cur = s.cur := rfl
@[simp] theorem State.setTask_curSt (s : State) (d i : Nat) (t : Task) : (s.setTask d i t).curSt = s.curSt := rfl
@[simp] theorem State.setTask_power (s : State) (d i : Nat) (t : Task) : (s.setTask d i t).power = s.power := rfl
@[simp] theorem State.setTask_stage (s : State) (d i : Nat) (t : Task) : (s.setTask d i t).stage = s.stage := rfl
@[simp] theorem State.setTask_failed (s : State) (d i : Nat) (t : Task) : (s.setTask d i t).failed = s.failed := rfl
@[simp] theorem State.setTask_mem (s : State) (d i : Nat) (t : Task) : (s.setTask d i t).mem = s.mem := rfl
@[simp] theorem State.setTask_lines (s : State) (d i : Nat) (t : Task) : (s.setTask d i t).lines = s.lines := rfl
@[simp] theorem State.setTask_sectors (s : State) (d i : Nat) (t : Task) : (s.setTask d i t).sectors = s.sectors := rfl
@[simp] theorem State.setTask_ecc2 (s : State) (d i : Nat) (t : Task) : (s.setTask d i t).ecc2 = s.ecc2 := rfl
@[simp] theorem State.setTask_semEcc (s : State) (d i : Nat) (t : Task) : (s.setTask d i t).semEcc = s.semEcc := rfl
@[simp] theorem State.setTask_releases (s : State) (d i : Nat) (t : Task) : (s.setTask d i t).releases = s.releases := rfl
@[simp] theorem State.setTask_flagClks (s : State) (d i : Nat) (t : Task) : (s.setTask d i t).flagClks = s.flagClks := rfl
@[simp] theorem State.setTask_tlb1 (s : State) (d i : Nat) (t : Task) : (s.setTask d i t).tlb1 = s.tlb1 := rfl
@[simp] theorem State.setTask_tlb2 (s : State) (d i : Nat) (t : Task) : (s.setTask d i t).tlb2 = s.tlb2 := rfl
@[simp] theorem State.setTask_cores (s : State) (d i : Nat) (t : Task) : (s.setTask d i t).cores = s.cores := rfl
@[simp] theorem State.setTask_sems (s : State) (d i : Nat) (t : Task) : (s.setTask d i t).sems = s.sems := rfl
@[simp] theorem State.setTask_barWs (s : State) (d i : Nat) (t : Task) : (s.setTask d i t).barWs = s.barWs := rfl
@[simp] theorem State.setTask_barClks (s : State) (d i : Nat) (t : Task) : (s.setTask d i t).barClks = s.barClks := rfl
@[simp] theorem State.setTask_heaps (s : State) (d i : Nat) (t : Task) : (s.setTask d i t).heaps = s.heaps := rfl
@[simp] theorem State.setTask_ready (s : State) (d i : Nat) (t : Task) : (s.setTask d i t).ready = s.ready := rfl
@[simp] theorem State.setTask_nextGid (s : State) (d i : Nat) (t : Task) : (s.setTask d i t).nextGid = s.nextGid := rfl
@[simp] theorem State.setTask_epochs (s : State) (d i : Nat) (t : Task) : (s.setTask d i t).epochs = s.epochs := rfl
@[simp] theorem State.setTask_fences (s : State) (d i : Nat) (t : Task) : (s.setTask d i t).fences = s.fences := rfl
@[simp] theorem State.setTask_worlds (s : State) (d i : Nat) (t : Task) : (s.setTask d i t).worlds = s.worlds := rfl
@[simp] theorem State.setTask_sweep (s : State) (d i : Nat) (t : Task) : (s.setTask d i t).sweep = s.sweep := rfl
@[simp] theorem State.setTask_sweepDone (s : State) (d i : Nat) (t : Task) : (s.setTask d i t).sweepDone = s.sweepDone := rfl
@[simp] theorem State.setTask_lodeQ (s : State) (d i : Nat) (t : Task) : (s.setTask d i t).lodeQ = s.lodeQ := rfl
@[simp] theorem State.setTask_berths (s : State) (d i : Nat) (t : Task) : (s.setTask d i t).berths = s.berths := rfl
@[simp] theorem State.setTask_lends (s : State) (d i : Nat) (t : Task) : (s.setTask d i t).lends = s.lends := rfl
@[simp] theorem State.setTask_deadClusters (s : State) (d i : Nat) (t : Task) : (s.setTask d i t).deadClusters = s.deadClusters := rfl
@[simp] theorem State.setTask_spareCore (s : State) (d i : Nat) (t : Task) : (s.setTask d i t).spareCore = s.spareCore := rfl
@[simp] theorem State.setTask_spareCluster (s : State) (d i : Nat) (t : Task) : (s.setTask d i t).spareCluster = s.spareCluster := rfl
@[simp] theorem State.setTask_retiring (s : State) (d i : Nat) (t : Task) : (s.setTask d i t).retiring = s.retiring := rfl
@[simp] theorem State.setTask_unitErrs (s : State) (d i : Nat) (t : Task) : (s.setTask d i t).unitErrs = s.unitErrs := rfl
@[simp] theorem State.setTask_deadChans (s : State) (d i : Nat) (t : Task) : (s.setTask d i t).deadChans = s.deadChans := rfl
@[simp] theorem State.setTask_fencedChans (s : State) (d i : Nat) (t : Task) : (s.setTask d i t).fencedChans = s.fencedChans := rfl
@[simp] theorem State.setTask_swapping (s : State) (d i : Nat) (t : Task) : (s.setTask d i t).swapping = s.swapping := rfl
@[simp] theorem State.setTask_banksUsed (s : State) (d i : Nat) (t : Task) : (s.setTask d i t).banksUsed = s.banksUsed := rfl
@[simp] theorem State.setTask_hbmTaken (s : State) (d i : Nat) (t : Task) : (s.setTask d i t).hbmTaken = s.hbmTaken := rfl
@[simp] theorem State.setTask_lost (s : State) (d i : Nat) (t : Task) : (s.setTask d i t).lost = s.lost := rfl
@[simp] theorem State.setTask_lodeFenced (s : State) (d i : Nat) (t : Task) : (s.setTask d i t).lodeFenced = s.lodeFenced := rfl
@[simp] theorem State.setTask_tdis (s : State) (d i : Nat) (t : Task) : (s.setTask d i t).tdis = s.tdis := rfl
@[simp] theorem State.setTask_vfOwner (s : State) (d i : Nat) (t : Task) : (s.setTask d i t).vfOwner = s.vfOwner := rfl
@[simp] theorem State.setTask_ide (s : State) (d i : Nat) (t : Task) : (s.setTask d i t).ide = s.ide := rfl
@[simp] theorem State.setTask_owned (s : State) (d i : Nat) (t : Task) : (s.setTask d i t).owned = s.owned := rfl
@[simp] theorem State.setTask_hostSpdm (s : State) (d i : Nat) (t : Task) : (s.setTask d i t).hostSpdm = s.hostSpdm := rfl
@[simp] theorem State.setTask_ports (s : State) (d i : Nat) (t : Task) : (s.setTask d i t).ports = s.ports := rfl
@[simp] theorem State.setTask_routes (s : State) (d i : Nat) (t : Task) : (s.setTask d i t).routes = s.routes := rfl
@[simp] theorem State.setTask_fabId (s : State) (d i : Nat) (t : Task) : (s.setTask d i t).fabId = s.fabId := rfl
@[simp] theorem State.setTask_fabIdSet (s : State) (d i : Nat) (t : Task) : (s.setTask d i t).fabIdSet = s.fabIdSet := rfl
@[simp] theorem State.setTask_incarnation (s : State) (d i : Nat) (t : Task) : (s.setTask d i t).incarnation = s.incarnation := rfl
@[simp] theorem State.setTask_peerInc (s : State) (d i : Nat) (t : Task) : (s.setTask d i t).peerInc = s.peerInc := rfl
@[simp] theorem State.setTask_seq (s : State) (d i : Nat) (t : Task) : (s.setTask d i t).seq = s.seq := rfl
@[simp] theorem State.setTask_cache (s : State) (d i : Nat) (t : Task) : (s.setTask d i t).cache = s.cache := rfl
@[simp] theorem State.setTask_incoming (s : State) (d i : Nat) (t : Task) : (s.setTask d i t).incoming = s.incoming := rfl
@[simp] theorem State.setTask_merge (s : State) (d i : Nat) (t : Task) : (s.setTask d i t).merge = s.merge := rfl
@[simp] theorem State.setTask_branches (s : State) (d i : Nat) (t : Task) : (s.setTask d i t).branches = s.branches := rfl
@[simp] theorem State.setTask_out (s : State) (d i : Nat) (t : Task) : (s.setTask d i t).out = s.out := rfl
@[simp] theorem State.setTask_wire (s : State) (d i : Nat) (t : Task) : (s.setTask d i t).wire = s.wire := rfl
@[simp] theorem State.setTask_leaves (s : State) (d i : Nat) (t : Task) : (s.setTask d i t).leaves = s.leaves := rfl
@[simp] theorem State.setTask_p384Leaf (s : State) (d i : Nat) (t : Task) : (s.setTask d i t).p384Leaf = s.p384Leaf := rfl
@[simp] theorem State.setTask_reportAt (s : State) (d i : Nat) (t : Task) : (s.setTask d i t).reportAt = s.reportAt := rfl
@[simp] theorem State.setTask_standby (s : State) (d i : Nat) (t : Task) : (s.setTask d i t).standby = s.standby := rfl
@[simp] theorem State.setTask_alarms (s : State) (d i : Nat) (t : Task) : (s.setTask d i t).alarms = s.alarms := rfl
@[simp] theorem State.setTask_powerLimit (s : State) (d i : Nat) (t : Task) : (s.setTask d i t).powerLimit = s.powerLimit := rfl
@[simp] theorem State.setTask_powerAt (s : State) (d i : Nat) (t : Task) : (s.setTask d i t).powerAt = s.powerAt := rfl
@[simp] theorem State.setTask_startNo (s : State) (d i : Nat) (t : Task) : (s.setTask d i t).startNo = s.startNo := rfl

/-! emit -/

@[simp] theorem State.emit_now (s : State) (x : Out) : (s.emit x).now = s.now := rfl
@[simp] theorem State.emit_fresh (s : State) (x : Out) : (s.emit x).fresh = s.fresh := rfl
@[simp] theorem State.emit_agenda (s : State) (x : Out) : (s.emit x).agenda = s.agenda := rfl
@[simp] theorem State.emit_cur (s : State) (x : Out) : (s.emit x).cur = s.cur := rfl
@[simp] theorem State.emit_curSt (s : State) (x : Out) : (s.emit x).curSt = s.curSt := rfl
@[simp] theorem State.emit_power (s : State) (x : Out) : (s.emit x).power = s.power := rfl
@[simp] theorem State.emit_stage (s : State) (x : Out) : (s.emit x).stage = s.stage := rfl
@[simp] theorem State.emit_failed (s : State) (x : Out) : (s.emit x).failed = s.failed := rfl
@[simp] theorem State.emit_mem (s : State) (x : Out) : (s.emit x).mem = s.mem := rfl
@[simp] theorem State.emit_lines (s : State) (x : Out) : (s.emit x).lines = s.lines := rfl
@[simp] theorem State.emit_sectors (s : State) (x : Out) : (s.emit x).sectors = s.sectors := rfl
@[simp] theorem State.emit_ecc2 (s : State) (x : Out) : (s.emit x).ecc2 = s.ecc2 := rfl
@[simp] theorem State.emit_semEcc (s : State) (x : Out) : (s.emit x).semEcc = s.semEcc := rfl
@[simp] theorem State.emit_releases (s : State) (x : Out) : (s.emit x).releases = s.releases := rfl
@[simp] theorem State.emit_flagClks (s : State) (x : Out) : (s.emit x).flagClks = s.flagClks := rfl
@[simp] theorem State.emit_tlb1 (s : State) (x : Out) : (s.emit x).tlb1 = s.tlb1 := rfl
@[simp] theorem State.emit_tlb2 (s : State) (x : Out) : (s.emit x).tlb2 = s.tlb2 := rfl
@[simp] theorem State.emit_cores (s : State) (x : Out) : (s.emit x).cores = s.cores := rfl
@[simp] theorem State.emit_sems (s : State) (x : Out) : (s.emit x).sems = s.sems := rfl
@[simp] theorem State.emit_barWs (s : State) (x : Out) : (s.emit x).barWs = s.barWs := rfl
@[simp] theorem State.emit_barClks (s : State) (x : Out) : (s.emit x).barClks = s.barClks := rfl
@[simp] theorem State.emit_heaps (s : State) (x : Out) : (s.emit x).heaps = s.heaps := rfl
@[simp] theorem State.emit_tasks (s : State) (x : Out) : (s.emit x).tasks = s.tasks := rfl
@[simp] theorem State.emit_ready (s : State) (x : Out) : (s.emit x).ready = s.ready := rfl
@[simp] theorem State.emit_nextGid (s : State) (x : Out) : (s.emit x).nextGid = s.nextGid := rfl
@[simp] theorem State.emit_epochs (s : State) (x : Out) : (s.emit x).epochs = s.epochs := rfl
@[simp] theorem State.emit_fences (s : State) (x : Out) : (s.emit x).fences = s.fences := rfl
@[simp] theorem State.emit_worlds (s : State) (x : Out) : (s.emit x).worlds = s.worlds := rfl
@[simp] theorem State.emit_sweep (s : State) (x : Out) : (s.emit x).sweep = s.sweep := rfl
@[simp] theorem State.emit_sweepDone (s : State) (x : Out) : (s.emit x).sweepDone = s.sweepDone := rfl
@[simp] theorem State.emit_lodeQ (s : State) (x : Out) : (s.emit x).lodeQ = s.lodeQ := rfl
@[simp] theorem State.emit_berths (s : State) (x : Out) : (s.emit x).berths = s.berths := rfl
@[simp] theorem State.emit_lends (s : State) (x : Out) : (s.emit x).lends = s.lends := rfl
@[simp] theorem State.emit_deadClusters (s : State) (x : Out) : (s.emit x).deadClusters = s.deadClusters := rfl
@[simp] theorem State.emit_spareCore (s : State) (x : Out) : (s.emit x).spareCore = s.spareCore := rfl
@[simp] theorem State.emit_spareCluster (s : State) (x : Out) : (s.emit x).spareCluster = s.spareCluster := rfl
@[simp] theorem State.emit_retiring (s : State) (x : Out) : (s.emit x).retiring = s.retiring := rfl
@[simp] theorem State.emit_unitErrs (s : State) (x : Out) : (s.emit x).unitErrs = s.unitErrs := rfl
@[simp] theorem State.emit_deadChans (s : State) (x : Out) : (s.emit x).deadChans = s.deadChans := rfl
@[simp] theorem State.emit_fencedChans (s : State) (x : Out) : (s.emit x).fencedChans = s.fencedChans := rfl
@[simp] theorem State.emit_swapping (s : State) (x : Out) : (s.emit x).swapping = s.swapping := rfl
@[simp] theorem State.emit_banksUsed (s : State) (x : Out) : (s.emit x).banksUsed = s.banksUsed := rfl
@[simp] theorem State.emit_hbmTaken (s : State) (x : Out) : (s.emit x).hbmTaken = s.hbmTaken := rfl
@[simp] theorem State.emit_lost (s : State) (x : Out) : (s.emit x).lost = s.lost := rfl
@[simp] theorem State.emit_lodeFenced (s : State) (x : Out) : (s.emit x).lodeFenced = s.lodeFenced := rfl
@[simp] theorem State.emit_tdis (s : State) (x : Out) : (s.emit x).tdis = s.tdis := rfl
@[simp] theorem State.emit_vfOwner (s : State) (x : Out) : (s.emit x).vfOwner = s.vfOwner := rfl
@[simp] theorem State.emit_ide (s : State) (x : Out) : (s.emit x).ide = s.ide := rfl
@[simp] theorem State.emit_owned (s : State) (x : Out) : (s.emit x).owned = s.owned := rfl
@[simp] theorem State.emit_hostSpdm (s : State) (x : Out) : (s.emit x).hostSpdm = s.hostSpdm := rfl
@[simp] theorem State.emit_ports (s : State) (x : Out) : (s.emit x).ports = s.ports := rfl
@[simp] theorem State.emit_routes (s : State) (x : Out) : (s.emit x).routes = s.routes := rfl
@[simp] theorem State.emit_fabId (s : State) (x : Out) : (s.emit x).fabId = s.fabId := rfl
@[simp] theorem State.emit_fabIdSet (s : State) (x : Out) : (s.emit x).fabIdSet = s.fabIdSet := rfl
@[simp] theorem State.emit_incarnation (s : State) (x : Out) : (s.emit x).incarnation = s.incarnation := rfl
@[simp] theorem State.emit_peerInc (s : State) (x : Out) : (s.emit x).peerInc = s.peerInc := rfl
@[simp] theorem State.emit_seq (s : State) (x : Out) : (s.emit x).seq = s.seq := rfl
@[simp] theorem State.emit_cache (s : State) (x : Out) : (s.emit x).cache = s.cache := rfl
@[simp] theorem State.emit_incoming (s : State) (x : Out) : (s.emit x).incoming = s.incoming := rfl
@[simp] theorem State.emit_merge (s : State) (x : Out) : (s.emit x).merge = s.merge := rfl
@[simp] theorem State.emit_branches (s : State) (x : Out) : (s.emit x).branches = s.branches := rfl
@[simp] theorem State.emit_wire (s : State) (x : Out) : (s.emit x).wire = s.wire := rfl
@[simp] theorem State.emit_leaves (s : State) (x : Out) : (s.emit x).leaves = s.leaves := rfl
@[simp] theorem State.emit_p384Leaf (s : State) (x : Out) : (s.emit x).p384Leaf = s.p384Leaf := rfl
@[simp] theorem State.emit_reportAt (s : State) (x : Out) : (s.emit x).reportAt = s.reportAt := rfl
@[simp] theorem State.emit_standby (s : State) (x : Out) : (s.emit x).standby = s.standby := rfl
@[simp] theorem State.emit_alarms (s : State) (x : Out) : (s.emit x).alarms = s.alarms := rfl
@[simp] theorem State.emit_powerLimit (s : State) (x : Out) : (s.emit x).powerLimit = s.powerLimit := rfl
@[simp] theorem State.emit_powerAt (s : State) (x : Out) : (s.emit x).powerAt = s.powerAt := rfl
@[simp] theorem State.emit_startNo (s : State) (x : Out) : (s.emit x).startNo = s.startNo := rfl

/-! setX, setC, setH, setSlate -/

@[simp] theorem Core.setX_hrun (k : Core) (r : XReg) (v : X64) : (k.setX r v).hrun = k.hrun := by unfold Core.setX; split <;> rfl
@[simp] theorem Core.setX_haltLine (k : Core) (r : XReg) (v : X64) : (k.setX r v).haltLine = k.haltLine := by unfold Core.setX; split <;> rfl
@[simp] theorem Core.setX_task (k : Core) (r : XReg) (v : X64) : (k.setX r v).task = k.task := by unfold Core.setX; split <;> rfl
@[simp] theorem Core.setX_c (k : Core) (r : XReg) (v : X64) : (k.setX r v).c = k.c := by unfold Core.setX; split <;> rfl
@[simp] theorem Core.setX_slates (k : Core) (r : XReg) (v : X64) : (k.setX r v).slates = k.slates := by unfold Core.setX; split <;> rfl
@[simp] theorem Core.setX_h (k : Core) (r : XReg) (v : X64) : (k.setX r v).h = k.h := by unfold Core.setX; split <;> rfl
@[simp] theorem Core.setX_status (k : Core) (r : XReg) (v : X64) : (k.setX r v).status = k.status := by unfold Core.setX; split <;> rfl
@[simp] theorem Core.setX_cause (k : Core) (r : XReg) (v : X64) : (k.setX r v).cause = k.cause := by unfold Core.setX; split <;> rfl
@[simp] theorem Core.setX_epc (k : Core) (r : XReg) (v : X64) : (k.setX r v).epc = k.epc := by unfold Core.setX; split <;> rfl
@[simp] theorem Core.setX_etval (k : Core) (r : XReg) (v : X64) : (k.setX r v).etval = k.etval := by unfold Core.setX; split <;> rfl
@[simp] theorem Core.setX_tvec (k : Core) (r : XReg) (v : X64) : (k.setX r v).tvec = k.tvec := by unfold Core.setX; split <;> rfl
@[simp] theorem Core.setX_world (k : Core) (r : XReg) (v : X64) : (k.setX r v).world = k.world := by unfold Core.setX; split <;> rfl
@[simp] theorem Core.setX_gang (k : Core) (r : XReg) (v : X64) : (k.setX r v).gang = k.gang := by unfold Core.setX; split <;> rfl
@[simp] theorem Core.setX_cycle0 (k : Core) (r : XReg) (v : X64) : (k.setX r v).cycle0 = k.cycle0 := by unfold Core.setX; split <;> rfl
@[simp] theorem Core.setX_qmapbase (k : Core) (r : XReg) (v : X64) : (k.setX r v).qmapbase = k.qmapbase := by unfold Core.setX; split <;> rfl
@[simp] theorem Core.setX_padm (k : Core) (r : XReg) (v : X64) : (k.setX r v).padm = k.padm := by unfold Core.setX; split <;> rfl
@[simp] theorem Core.setX_ftbase (k : Core) (r : XReg) (v : X64) : (k.setX r v).ftbase = k.ftbase := by unfold Core.setX; split <;> rfl
@[simp] theorem Core.setX_savebase (k : Core) (r : XReg) (v : X64) : (k.setX r v).savebase = k.savebase := by unfold Core.setX; split <;> rfl
@[simp] theorem Core.setX_hs (k : Core) (r : XReg) (v : X64) : (k.setX r v).hs = k.hs := by unfold Core.setX; split <;> rfl
@[simp] theorem Core.setX_ls (k : Core) (r : XReg) (v : X64) : (k.setX r v).ls = k.ls := by unfold Core.setX; split <;> rfl
@[simp] theorem Core.setX_ss (k : Core) (r : XReg) (v : X64) : (k.setX r v).ss = k.ss := by unfold Core.setX; split <;> rfl
@[simp] theorem Core.setX_vs (k : Core) (r : XReg) (v : X64) : (k.setX r v).vs = k.vs := by unfold Core.setX; split <;> rfl
@[simp] theorem Core.setX_ms (k : Core) (r : XReg) (v : X64) : (k.setX r v).ms = k.ms := by unfold Core.setX; split <;> rfl
@[simp] theorem Core.setX_pend (k : Core) (r : XReg) (v : X64) : (k.setX r v).pend = k.pend := by unfold Core.setX; split <;> rfl
@[simp] theorem Core.setX_progress (k : Core) (r : XReg) (v : X64) : (k.setX r v).progress = k.progress := by unfold Core.setX; split <;> rfl
@[simp] theorem Core.setX_depths (k : Core) (r : XReg) (v : X64) : (k.setX r v).depths = k.depths := by unfold Core.setX; split <;> rfl
@[simp] theorem Core.setX_vq (k : Core) (r : XReg) (v : X64) : (k.setX r v).vq = k.vq := by unfold Core.setX; split <;> rfl
@[simp] theorem Core.setX_heads (k : Core) (r : XReg) (v : X64) : (k.setX r v).heads = k.heads := by unfold Core.setX; split <;> rfl
@[simp] theorem Core.setX_sr (k : Core) (r : XReg) (v : X64) : (k.setX r v).sr = k.sr := by unfold Core.setX; split <;> rfl
@[simp] theorem Core.setX_binds (k : Core) (r : XReg) (v : X64) : (k.setX r v).binds = k.binds := by unfold Core.setX; split <;> rfl
@[simp] theorem Core.setX_k (k : Core) (r : XReg) (v : X64) : (k.setX r v).k = k.k := by unfold Core.setX; split <;> rfl
@[simp] theorem Core.setX_mask (k : Core) (r : XReg) (v : X64) : (k.setX r v).mask = k.mask := by unfold Core.setX; split <;> rfl
@[simp] theorem Core.setX_drowsy (k : Core) (r : XReg) (v : X64) : (k.setX r v).drowsy = k.drowsy := by unfold Core.setX; split <;> rfl
@[simp] theorem Core.setX_tiles (k : Core) (r : XReg) (v : X64) : (k.setX r v).tiles = k.tiles := by unfold Core.setX; split <;> rfl
@[simp] theorem Core.setX_mx (k : Core) (r : XReg) (v : X64) : (k.setX r v).mx = k.mx := by unfold Core.setX; split <;> rfl
@[simp] theorem Core.setX_minCls (k : Core) (r : XReg) (v : X64) : (k.setX r v).minCls = k.minCls := by unfold Core.setX; split <;> rfl
@[simp] theorem Core.setX_ftSnap (k : Core) (r : XReg) (v : X64) : (k.setX r v).ftSnap = k.ftSnap := by unfold Core.setX; split <;> rfl
@[simp] theorem Core.setX_fos (k : Core) (r : XReg) (v : X64) : (k.setX r v).fos = k.fos := by unfold Core.setX; split <;> rfl
@[simp] theorem Core.setX_foa (k : Core) (r : XReg) (v : X64) : (k.setX r v).foa = k.foa := by unfold Core.setX; split <;> rfl
@[simp] theorem Core.setX_foc (k : Core) (r : XReg) (v : X64) : (k.setX r v).foc = k.foc := by unfold Core.setX; split <;> rfl
@[simp] theorem Core.setX_passOver (k : Core) (r : XReg) (v : X64) : (k.setX r v).passOver = k.passOver := by unfold Core.setX; split <;> rfl
@[simp] theorem Core.setX_passFo (k : Core) (r : XReg) (v : X64) : (k.setX r v).passFo = k.passFo := by unfold Core.setX; split <;> rfl
@[simp] theorem Core.setX_offers (k : Core) (r : XReg) (v : X64) : (k.setX r v).offers = k.offers := by unfold Core.setX; split <;> rfl
@[simp] theorem Core.setX_inFlight (k : Core) (r : XReg) (v : X64) : (k.setX r v).inFlight = k.inFlight := by unfold Core.setX; split <;> rfl
@[simp] theorem Core.setX_cqs (k : Core) (r : XReg) (v : X64) : (k.setX r v).cqs = k.cqs := by unfold Core.setX; split <;> rfl
@[simp] theorem Core.setX_fab (k : Core) (r : XReg) (v : X64) : (k.setX r v).fab = k.fab := by unfold Core.setX; split <;> rfl
@[simp] theorem Core.setX_filled (k : Core) (r : XReg) (v : X64) : (k.setX r v).filled = k.filled := by unfold Core.setX; split <;> rfl
@[simp] theorem Core.setX_absent (k : Core) (r : XReg) (v : X64) : (k.setX r v).absent = k.absent := by unfold Core.setX; split <;> rfl
@[simp] theorem Core.setX_fillFrom (k : Core) (r : XReg) (v : X64) : (k.setX r v).fillFrom = k.fillFrom := by unfold Core.setX; split <;> rfl
@[simp] theorem Core.setX_forked (k : Core) (r : XReg) (v : X64) : (k.setX r v).forked = k.forked := by unfold Core.setX; split <;> rfl
@[simp] theorem Core.setX_dropped (k : Core) (r : XReg) (v : X64) : (k.setX r v).dropped = k.dropped := by unfold Core.setX; split <;> rfl
@[simp] theorem Core.setX_touched (k : Core) (r : XReg) (v : X64) : (k.setX r v).touched = k.touched := by unfold Core.setX; split <;> rfl
@[simp] theorem Core.setX_ecc (k : Core) (r : XReg) (v : X64) : (k.setX r v).ecc = k.ecc := by unfold Core.setX; split <;> rfl
@[simp] theorem Core.setX_veil (k : Core) (r : XReg) (v : X64) : (k.setX r v).veil = k.veil := by unfold Core.setX; split <;> rfl
@[simp] theorem Core.setX_detEpoch (k : Core) (r : XReg) (v : X64) : (k.setX r v).detEpoch = k.detEpoch := by unfold Core.setX; split <;> rfl
@[simp] theorem Core.setX_numGen (k : Core) (r : XReg) (v : X64) : (k.setX r v).numGen = k.numGen := by unfold Core.setX; split <;> rfl
@[simp] theorem Core.setX_fenced (k : Core) (r : XReg) (v : X64) : (k.setX r v).fenced = k.fenced := by unfold Core.setX; split <;> rfl

@[simp] theorem Core.setC_hrun (k : Core) (r : CReg) (v : Bool) : (k.setC r v).hrun = k.hrun := by unfold Core.setC; split <;> rfl
@[simp] theorem Core.setC_haltLine (k : Core) (r : CReg) (v : Bool) : (k.setC r v).haltLine = k.haltLine := by unfold Core.setC; split <;> rfl
@[simp] theorem Core.setC_task (k : Core) (r : CReg) (v : Bool) : (k.setC r v).task = k.task := by unfold Core.setC; split <;> rfl
@[simp] theorem Core.setC_x (k : Core) (r : CReg) (v : Bool) : (k.setC r v).x = k.x := by unfold Core.setC; split <;> rfl
@[simp] theorem Core.setC_slates (k : Core) (r : CReg) (v : Bool) : (k.setC r v).slates = k.slates := by unfold Core.setC; split <;> rfl
@[simp] theorem Core.setC_h (k : Core) (r : CReg) (v : Bool) : (k.setC r v).h = k.h := by unfold Core.setC; split <;> rfl
@[simp] theorem Core.setC_status (k : Core) (r : CReg) (v : Bool) : (k.setC r v).status = k.status := by unfold Core.setC; split <;> rfl
@[simp] theorem Core.setC_cause (k : Core) (r : CReg) (v : Bool) : (k.setC r v).cause = k.cause := by unfold Core.setC; split <;> rfl
@[simp] theorem Core.setC_epc (k : Core) (r : CReg) (v : Bool) : (k.setC r v).epc = k.epc := by unfold Core.setC; split <;> rfl
@[simp] theorem Core.setC_etval (k : Core) (r : CReg) (v : Bool) : (k.setC r v).etval = k.etval := by unfold Core.setC; split <;> rfl
@[simp] theorem Core.setC_tvec (k : Core) (r : CReg) (v : Bool) : (k.setC r v).tvec = k.tvec := by unfold Core.setC; split <;> rfl
@[simp] theorem Core.setC_world (k : Core) (r : CReg) (v : Bool) : (k.setC r v).world = k.world := by unfold Core.setC; split <;> rfl
@[simp] theorem Core.setC_gang (k : Core) (r : CReg) (v : Bool) : (k.setC r v).gang = k.gang := by unfold Core.setC; split <;> rfl
@[simp] theorem Core.setC_cycle0 (k : Core) (r : CReg) (v : Bool) : (k.setC r v).cycle0 = k.cycle0 := by unfold Core.setC; split <;> rfl
@[simp] theorem Core.setC_qmapbase (k : Core) (r : CReg) (v : Bool) : (k.setC r v).qmapbase = k.qmapbase := by unfold Core.setC; split <;> rfl
@[simp] theorem Core.setC_padm (k : Core) (r : CReg) (v : Bool) : (k.setC r v).padm = k.padm := by unfold Core.setC; split <;> rfl
@[simp] theorem Core.setC_ftbase (k : Core) (r : CReg) (v : Bool) : (k.setC r v).ftbase = k.ftbase := by unfold Core.setC; split <;> rfl
@[simp] theorem Core.setC_savebase (k : Core) (r : CReg) (v : Bool) : (k.setC r v).savebase = k.savebase := by unfold Core.setC; split <;> rfl
@[simp] theorem Core.setC_hs (k : Core) (r : CReg) (v : Bool) : (k.setC r v).hs = k.hs := by unfold Core.setC; split <;> rfl
@[simp] theorem Core.setC_ls (k : Core) (r : CReg) (v : Bool) : (k.setC r v).ls = k.ls := by unfold Core.setC; split <;> rfl
@[simp] theorem Core.setC_ss (k : Core) (r : CReg) (v : Bool) : (k.setC r v).ss = k.ss := by unfold Core.setC; split <;> rfl
@[simp] theorem Core.setC_vs (k : Core) (r : CReg) (v : Bool) : (k.setC r v).vs = k.vs := by unfold Core.setC; split <;> rfl
@[simp] theorem Core.setC_ms (k : Core) (r : CReg) (v : Bool) : (k.setC r v).ms = k.ms := by unfold Core.setC; split <;> rfl
@[simp] theorem Core.setC_pend (k : Core) (r : CReg) (v : Bool) : (k.setC r v).pend = k.pend := by unfold Core.setC; split <;> rfl
@[simp] theorem Core.setC_progress (k : Core) (r : CReg) (v : Bool) : (k.setC r v).progress = k.progress := by unfold Core.setC; split <;> rfl
@[simp] theorem Core.setC_depths (k : Core) (r : CReg) (v : Bool) : (k.setC r v).depths = k.depths := by unfold Core.setC; split <;> rfl
@[simp] theorem Core.setC_vq (k : Core) (r : CReg) (v : Bool) : (k.setC r v).vq = k.vq := by unfold Core.setC; split <;> rfl
@[simp] theorem Core.setC_heads (k : Core) (r : CReg) (v : Bool) : (k.setC r v).heads = k.heads := by unfold Core.setC; split <;> rfl
@[simp] theorem Core.setC_sr (k : Core) (r : CReg) (v : Bool) : (k.setC r v).sr = k.sr := by unfold Core.setC; split <;> rfl
@[simp] theorem Core.setC_binds (k : Core) (r : CReg) (v : Bool) : (k.setC r v).binds = k.binds := by unfold Core.setC; split <;> rfl
@[simp] theorem Core.setC_k (k : Core) (r : CReg) (v : Bool) : (k.setC r v).k = k.k := by unfold Core.setC; split <;> rfl
@[simp] theorem Core.setC_mask (k : Core) (r : CReg) (v : Bool) : (k.setC r v).mask = k.mask := by unfold Core.setC; split <;> rfl
@[simp] theorem Core.setC_drowsy (k : Core) (r : CReg) (v : Bool) : (k.setC r v).drowsy = k.drowsy := by unfold Core.setC; split <;> rfl
@[simp] theorem Core.setC_tiles (k : Core) (r : CReg) (v : Bool) : (k.setC r v).tiles = k.tiles := by unfold Core.setC; split <;> rfl
@[simp] theorem Core.setC_mx (k : Core) (r : CReg) (v : Bool) : (k.setC r v).mx = k.mx := by unfold Core.setC; split <;> rfl
@[simp] theorem Core.setC_minCls (k : Core) (r : CReg) (v : Bool) : (k.setC r v).minCls = k.minCls := by unfold Core.setC; split <;> rfl
@[simp] theorem Core.setC_ftSnap (k : Core) (r : CReg) (v : Bool) : (k.setC r v).ftSnap = k.ftSnap := by unfold Core.setC; split <;> rfl
@[simp] theorem Core.setC_fos (k : Core) (r : CReg) (v : Bool) : (k.setC r v).fos = k.fos := by unfold Core.setC; split <;> rfl
@[simp] theorem Core.setC_foa (k : Core) (r : CReg) (v : Bool) : (k.setC r v).foa = k.foa := by unfold Core.setC; split <;> rfl
@[simp] theorem Core.setC_foc (k : Core) (r : CReg) (v : Bool) : (k.setC r v).foc = k.foc := by unfold Core.setC; split <;> rfl
@[simp] theorem Core.setC_passOver (k : Core) (r : CReg) (v : Bool) : (k.setC r v).passOver = k.passOver := by unfold Core.setC; split <;> rfl
@[simp] theorem Core.setC_passFo (k : Core) (r : CReg) (v : Bool) : (k.setC r v).passFo = k.passFo := by unfold Core.setC; split <;> rfl
@[simp] theorem Core.setC_offers (k : Core) (r : CReg) (v : Bool) : (k.setC r v).offers = k.offers := by unfold Core.setC; split <;> rfl
@[simp] theorem Core.setC_inFlight (k : Core) (r : CReg) (v : Bool) : (k.setC r v).inFlight = k.inFlight := by unfold Core.setC; split <;> rfl
@[simp] theorem Core.setC_cqs (k : Core) (r : CReg) (v : Bool) : (k.setC r v).cqs = k.cqs := by unfold Core.setC; split <;> rfl
@[simp] theorem Core.setC_fab (k : Core) (r : CReg) (v : Bool) : (k.setC r v).fab = k.fab := by unfold Core.setC; split <;> rfl
@[simp] theorem Core.setC_filled (k : Core) (r : CReg) (v : Bool) : (k.setC r v).filled = k.filled := by unfold Core.setC; split <;> rfl
@[simp] theorem Core.setC_absent (k : Core) (r : CReg) (v : Bool) : (k.setC r v).absent = k.absent := by unfold Core.setC; split <;> rfl
@[simp] theorem Core.setC_fillFrom (k : Core) (r : CReg) (v : Bool) : (k.setC r v).fillFrom = k.fillFrom := by unfold Core.setC; split <;> rfl
@[simp] theorem Core.setC_forked (k : Core) (r : CReg) (v : Bool) : (k.setC r v).forked = k.forked := by unfold Core.setC; split <;> rfl
@[simp] theorem Core.setC_dropped (k : Core) (r : CReg) (v : Bool) : (k.setC r v).dropped = k.dropped := by unfold Core.setC; split <;> rfl
@[simp] theorem Core.setC_touched (k : Core) (r : CReg) (v : Bool) : (k.setC r v).touched = k.touched := by unfold Core.setC; split <;> rfl
@[simp] theorem Core.setC_ecc (k : Core) (r : CReg) (v : Bool) : (k.setC r v).ecc = k.ecc := by unfold Core.setC; split <;> rfl
@[simp] theorem Core.setC_veil (k : Core) (r : CReg) (v : Bool) : (k.setC r v).veil = k.veil := by unfold Core.setC; split <;> rfl
@[simp] theorem Core.setC_detEpoch (k : Core) (r : CReg) (v : Bool) : (k.setC r v).detEpoch = k.detEpoch := by unfold Core.setC; split <;> rfl
@[simp] theorem Core.setC_numGen (k : Core) (r : CReg) (v : Bool) : (k.setC r v).numGen = k.numGen := by unfold Core.setC; split <;> rfl
@[simp] theorem Core.setC_fenced (k : Core) (r : CReg) (v : Bool) : (k.setC r v).fenced = k.fenced := by unfold Core.setC; split <;> rfl

@[simp] theorem Core.setH_hrun (k : Core) (r : HReg) (v : Handle) : (k.setH r v).hrun = k.hrun := rfl
@[simp] theorem Core.setH_haltLine (k : Core) (r : HReg) (v : Handle) : (k.setH r v).haltLine = k.haltLine := rfl
@[simp] theorem Core.setH_task (k : Core) (r : HReg) (v : Handle) : (k.setH r v).task = k.task := rfl
@[simp] theorem Core.setH_x (k : Core) (r : HReg) (v : Handle) : (k.setH r v).x = k.x := rfl
@[simp] theorem Core.setH_c (k : Core) (r : HReg) (v : Handle) : (k.setH r v).c = k.c := rfl
@[simp] theorem Core.setH_slates (k : Core) (r : HReg) (v : Handle) : (k.setH r v).slates = k.slates := rfl
@[simp] theorem Core.setH_status (k : Core) (r : HReg) (v : Handle) : (k.setH r v).status = k.status := rfl
@[simp] theorem Core.setH_cause (k : Core) (r : HReg) (v : Handle) : (k.setH r v).cause = k.cause := rfl
@[simp] theorem Core.setH_epc (k : Core) (r : HReg) (v : Handle) : (k.setH r v).epc = k.epc := rfl
@[simp] theorem Core.setH_etval (k : Core) (r : HReg) (v : Handle) : (k.setH r v).etval = k.etval := rfl
@[simp] theorem Core.setH_tvec (k : Core) (r : HReg) (v : Handle) : (k.setH r v).tvec = k.tvec := rfl
@[simp] theorem Core.setH_world (k : Core) (r : HReg) (v : Handle) : (k.setH r v).world = k.world := rfl
@[simp] theorem Core.setH_gang (k : Core) (r : HReg) (v : Handle) : (k.setH r v).gang = k.gang := rfl
@[simp] theorem Core.setH_cycle0 (k : Core) (r : HReg) (v : Handle) : (k.setH r v).cycle0 = k.cycle0 := rfl
@[simp] theorem Core.setH_qmapbase (k : Core) (r : HReg) (v : Handle) : (k.setH r v).qmapbase = k.qmapbase := rfl
@[simp] theorem Core.setH_padm (k : Core) (r : HReg) (v : Handle) : (k.setH r v).padm = k.padm := rfl
@[simp] theorem Core.setH_ftbase (k : Core) (r : HReg) (v : Handle) : (k.setH r v).ftbase = k.ftbase := rfl
@[simp] theorem Core.setH_savebase (k : Core) (r : HReg) (v : Handle) : (k.setH r v).savebase = k.savebase := rfl
@[simp] theorem Core.setH_hs (k : Core) (r : HReg) (v : Handle) : (k.setH r v).hs = k.hs := rfl
@[simp] theorem Core.setH_ls (k : Core) (r : HReg) (v : Handle) : (k.setH r v).ls = k.ls := rfl
@[simp] theorem Core.setH_ss (k : Core) (r : HReg) (v : Handle) : (k.setH r v).ss = k.ss := rfl
@[simp] theorem Core.setH_vs (k : Core) (r : HReg) (v : Handle) : (k.setH r v).vs = k.vs := rfl
@[simp] theorem Core.setH_ms (k : Core) (r : HReg) (v : Handle) : (k.setH r v).ms = k.ms := rfl
@[simp] theorem Core.setH_pend (k : Core) (r : HReg) (v : Handle) : (k.setH r v).pend = k.pend := rfl
@[simp] theorem Core.setH_progress (k : Core) (r : HReg) (v : Handle) : (k.setH r v).progress = k.progress := rfl
@[simp] theorem Core.setH_depths (k : Core) (r : HReg) (v : Handle) : (k.setH r v).depths = k.depths := rfl
@[simp] theorem Core.setH_vq (k : Core) (r : HReg) (v : Handle) : (k.setH r v).vq = k.vq := rfl
@[simp] theorem Core.setH_heads (k : Core) (r : HReg) (v : Handle) : (k.setH r v).heads = k.heads := rfl
@[simp] theorem Core.setH_sr (k : Core) (r : HReg) (v : Handle) : (k.setH r v).sr = k.sr := rfl
@[simp] theorem Core.setH_binds (k : Core) (r : HReg) (v : Handle) : (k.setH r v).binds = k.binds := rfl
@[simp] theorem Core.setH_k (k : Core) (r : HReg) (v : Handle) : (k.setH r v).k = k.k := rfl
@[simp] theorem Core.setH_mask (k : Core) (r : HReg) (v : Handle) : (k.setH r v).mask = k.mask := rfl
@[simp] theorem Core.setH_drowsy (k : Core) (r : HReg) (v : Handle) : (k.setH r v).drowsy = k.drowsy := rfl
@[simp] theorem Core.setH_tiles (k : Core) (r : HReg) (v : Handle) : (k.setH r v).tiles = k.tiles := rfl
@[simp] theorem Core.setH_mx (k : Core) (r : HReg) (v : Handle) : (k.setH r v).mx = k.mx := rfl
@[simp] theorem Core.setH_minCls (k : Core) (r : HReg) (v : Handle) : (k.setH r v).minCls = k.minCls := rfl
@[simp] theorem Core.setH_ftSnap (k : Core) (r : HReg) (v : Handle) : (k.setH r v).ftSnap = k.ftSnap := rfl
@[simp] theorem Core.setH_fos (k : Core) (r : HReg) (v : Handle) : (k.setH r v).fos = k.fos := rfl
@[simp] theorem Core.setH_foa (k : Core) (r : HReg) (v : Handle) : (k.setH r v).foa = k.foa := rfl
@[simp] theorem Core.setH_foc (k : Core) (r : HReg) (v : Handle) : (k.setH r v).foc = k.foc := rfl
@[simp] theorem Core.setH_passOver (k : Core) (r : HReg) (v : Handle) : (k.setH r v).passOver = k.passOver := rfl
@[simp] theorem Core.setH_passFo (k : Core) (r : HReg) (v : Handle) : (k.setH r v).passFo = k.passFo := rfl
@[simp] theorem Core.setH_offers (k : Core) (r : HReg) (v : Handle) : (k.setH r v).offers = k.offers := rfl
@[simp] theorem Core.setH_inFlight (k : Core) (r : HReg) (v : Handle) : (k.setH r v).inFlight = k.inFlight := rfl
@[simp] theorem Core.setH_cqs (k : Core) (r : HReg) (v : Handle) : (k.setH r v).cqs = k.cqs := rfl
@[simp] theorem Core.setH_fab (k : Core) (r : HReg) (v : Handle) : (k.setH r v).fab = k.fab := rfl
@[simp] theorem Core.setH_filled (k : Core) (r : HReg) (v : Handle) : (k.setH r v).filled = k.filled := rfl
@[simp] theorem Core.setH_absent (k : Core) (r : HReg) (v : Handle) : (k.setH r v).absent = k.absent := rfl
@[simp] theorem Core.setH_fillFrom (k : Core) (r : HReg) (v : Handle) : (k.setH r v).fillFrom = k.fillFrom := rfl
@[simp] theorem Core.setH_forked (k : Core) (r : HReg) (v : Handle) : (k.setH r v).forked = k.forked := rfl
@[simp] theorem Core.setH_dropped (k : Core) (r : HReg) (v : Handle) : (k.setH r v).dropped = k.dropped := rfl
@[simp] theorem Core.setH_touched (k : Core) (r : HReg) (v : Handle) : (k.setH r v).touched = k.touched := rfl
@[simp] theorem Core.setH_ecc (k : Core) (r : HReg) (v : Handle) : (k.setH r v).ecc = k.ecc := rfl
@[simp] theorem Core.setH_veil (k : Core) (r : HReg) (v : Handle) : (k.setH r v).veil = k.veil := rfl
@[simp] theorem Core.setH_detEpoch (k : Core) (r : HReg) (v : Handle) : (k.setH r v).detEpoch = k.detEpoch := rfl
@[simp] theorem Core.setH_numGen (k : Core) (r : HReg) (v : Handle) : (k.setH r v).numGen = k.numGen := rfl
@[simp] theorem Core.setH_fenced (k : Core) (r : HReg) (v : Handle) : (k.setH r v).fenced = k.fenced := rfl

@[simp] theorem Core.setSlate_hrun (k : Core) (b : BReg) (v : Slate) : (k.setSlate b v).hrun = k.hrun := rfl
@[simp] theorem Core.setSlate_haltLine (k : Core) (b : BReg) (v : Slate) : (k.setSlate b v).haltLine = k.haltLine := rfl
@[simp] theorem Core.setSlate_task (k : Core) (b : BReg) (v : Slate) : (k.setSlate b v).task = k.task := rfl
@[simp] theorem Core.setSlate_x (k : Core) (b : BReg) (v : Slate) : (k.setSlate b v).x = k.x := rfl
@[simp] theorem Core.setSlate_c (k : Core) (b : BReg) (v : Slate) : (k.setSlate b v).c = k.c := rfl
@[simp] theorem Core.setSlate_h (k : Core) (b : BReg) (v : Slate) : (k.setSlate b v).h = k.h := rfl
@[simp] theorem Core.setSlate_status (k : Core) (b : BReg) (v : Slate) : (k.setSlate b v).status = k.status := rfl
@[simp] theorem Core.setSlate_cause (k : Core) (b : BReg) (v : Slate) : (k.setSlate b v).cause = k.cause := rfl
@[simp] theorem Core.setSlate_epc (k : Core) (b : BReg) (v : Slate) : (k.setSlate b v).epc = k.epc := rfl
@[simp] theorem Core.setSlate_etval (k : Core) (b : BReg) (v : Slate) : (k.setSlate b v).etval = k.etval := rfl
@[simp] theorem Core.setSlate_tvec (k : Core) (b : BReg) (v : Slate) : (k.setSlate b v).tvec = k.tvec := rfl
@[simp] theorem Core.setSlate_world (k : Core) (b : BReg) (v : Slate) : (k.setSlate b v).world = k.world := rfl
@[simp] theorem Core.setSlate_gang (k : Core) (b : BReg) (v : Slate) : (k.setSlate b v).gang = k.gang := rfl
@[simp] theorem Core.setSlate_cycle0 (k : Core) (b : BReg) (v : Slate) : (k.setSlate b v).cycle0 = k.cycle0 := rfl
@[simp] theorem Core.setSlate_qmapbase (k : Core) (b : BReg) (v : Slate) : (k.setSlate b v).qmapbase = k.qmapbase := rfl
@[simp] theorem Core.setSlate_padm (k : Core) (b : BReg) (v : Slate) : (k.setSlate b v).padm = k.padm := rfl
@[simp] theorem Core.setSlate_ftbase (k : Core) (b : BReg) (v : Slate) : (k.setSlate b v).ftbase = k.ftbase := rfl
@[simp] theorem Core.setSlate_savebase (k : Core) (b : BReg) (v : Slate) : (k.setSlate b v).savebase = k.savebase := rfl
@[simp] theorem Core.setSlate_hs (k : Core) (b : BReg) (v : Slate) : (k.setSlate b v).hs = k.hs := rfl
@[simp] theorem Core.setSlate_ls (k : Core) (b : BReg) (v : Slate) : (k.setSlate b v).ls = k.ls := rfl
@[simp] theorem Core.setSlate_ss (k : Core) (b : BReg) (v : Slate) : (k.setSlate b v).ss = k.ss := rfl
@[simp] theorem Core.setSlate_vs (k : Core) (b : BReg) (v : Slate) : (k.setSlate b v).vs = k.vs := rfl
@[simp] theorem Core.setSlate_ms (k : Core) (b : BReg) (v : Slate) : (k.setSlate b v).ms = k.ms := rfl
@[simp] theorem Core.setSlate_pend (k : Core) (b : BReg) (v : Slate) : (k.setSlate b v).pend = k.pend := rfl
@[simp] theorem Core.setSlate_progress (k : Core) (b : BReg) (v : Slate) : (k.setSlate b v).progress = k.progress := rfl
@[simp] theorem Core.setSlate_depths (k : Core) (b : BReg) (v : Slate) : (k.setSlate b v).depths = k.depths := rfl
@[simp] theorem Core.setSlate_vq (k : Core) (b : BReg) (v : Slate) : (k.setSlate b v).vq = k.vq := rfl
@[simp] theorem Core.setSlate_heads (k : Core) (b : BReg) (v : Slate) : (k.setSlate b v).heads = k.heads := rfl
@[simp] theorem Core.setSlate_sr (k : Core) (b : BReg) (v : Slate) : (k.setSlate b v).sr = k.sr := rfl
@[simp] theorem Core.setSlate_binds (k : Core) (b : BReg) (v : Slate) : (k.setSlate b v).binds = k.binds := rfl
@[simp] theorem Core.setSlate_k (k : Core) (b : BReg) (v : Slate) : (k.setSlate b v).k = k.k := rfl
@[simp] theorem Core.setSlate_mask (k : Core) (b : BReg) (v : Slate) : (k.setSlate b v).mask = k.mask := rfl
@[simp] theorem Core.setSlate_drowsy (k : Core) (b : BReg) (v : Slate) : (k.setSlate b v).drowsy = k.drowsy := rfl
@[simp] theorem Core.setSlate_tiles (k : Core) (b : BReg) (v : Slate) : (k.setSlate b v).tiles = k.tiles := rfl
@[simp] theorem Core.setSlate_mx (k : Core) (b : BReg) (v : Slate) : (k.setSlate b v).mx = k.mx := rfl
@[simp] theorem Core.setSlate_minCls (k : Core) (b : BReg) (v : Slate) : (k.setSlate b v).minCls = k.minCls := rfl
@[simp] theorem Core.setSlate_ftSnap (k : Core) (b : BReg) (v : Slate) : (k.setSlate b v).ftSnap = k.ftSnap := rfl
@[simp] theorem Core.setSlate_fos (k : Core) (b : BReg) (v : Slate) : (k.setSlate b v).fos = k.fos := rfl
@[simp] theorem Core.setSlate_foa (k : Core) (b : BReg) (v : Slate) : (k.setSlate b v).foa = k.foa := rfl
@[simp] theorem Core.setSlate_foc (k : Core) (b : BReg) (v : Slate) : (k.setSlate b v).foc = k.foc := rfl
@[simp] theorem Core.setSlate_passOver (k : Core) (b : BReg) (v : Slate) : (k.setSlate b v).passOver = k.passOver := rfl
@[simp] theorem Core.setSlate_passFo (k : Core) (b : BReg) (v : Slate) : (k.setSlate b v).passFo = k.passFo := rfl
@[simp] theorem Core.setSlate_offers (k : Core) (b : BReg) (v : Slate) : (k.setSlate b v).offers = k.offers := rfl
@[simp] theorem Core.setSlate_inFlight (k : Core) (b : BReg) (v : Slate) : (k.setSlate b v).inFlight = k.inFlight := rfl
@[simp] theorem Core.setSlate_cqs (k : Core) (b : BReg) (v : Slate) : (k.setSlate b v).cqs = k.cqs := rfl
@[simp] theorem Core.setSlate_fab (k : Core) (b : BReg) (v : Slate) : (k.setSlate b v).fab = k.fab := rfl
@[simp] theorem Core.setSlate_filled (k : Core) (b : BReg) (v : Slate) : (k.setSlate b v).filled = k.filled := rfl
@[simp] theorem Core.setSlate_absent (k : Core) (b : BReg) (v : Slate) : (k.setSlate b v).absent = k.absent := rfl
@[simp] theorem Core.setSlate_fillFrom (k : Core) (b : BReg) (v : Slate) : (k.setSlate b v).fillFrom = k.fillFrom := rfl
@[simp] theorem Core.setSlate_forked (k : Core) (b : BReg) (v : Slate) : (k.setSlate b v).forked = k.forked := rfl
@[simp] theorem Core.setSlate_dropped (k : Core) (b : BReg) (v : Slate) : (k.setSlate b v).dropped = k.dropped := rfl
@[simp] theorem Core.setSlate_touched (k : Core) (b : BReg) (v : Slate) : (k.setSlate b v).touched = k.touched := rfl
@[simp] theorem Core.setSlate_ecc (k : Core) (b : BReg) (v : Slate) : (k.setSlate b v).ecc = k.ecc := rfl
@[simp] theorem Core.setSlate_veil (k : Core) (b : BReg) (v : Slate) : (k.setSlate b v).veil = k.veil := rfl
@[simp] theorem Core.setSlate_detEpoch (k : Core) (b : BReg) (v : Slate) : (k.setSlate b v).detEpoch = k.detEpoch := rfl
@[simp] theorem Core.setSlate_numGen (k : Core) (b : BReg) (v : Slate) : (k.setSlate b v).numGen = k.numGen := rfl
@[simp] theorem Core.setSlate_fenced (k : Core) (b : BReg) (v : Slate) : (k.setSlate b v).fenced = k.fenced := rfl

/-! setStrm -/

@[simp] theorem Core.setStrm_hrun (k : Core) (st : Stream) (v : StreamSt) : (k.setStrm st v).hrun = k.hrun := by cases st <;> rfl
@[simp] theorem Core.setStrm_haltLine (k : Core) (st : Stream) (v : StreamSt) : (k.setStrm st v).haltLine = k.haltLine := by cases st <;> rfl
@[simp] theorem Core.setStrm_task (k : Core) (st : Stream) (v : StreamSt) : (k.setStrm st v).task = k.task := by cases st <;> rfl
@[simp] theorem Core.setStrm_x (k : Core) (st : Stream) (v : StreamSt) : (k.setStrm st v).x = k.x := by cases st <;> rfl
@[simp] theorem Core.setStrm_c (k : Core) (st : Stream) (v : StreamSt) : (k.setStrm st v).c = k.c := by cases st <;> rfl
@[simp] theorem Core.setStrm_slates (k : Core) (st : Stream) (v : StreamSt) : (k.setStrm st v).slates = k.slates := by cases st <;> rfl
@[simp] theorem Core.setStrm_h (k : Core) (st : Stream) (v : StreamSt) : (k.setStrm st v).h = k.h := by cases st <;> rfl
@[simp] theorem Core.setStrm_status (k : Core) (st : Stream) (v : StreamSt) : (k.setStrm st v).status = k.status := by cases st <;> rfl
@[simp] theorem Core.setStrm_cause (k : Core) (st : Stream) (v : StreamSt) : (k.setStrm st v).cause = k.cause := by cases st <;> rfl
@[simp] theorem Core.setStrm_epc (k : Core) (st : Stream) (v : StreamSt) : (k.setStrm st v).epc = k.epc := by cases st <;> rfl
@[simp] theorem Core.setStrm_etval (k : Core) (st : Stream) (v : StreamSt) : (k.setStrm st v).etval = k.etval := by cases st <;> rfl
@[simp] theorem Core.setStrm_tvec (k : Core) (st : Stream) (v : StreamSt) : (k.setStrm st v).tvec = k.tvec := by cases st <;> rfl
@[simp] theorem Core.setStrm_world (k : Core) (st : Stream) (v : StreamSt) : (k.setStrm st v).world = k.world := by cases st <;> rfl
@[simp] theorem Core.setStrm_gang (k : Core) (st : Stream) (v : StreamSt) : (k.setStrm st v).gang = k.gang := by cases st <;> rfl
@[simp] theorem Core.setStrm_cycle0 (k : Core) (st : Stream) (v : StreamSt) : (k.setStrm st v).cycle0 = k.cycle0 := by cases st <;> rfl
@[simp] theorem Core.setStrm_qmapbase (k : Core) (st : Stream) (v : StreamSt) : (k.setStrm st v).qmapbase = k.qmapbase := by cases st <;> rfl
@[simp] theorem Core.setStrm_padm (k : Core) (st : Stream) (v : StreamSt) : (k.setStrm st v).padm = k.padm := by cases st <;> rfl
@[simp] theorem Core.setStrm_ftbase (k : Core) (st : Stream) (v : StreamSt) : (k.setStrm st v).ftbase = k.ftbase := by cases st <;> rfl
@[simp] theorem Core.setStrm_savebase (k : Core) (st : Stream) (v : StreamSt) : (k.setStrm st v).savebase = k.savebase := by cases st <;> rfl
@[simp] theorem Core.setStrm_pend (k : Core) (st : Stream) (v : StreamSt) : (k.setStrm st v).pend = k.pend := by cases st <;> rfl
@[simp] theorem Core.setStrm_progress (k : Core) (st : Stream) (v : StreamSt) : (k.setStrm st v).progress = k.progress := by cases st <;> rfl
@[simp] theorem Core.setStrm_depths (k : Core) (st : Stream) (v : StreamSt) : (k.setStrm st v).depths = k.depths := by cases st <;> rfl
@[simp] theorem Core.setStrm_vq (k : Core) (st : Stream) (v : StreamSt) : (k.setStrm st v).vq = k.vq := by cases st <;> rfl
@[simp] theorem Core.setStrm_heads (k : Core) (st : Stream) (v : StreamSt) : (k.setStrm st v).heads = k.heads := by cases st <;> rfl
@[simp] theorem Core.setStrm_sr (k : Core) (st : Stream) (v : StreamSt) : (k.setStrm st v).sr = k.sr := by cases st <;> rfl
@[simp] theorem Core.setStrm_binds (k : Core) (st : Stream) (v : StreamSt) : (k.setStrm st v).binds = k.binds := by cases st <;> rfl
@[simp] theorem Core.setStrm_k (k : Core) (st : Stream) (v : StreamSt) : (k.setStrm st v).k = k.k := by cases st <;> rfl
@[simp] theorem Core.setStrm_mask (k : Core) (st : Stream) (v : StreamSt) : (k.setStrm st v).mask = k.mask := by cases st <;> rfl
@[simp] theorem Core.setStrm_drowsy (k : Core) (st : Stream) (v : StreamSt) : (k.setStrm st v).drowsy = k.drowsy := by cases st <;> rfl
@[simp] theorem Core.setStrm_tiles (k : Core) (st : Stream) (v : StreamSt) : (k.setStrm st v).tiles = k.tiles := by cases st <;> rfl
@[simp] theorem Core.setStrm_mx (k : Core) (st : Stream) (v : StreamSt) : (k.setStrm st v).mx = k.mx := by cases st <;> rfl
@[simp] theorem Core.setStrm_minCls (k : Core) (st : Stream) (v : StreamSt) : (k.setStrm st v).minCls = k.minCls := by cases st <;> rfl
@[simp] theorem Core.setStrm_ftSnap (k : Core) (st : Stream) (v : StreamSt) : (k.setStrm st v).ftSnap = k.ftSnap := by cases st <;> rfl
@[simp] theorem Core.setStrm_fos (k : Core) (st : Stream) (v : StreamSt) : (k.setStrm st v).fos = k.fos := by cases st <;> rfl
@[simp] theorem Core.setStrm_foa (k : Core) (st : Stream) (v : StreamSt) : (k.setStrm st v).foa = k.foa := by cases st <;> rfl
@[simp] theorem Core.setStrm_foc (k : Core) (st : Stream) (v : StreamSt) : (k.setStrm st v).foc = k.foc := by cases st <;> rfl
@[simp] theorem Core.setStrm_passOver (k : Core) (st : Stream) (v : StreamSt) : (k.setStrm st v).passOver = k.passOver := by cases st <;> rfl
@[simp] theorem Core.setStrm_passFo (k : Core) (st : Stream) (v : StreamSt) : (k.setStrm st v).passFo = k.passFo := by cases st <;> rfl
@[simp] theorem Core.setStrm_offers (k : Core) (st : Stream) (v : StreamSt) : (k.setStrm st v).offers = k.offers := by cases st <;> rfl
@[simp] theorem Core.setStrm_inFlight (k : Core) (st : Stream) (v : StreamSt) : (k.setStrm st v).inFlight = k.inFlight := by cases st <;> rfl
@[simp] theorem Core.setStrm_cqs (k : Core) (st : Stream) (v : StreamSt) : (k.setStrm st v).cqs = k.cqs := by cases st <;> rfl
@[simp] theorem Core.setStrm_fab (k : Core) (st : Stream) (v : StreamSt) : (k.setStrm st v).fab = k.fab := by cases st <;> rfl
@[simp] theorem Core.setStrm_filled (k : Core) (st : Stream) (v : StreamSt) : (k.setStrm st v).filled = k.filled := by cases st <;> rfl
@[simp] theorem Core.setStrm_absent (k : Core) (st : Stream) (v : StreamSt) : (k.setStrm st v).absent = k.absent := by cases st <;> rfl
@[simp] theorem Core.setStrm_fillFrom (k : Core) (st : Stream) (v : StreamSt) : (k.setStrm st v).fillFrom = k.fillFrom := by cases st <;> rfl
@[simp] theorem Core.setStrm_forked (k : Core) (st : Stream) (v : StreamSt) : (k.setStrm st v).forked = k.forked := by cases st <;> rfl
@[simp] theorem Core.setStrm_dropped (k : Core) (st : Stream) (v : StreamSt) : (k.setStrm st v).dropped = k.dropped := by cases st <;> rfl
@[simp] theorem Core.setStrm_touched (k : Core) (st : Stream) (v : StreamSt) : (k.setStrm st v).touched = k.touched := by cases st <;> rfl
@[simp] theorem Core.setStrm_ecc (k : Core) (st : Stream) (v : StreamSt) : (k.setStrm st v).ecc = k.ecc := by cases st <;> rfl
@[simp] theorem Core.setStrm_veil (k : Core) (st : Stream) (v : StreamSt) : (k.setStrm st v).veil = k.veil := by cases st <;> rfl
@[simp] theorem Core.setStrm_detEpoch (k : Core) (st : Stream) (v : StreamSt) : (k.setStrm st v).detEpoch = k.detEpoch := by cases st <;> rfl
@[simp] theorem Core.setStrm_numGen (k : Core) (st : Stream) (v : StreamSt) : (k.setStrm st v).numGen = k.numGen := by cases st <;> rfl
@[simp] theorem Core.setStrm_fenced (k : Core) (st : Stream) (v : StreamSt) : (k.setStrm st v).fenced = k.fenced := by cases st <;> rfl

@[simp] theorem Core.setStrm_strm (k : Core) (st : Stream) (v : StreamSt) : (k.setStrm st v).strm st = v := by cases st <;> rfl

theorem Core.setStrm_strm_ne (k : Core) {st st' : Stream} (v : StreamSt) (h : st' ≠ st) :
    (k.setStrm st v).strm st' = k.strm st' := by
  cases st <;> cases st' <;> first | rfl | exact absurd rfl h

/-! Reads after writes. -/

@[simp] theorem State.core_setCore_same (s : State) (c : Nat) (k : Core) : (s.setCore c k).core c = k := by
  simp [State.core, State.setCore, tabFind_tabSet_same]

theorem State.core_setCore_ne (s : State) {c d : Nat} (k : Core) (h : d ≠ c) : (s.setCore c k).core d = s.core d := by
  simp [State.core, State.setCore, tabFind_tabSet_ne _ _ h]

@[simp] theorem State.me_setMe (s : State) (k : Core) : (s.setMe k).me = k := State.core_setCore_same s s.cur k

@[simp] theorem State.world_setWorld_same (s : State) (w : Nat) (v : World) : (s.setWorld w v).world w = v := by
  simp [State.world, State.setWorld, tabFind_tabSet_same]

theorem State.world_setWorld_ne (s : State) {w u : Nat} (v : World) (h : u ≠ w) : (s.setWorld w v).world u = s.world u := by
  simp [State.world, State.setWorld, tabFind_tabSet_ne _ _ h]

@[simp] theorem State.berth_setBerth_same (s : State) (b : Nat) (v : Berth) : (s.setBerth b v).berth b = v := by
  simp [State.berth, State.setBerth, tabFind_tabSet_same]

theorem State.berth_setBerth_ne (s : State) {b d : Nat} (v : Berth) (h : d ≠ b) : (s.setBerth b v).berth d = s.berth d := by
  simp [State.berth, State.setBerth, tabFind_tabSet_ne _ _ h]

@[simp] theorem State.taskAt_setTask_same (s : State) (d i : Nat) (t : Task) : (s.setTask d i t).taskAt d i = t := by
  simp [State.taskAt, State.setTask, tabFind_tabSet_same]

/-! The hard-wired registers (R113). -/

@[simp] theorem Core.getX_zero (k : Core) : k.getX 0#6 = 0#64 := rfl

/-- x0 discards writes; every other register reads what was last written. -/
theorem Core.getX_setX_same (k : Core) (r : XReg) (v : X64) (h : r ≠ 0) : (k.setX r v).getX r = v := by
  unfold Core.getX Core.setX
  rw [if_neg h, if_neg h]
  simp [tabFind_tabSet_same]

theorem Core.getX_setX_ne (k : Core) {r q : XReg} (v : X64) (h : q ≠ r) : (k.setX r v).getX q = k.getX q := by
  have hn : q.toNat ≠ r.toNat := fun e => h (BitVec.eq_of_toNat_eq e)
  unfold Core.getX Core.setX
  split
  · rfl
  · split
    · rfl
    · simp [tabFind_tabSet_ne _ _ hn]

@[simp] theorem Core.setX_zero (k : Core) (v : X64) : k.setX 0#6 v = k := rfl
@[simp] theorem Core.getC_seven (k : Core) : k.getC 7#3 = true := rfl
@[simp] theorem Core.setC_seven (k : Core) (v : Bool) : k.setC 7#3 v = k := rfl

@[simp] theorem Core.getH_setH_same (k : Core) (r : HReg) (v : Handle) : (k.setH r v).getH r = v := by
  simp [Core.getH, Core.setH, tabFind_tabSet_same]

theorem Core.getH_setH_ne (k : Core) {r q : HReg} (v : Handle) (h : q ≠ r) : (k.setH r v).getH q = k.getH q := by
  have hn : q.toNat ≠ r.toNat := fun e => h (BitVec.eq_of_toNat_eq e)
  simp [Core.getH, Core.setH, tabFind_tabSet_ne _ _ hn]

end Sys2Proof.Machine
end

