-- ==== Sys2Proof/Laws/Helm.lean ====
section
/-! SUPPORT. What the frame of Helm instructions does with each result, said once (R49, R127, R129). -/
namespace Sys2Proof.Machine

@[simp] theorem State.setCore_setCore (s : State) (c : Nat) (k k' : Core) : (s.setCore c k).setCore c k' = s.setCore c k' := by
  simp [State.setCore]

@[simp] theorem State.setMe_cur (s : State) (k : Core) : (s.setMe k).cur = s.cur := rfl
@[simp] theorem State.setMe_setMe (s : State) (k k' : Core) : (s.setMe k).setMe k' = s.setMe k' :=
  State.setCore_setCore s s.cur k k'
@[simp] theorem State.setMe_now (s : State) (k : Core) : (s.setMe k).now = s.now := rfl

theorem State.modMe_eq (s : State) (f : Core → Core) : s.modMe f = s.setMe (f s.me) := rfl

/-- Retirement after the served core has become `k`. -/
theorem State.retireAt_setMe (s : State) (k : Core) (pc : BitVec 16) : (s.setMe k).retireAt pc = s.retired k pc := by
  unfold State.retireAt State.retired
  rw [State.modMe_eq, State.me_setMe, State.setMe_setMe]
  rfl

theorem State.retireAt_self (s : State) (pc : BitVec 16) : s.retireAt pc = s.retired s.me pc := rfl

/-- A guard that is false: the word retires and does nothing. -/
theorem helm_false (s : State) (c : CReg) (r : HRes) (h : s.me.getC c = false) :
    helm s c r = .next (s.retired s.me (s.me.hs.pc + 3)) := by
  simp [helm, h, State.finishHelm, State.retireAt_self]

/-- A word that retires having changed its own core alone. -/
theorem helm_retire (s : State) (c : CReg) (f : Core → Core) (h : s.me.getC c = true) :
    helm s c (.retire (s.modMe f)) = .next (s.retired (f s.me) (s.me.hs.pc + 3)) := by
  simp only [helm, h, if_true, State.finishHelm, State.modMe_eq, State.retireAt_setMe]

theorem helm_retire_self (s : State) (c : CReg) (h : s.me.getC c = true) :
    helm s c (.retire s) = .next (s.retired s.me (s.me.hs.pc + 3)) := by
  simp [helm, h, State.finishHelm, State.retireAt_self]

/-- A word that writes an x register. -/
theorem helm_retireX (s : State) (c : CReg) (xd : XReg) (v : X64) (h : s.me.getC c = true) :
    helm s c (retireX s xd v) = .next (s.retired (s.me.setX xd v) (s.me.hs.pc + 3)) :=
  helm_retire s c _ h

/-- A word that writes a c register. -/
theorem helm_retireC (s : State) (c : CReg) (cd : CReg) (v : Bool) (h : s.me.getC c = true) :
    helm s c (retireC s cd v) = .next (s.retired (s.me.setC cd v) (s.me.hs.pc + 3)) :=
  helm_retire s c _ h

/-- A word that transfers control having changed its own core alone. -/
theorem helm_jump (s : State) (c : CReg) (f : Core → Core) (pc : BitVec 16) (h : s.me.getC c = true) :
    helm s c (.jump (s.modMe f) pc) = .next (s.retired (f s.me) pc) := by
  simp only [helm, h, if_true, State.finishHelm, State.modMe_eq, State.retireAt_setMe]

/-- A word that faults. -/
theorem helm_fault (s : State) (c : CReg) (f : Flt) (h : s.me.getC c = true) :
    helm s c (.fault f) = .next (s.helmFault f) := by
  simp only [helm, h, if_true, State.finishHelm, State.helmFault]

/-- A word that waits. -/
theorem helm_stall (s s' : State) (c : CReg) (h : s.me.getC c = true) : helm s c (.stall s') = .next s' := by
  simp only [helm, h, if_true, State.finishHelm]

/-- A format C word has no guard (R49). -/
theorem helmC_eq (s : State) (r : HRes) : helmC s r = helm s 7 r := by
  simp [helmC, helm]

end Sys2Proof.Machine
end

