-- ==== Sys2Proof/Laws/PerInstr.lean ====
section
/-! SUPPORT. Which instructions have a word: every row but the events of an agent or of the outside, one lemma for each constructor. -/
namespace Sys2Proof.Laws.HasWord
open Sys2Proof Sys2Proof.Machine

/-- An instruction has an encoding exactly where it is no event of the schedule (log 1). -/
def Statement (i : Instr) : Prop := (encode i).isSome = !isEvent i

theorem add a0 a1 a2 a3 : Statement (.add a0 a1 a2 a3) := rfl
theorem addi a0 a1 a2 a3 : Statement (.addi a0 a1 a2 a3) := rfl
theorem sub a0 a1 a2 a3 : Statement (.sub a0 a1 a2 a3) := rfl
theorem mul a0 a1 a2 a3 : Statement (.mul a0 a1 a2 a3) := rfl
theorem mulh a0 a1 a2 a3 : Statement (.mulh a0 a1 a2 a3) := rfl
theorem mulhn a0 a1 a2 a3 : Statement (.mulhn a0 a1 a2 a3) := rfl
theorem div a0 a1 a2 a3 : Statement (.div a0 a1 a2 a3) := rfl
theorem divn a0 a1 a2 a3 : Statement (.divn a0 a1 a2 a3) := rfl
theorem rem a0 a1 a2 a3 : Statement (.rem a0 a1 a2 a3) := rfl
theorem remn a0 a1 a2 a3 : Statement (.remn a0 a1 a2 a3) := rfl
theorem and a0 a1 a2 a3 : Statement (.and a0 a1 a2 a3) := rfl
theorem andi a0 a1 a2 a3 : Statement (.andi a0 a1 a2 a3) := rfl
theorem or a0 a1 a2 a3 : Statement (.or a0 a1 a2 a3) := rfl
theorem ori a0 a1 a2 a3 : Statement (.ori a0 a1 a2 a3) := rfl
theorem xor a0 a1 a2 a3 : Statement (.xor a0 a1 a2 a3) := rfl
theorem xori a0 a1 a2 a3 : Statement (.xori a0 a1 a2 a3) := rfl
theorem shl a0 a1 a2 a3 : Statement (.shl a0 a1 a2 a3) := rfl
theorem shr a0 a1 a2 a3 : Statement (.shr a0 a1 a2 a3) := rfl
theorem sra a0 a1 a2 a3 : Statement (.sra a0 a1 a2 a3) := rfl
theorem min a0 a1 a2 a3 a4 : Statement (.min a0 a1 a2 a3 a4) := rfl
theorem max a0 a1 a2 a3 a4 : Statement (.max a0 a1 a2 a3 a4) := rfl
theorem clz a0 a1 a2 : Statement (.clz a0 a1 a2) := rfl
theorem movi a0 a1 a2 : Statement (.movi a0 a1 a2) := rfl
theorem cmp a0 a1 a2 a3 a4 : Statement (.cmp a0 a1 a2 a3 a4) := rfl
theorem cmpi a0 a1 a2 a3 a4 : Statement (.cmpi a0 a1 a2 a3 a4) := rfl
theorem ccomb a0 a1 a2 a3 a4 : Statement (.ccomb a0 a1 a2 a3 a4) := rfl
theorem slate a0 a1 a2 : Statement (.slate a0 a1 a2) := rfl
theorem slatex a0 a1 a2 : Statement (.slatex a0 a1 a2) := rfl
theorem cut a0 a1 : Statement (.cut a0 a1) := rfl
theorem cutl a0 a1 a2 : Statement (.cutl a0 a1 a2) := rfl
theorem bsel a0 a1 a2 a3 a4 : Statement (.bsel a0 a1 a2 a3 a4) := rfl
theorem slinv a0 a1 : Statement (.slinv a0 a1) := rfl
theorem slinvAll a0 : Statement (.slinvAll a0) := rfl
theorem ld a0 a1 a2 a3 a4 a5 a6 a7 : Statement (.ld a0 a1 a2 a3 a4 a5 a6 a7) := rfl
theorem st a0 a1 a2 a3 a4 a5 a6 a7 : Statement (.st a0 a1 a2 a3 a4 a5 a6 a7) := rfl
theorem hld a0 a1 a2 a3 a4 a5 a6 : Statement (.hld a0 a1 a2 a3 a4 a5 a6) := rfl
theorem hst a0 a1 a2 a3 a4 a5 a6 : Statement (.hst a0 a1 a2 a3 a4 a5 a6) := rfl
theorem hnarrow a0 a1 a2 a3 a4 a5 a6 : Statement (.hnarrow a0 a1 a2 a3 a4 a5 a6) := by cases a6 <;> rfl
theorem hmov a0 a1 a2 : Statement (.hmov a0 a1 a2) := rfl
theorem hget a0 a1 a2 a3 : Statement (.hget a0 a1 a2 a3) := rfl
theorem hclr a0 a1 : Statement (.hclr a0 a1) := rfl
theorem hchk a0 a1 a2 a3 a4 a5 : Statement (.hchk a0 a1 a2 a3 a4 a5) := rfl
theorem fork a0 a1 : Statement (.fork a0 a1) := rfl
theorem join a0 : Statement (.join a0) := rfl
theorem joinAbandon a0 : Statement (.joinAbandon a0) := rfl
theorem qmap a0 a1 : Statement (.qmap a0 a1) := rfl
theorem oqsend a0 a1 a2 a3 : Statement (.oqsend a0 a1 a2 a3) := rfl
theorem halt a0 : Statement (.halt a0) := rfl
theorem trap a0 a1 : Statement (.trap a0 a1) := rfl
theorem tret a0 : Statement (.tret a0) := rfl
theorem csrr a0 a1 a2 : Statement (.csrr a0 a1 a2) := rfl
theorem csrw a0 a1 a2 : Statement (.csrw a0 a1 a2) := rfl
theorem brk a0 a1 : Statement (.brk a0 a1) := rfl
theorem waiti a0 a1 : Statement (.waiti a0 a1) := rfl
theorem nop a0 : Statement (.nop a0) := rfl
theorem tld a0 a1 a2 a3 a4 : Statement (.tld a0 a1 a2 a3 a4) := rfl
theorem vld a0 a1 a2 a3 a4 : Statement (.vld a0 a1 a2 a3 a4) := rfl
theorem vlds a0 a1 a2 a3 a4 : Statement (.vlds a0 a1 a2 a3 a4) := rfl
theorem vgather a0 a1 a2 a3 a4 : Statement (.vgather a0 a1 a2 a3 a4) := rfl
theorem tfullL a0 a1 : Statement (.tfullL a0 a1) := rfl
theorem temptyL a0 a1 : Statement (.temptyL a0 a1) := rfl
theorem padapplyL a0 a1 : Statement (.padapplyL a0 a1) := rfl
theorem tst a0 a1 a2 a3 a4 a5 : Statement (.tst a0 a1 a2 a3 a4 a5) := rfl
theorem vst a0 a1 a2 a3 a4 : Statement (.vst a0 a1 a2 a3 a4) := rfl
theorem vsts a0 a1 a2 a3 a4 : Statement (.vsts a0 a1 a2 a3 a4) := rfl
theorem vscatter a0 a1 a2 a3 a4 : Statement (.vscatter a0 a1 a2 a3 a4) := rfl
theorem tfullS a0 a1 : Statement (.tfullS a0 a1) := rfl
theorem temptyS a0 a1 : Statement (.temptyS a0 a1) := rfl
theorem padapplyS a0 a1 : Statement (.padapplyS a0 a1) := rfl
theorem vadd a0 : Statement (.vadd a0) := rfl
theorem vsub a0 : Statement (.vsub a0) := rfl
theorem vmul a0 : Statement (.vmul a0) := rfl
theorem vfma a0 a1 : Statement (.vfma a0 a1) := rfl
theorem vfms a0 a1 : Statement (.vfms a0 a1) := rfl
theorem vdiv a0 : Statement (.vdiv a0) := rfl
theorem vsqrt a0 : Statement (.vsqrt a0) := rfl
theorem vrsq a0 : Statement (.vrsq a0) := rfl
theorem vrcp a0 : Statement (.vrcp a0) := rfl
theorem vmin a0 : Statement (.vmin a0) := rfl
theorem vmax a0 : Statement (.vmax a0) := rfl
theorem vabs a0 : Statement (.vabs a0) := rfl
theorem vneg a0 : Statement (.vneg a0) := rfl
theorem vexp2 a0 : Statement (.vexp2 a0) := rfl
theorem vlog2 a0 : Statement (.vlog2 a0) := rfl
theorem viadd a0 : Statement (.viadd a0) := rfl
theorem visub a0 : Statement (.visub a0) := rfl
theorem vimul a0 : Statement (.vimul a0) := rfl
theorem vimulh a0 : Statement (.vimulh a0) := rfl
theorem vand a0 : Statement (.vand a0) := rfl
theorem vor a0 : Statement (.vor a0) := rfl
theorem vxor a0 : Statement (.vxor a0) := rfl
theorem vshl a0 : Statement (.vshl a0) := rfl
theorem vshr a0 : Statement (.vshr a0) := rfl
theorem vsra a0 : Statement (.vsra a0) := rfl
theorem vimin a0 : Statement (.vimin a0) := rfl
theorem vimax a0 : Statement (.vimax a0) := rfl
theorem vcmp a0 a1 a2 a3 a4 a5 a6 : Statement (.vcmp a0 a1 a2 a3 a4 a5 a6) := rfl
theorem vsel a0 a1 : Statement (.vsel a0 a1) := rfl
theorem vcvt a0 a1 a2 a3 a4 a5 a6 a7 a8 : Statement (.vcvt a0 a1 a2 a3 a4 a5 a6 a7 a8) := rfl
theorem vscale a0 : Statement (.vscale a0) := rfl
theorem vmov a0 a1 a2 a3 a4 : Statement (.vmov a0 a1 a2 a3 a4) := rfl
theorem vperm a0 a1 a2 a3 a4 a5 : Statement (.vperm a0 a1 a2 a3 a4 a5) := rfl
theorem vslide a0 a1 a2 a3 a4 a5 a6 : Statement (.vslide a0 a1 a2 a3 a4 a5 a6) := rfl
theorem vcompress a0 a1 a2 a3 a4 : Statement (.vcompress a0 a1 a2 a3 a4) := rfl
theorem vexpand a0 a1 a2 a3 a4 : Statement (.vexpand a0 a1 a2 a3 a4) := rfl
theorem vbcast a0 a1 a2 a3 a4 a5 : Statement (.vbcast a0 a1 a2 a3 a4 a5) := rfl
theorem vindex a0 a1 a2 a3 a4 a5 a6 : Statement (.vindex a0 a1 a2 a3 a4 a5 a6) := by cases a3 <;> rfl
theorem vredsum a0 : Statement (.vredsum a0) := rfl
theorem vredmax a0 : Statement (.vredmax a0) := rfl
theorem vredmin a0 : Statement (.vredmin a0) := rfl
theorem vscansum a0 : Statement (.vscansum a0) := rfl
theorem vscanmax a0 : Statement (.vscanmax a0) := rfl
theorem kand a0 a1 a2 a3 a4 : Statement (.kand a0 a1 a2 a3 a4) := rfl
theorem kor a0 a1 a2 a3 a4 : Statement (.kor a0 a1 a2 a3 a4) := rfl
theorem kxor a0 a1 a2 a3 a4 : Statement (.kxor a0 a1 a2 a3 a4) := rfl
theorem kset a0 a1 a2 a3 : Statement (.kset a0 a1 a2 a3) := by cases a2 <;> rfl
theorem kcount a0 a1 a2 a3 : Statement (.kcount a0 a1 a2 a3) := rfl
theorem mpush a0 a1 : Statement (.mpush a0 a1) := rfl
theorem minv a0 : Statement (.minv a0) := rfl
theorem mpop a0 : Statement (.mpop a0) := rfl
theorem mldw a0 a1 a2 a3 a4 : Statement (.mldw a0 a1 a2 a3 a4) := by cases a4 <;> rfl
theorem mlds a0 a1 a2 : Statement (.mlds a0 a1 a2) := by cases a2 <;> rfl
theorem mma a0 a1 a2 a3 a4 a5 a6 a7 a8 a9 : Statement (.mma a0 a1 a2 a3 a4 a5 a6 a7 a8 a9) := rfl
theorem mmag a0 a1 a2 a3 a4 a5 a6 a7 a8 a9 : Statement (.mmag a0 a1 a2 a3 a4 a5 a6 a7 a8 a9) := rfl
theorem mzero a0 a1 a2 a3 : Statement (.mzero a0 a1 a2 a3) := rfl
theorem mrd a0 a1 a2 a3 a4 a5 : Statement (.mrd a0 a1 a2 a3 a4 a5) := rfl
theorem mwr a0 a1 a2 a3 a4 : Statement (.mwr a0 a1 a2 a3 a4) := rfl
theorem mfmt a0 a1 a2 : Statement (.mfmt a0 a1 a2) := rfl
theorem mbud a0 a1 : Statement (.mbud a0 a1) := rfl
theorem mstat a0 a1 : Statement (.mstat a0 a1) := rfl
theorem msync a0 a1 : Statement (.msync a0 a1) := by cases a1 <;> rfl
theorem loop a0 a1 : Statement (.loop a0 a1) := by cases a0 <;> rfl
theorem endloop : Statement (.endloop) := rfl
theorem skipz a0 a1 : Statement (.skipz a0 a1) := rfl
theorem skipzMask a0 : Statement (.skipzMask a0) := rfl
theorem nopStream a0 : Statement (.nopStream a0) := rfl
theorem rdv a0 a1 : Statement (.rdv a0 a1) := rfl
theorem cpy a0 a1 a2 a3 a4 a5 a6 a7 a8 : Statement (.cpy a0 a1 a2 a3 a4 a5 a6 a7 a8) := rfl
theorem cpyt a0 a1 a2 a3 a4 a5 a6 a7 a8 a9 : Statement (.cpyt a0 a1 a2 a3 a4 a5 a6 a7 a8 a9) := rfl
theorem cpymIn a0 a1 a2 a3 a4 a5 a6 a7 a8 a9 : Statement (.cpymIn a0 a1 a2 a3 a4 a5 a6 a7 a8 a9) := rfl
theorem cpymOut a0 a1 a2 a3 a4 a5 a6 a7 a8 a9 a10 : Statement (.cpymOut a0 a1 a2 a3 a4 a5 a6 a7 a8 a9 a10) := rfl
theorem cchain a0 a1 a2 a3 : Statement (.cchain a0 a1 a2 a3) := rfl
theorem qpush a0 a1 a2 : Statement (.qpush a0 a1 a2) := rfl
theorem strbind a0 a1 a2 a3 a4 a5 a6 a7 : Statement (.strbind a0 a1 a2 a3 a4 a5 a6 a7) := rfl
theorem cfill a0 a1 a2 a3 a4 a5 a6 a7 : Statement (.cfill a0 a1 a2 a3 a4 a5 a6 a7) := rfl
theorem cstat a0 a1 a2 a3 : Statement (.cstat a0 a1 a2 a3) := rfl
theorem ccancel a0 a1 : Statement (.ccancel a0 a1) := rfl
theorem ctlread a0 a1 a2 : Statement (.ctlread a0 a1 a2) := rfl
theorem swait a0 a1 : Statement (.swait a0 a1) := rfl
theorem ssig a0 a1 : Statement (.ssig a0 a1) := rfl
theorem sset a0 a1 a2 a3 : Statement (.sset a0 a1 a2 a3) := rfl
theorem barrArrive a0 a1 a2 a3 : Statement (.barrArrive a0 a1 a2 a3) := rfl
theorem barrWait a0 a1 a2 a3 : Statement (.barrWait a0 a1 a2 a3) := rfl
theorem barrInit a0 a1 a2 a3 a4 : Statement (.barrInit a0 a1 a2 a3 a4) := rfl
theorem barrReset a0 a1 a2 a3 : Statement (.barrReset a0 a1 a2 a3) := rfl
theorem bwait a0 a1 a2 a3 a4 : Statement (.bwait a0 a1 a2 a3 a4) := rfl
theorem amo a0 a1 a2 a3 a4 a5 a6 a7 a8 : Statement (.amo a0 a1 a2 a3 a4 a5 a6 a7 a8) := rfl
theorem vamo a0 a1 a2 a3 a4 a5 a6 a7 a8 a9 : Statement (.vamo a0 a1 a2 a3 a4 a5 a6 a7 a8 a9) := rfl
theorem fence a0 : Statement (.fence a0) := rfl
theorem fenceTranslation a0 a1 a2 : Statement (.fenceTranslation a0 a1 a2) := rfl
theorem tlwait a0 a1 : Statement (.tlwait a0 a1) := by cases a1 <;> rfl
theorem flwait a0 a1 a2 a3 a4 a5 : Statement (.flwait a0 a1 a2 a3 a4 a5) := rfl
theorem heapalloc a0 a1 : Statement (.heapalloc a0 a1) := rfl
theorem heapfree a0 : Statement (.heapfree a0) := rfl
theorem spawn a0 a1 a2 a3 a4 : Statement (.spawn a0 a1 a2 a3 a4) := rfl
theorem fref a0 : Statement (.fref a0) := rfl
theorem fdrop a0 : Statement (.fdrop a0) := rfl
theorem fget a0 a1 a2 : Statement (.fget a0 a1 a2) := rfl
theorem fdone a0 : Statement (.fdone a0) := rfl
theorem rpoint : Statement (.rpoint) := rfl
theorem tlaunch a0 a1 a2 a3 a4 : Statement (.tlaunch a0 a1 a2 a3 a4) := rfl
theorem tarm a0 a1 a2 a3 : Statement (.tarm a0 a1 a2 a3) := rfl
theorem tcancel a0 a1 : Statement (.tcancel a0 a1) := rfl
theorem requeue a0 a1 a2 : Statement (.requeue a0 a1 a2) := rfl
theorem yield a0 : Statement (.yield a0) := rfl
theorem gpos a0 : Statement (.gpos a0) := rfl
theorem gang a0 a1 : Statement (.gang a0 a1) := rfl
theorem tstat a0 a1 a2 : Statement (.tstat a0 a1 a2) := rfl
theorem rmst a0 a1 a2 a3 a4 a5 a6 : Statement (.rmst a0 a1 a2 a3 a4 a5 a6) := rfl
theorem rmld a0 a1 a2 a3 a4 a5 : Statement (.rmld a0 a1 a2 a3 a4 a5) := rfl
theorem rmamo a0 a1 a2 a3 a4 a5 a6 a7 a8 : Statement (.rmamo a0 a1 a2 a3 a4 a5 a6 a7 a8) := rfl
theorem mcst a0 a1 a2 a3 a4 a5 a6 : Statement (.mcst a0 a1 a2 a3 a4 a5 a6) := rfl
theorem mcld a0 a1 a2 a3 a4 a5 a6 a7 : Statement (.mcld a0 a1 a2 a3 a4 a5 a6 a7) := rfl
theorem spred a0 a1 a2 a3 a4 a5 a6 a7 a8 : Statement (.spred a0 a1 a2 a3 a4 a5 a6 a7 a8) := rfl
theorem rfence a0 : Statement (.rfence a0) := rfl
theorem gjoin a0 a1 a2 a3 : Statement (.gjoin a0 a1 a2 a3) := rfl
theorem gleave a0 : Statement (.gleave a0) := rfl
theorem linkst a0 a1 a2 : Statement (.linkst a0 a1 a2) := rfl
theorem lmint a0 a1 a2 a3 : Statement (.lmint a0 a1 a2 a3) := rfl
theorem lseal a0 a1 : Statement (.lseal a0 a1) := rfl
theorem lrevoke a0 a1 a2 a3 a4 : Statement (.lrevoke a0 a1 a2 a3 a4) := rfl
theorem lshare a0 a1 a2 a3 : Statement (.lshare a0 a1 a2 a3) := rfl
theorem lrotate a0 a1 : Statement (.lrotate a0 a1) := rfl
theorem lscrub a0 a1 : Statement (.lscrub a0 a1) := rfl
theorem lfreeze a0 a1 a2 a3 : Statement (.lfreeze a0 a1 a2 a3) := rfl
theorem lreport a0 a1 a2 a3 a4 : Statement (.lreport a0 a1 a2 a3 a4) := rfl
theorem ltrans a0 a1 a2 : Statement (.ltrans a0 a1 a2) := rfl
theorem lworldState a0 a1 : Statement (.lworldState a0 a1) := rfl
theorem lworldRoot a0 a1 : Statement (.lworldRoot a0 a1) := rfl
theorem lworldProgress a0 a1 : Statement (.lworldProgress a0 a1) := rfl
theorem lworldClock a0 a1 : Statement (.lworldClock a0 a1) := rfl
theorem lwindowExport a0 a1 a2 a3 : Statement (.lwindowExport a0 a1 a2 a3) := rfl
theorem lwindowImport a0 a1 a2 : Statement (.lwindowImport a0 a1 a2) := rfl
theorem lwindowClose a0 a1 a2 : Statement (.lwindowClose a0 a1 a2) := rfl
theorem sectionIssue a0 a1 : Statement (.sectionIssue a0 a1) := rfl
theorem hSectionHeader a0 : Statement (.hSectionHeader a0) := rfl
theorem streamEnd a0 a1 : Statement (.streamEnd a0 a1) := rfl
theorem groupUnblock a0 a1 : Statement (.groupUnblock a0 a1) := rfl
theorem stallMonitorExpiry a0 : Statement (.stallMonitorExpiry a0) := rfl
theorem takeTrap a0 : Statement (.takeTrap a0) := rfl
theorem slateFillDone a0 a1 : Statement (.slateFillDone a0 a1) := rfl
theorem codeFill a0 a1 a2 : Statement (.codeFill a0 a1 a2) := rfl
theorem sweepAgentMark a0 : Statement (.sweepAgentMark a0) := rfl
theorem copyStart a0 a1 a2 : Statement (.copyStart a0 a1 a2) := rfl
theorem copyBurst a0 a1 a2 : Statement (.copyBurst a0 a1 a2) := rfl
theorem copyComplete a0 a1 a2 : Statement (.copyComplete a0 a1 a2) := rfl
theorem streamElementDeliver a0 a1 a2 : Statement (.streamElementDeliver a0 a1 a2) := rfl
theorem chainCopy a0 a1 a2 : Statement (.chainCopy a0 a1 a2) := rfl
theorem chainLoop a0 a1 a2 : Statement (.chainLoop a0 a1 a2) := rfl
theorem chainIf a0 a1 a2 : Statement (.chainIf a0 a1 a2) := rfl
theorem chainSignal a0 a1 a2 : Statement (.chainSignal a0 a1 a2) := rfl
theorem chainMatrix a0 a1 a2 : Statement (.chainMatrix a0 a1 a2) := rfl
theorem chainEnd a0 a1 a2 : Statement (.chainEnd a0 a1 a2) := rfl
theorem followonAccept a0 a1 a2 : Statement (.followonAccept a0 a1 a2) := rfl
theorem followonTake a0 : Statement (.followonTake a0) := rfl
theorem waiterWithdraw a0 a1 : Statement (.waiterWithdraw a0 a1) := rfl
theorem taskPlace a0 a1 : Statement (.taskPlace a0 a1) := rfl
theorem phaseStart a0 a1 : Statement (.phaseStart a0 a1) := rfl
theorem taskComplete a0 a1 : Statement (.taskComplete a0 a1) := rfl
theorem reclaim a0 a1 : Statement (.reclaim a0 a1) := rfl
theorem preempt a0 a1 : Statement (.preempt a0 a1) := rfl
theorem taskRestore a0 a1 : Statement (.taskRestore a0 a1) := rfl
theorem sliceEnd a0 : Statement (.sliceEnd a0) := rfl
theorem gangYield a0 a1 : Statement (.gangYield a0 a1) := rfl
theorem sliceStart a0 : Statement (.sliceStart a0) := rfl
theorem overrunStop a0 a1 : Statement (.overrunStop a0 a1) := rfl
theorem worldChangeScrub a0 a1 : Statement (.worldChangeScrub a0 a1) := rfl
theorem bankDrowsy a0 a1 : Statement (.bankDrowsy a0 a1) := rfl
theorem fabricStart a0 a1 : Statement (.fabricStart a0 a1) := rfl
theorem remoteStorePacket a0 a1 a2 a3 a4 a5 : Statement (.remoteStorePacket a0 a1 a2 a3 a4 a5) := rfl
theorem remoteLoadRequest a0 a1 a2 a3 : Statement (.remoteLoadRequest a0 a1 a2 a3) := rfl
theorem remoteAtomicRequest a0 a1 a2 a3 a4 a5 a6 : Statement (.remoteAtomicRequest a0 a1 a2 a3 a4 a5 a6) := rfl
theorem multicastDelivery a0 a1 a2 a3 a4 a5 : Statement (.multicastDelivery a0 a1 a2 a3 a4 a5) := rfl
theorem multicastLoadRequest a0 a1 a2 a3 : Statement (.multicastLoadRequest a0 a1 a2 a3) := rfl
theorem spredPairs a0 a1 a2 a3 a4 a5 a6 : Statement (.spredPairs a0 a1 a2 a3 a4 a5 a6) := rfl
theorem mergeEvict a0 : Statement (.mergeEvict a0) := rfl
theorem remoteReply a0 a1 a2 : Statement (.remoteReply a0 a1 a2) := rfl
theorem resendTimeout a0 a1 : Statement (.resendTimeout a0 a1) := rfl
theorem laneFail a0 a1 : Statement (.laneFail a0 a1) := rfl
theorem flitRetry a0 : Statement (.flitRetry a0) := rfl
theorem keyRatchet a0 a1 : Statement (.keyRatchet a0 a1) := rfl
theorem linkRecovery a0 : Statement (.linkRecovery a0) := rfl
theorem linkRecoveryTimeout a0 : Statement (.linkRecoveryTimeout a0) := rfl
theorem peerReset a0 a1 : Statement (.peerReset a0 a1) := rfl
theorem getVersion a0 : Statement (.getVersion a0) := rfl
theorem getCapabilities a0 : Statement (.getCapabilities a0) := rfl
theorem negotiateAlgorithms a0 a1 : Statement (.negotiateAlgorithms a0 a1) := rfl
theorem getDigests a0 : Statement (.getDigests a0) := rfl
theorem getCertificate a0 a1 a2 : Statement (.getCertificate a0 a1 a2) := rfl
theorem getMeasurements a0 a1 : Statement (.getMeasurements a0 a1) := rfl
theorem keyExchange a0 a1 a2 : Statement (.keyExchange a0 a1 a2) := rfl
theorem finish a0 : Statement (.finish a0) := rfl
theorem keyUpdate a0 : Statement (.keyUpdate a0) := rfl
theorem endSession a0 : Statement (.endSession a0) := rfl
theorem rotationScrubLine a0 a1 : Statement (.rotationScrubLine a0 a1) := rfl
theorem rotationEnd a0 : Statement (.rotationEnd a0) := rfl
theorem worldDestroy a0 : Statement (.worldDestroy a0) := rfl
theorem positionReport : Statement (.positionReport) := rfl
theorem lodestarTakeover : Statement (.lodestarTakeover) := rfl
theorem spdmRelay a0 a1 a2 a3 : Statement (.spdmRelay a0 a1 a2 a3) := rfl
theorem create a0 a1 a2 a3 : Statement (.create a0 a1 a2 a3) := rfl
theorem mbxShare a0 a1 a2 : Statement (.mbxShare a0 a1 a2) := rfl
theorem launch a0 a1 a2 : Statement (.launch a0 a1 a2) := rfl
theorem destroy a0 a1 a2 : Statement (.destroy a0 a1 a2) := rfl
theorem exportWorld a0 a1 a2 : Statement (.exportWorld a0 a1 a2) := rfl
theorem restore a0 a1 a2 : Statement (.restore a0 a1 a2) := rfl
theorem report a0 a1 a2 a3 a4 : Statement (.report a0 a1 a2 a3 a4) := rfl
theorem lockInterface a0 : Statement (.lockInterface a0) := rfl
theorem startInterface a0 : Statement (.startInterface a0) := rfl
theorem stopInterface a0 : Statement (.stopInterface a0) := rfl
theorem tdiError a0 : Statement (.tdiError a0) := rfl
theorem berthDescriptorWrite a0 a1 : Statement (.berthDescriptorWrite a0 a1) := rfl
theorem fabricIdWrite a0 : Statement (.fabricIdWrite a0) := rfl
theorem errstatClear a0 a1 : Statement (.errstatClear a0 a1) := rfl
theorem registerWrite a0 a1 a2 : Statement (.registerWrite a0 a1 a2) := rfl
theorem functionLevelReset a0 : Statement (.functionLevelReset a0) := rfl
theorem deviceReset : Statement (.deviceReset) := rfl
theorem powerGood a0 a1 a2 : Statement (.powerGood a0 a1 a2) := rfl
theorem portTrain a0 : Statement (.portTrain a0) := rfl
theorem lendCluster a0 a1 : Statement (.lendCluster a0 a1) := rfl
theorem demandReturn a0 : Statement (.demandReturn a0) := rfl
theorem lendReturnTimeout a0 : Statement (.lendReturnTimeout a0) := rfl
theorem unitRetire a0 a1 : Statement (.unitRetire a0 a1) := rfl
theorem hbmRetire a0 a1 a2 : Statement (.hbmRetire a0 a1 a2) := rfl
theorem unitFence a0 : Statement (.unitFence a0) := rfl
theorem powerLimit : Statement (.powerLimit) := rfl
theorem powerRelax : Statement (.powerRelax) := rfl
theorem thermalAlarm : Statement (.thermalAlarm) := rfl
theorem thermalShutdown : Statement (.thermalShutdown) := rfl
theorem waitiDeadline a0 : Statement (.waitiDeadline a0) := rfl
theorem bucketRefill a0 : Statement (.bucketRefill a0) := rfl
theorem arrayPassComplete a0 : Statement (.arrayPassComplete a0) := rfl
theorem packetForward a0 a1 : Statement (.packetForward a0 a1) := rfl
theorem windowOpenQuery a0 : Statement (.windowOpenQuery a0) := rfl
theorem voltageAlarm : Statement (.voltageAlarm) := rfl
theorem clockAlarm : Statement (.clockAlarm) := rfl
theorem powerLoss : Statement (.powerLoss) := rfl
theorem endingScrubComplete a0 : Statement (.endingScrubComplete a0) := rfl
theorem freshScrubComplete a0 : Statement (.freshScrubComplete a0) := rfl

end Sys2Proof.Laws.HasWord
end

