-- ==== Sys2Proof/Tests/Slice0.lean ====
section
/-! SUPPORT. Tests on fixed values: what the well-formedness check refuses, words of the manual, one step on small states, and a state
that meets the hypotheses of each statement. -/
namespace Sys2Proof.Tests
open Sys2Proof Sys2Proof.Machine
set_option Elab.async false

/-! What the check refuses, one operand out of range at a time. -/

def ctl1 : Ctl := ⟨true, false, false⟩
def psel0 : PSel := ⟨0, false⟩
def bin (t : Ty) (r : Rnd) (sat : Bool) (a : VSrc) (b : VOpd) : VBin := ⟨ctl1, psel0, .nul, a, b, t, r, sat⟩
def un (t : Ty) (r : Rnd) (sat : Bool) (a : VSrc) : VUn := ⟨ctl1, psel0, .nul, a, t, r, sat⟩
def mem0 : AMem := ⟨4, false, none, 0⟩
def q0 : VSrc := .q 0 false
def noCompl : Compl := ⟨false, 0, false, 0⟩
def noBar : BarCnt := ⟨.none, 0⟩

theorem test_wf_refuses_access : ([.tld ctl1 3 false 0 mem0, .vld ctl1 3 .nul mem0 .i64, .vgather ctl1 .nul mem0 q0 .f16,
    .vgather ctl1 .nul mem0 (.sr 0 false) .f32, .tst ctl1 3 false false 0 mem0, .vst ctl1 3 mem0 q0 .i64, .vst ctl1 0 mem0 (.lat 0) .f32,
    .vsts ctl1 mem0 (.lat 9) 0 .f32, .vscatter ctl1 mem0 q0 q0 .f16, .vscatter ctl1 mem0 (.sr 0 false) q0 .f32,
    .vscatter ctl1 mem0 q0 (.lat 0) .f32] : List Instr).all (fun i => !i.wf) = true := by decide

theorem test_wf_refuses_elementwise : ([.vadd (bin .i32 .rne false q0 (.vec q0)), .vsub (bin .f32 .rne true q0 (.vec q0)),
    .vmul (bin .f32 .rne false (.lat 0) (.vec q0)), .vdiv (bin .f32 .rne false q0 (.vec (.lat 9))),
    .vfma (bin .f16 .rne false q0 (.imm 65536)) q0, .vfms (bin .f32 .rne false q0 (.vec q0)) (.lat 0), .vsqrt (un .i8 .rne false q0),
    .vrsq (un .f32 .rne true q0), .vrcp (un .f32 .rne false (.lat 0)), .vexp2 (un .n8 .rne false q0), .vlog2 (un .i64 .rne false q0),
    .vmin (bin .f32 .rz false q0 (.vec q0)), .vmax (bin .i32 .rne false q0 (.vec q0)), .vabs (un .n32 .rne false q0),
    .vneg (un .f32 .rne true q0), .vabs (un .f32 .ru false q0), .viadd (bin .f32 .rne false q0 (.vec q0)),
    .visub (bin .i32 .rz false q0 (.vec q0)), .vimul (bin .i8 .rne false q0 (.imm 256)), .vshl (bin .f32 .rne false q0 (.vec q0)),
    .vimulh (bin .i32 .rne true q0 (.vec q0)), .vand (bin .f32 .rne false q0 (.vec q0)), .vor (bin .i32 .rd false q0 (.vec q0)),
    .vxor (bin .f16 .rne false q0 (.vec q0)), .vshr (bin .i16 .rne false q0 (.imm 65536)), .vimin (bin .i32 .rne true q0 (.vec q0)),
    .vimax (bin .f32 .rne false q0 (.vec q0)), .vsra (bin .n32 .rne false q0 (.vec q0))] : List Instr).all (fun i => !i.wf) = true := by
  decide

theorem test_wf_refuses_moves : ([.vcmp ctl1 psel0 (some 0) q0 (.vec q0) .f32 .eq, .vcmp ctl1 psel0 (some 24) q0 (.vec q0) .f32 .eq,
    .vcmp ctl1 psel0 none q0 (.vec q0) .i32 .un, .vcmp ctl1 psel0 none q0 (.imm 256) .i8 .eq, .vsel (bin .f32 .rz false q0 (.vec q0)) 1,
    .vcvt ctl1 psel0 .nul q0 .f32 .f32 .rne false 0, .vcvt ctl1 psel0 .nul q0 .f32 .f16 .rz false 0,
    .vcvt ctl1 psel0 .nul q0 .f32 .f16 .rne false 2, .vcvt ctl1 psel0 .nul q0 .i32 .f32 .rne false 0,
    .vcvt ctl1 psel0 .nul q0 .f32 .i32 .rne true 0, .vscale (bin .i32 .rne false q0 (.vec q0)), .vmov ctl1 psel0 .nul (.imm 256) .n8,
    .vperm ctl1 psel0 .nul q0 q0 .i8, .vslide ctl1 psel0 .nul q0 q0 .f32 129, .vcompress ctl1 psel0 .nul (.lat 0) .f32,
    .vexpand ctl1 psel0 .nul (.lat 9) .f32, .vbcast ctl1 psel0 .nul q0 .f32 128, .vindex ctl1 psel0 .nul (.imm 0) 1 .f32 false,
    .vredsum (un .f32 .rne true q0), .vscansum (un .i32 .rz false q0), .vredmax (un .f32 .rz false q0), .vredmin (un .i32 .rne true q0),
    .vscanmax (un .i32 .rz false q0), .kand ctl1 false 0 1 1, .kor ctl1 false 24 1 1, .kxor ctl1 true 31 1 1,
    .kset ctl1 0 (.imm 1) .f32] : List Instr).all (fun i => !i.wf) = true := by decide

theorem test_wf_refuses_matrix : ([.mma ctl1 false 127 0 0 1 none false 0xF ⟨0, some 0⟩, .mma ctl1 false 0 0 0 1 none false 0xF ⟨1023, none⟩,
    .mmag ctl1 0 4 0 (.sr 0 false) none false 0xF ⟨0, none⟩ false, .mmag ctl1 127 4 0 q0 none false 0xF ⟨897, none⟩ false,
    .mzero ctl1 127 0xF ⟨897, none⟩, .mrd ctl1 .nul .i8 .rne false ⟨0, none⟩, .mrd ctl1 .nul .f32 .rz false ⟨0, none⟩,
    .mrd ctl1 .nul .bf16 .rne true ⟨0, none⟩, .mwr ctl1 q0 .f16 0xF ⟨0, none⟩, .mwr ctl1 (.sr 0 false) .f32 0xF ⟨0, none⟩,
    .mfmt ctl1 false 6, .skipz 0 0, .skipzMask 0] : List Instr).all (fun i => !i.wf) = true := by decide

theorem test_wf_refuses_commands : ([.cpymIn 0 noBar false 3 4 0 0 0 0 noCompl, .cpymIn 0 noBar false 0 4 0 0 0 1 noCompl,
    .cpymOut 0 noBar false 3 4 0 0 0 0 false noCompl, .cpymOut 0 noBar false 0 4 0 0 1 0 false noCompl,
    .cpymOut 0 noBar false 0 4 0 0 0 1 false noCompl, .qpush 0 57 0, .swait (.imm 0 0) 6, .ssig (.imm 0 0) 14, .sset 0 0 0 6,
    .amo .add .w16 false false 4 0 0 0 0, .amo .fadd .w8 false false 4 0 0 0 0, .amo .cas .w16 false false 4 0 1 0 0,
    .amo .cas .w16 false false 4 0 0 1 0, .vamo .cas .w4 false false false 4 4 0 0 0, .fence 5, .fenceTranslation 4 0 0,
    .tlwait 5 (.h 0 0), .tstat 3 0 0, .rmamo .add .w16 4 4 0 0 0 none 0, .rmamo .fadd .w8 4 4 0 0 0 none 0, .rmamo .add .w4 4 4 0 0 1 none 0,
    .mcld .swap .w4 4 4 0 0 0 none, .mcld .cas .w4 4 4 0 0 0 none, .mcld .add .w16 4 4 0 0 0 none, .linkst 0 0 6] : List Instr).all
      (fun i => !i.wf) = true := by decide

/-! Words of the manual (Tables 2.17, 5.12, 6.7, 7.11, 8.7, 9.11, 10.6, 11.10, 11.13, 12.7, 13.10), written out from its encodings. -/

theorem test_words_helm :
    decodeTableWord 96 0x1B000000E40000000000000C = some (.slate 7 1 12) ∧
    decodeTableWord 96 0x02001040E000FFFFFFFFFFFF = some (.addi 7 1 1 0xFFFFFFFFFFFF) ∧
    decodeTableWord 96 0x19042040E000000000000000 = some (.cmpi 7 .ne 2 1 0) ∧
    decodeTableWord 96 0x1D0000004400000000000000 = some (.cut 2 1) ∧
    decodeTableWord 96 0x1E003000F000000000000000 = some (.cutl 7 4 3) ∧
    decodeTableWord 96 0x21005000E0A8000000000102 = some (.ld 7 .b2 false false 5 5 0 0x102) := by decide

theorem test_words_access :
    decodeTableWord 96 0xF00C0000020000003FFFFFF0 = some (.loop (some 2) 0x3FFFFFF0) ∧
    decodeTableWord 96 0x402C00000400000010000000 = some (.tld ctl1 1 true 0 ⟨4, false, some 0, 0⟩) := by decide

theorem test_words_vector :
    decodeTableWord 96 0x620002000101000000000000 =
      some (.vmul ⟨⟨false, false, false⟩, psel0, .nul, .q 1 false, .vec (.q 2 false), .f32, .rne, false⟩) ∧
    decodeTableWord 96 0x600400070142000000000000 =
      some (.vadd ⟨ctl1, psel0, .q 3 false, .lat 1, .vec (.q 4 true), .f32, .rne, false⟩) ∧
    decodeTableWord 96 0x8E8400020000000000000000 = some (.kset ctl1 1 (.oq 0 false) .f32) ∧
    decodeTableWord 96 0x7B6400048100000000000000 = some (.vcmp ctl1 psel0 (some 2) (.q 1 true) (.imm 0) .f32 .gt) ∧
    decodeTableWord 96 0x624000040100000010000000 =
      some (.vmul ⟨⟨false, false, false⟩, psel0, .q 2 false, .q 1 false, .imm 0x10000000, .f32, .rne, false⟩) := by decide

theorem test_words_matrix :
    decodeTableWord 96 0xF0040000000000003FFFFFDB = some (.loop none 0x3FFFFFDB) ∧
    decodeTableWord 96 0xA0440000000000000FC00000 = some (.mldw ctl1 false false 0 (.imm 0x0FC00000)) ∧
    decodeTableWord 96 0xA30000040401200000F00280 =
      some (.mmag ⟨false, false, false⟩ 2 4 2 (.q 0 true) none false 0xF ⟨0, some 1⟩ false) := by decide

theorem test_words_copy :
    decodeTableWord 96 0xB00080001080000000000000 = some (.cpy 0 noBar false 4 0 0 1 2 noCompl) ∧
    decodeTableWord 96 0xB30000040000000000000000 = some (.cchain 0 0 1 noCompl) ∧
    decodeTableWord 96 0xB70800000100000000000000 = some (.ctlread 0 4 false) ∧
    decodeTableWord 96 0xB20102008244000000000000 = some (.cpymIn 1 noBar false 0 8 2 0 8 9 noCompl) ∧
    decodeTableWord 96 0xB000C0002040000000010005 = some (.cpy 0 noBar false 6 0 0 2 1 ⟨true, 5, false, 0⟩) ∧
    decodeTableWord 96 0xB010852061C0000000000000 = some (.cpy 0 noBar true 4 5 8 6 7 noCompl) := by decide

theorem test_words_sync :
    decodeTableWord 96 0xC30800002000000000000100 = some (.barrInit 0 0 2 0 0x100) ∧
    decodeTableWord 96 0xC304000000C0000000000100 = some (.barrWait 0 0 3 0x100) := by decide

theorem test_words_task :
    decodeTableWord 96 0xD000E0000280000000000000 = some (.spawn 7 0 10 0 0) ∧
    decodeTableWord 96 0xD30400280380000000000000 = some (.fget true 10 14) ∧
    decodeTableWord 96 0xD50000000000000000000000 = some .rpoint ∧
    decodeTableWord 96 0xD40000640000000000000000 = some (.fdone 25) ∧
    decodeTableWord 96 0xD600E0540780000000000000 = some (.tlaunch 7 21 30 0 0) ∧
    decodeTableWord 96 0xDD00007807C0000000000000 = some (.tstat 0 30 31) ∧
    decodeTableWord 96 0xD700E055E000000000000000 = some (.tarm 7 21 30 0) := by decide

theorem test_words_fabric_and_lodestar :
    decodeTableWord 96 0xE30085000040000000001000 = some (.mcst 4 5 0 0 1 none 0x1000) ∧
    decodeTableWord 96 0xE600000000C0000000000000 = some (.rfence 3) ∧
    decodeTableWord 96 0xEC0000000140010600000000 = some (.lrotate 5 (some 6)) ∧
    decodeTableWord 96 0xEA00002CD300000000008000 = some (.lrevoke 0 11 13 12 0x8000) ∧
    decodeTableWord 96 0xEF0800280380000200000000 = some (.lworldProgress 10 14) := by decide

theorem test_headers : decodeHeader false 0xA00A008000808000 = .sect 10 false [0x80, 0, 0x80, 0x80] ∧
    decodeHeader false 0xA002008000808000 = .sect 2 false [0x80, 0, 0x80, 0x80] ∧ decodeHeader false 0xB000000000000000 = .endHdr 0 := by
  decide

/-- Words that Table 2.14 rejects: an opcode of no instruction, an access word in H, a nonzero unused field. -/
theorem test_words_refused : decodeWord .h 0x36000000E000000000000000 = .illegal ∧
    decodeWord .h 0x402C00000400000010000000 = .mismatch ∧ decodeWord .h 0x02001041E000FFFFFFFFFFFF = .reserved := by decide

set_option maxRecDepth 20000

/-! Small states. -/

def okay {ε α : Type} : Except ε α → Bool
  | .ok _ => true
  | .error _ => false

def failed {α : Type} (f : Flt) : Except Flt α → Bool
  | .ok _ => false
  | .error g => decide (g = f)

/-- A scratchpad handle of world 1 with R, W, A, F and M over the first 64 KiB of core 0's scratchpad. -/
def scratch : Handle := { Handle.cleared with format := 2, rights := 0xE9, world := 1, length := 65536, isSealed := true }
def codeH : Handle := { Handle.cleared with format := 1, rights := 0x10, world := 1, length := 4096 }

/-- Core 0 running a task of world 1, with 64 granules of code present, its trap handler at granule 100 and traps on. -/
def kA : Core :=
  { Core.init with
    hrun := .running, world := 1, tvec := 201, h := [(2, codeH), (4, scratch)], filled := [(0, 300)],
    x := [(1, 24), (2, 10), (3, 0xFFFFFFFFFFFFFFFF), (5, 0x8000000000000000), (9, 4096)], hs := { StreamSt.idle with pc := 12 } }

def sOf (k : Core) : State := { State.reset with cores := [(0, k)], now := 5 }
def sA : State := sOf kA
def supv (k : Core) : Core := { k with status := 5 }
def withGran (s : State) (gs : List (Nat × Nat)) : State :=
  { s with mem := memPuts s.mem (gs.flatMap fun g => (upFrom (imemKey 0 (4 * g.1)) 4).zip (bytesOf 4 g.2)) }

/-! A state and operands that meet the hypotheses of each statement, clause by clause at values where clauses meet. -/

theorem witness_HelmRegistersAndConditions : guardOf (.nop 2) = some 2 ∧ sA.me.getC 2 = false ∧ sA.me.getC 7 = true ∧
    (0x1A050000E000000000000000 : Word96).extractLsb' 88 8 = 0x1A := by decide +kernel

theorem witness_HelmIntegerArithmetic : sA.me.getC 7 = true ∧ sA.me.getX 0 = 0 ∧ sA.me.getX 1 ≠ 0 ∧
    sA.me.getX 5 = 0x8000000000000000 ∧ sA.me.getX 3 = 0xFFFFFFFFFFFFFFFF := by decide +kernel

/-- Positions at -1 and past the code; counts 0, 16 and 17, and a reserved bit; tables that end with the code and past it; buckets both too small;
a target that leaves two granules. -/
theorem witness_SlatesAndTransfers_bselFaults :
    (12 : Int) + (-13 : BitVec 48).toInt < 0 ∧ (1024 : Int) < 12 + (1012 : BitVec 48).toInt + 1 ∧
    (let s (v : Nat) : State := sOf { kA with filled := [(0, 1024)] } |> fun s => withGran s [(20, v), (1020, v), (1019, 2), (21, 8), (22, 40), (23, 32), (24, 1022)]
     (s 0).gran 0 20 % 256 = 0 ∧ 16 < (s 17).gran 0 20 % 256 ∧ (s 257).gran 0 20 / 256 ≠ 0 ∧ (s 2).gran 0 1020 = 2 ∧ 1024 < 1020 + 1 + 2 * 2 ∧
       1019 + 1 + 2 * 2 ≤ 1024 ∧ (upFrom 20 5).all (s 2).me.hasGran = true ∧ (s 2).gran 0 20 = 2 ∧
       (s 2).gran 0 21 < 33 ∧ (s 2).gran 0 23 < 33 ∧ ((s 2).me.getX 1).toNat ≤ (s 2).gran 0 23 ∧ (s 2).gran 0 21 < ((s 2).me.getX 1).toNat ∧
       1024 < (s 2).gran 0 24 + 3) := by decide +kernel

/-- Targets at the last granule that fits, one past it, and below 0; a valid and an invalid register; a table of two buckets. -/
theorem witness_SlatesAndTransfers :
    codeLenOf sA.me.code = 1024 ∧ sA.ecc2 = [] ∧ (12 : Int) + (1009 : BitVec 48).toInt + 3 = 1024 ∧ (12 : Int) + (-13 : BitVec 48).toInt = -1 ∧
    (let k := kA.setSlate 1 ⟨40, true, .empty⟩
     k.slates.length = 10 ∧ (k.slate 1).valid = true ∧ (k.slate 2).valid = false) ∧
    (let s := withGran sA [(20, 2), (21, 8), (22, 40), (23, 32), (24, 50)]
     s.gran 0 20 = 2 ∧ 20 + 1 + 2 * 2 ≤ codeLenOf s.me.code ∧ (upFrom 20 5).all s.me.hasGran = true ∧
       (s.me.getX 1).toNat ≤ s.gran 0 23 ∧ s.gran 0 21 < (s.me.getX 1).toNat ∧ s.gran 0 21 < s.gran 0 23 ∧
       s.gran 0 24 + 3 ≤ codeLenOf s.me.code) := by decide +kernel

def accA : Acc := sA.accOf 0 .h

/-- The first and the last byte that pass, and one access for each failing check. -/
theorem witness_AccessChecks :
    (scratch.format = 2 ∧ scratch.revoked = false ∧ scratch.world.toNat = accA.world ∧ scratch.hasRights .store = true ∧
      65528 + 8 ≤ scratch.length.toNat ∧ accA.lo ≤ 65528 ∧ 65528 + 8 ≤ accA.hi ∧ 65528 % 8 = 0) ∧
    okay (sA.check accA scratch 65528 8 .store 8 [1, 2, 3]) = true ∧ okay (sA.check accA scratch 0 8 .load 8 [1, 2, 3]) = true ∧
    failed ⟨.handleRights, 0, 0⟩ (sA.check accA .cleared 0 8 .load 8 [1, 2, 3]) = true ∧
    failed ⟨.handleRevoked, 0, 0⟩ (sA.check accA { scratch with revoked := true } 0 8 .load 8 [1, 2, 3]) = true ∧
    failed ⟨.handleWorld, 0, 0⟩ (sA.check accA { scratch with world := 2 } 0 8 .load 8 [1, 2, 3]) = true ∧
    failed ⟨.handleRights, 0, 0⟩ (sA.check accA scratch 0 8 .load 8 [1]) = true ∧
    failed ⟨.handleRights, 0, 0⟩ (sA.check accA scratch 0 8 .fetch 8 [1, 2, 3]) = true ∧
    failed ⟨.handleBounds, 0, 0xFFFFFFFFFFFFFFFF⟩ (sA.check accA scratch (-1) 8 .load 8 [1, 2, 3]) = true ∧
    failed ⟨.handleBounds, 0, 65536⟩ (sA.check accA scratch 65529 8 .load 8 [1, 2, 3]) = true ∧
    failed ⟨.handleBounds, 0, 65537⟩ (sA.check accA scratch 65537 8 .load 8 [1, 2, 3]) = true ∧
    failed ⟨.handleBounds, 0, 16777216⟩ (sA.check accA { scratch with length := 0xFFFFFFFFFFFF } 16777215 8 .load 8 [1, 2, 3]) = true ∧
    failed ⟨.handleBounds, 0, 16777216⟩ (sA.check accA { scratch with length := 0xFFFFFFFFFFFF } 16777216 8 .load 8 [1, 2, 3]) = true ∧
    failed ⟨.handleBounds, 0, 16777216⟩ (sA.check accA { scratch with base := 16777208, length := 12 } 0 16 .load 8 [1, 2, 3]) = true ∧
    failed ⟨.handleBounds, 0, 16777215⟩ (sA.check accA { scratch with base := 16777208, length := 7 } 0 16 .load 8 [1, 2, 3]) = true ∧
    failed ⟨.handleBounds, 0, 16777216⟩ (sA.check accA { scratch with base := 16777208, length := 12 } 8 16 .load 8 [1, 2, 3]) = true ∧
    failed ⟨.align, 0, 4⟩ (sA.check accA scratch 4 8 .load 8 [1, 2, 3]) = true := by decide +kernel

theorem witness_LoadsAndStores :
    okay (sA.access (sA.accOf 0 .h) (sA.me.getH 4) ((sA.me.getX 1).toInt + 0) 8 .load 8 false [1, 2, 3] sA.sectors) = true ∧
    okay (sA.access (sA.accOf 0 .h) (sA.me.getH 4) ((sA.me.getX 1).toInt + 0) 8 .store 8 true [1, 2, 3] sA.sectors) = true := by decide +kernel

theorem witness_HandleOperations : sA.me.getC 7 = true ∧ 4 ≤ (4 : HReg).toNat ∧ (supv kA).supervisor = true ∧ (2 : HReg).toNat < 4 ∧
    (let h := sA.me.getH 4
     h.revoked = false ∧ h.rights.getLsbD 0 = true ∧ (sA.me.getX 9).toInt + 61440 ≤ h.length.toNat ∧
       (h.length.toNat : Int) < (sA.me.getX 9).toInt + 61441 ∧ h.format ≠ 4) ∧
    (sA.me.getH 2).rights.getLsbD 0 = false ∧ ({ scratch with format := 4 } : Handle).format = 4 ∧
    ({ scratch with revoked := true } : Handle).revoked = true := by decide +kernel

theorem witness_PrivilegeAndControlRegisters :
    sA.me.supervisor = false ∧ (3 : HReg).toNat < 4 ∧ sA.me.status &&& 0xF ≠ (sA.me.getX 1) &&& 0xF ∧
    (0x31 : BitVec 12) ∉ [(0 : BitVec 12), 1, 2, 3, 4, 0x10, 0x11, 0x12, 0x13, 0x20, 0x21, 0x22, 0x30] ∧
    (supv kA).supervisor = true ∧ (let k := kA.setX 1 20; k.status &&& 0xF = (k.getX 1) &&& 0xF) := by decide +kernel

theorem witness_TrapsAndReturns :
    kA.tvec.getLsbD 0 = true ∧ kA.status.getLsbD 2 = true ∧ (⟨.align, 0, 4⟩ : Flt).code ≠ .integrity ∧ sA.me.getC 7 = true ∧
    (supv kA).status.getLsbD 0 = true ∧
    (let k := { (supv kA).setStrm .v { StreamSt.idle with run := .stopped } with cause := 0x30000 }
     k.cause.toNat / 2 ^ 16 % 8 = streamNum .v ∧ (k.strm .v).run = .stopped ∧ ¬ k.cause.toNat / 2 ^ 16 % 8 = streamNum .m) := by decide +kernel

def runL (k : Core) : Core := k.setStrm .l { StreamSt.idle with run := .running }
def ends : List Stream := [.l, .s, .v, .m]

theorem witness_ForkAndJoin :
    ((runL kA).strm .l).run = .running ∧ ends.all (fun st => decide ((kA.strm st).run = .absent)) = true ∧
    (let s := withGran sA [(20, 0x80000028), (21, 0), (22, 0x800003FF), (23, 0)]
     (12 : Int) + (8 : BitVec 48).toInt = 20 ∧ 20 + 4 ≤ codeLenOf s.me.code ∧
       (List.range 4).all (fun i => s.me.hasGran (20 + i) && decide (s.gran 0 (20 + i) / 2 ^ 16 % 2 ^ 15 = 0) &&
         decide (2 ^ 31 ≤ s.gran 0 (20 + i) → s.gran 0 (20 + i) % 2 ^ 16 < codeLenOf s.me.code)) = true) ∧
    ([.h, .l, .s, .v, .m] : List Stream).all (fun st => decide ((kA.strm st).wait = none)) = true := by decide +kernel

/-- Depths 1 and 64 among depths 15, whose sum stays at most 1,024; a full and an empty operand queue; a pending fault and a due time. -/
theorem witness_HelmSystemWords :
    (let s := withGran sA ((20, 0x0F0F4001) :: (upFrom 21 15).map fun g => (g, 0x0F0F0F0F))
     20 + 16 ≤ codeLenOf s.me.code ∧ (upFrom 20 16).all s.me.hasGran = true ∧
       (List.range 64).all (fun i => let d := s.gran 0 (20 + i / 4) / 2 ^ (8 * (i % 4)) % 256; decide (1 ≤ d) && decide (d ≤ 64)) = true ∧
       ((List.range 64).map fun i => s.gran 0 (20 + i / 4) / 2 ^ (8 * (i % 4)) % 256).sum ≤ 1024) ∧
    ((kA.strm .v).oqs.length = 4 ∧ ((kA.strm .v).oqs.getD 3 []).length < 16) ∧
    (let k := kA.setStrm .v { StreamSt.idle with oqs := [List.replicate 16 ⟨0, []⟩, [], [], []] }
     16 ≤ ((k.strm .v).oqs.getD 0 []).length) ∧
    kA.drained = true ∧ ((runL kA).strm .l).run = .running ∧
    ({ kA with pend := [⟨⟨.align, 0, 0⟩, .l, 0⟩] } : Core).pend ≠ [] ∧ sA.me.getX 0 = 0 ∧ sA.me.pend = [] ∧
    (let s := sOf (kA.setX 1 5); s.me.getX 1 ≠ 0 ∧ (s.me.getX 1).toNat ≤ (BitVec.ofInt 64 (s.now - s.me.cycle0)).toNat) := by decide +kernel

/-! A sealed image in memory: its seal is a CMAC, so it is read back by a lemma and not by evaluation. -/

def imgP : Handle := { Handle.cleared with format := 1, rights := 0x81, world := 1, serial := 7, length := 256 }
def liveW : World := { World.blank with st := .live, ranges := [(9, 2)] }
def imgS : Handle := { imgP with sealv := liveW.sealOf imgP }
def sImg (img : Handle) : State :=
  { sA with worlds := [(1, liveW)],
            mem := memPuts [] ((upFrom (scrKey 4096) 32).zip (bytesOf 32 img.image.toNat)) }

theorem image_reads_back (img : Handle) :
    BitVec.ofNat 256 (ofBytes ((piecesKeys [⟨4096, scrKey 4096, 32⟩]).map (memGet (sImg img).mem))) = img.image := by
  have h := memGet_memPuts_upFrom [] (scrKey 4096) (bytesOf 32 img.image.toNat)
  rw [bytesOf_length] at h
  have e : piecesKeys [⟨4096, scrKey 4096, 32⟩] = upFrom (scrKey 4096) 32 := List.append_nil _
  rw [e, show (sImg img).mem = memPuts [] ((upFrom (scrKey 4096) 32).zip (bytesOf 32 img.image.toNat)) from rfl, h, ofBytes_bytesOf]
  apply BitVec.eq_of_toNat_eq
  have := img.image.isLt
  rw [BitVec.toNat_ofNat]
  omega

theorem image_is_sealed : liveW.sealOf imgS = imgS.sealv := by
  unfold World.sealOf
  rw [show (imgS.image.extractLsb' 64 192) = imgP.image.extractLsb' 64 192 from Handle.image_sealed_part imgP _]
  rfl

/-- HLD: an image whose seal is valid, of the core's world, its serial not revoked; the same with a revoked serial, and of another
world; and an image of zeros, whose format has no seal. -/
theorem witness_HandleLoad :
    (let img := Handle.ofImage (BitVec.ofNat 256 (ofBytes ((piecesKeys [⟨4096, scrKey 4096, 32⟩]).map (memGet sA.mem))))
     ¬ 1 ≤ img.format.toNat) ∧
    (∃ tab, (sImg imgS).access ((sImg imgS).accOf 0 .h) ((sImg imgS).me.getH 4) 4096 32 .load 32 false [1, 2, 3] (sImg imgS).sectors =
      .ok ([⟨4096, scrKey 4096, 32⟩], tab) ∧
      (let img := Handle.ofImage (BitVec.ofNat 256 (ofBytes ((piecesKeys [⟨4096, scrKey 4096, 32⟩]).map (memGet (sImg imgS).mem))))
       let w := (sImg imgS).world img.world.toNat
       w.sealOf img = img.sealv ∧ w.st = .live ∧ 1 ≤ img.format.toNat ∧ img.format.toNat ≤ 4 ∧
         img.world.toNat = (sImg imgS).me.world ∧ w.isRevoked img.serial.toNat = false ∧ w.isRevoked 9 = true)) := by
  refine ⟨by decide, _, rfl, ?_⟩
  rw [image_reads_back, Handle.ofImage_image]
  exact ⟨image_is_sealed, by decide⟩

/-- HST: a sealed register and an unsealed one; a load and a store whose checks fail, and the access that each other clause names. -/
theorem witness_HandleImages : sA.me.getC 7 = true ∧ 4 ≤ (5 : HReg).toNat ∧
    (sA.me.getH 4).isSealed = true ∧ (sA.me.getH 4).revoked = false ∧ (sA.me.getH 2).isSealed = false ∧
    okay (sA.access (sA.accOf 0 .h) (sA.me.getH 4) 4096 32 .load 32 false [1, 2, 3] sA.sectors) = true ∧
    okay (sA.access (sA.accOf 0 .h) (sA.me.getH 4) 4096 32 .store 32 true [1, 2, 3] sA.sectors) = true ∧
    failed ⟨.align, 0, 4097⟩ (sA.access (sA.accOf 0 .h) (sA.me.getH 4) 4097 32 .store 32 true [1, 2, 3] sA.sectors) = true ∧
    failed ⟨.align, 0, 4097⟩ (sA.access (sA.accOf 0 .h) (sA.me.getH 4) 4097 8 .load 8 false [1, 2, 3] sA.sectors) = true := by decide +kernel


/-! Stream groups. -/

def g0 : Grp := Grp.open 20

def stops {α : Type} (w : WStop) : Except WStop α → Bool
  | .ok _ => false
  | .error v => decide (v = w)

def oqe (v : X64) : OqEnt := ⟨v, []⟩
def ent (v : Vec) : VEnt := ⟨v, false, 5, false⟩
/-- Vector queues 1 to 3 hold an entry each, operand queue 0 holds 8 and queue 1 holds 3. -/
def kG (st : Stream) : Core :=
  ({ kA with vq := [(1, [ent 0x3F800000]), (2, [ent (vecSplat 4 7)]), (3, [ent (vecSplat 4 0xFFFFFFFF)])],
             tiles := [(1, ⟨5, true, none, []⟩)] }).setStrm st
    { StreamSt.idle with run := .running, pc := 20, sec := some 100, grp := some g0, oqs := [[oqe 8], [oqe 3], [], []] }
def sG (st : Stream) : State := { sOf (kG st) with curSt := st }

/-- A group that may commit, one that a later stream forestalled, a section end with a level open, a push past a queue's depth, and the
mask stack at 0, 15 and 16. -/
theorem witness_GroupsCommitWhole :
    (kG .v).mayCommit 5 .v ((g0.add (.push 4 1 false)).add (.mpush 3)) ∧
    ({ kG .v with touched := [(5, .m, (g0.add (.push 4 1 false)).touches)] } : Core).tooLate 5 .v (g0.add (.push 4 1 false)) = true ∧
    ({ (kG .v).strm .v with levels := [⟨2, 0, 20, []⟩] } : StreamSt).leavesOpen 100 = true ∧
    ({ kG .v with depths := List.replicate 64 1 } : Core).overfull (g0.add (.push 1 1 false)) = some 1 ∧
    maskFault [Eff.mpop] 0 = some ⟨.queueUnderflow, 1, 0⟩ ∧ maskFault [Eff.mpush 1] 16 = some ⟨.queueOverflow, 1, 16⟩ ∧
    maskFault [Eff.mpush 1] 15 = none := by unfold Core.mayCommit; decide +kernel

/-- Loads and stores at the last offset that fits; the strides 8 and lanes that are all, but one, out of use. -/
theorem witness_VectorMemoryWords :
    (sG .l).served.grp = some g0 ∧ okay (memOff (sG .l).served ⟨4, false, none, 65024⟩) = true ∧
    okay (grpAccess (sG .l) 0 .l g0 scratch false 65024 512 4 .load [1, 2]) = true ∧
    okay (headOq (sG .l).served 0) = true ∧
    okay (grpAccesses (sG .l) 0 .l scratch false 4 4 .load [1, 2] ((List.range 128).map fun (j : Nat) => (8 * j : Int)) g0) = true ∧
    okay (readSrc (kG .l) 5 g0 (.q 3 false)) = true ∧
    (List.range 128).all (fun i => decide (lane (vecSplat 4 0xFFFFFFFF) 4 i = 0xFFFFFFFF)) = true ∧
    okay (grpAccesses (sG .l) 0 .l scratch false 4 4 .load [1, 2] ((List.range 128).map fun i => ((4 * lane (vecSplat 4 7) 4 i : Nat) : Int)) g0)
      = true ∧
    okay (grpAccess (sG .s) 0 .s g0 scratch false 65024 512 4 .store [1, 2]) = true ∧
    okay (grpAccesses (sG .s) 0 .s scratch false 4 4 .store [1, 2] ((List.range 128).map fun (j : Nat) => (8 * j : Int)) g0) = true ∧
    okay (grpAccesses (sG .s) 0 .s scratch false 4 4 .store [1, 2] [((4 * lane (0x3F800000 : Vec) 4 1 : Nat) : Int)] g0) = true := by
  decide +kernel

/-- A padded load and a padded store whose edges leave two rows of two columns; an operand queue with an entry. -/
theorem witness_TileMemoryWords :
    okay (memOff (sG .l).served ⟨4, false, none, 0⟩) = true ∧ ((kG .l).tile 0).full = false ∧ ((kG .l).tile 0).held = none ∧
    okay (grpAccesses (sG .l) 0 .l scratch false (tileEsz scratch 0) (tileEsz scratch 0) .load [1, 2] (tileElems scratch 0 0 2 2) g0) = true ∧
    ((kG .s).tile 1).full = true ∧
    okay (grpAccesses (sG .s) 0 .s scratch false (tileEsz scratch 1) (tileEsz scratch 1) .store [1, 2] (tileElems scratch 1 0 2 2)
      { g0 with edge := true }) = true ∧
    okay (readOq (sG .l).served g0 1 false) = true := by decide +kernel

def srcs (a : VSrc) (b : VOpd) (cc : Option VSrc) (t : Ty) : Except WStop Unit := do
  let (_, g1) ← readSrc (kG .v) 5 g0 a
  let (_, g2) ← readOpd (kG .v) 5 (sG .v).served g1 t b
  match cc with
  | none => pure ()
  | some z =>
    let _ ← readSrc (kG .v) 5 g2 z
    pure ()

theorem witness_FloatAndOneSourceWords : (sG .v).served.grp = some g0 ∧
    okay (srcs (.q 1 false) (.vec (.q 2 true)) (some (.q 3 false)) .f32) = true ∧
    okay (srcs (.q 1 false) (.imm 0x3F800000) none .f32) = true ∧ Ty.f32.isFloat = true ∧ Ty.i16.isFloat = false := by decide +kernel

theorem witness_IntegerSelectAndCompareWords : (sG .v).served.grp = some g0 ∧
    okay (srcs (.q 1 false) (.imm 5) none .i32) = true ∧ okay (srcs (.q 1 false) (.vec (.q 2 false)) none .i8) = true ∧
    okay (scaleExps (kG .v) 5 (sG .v).served g0 .f32 (.imm 3)) = true ∧ okay (readOpd (kG .v) 5 (sG .v).served g0 .i32 (.imm 255)) = true := by
  decide +kernel

/-- A conversion to a wider, an equal and a narrower type, each with the last part that it has. -/
theorem witness_ConversionsAndRearrangements : (sG .v).served.grp = some g0 ∧
    okay (srcs (.q 1 false) (.vec (.q 2 false)) none .i8) = true ∧
    Ty.f16.size ≤ Ty.f32.size ∧ 1 * (512 / 4) + 512 / 4 ≤ 512 / Ty.f16.size ∧ Ty.i8.size < Ty.f32.size ∧
    (127 : BitVec 10).toNat < 512 / Ty.f32.size ∧ okay (idxBase (sG .v).served g0 .i32 (.imm 0)) = true := by decide +kernel

theorem witness_ReductionsScansPredicates : (sG .v).served.grp = some g0 ∧ okay (readSrc (kG .v) 5 g0 (.q 2 true)) = true ∧
    okay (readOq (sG .v).served g0 1 true) = true ∧ activeAt (kG .v) ⟨0, false⟩ 4 127 = true ∧ activeAt (kG .v) ⟨0, true⟩ 4 127 = false := by
  decide +kernel

/-! Matrix words and stream control. -/

/-- Slot 0 holds a tile of the default entry's weight type, and tiles 1 and 15 are full. -/
def kM : Core :=
  { kG .m with mx := { Mx.init [] with ws0 := ⟨0, BitVec.ofNat 4 (Ent.ofBits 0x0033).b, 0x3F800000⟩ },
               tiles := [(1, ⟨5, true, none, []⟩), (15, ⟨5, true, none, []⟩)] }
def sM : State := { sOf kM with curSt := .m }

/-- A charge that the bucket holds, one past it, and a follow-on that goes first. -/
theorem witness_MatrixGroupCommits :
    sM.me.mayCommit 5 .m { g0 with charge := 128 } ∧ sM.yieldsTo 0 128 = false ∧
    (let s := { sOf { kM with mx := { kM.mx with bucket := 0, refilled := 5 } } with curSt := .m }
     s.me.mayCommit 5 .m { g0 with charge := 128 } ∧ s.yieldsTo 0 128 = false ∧ s.me.mx.bucket < min 20480 (5 * 128)) ∧
    (sOf { kM with fos := [⟨0, [], .op 0 0 1, []⟩] }).yieldsTo 0 128 = true := by unfold Core.mayCommit; decide +kernel

theorem witness_WeightsAndAccumulatorRows : sM.served.grp = some g0 ∧
    okay (readScale sM.served g0 (.imm 0x3F800000)) = true ∧
    (let e := (g0.mxOf sM.me).pick sM.served.levels false none
     ¬ (e.b = 2 ∧ (15 : TReg) = 15) ∧ (tilePair 15 e.b).all (fun i => (sM.me.tile i).full && (sM.me.tile i).held.isNone) = true) ∧
    okay (accBase sM.served ⟨0, none⟩ 128) = true ∧ okay (accBase sM.served ⟨896, none⟩ 128) = true ∧ okay (accBase sM.served ⟨1023, none⟩ 1) = true ∧
    okay (readSrc sM.me 5 g0 (.q 1 false)) = true := by decide +kernel

def gathers : Except WStop (List Nat × Grp) := do
  let e := (g0.mxOf sM.me).pick sM.served.levels false none
  let (iv, g1) ← readSrc sM.me 5 g0 (.q 2 false)
  let (_, g2) ← gatherRows sM (sM.accGrp 0 .m g0) (sM.me.getH 4) false (rowBytes e.a) (gatherOffs iv 1 0 (rowBytes e.a)) g1
  rowScales sM.served e 0 1 g2

theorem witness_MatrixMultiplication : sM.served.grp = some g0 ∧ okay gathers = true ∧
    (let m := g0.mxOf sM.me
     let e := m.pick sM.served.levels false none
     let slot := m.slot false
     slot.ty ≠ 0 ∧ (e.a = 5 ↔ slot.ty = 5) ∧ e.a ≠ 5 ∧ ¬ (e.a = 2 ∧ (1 : TReg) = 15) ∧
       (tilePair 1 e.a).all (fun i => (sM.me.tile i).full) = true ∧ okay (rowScales sM.served e 0 1 g0) = true ∧
       okay (accBase sM.served ⟨1023, none⟩ 1) = true ∧ sM.curSt = .m ∧
       okay (checkHandle sM.me.world (sM.me.getH 4) 0 .load [2]) = true ∧ okay (gatherBase sM.served ⟨0, none⟩) = true) := by decide +kernel

/-- Entries at granules 40 to 47; a count reached and one past it; a class. -/
theorem witness_MatrixControlWords : sM.served.grp = some g0 ∧
    (let s := withGran (sOf { kM with ftSnap := 40 }) ((upFrom 40 8).map fun g => (g, 0x00330033))
     40 + 8 ≤ codeLenOf s.me.code ∧ s.ecc2 = [] ∧ (upFrom 40 8).all s.me.hasGran = true ∧
       ((List.range 16).map fun i => BitVec.ofNat 16 (s.gran 0 (40 + i / 2) / 2 ^ (16 * (i % 2)))).all (fun e => (Ent.ofBits e).valid) = true) ∧
    (sM.me.foc - (0 : BitVec 32)).toNat < 2 ^ 31 ∧ ¬ (sM.me.foc - (1 : BitVec 32)).toNat < 2 ^ 31 ∧
    okay (readOq sM.served g0 1 false) = true ∧ sM.served.oqs.getD 1 [] = [oqe 3] ∧ ¬ (sM.me.foc - (3 : BitVec 32)).toNat < 2 ^ 31 ∧
    ((3 : BitVec 32) - 3).toNat < 2 ^ 31 ∧ stops .block (readOq sM.served g0 2 false) = true ∧ (g0.mxOf sM.me).cls < 4 := by decide +kernel

def withWord (s : State) (g : Nat) (i : Instr) : State :=
  { s with mem := memPuts s.mem ((upFrom (imemKey 0 (4 * g)) 12).zip (bytesOf 12 ((encode i).getD 0).toNat)) }

/-- The state that an answer leaves, and what it answers. -/
def leaves {α : Type} [DecidableEq α] (x : α) (s : State) : Except Flt (α × State) → Bool
  | .ok r => decide (r = (x, s))
  | .error _ => false

/-- A loop record of two trips and one of none at granules 40 and 50, and an ENDLOOP at 23; six levels; a level in its first and one in
its last instance. -/
theorem witness_StreamControlWords :
    (let s := withWord (withGran (sG .v) [(40, 2), (41, 4), (50, 0)]) 23 .endloop
     s.curSt ≠ .h ∧ s.served.levels.length < 6 ∧ (20 : Int) + (20 : BitVec 30).toInt = 40 ∧ 50 + 5 ≤ codeLenOf s.me.code ∧
       s.ecc2 = [] ∧ (upFrom 40 15).all s.me.hasGran = true ∧ s.gran 0 40 ≠ 0 ∧ s.served.sec ≠ some ((20 + 3) % 65536) ∧
       s.served.oqs.getD 0 [] = [oqe 8] ∧ s.gran 0 50 = 0 ∧ leaves (some 26) s (matchGo 0 .v 100 4096 s 23 0) = true ∧
       leaves 23 s (decodeOver 0 .v 100 26 4096 s 23 20) = true ∧ s.served.sec ≠ some 26) ∧
    6 ≤ (List.replicate 6 (⟨2, 0, 20, []⟩ : Level)).length ∧
    (let l : Level := ⟨2, 0, 20, []⟩
     l.count.toNat + 1 < l.trip.toNat ∧ (sG .v).served.sec ≠ some l.body.toNat) ∧
    (let l : Level := ⟨2, 1, 20, []⟩
     l.trip.toNat ≤ l.count.toNat + 1) ∧ okay (readOq (sG .v).served g0 0 false) = true := by decide +kernel

/-- A SKIPZ of one word: its word decodes, its queue's head is 8 or 0, and the mask-stack top is whole or, under an empty mask, zero. -/
theorem witness_StreamControlWords_skips :
    (let s := withWord (sG .v) 23 (.nopStream ctl1)
     okay (s.skipCheck 0 .v 100 20 1) = true ∧ leaves () s ((s.skipCheck 0 .v 100 20 1).map fun t => ((), t)) = true ∧
       leaves 23 s (decodeOver 0 .v 100 26 4096 s 23 20) = true ∧ s.served.sec ≠ some 26 ∧
       s.served.oqs.getD 0 [] = [oqe 8] ∧ (oqe 8).val ≠ 0 ∧ (oqe 0).val = 0) ∧
    maskTop (sG .v).me.mask ≠ 0 ∧ maskTop [0] = 0 := by decide +kernel

/-! Copies and synchronisation. -/

def kW : Compl := ⟨false, 0, false, 0⟩
def opOf (n : Nat) (b : OpBody) (p : OpPhase) : CopyOp :=
  { n := n, body := b, k := kW, bar := ⟨.none, 0⟩, snap := [(4, scratch)], fo := none, pre := none, phase := p, prog := 0, p := 0,
    levels := [], cur := none, clk := [], seen := 0, home := 0, cut := none }
def jobA : Job := ⟨.copy, true, 4, 4, 0, 0, 0, 8192, 256, 1, false⟩
def withOps (k : Core) (os : List CopyOp) : Core :=
  { k with cqs := [{ CopyQ.empty with assigned := os.length, ops := os }, .empty, .empty, .empty] }

theorem witness_CopyInstructionsQueue :
    sA.me.cqs.length = 4 ∧ (sA.me.cq 0).ops.length < 16 ∧
    16 ≤ ((withOps kA ((upFrom 1 16).map fun n => opOf n (.job jobA) .queued)).cq 0).ops.length ∧
    okay (followCheck ((encode (.mma ctl1 false 0 1 0 0 none false 0xF ⟨0, none⟩)).getD 0)) = true := by decide +kernel

theorem witness_CopyQueueControl :
    (let v : CopyQ := { CopyQ.empty with assigned := 33, recs := [(2, CStat.ok)], firstFail := 5 }
     (2 : Nat) ≠ 0 ∧ 2 ≤ v.assigned ∧ v.assigned < 2 + 32 ∧ tabFind v.recs 2 = some CStat.ok ∧ v.unstarted = []) ∧
    tabFind (sA.me.cq 0).recs 1 = none ∧
    (let k := withOps kA [opOf 1 (.job jobA) .queued]
     k.cqs.length = 4 ∧ k.op 0 1 = some (opOf 1 (.job jobA) .queued) ∧ (opOf 1 (.job jobA) .queued).phase = .queued ∧
       (1 : Nat) = (k.cq 0).completed + 1 ∧ (k.cq 0).done = [] ∧ (k.cq 0).unstarted = [1]) := by decide +kernel

def semOf (v : BitVec 32) (ws : List SemWaiter) : State := { sA with sems := [(semKey 1 0 3, ⟨v, ws, []⟩)] }

/-- Values that just reach the count and just miss it, sums of 2^32 - 1 and 2^32; a heap with one free run. -/
theorem witness_SemaphoresAndHeaps :
    sA.curSt = .h ∧ sA.me.hs.wait = none ∧ semKey 1 0 3 = 1 * 2048 + 0 * 256 + 3 ∧
    ((semOf 4 []).sem (semKey 1 0 3)).waiters = [] ∧ (4 : BitVec 16).toNat ≤ ((semOf 4 []).sem (semKey 1 0 3)).value.toNat ∧
    ((semOf 4 []).sem (semKey 1 0 3)).value.toNat < (5 : BitVec 16).toNat ∧
    ((semOf 0xFFFFFFFE []).sem (semKey 1 0 3)).value.toNat + (1 : BitVec 16).toNat < 2 ^ 32 ∧
    2 ^ 32 ≤ ((semOf 0xFFFFFFFE []).sem (semKey 1 0 3)).value.toNat + (2 : BitVec 16).toNat ∧
    (sA.me.getX 1).toNat < 2 ^ 32 ∧ 2 ^ 32 ≤ (sA.me.getX 5).toNat ∧
    (let s := semOf 1 [.strm 0 .h 2]
     let s := s.modStrm 0 .h fun v => { v with wait := some ⟨.sem (semKey 1 0 3) 2, false, 0, [], 0⟩ }
     (s.sem (semKey 1 0 3)).waiters = [.strm 0 .h 2] ∧ (s.sem (semKey 1 0 3)).value.toNat + 1 < 2 ^ 32 ∧
       (s.strm 0 .h).wait = some ⟨.sem (semKey 1 0 3) 2, false, 0, [], 0⟩ ∧ 2 ≤ (s.sem (semKey 1 0 3)).value.toNat + 1) ∧
    (let s := semOf 1 [.strm 0 .h 3]
     (s.sem (semKey 1 0 3)).value.toNat + 1 < 3) := by decide +kernel

/-! A world with a page tree: one leaf of 1 GiB maps its first addresses onto its berth's share. -/

def hbmH : Handle := { Handle.cleared with format := 1, rights := 0xE9, world := 1, length := 1048576, isSealed := true }
def heapH : Handle := { Handle.cleared with format := 3, rights := 0xE1, world := 1, base := 1048576, length := 256, isSealed := true }
def kP : Core := { kA with h := [(2, codeH), (3, heapH), (4, scratch), (6, hbmH)] }
def le8 (a v : Nat) : List (Nat × Byte) := (upFrom a 8).zip (bytesOf 8 v)
def sP : State :=
  { sOf kP with
    worlds := [(1, { liveW with root := 0x1000 })], berths := [(0, { Berth.free with desc := BitVec.ofNat 256 (2 ^ 102) })]
    mem := memPuts [] (le8 0x1000 0x2001 ++ le8 0x2000 0x3001 ++ le8 0x3000 0x1D3) }
def barAt (r : BarRec) : State := { sA with mem := memPuts [] ((upFrom (scrKey 64) 16).zip (bytesOf 16 r.toNat)) }

/-- Records with one arrival left, with two, exhausted, malformed, and never used; a core of no task. -/
theorem witness_Barriers :
    sA.me.hs.wait = none ∧ sA.me.task = none ∧ sA.barWs = [] ∧
    okay ((barAt ⟨3, 96, 1, 0, 0, 0, 0, 0⟩).barCheck scratch 64 true) = true ∧
    ((barAt ⟨3, 96, 1, 0, 0, 0, 0, 0⟩).barCheck scratch 64 true).toOption.map (fun r => (r.1, r.2.1)) = some (scrKey 64, 64) ∧
    (let r := (barAt ⟨3, 96, 1, 0, 0, 5, 0, 0⟩).barRec (scrKey 64)
     1 ≤ r.exp ∧ r.exp ≤ 96 ∧ r.pend ≤ r.exp ∧ r.rsv = 0 ∧ r.pend = 1 ∧ r.inn = 0 ∧ r.out = 0 ∧ r.gen = 3) ∧
    (let r := (barAt ⟨3, 2, 2, 0, 0, 0, 0, 0⟩).barRec (scrKey 64)
     0 < r.pend ∧ ¬ (r.pend = 1 ∧ r.inn = 0 ∧ r.out = 0)) ∧
    ((barAt ⟨3, 2, 0, 0, 0, 0, 0, 0⟩).barRec (scrKey 64)).pend = 0 ∧
    ¬ ((barAt ⟨3, 97, 1, 0, 0, 0, 0, 0⟩).barRec (scrKey 64)).exp ≤ 96 ∧
    (sA.barRec (scrKey 64)).exp = 0 ∧ (0x0000000000000060 : Nat) % 256 ≤ 96 ∧ ¬ (0x61 : Nat) % 256 ≤ 96 ∧
    okay (sA.barCheck scratch 64 false) = true ∧ (sA.me.getX 1).toNat ≥ 16 ∧ (sA.me.getX 2).toNat < 16 ∧
    (sA.barRec (scrKey 64)).gen = (sA.me.getX 0).toNat := by decide +kernel

/-- Operands of 4, 8 and 16 bytes at the last offsets that fit; a block of zeros whose 128 lanes all name element 0, and one lane. -/
theorem witness_Atomics :
    okay (sA.access (sA.accOf 0 .h) (sA.me.getH 4) 65532 4 .atomic 4 false [1, 2, 3] sA.sectors) = true ∧
    okay (sA.access (sA.accOf 0 .h) (sA.me.getH 4) 65528 8 .atomic 8 false [1, 2, 3] sA.sectors) = true ∧
    okay (sA.access (sA.accOf 0 .h) (sA.me.getH 4) 65520 16 .atomic 16 false [1, 2, 3] sA.sectors) = true ∧
    (8 : XReg).toNat % 2 = 0 ∧
    okay (sA.access (sA.accOf 0 .h) (sA.me.getH 4) 0 (512 + 128 * 4) .load 4 false [2] sA.sectors) = true ∧
    okay (sA.access (sA.accOf 0 .h) (sA.me.getH 4) 0 (512 + 128 * 4) .store 4 false [2] sA.sectors) = true ∧
    okay (checkHandle sA.me.world (sA.me.getH 4) 0 .load [2]) = true ∧
    (vamoLanes (List.replicate 512 0) 0 4).length = 128 ∧
    okay (vamoCheck sA (sA.accOf 0 .h) (sA.me.getH 4) 4 [(0, 1024), (5, 1028)] sA.sectors) = true := by decide +kernel

/-- A flag that its relation holds for and one that it does not; a timeline reached and one not. -/
theorem witness_FencesAndWaits :
    sA.me.status.getLsbD 0 = false ∧ (supv kA).status.getLsbD 0 = true ∧ (sA.me.getX 0).toNat = 0 ∧ 0 < (sA.me.getX 1).toNat ∧
    sA.curSt = .h ∧ (sA.me.cq 0).completed < (sA.me.getX 1).toNat ∧ (sA.me.getX 0).toNat ≤ (sA.me.cq 0).completed ∧
    (let s := sG .v
     s.curSt ≠ .h ∧ s.served.leavesOpen (s.served.pc + 3) = false ∧ s.served.sec ≠ some (s.served.pc + 3).toNat ∧
       ({ (kG .v) with cqs := List.replicate 4 { CopyQ.empty with completed := 8 } } : Core).cqs.length = 4 ∧
       s.served.oqs.getD 0 [] = [oqe 8]) ∧
    sP.me.hs.wait = none ∧
    okay (sP.check (sP.accOf 0 .h) (sP.me.getH 6) 4096 8 .load 8 [1, 3]) = true ∧
    Rel.holds .eq 0 (sP.me.getX 0) = true ∧ Rel.holds .eq 0 (sP.me.getX 1) = false := by decide +kernel

theorem witness_SemaphoresAndHeaps_heaps :
    (sP.me.getX 0) = 0 ∧ sP.me.getX 1 ≠ 0 ∧
    (let runs := (sP.heap 1 0).runs
     freeRun 64 runs 0 + 64 ≤ (sP.me.getH 3).length.toNat ∧ (sP.me.getH 3).length.toNat < freeRun 320 runs 0 + 320) ∧
    okay (sP.access (sP.accOf 0 .h) (sP.me.getH 3) 0 64 .store 1 true [3] sP.sectors) = true ∧
    (let s := { sP with heaps := [(heapKey 1 0, ⟨0, 256, [(10, 64)]⟩)] }
     (∃ r ∈ (s.heap 1 0).runs, r.1 = (s.me.getX 2).toNat) ∧ ∀ r ∈ (s.heap 1 0).runs, r.1 ≠ (s.me.getX 1).toNat) := by decide +kernel

/-! Tasks. -/

def idT (i : Nat) (future : Bool) : X64 := taskId 1 1 0 future i
def tcbA : Tcb := { Tcb.blank with gsize := 8, die := 15, pri := 3, lrec := 256, args := List.replicate 8 0 }
def taskW (st : TaskSt) (future : Bool) : Task :=
  { Task.free with inc := 1, st := st, world := 1, future := future, code := codeH, reach := if future then 1 else 0 }
/-- Task 5 runs on core 0 and holds references to the futures 6 (done, published), 7 (running) and 11 (running); 8 is held, 9 ready,
10 done. Its control block lies in the scratchpad, its loop record at granule 256 of the code. -/
def sT : State :=
  { sP with
    cores := [(0, { kP with
      task := some (0, 5), gang := 0,
      x := [(1, 1024), (10, idT 6 true), (11, idT 7 true), (12, idT 8 false), (13, idT 9 false), (14, idT 10 false), (15, taskId 1 2 0 true 6),
        (16, 15), (17, 16), (18, idT 11 true), (19, 1)] })]
    berths := [(0, { Berth.free with desc := BitVec.ofNat 256 (2 ^ 184 + 2 ^ 102) })]
    tasks := [(5, { taskW .running true with cores := [0], refs := [(idT 6 true, 1), (idT 7 true, 2), (idT 11 true, 1)] }),
      (6, { taskW .done true with pub := some 9 }), (7, { taskW .running true with reach := 2 }), (8, taskW .held false),
      (9, { taskW .ready false with pri := 2 }), (10, taskW .done false), (11, taskW .running true)]
    ready := [(readyKey 0 1 2, [9])]
    mem := memPuts sP.mem ((upFrom (scrKey 1024) 384).zip tcbA.bytes ++ (upFrom 1024 8).zip (bytesOf 8 (0x0004FFFF + 2 ^ 32 * 0xFFFF))) }

/-- A gang of all eight cores that the berth holds; the lowest free entry. -/
theorem witness_LaunchesAndIdentifiers :
    okay (sT.readTcb (sT.me.getH 4) 1024 sT.me.code) = true ∧
    (match sT.readTcb (sT.me.getH 4) 1024 sT.me.code with
     | .ok r => decide (r.die = 0 ∧ r.tcb.gsize = 8 ∧ r.tcb.ker = 4 ∧ r.tcb.wcount = 0 ∧ sT.tokFault r.tcb.tok = none)
     | .error _ => false) = true ∧
    (sT.world sT.me.world).st ≠ .ending ∧ sT.myRefs.length < 32 ∧ sT.freeEntry 0 = some 0 ∧ sT.me.task = some (0, 5) ∧ taskKey 0 5 ≠ taskKey 0 0 ∧
    (sT.sem (semKey 1 0 0)).value = 0 ∧ (sT.sem (semKey 1 0 0)).waiters = [] ∧
    (0 ≤ 5 ∧ 6 < 4096 ∧ (sT.taskAt 0 6).world < 4096 ∧ (sT.taskAt 0 6).st ≠ .free) ∧
    sT.findTask 1 (idT 6 true) = some (0, 6) := by decide +kernel

theorem witness_Futures :
    sT.me.hs.wait = none ∧ sT.findTask sT.me.world (sT.me.getX 10) = some (0, 6) ∧ sT.findTask sT.me.world (sT.me.getX 11) = some (0, 7) ∧
    sT.findTask sT.me.world (sT.me.getX 18) = some (0, 11) ∧
    holdsRef (sT.taskAt 0 5).refs (sT.idOf 0 6) = true ∧ holdsRef (sT.taskAt 0 5).refs (sT.idOf 0 7) = true ∧
    ((sT.taskAt 0 5).refs.map (·.1)).Nodup ∧ (sT.taskAt 0 6).future = true ∧
    (sT.taskAt 0 6).reach = 1 ∧ (sT.taskAt 0 6).st = .done ∧ (sT.taskAt 0 6).pub = some 9 ∧
    1 < (sT.taskAt 0 7).reach ∧ (sT.taskAt 0 7).reach < 65535 ∧ (sT.taskAt 0 7).pub = none ∧ (sT.taskAt 0 7).st ≠ .waiting ∧
    (sT.taskAt 0 11).reach = 1 ∧ (sT.taskAt 0 11).st = .running ∧
    (sT.taskAt 0 5).future = true ∧ (sT.taskAt 0 5).pub = none ∧ (sT.taskAt 0 6).pub ≠ none ∧ (sT.taskAt 0 8).future = false := by
  decide +kernel

/-- A held, a running, a done and a ready task; priorities 15 and 16; an identifier of another incarnation, of another world, and a
plain task's. -/
theorem witness_TaskControlWords :
    sT.findTask sT.me.world (sT.me.getX 12) = some (0, 8) ∧ (sT.taskAt 0 8).st = .held ∧
    okay (sT.readTcb (sT.me.getH 4) 1024 (sT.taskAt 0 8).code) = true ∧
    (sT.taskAt 0 8).refs = [] ∧ (sT.taskAt 0 8).tcb.sigs = [] ∧ (sT.taskAt 0 8).cores = [] ∧ (sT.taskAt 0 8).recAt = .none ∧
    sT.findTask sT.me.world (sT.me.getX 13) = some (0, 9) ∧ (sT.taskAt 0 9).st = .ready ∧
    sT.findTask sT.me.world (sT.me.getX 14) = some (0, 10) ∧ (sT.taskAt 0 10).st = .done ∧
    (sT.me.getX 16).toNat < 16 ∧ ¬ (sT.me.getX 17).toNat < 16 ∧
    sT.findTask sT.me.world (sT.me.getX 15) = none ∧ (sT.me.getX 15).toNat / 2 ^ 52 = sT.me.world ∧ (sT.me.getX 15).toNat / 2 ^ 16 % 16 ≤ 5 ∧
    sT.findTask sT.me.world (sT.me.getX 1) = none ∧ (sT.me.getX 1).toNat / 2 ^ 52 ≠ sT.me.world ∧ (sT.taskAt 0 8).future = false ∧
    holdsRef sT.myRefs (sT.idOf 0 9) = false := by decide +kernel

theorem witness_TaskPositionWords :
    sT.me.task = some (0, 5) ∧ (sT.taskAt 0 5).marked = false ∧ (sT.taskAt 0 5).yieldPend = false ∧ sT.me.gang.toNat % 128 = 0 ∧
    ends.all (fun st => decide ((sT.me.strm st).run = .absent)) = true ∧ sT.me.drained = true ∧
    (sT.taskAt 0 5).cores[(sT.me.getX 0).toNat]? = some 0 ∧ (sT.taskAt 0 5).cores[(sT.me.getX 19).toNat]? = none ∧ sA.me.task = none ∧
    (sT.taskAt 0 6).pub = some 9 ∧ (sT.taskAt 0 6).outcome.status = 0 ∧ (sT.taskAt 0 7).pub = none := by decide +kernel

/-! Fabric. -/

def remoteH : Handle :=
  { Handle.cleared with format := 4, rights := 0xE8, world := 1, base := BitVec.ofNat 57 (3 * 2 ^ 47 + 2 * 2 ^ 40), length := 65536, isSealed := true }
def grpBytes : List Byte := bytesOf 136 (2 ^ 3 + 2 ^ 992 + 5 * 2 ^ 1024)

/-- Members 3 and 992, window 5; queues with 64 operations and with none. -/
theorem witness_FabricInstructions :
    sA.me.fab.ops.length < 64 ∧ sA.me.fab.assigned ≤ sA.me.fab.completed ∧
    ({ FabQ.empty with assigned := 3, completed := 2 } : FabQ).completed < 3 ∧
    (let s := { sOf (supv kP) with mem := memPuts [] ((upFrom (scrKey 0) 136).zip grpBytes) }
     s.me.status.getLsbD 0 = true ∧ okay (s.access (s.accOf 0 .h) (s.me.getH 4) 0 136 .load 8 false [1, 2, 3] s.sectors) = true ∧
       (let n := ofBytes ((upFrom (scrKey 0) 136).map (memGet s.mem))
        n / 2 ^ 993 % 2 ^ 31 = 0 ∧ n / 2 ^ 1031 = 0 ∧ n.testBit 992 = true ∧ 992 ≠ s.fabId)) ∧
    sA.me.status.getLsbD 0 = false := by decide +kernel

def fabOp (k : FabKind) (p : FabPhase) : FabOp :=
  { n := 1, kind := k, remote := remoteH, localH := scratch, ro := 0, lo := 0, bad := false, sig := none, phase := p, inc := 0,
    members := [], prog := 0, got := [], ports := [], avoid := [], flagOut := false, acks := [], clk := [], cut := none }
def sF (o : FabOp) : State :=
  { sOf { kP with fab := { FabQ.empty with assigned := 1, ops := [o] } } with
    routes := [(3, 0x63), (4, 0x43), (5, 0x1043)], ports := [(3, { Port.init with st := .opened, lanes := 2, peer := 3, rxKey := linkKey0 0 1 })] }
def castH : Handle := { remoteH with base := BitVec.ofNat 57 (1023 * 2 ^ 47 + 2 * 2 ^ 40) }

def sG1 (o : FabOp) : State := { sF o with worlds := [(1, { liveW with groups := [(2, ⟨true, 1, 5, [(3, 0), (4, 0)]⟩)] })] }

/-- A load of 64 bytes that passes, one outside its local handle, one whose device no port reaches, and a multicast load. -/
theorem witness_FabricStartAndReply :
    (let o := fabOp (.rmld 64) .queued
     let s := sF o
     o ∈ (s.core 0).fab.ops ∧ (∀ x ∈ (s.core 0).fab.ops, x.n = 1 ↔ x = o) ∧ s.fabMayStart 0 o = true ∧ okay (s.fabCheck 0 o) = true ∧
       o.kind.isMulticast = false ∧ o.remote.base.toNat / 2 ^ 47 = 3 ∧ s.reachable 0 3 = true ∧ { s with routes := [] }.reachable 0 3 = false ∧
       (s.port (rtMin (s.routeOf 0 3))).st = .opened) ∧
    (let o := fabOp (.rmld 65537) .queued
     okay ((sF o).fabCheck 0 o) = false) ∧
    (let o := { fabOp (.mcld .add .w4 64 4096) .queued with remote := castH }
     okay ((sF o).fabCheck 0 o) = true ∧ o.remote.base.toNat / 2 ^ 40 % 128 = 2 ∧ (((sF o).world 1).group 2).valid = false ∧
       (((sG1 o).world 1).group 2).valid = true) ∧
    (let o := fabOp (.rmld 4) (.sent 7 0 0)
     let s := { sF o with now := 2097152 }
     o ∈ (s.core 0).fab.ops ∧ (∀ x ∈ (s.core 0).fab.ops, x.n = 1 ↔ x = o) ∧ o.got = [] ∧ o.localH.revoked = false ∧
       okay (s.check (s.accFab 0 o) o.localH o.lo 4 .store 1 [1, 2]) = true ∧ 0 + 2097152 ≤ s.now ∧ (sF o).now < 0 + 2097152) ∧
    (let o := { fabOp (.rmst 64 0) (.sent 7 8 0) with flagOut := true, ports := [4] }
     o.kind = .rmst 64 0 ∧ o.flagOut = true ∧ o.kind.isMulticast = false ∧ (sF o).pathLost o = true ∧
       (sF o).pathLost { o with ports := [3] } = false) := by decide +kernel

/-- A queue of MIN at 64 and one past it above another's; one member past what a copy lists; a record of two members. -/
theorem witness_FabricStartAndReply_hops :
    rtOther 0x10C0 = [4] ∧ rtMin 0x10C0 = 0 ∧ (64 : Nat) ≤ 0 + 64 ∧ 0 + 64 < 65 ∧
    (let s := sF (fabOp (.rmld 4) .queued)
     rtDirect (s.routeOf 0 3) = true ∧ rtDirect (s.routeOf 0 4) = false ∧ rtMin (s.routeOf 0 4) = 3 ∧
       copiesOf s 0 3 [3, 4] = [(3, true, [4])] ∧ (copiesOf s 0 3 (List.replicate 13 4)).length = 2) ∧
    (let o := { fabOp (.mcst 64 4096 0) (.sent 7 0 0) with remote := castH, members := [(3, 0), (4, 0)], inc := 1 }
     let rs : List MemberReply := [⟨4, 5, []⟩, ⟨3, 0, []⟩]
     let s := rs.foldl (fun s r => s.noteRefusal 0 r.reason) (sG1 o)
     (o.members.map (·.1)).Nodup ∧ (rs.map (·.dev)).Nodup ∧ o.members.all (fun m => decide (m.2 = 0)) = true ∧
       s.castStale 0 o = false ∧ okay (s.check (s.accFab 0 o) o.localH (0 + 4096) 64 .store 1 [1, 2]) = true) := by decide +kernel

def reqA : ReqId := ⟨3, 8, 5⟩
def winA : Window := ⟨true, hbmH, [(3, 4)]⟩
/-- Window 2 of world 1, over the first 64 KiB of core 0's scratchpad, open to world 4 of device 3. -/
def sW : State :=
  { sP with
    worlds := [(1, { liveW with root := 0x1000, windows := [(2, winA), (4, { winA with h := { hbmH with revoked := true } }), (6, { winA with opened := false })] })],
    cache := [(9, [⟨⟨9, 1, 1⟩, .ok []⟩])] }

theorem witness_FabricTarget :
    tabFind (sW.world 1).windows 2 = some winA ∧ (reqA.dev, 4) ∈ winA.sources ∧ (sW.world 1).st = .live ∧ winA.opened = true ∧
    winA.h.revoked = false ∧ 0 = sW.incarnation ∧ 1 ≠ sW.incarnation ∧ sW.branches = [] ∧
    (let x : Incoming := ⟨reqA, ⟨4, 1, 2, 0⟩, [(0, 64)], [], 0, none⟩
     x.sum = 64 ∧ x.pairs = [] ∧ x.nak = 0) ∧
    ((tabFind (sW.world 1).windows 4).map (·.h.revoked) = some true ∧ (tabFind (sW.world 1).windows 6).map (·.opened) = some false) ∧
    sW.cached reqA = none ∧ (∀ z ∈ sW.incoming, z.id ≠ reqA) ∧ sW.cached ⟨9, 1, 1⟩ = some (.ok []) ∧
    okay (sW.check (engineAcc 0 1) hbmH 16384 64 .load 1 [1, 2]) = true ∧ okay (sW.check (engineAcc 0 1) hbmH 16384 64 .store 1 [1, 2]) = true ∧
    okay (sW.check (engineAcc 0 1) hbmH 16448 8 .store 8 [1, 2]) = true ∧ okay (sW.check (engineAcc 0 1) hbmH 16384 16 .atomic 16 [1, 2]) = true ∧
    okay (sW.check (engineAcc 0 1) hbmH (16384 + 4 * 3) 4 .atomic 4 [1, 2]) = true ∧
    okay ((sW.putBytes 1 [(16396, 1)]).check (engineAcc 0 1) hbmH 16448 8 .store 8 [1, 2]) = true ∧
    tabFind (sW.world 1).windows 3 = none ∧ (4, 4) ∉ winA.sources := by decide +kernel

def pairE : MergeEnt := ⟨0, 3, ⟨1, 1, 2, 0⟩, false, ⟨0, 1, [(reqA, 0)]⟩, 0⟩

/-- A pair to send on by an open port; a device behind it and one that is not; one operation in flight to it, point to point or cast. -/
theorem witness_FabricRouting :
    (let s := { sF (fabOp (.rmld 4) (.sent 7 0 0)) with merge := [pairE] }
     s.merge[0]? = some pairE ∧ s.reachable pairE.hub pairE.dst = true ∧ (s.port (rtMin (s.routeOf pairE.hub pairE.dst))).st = .opened ∧ s.now ≤ pairE.since + 64 ∧
       s.merge = [] ++ pairE :: [] ∧ s.reachable 0 4 = true ∧ 4 ≠ s.fabId ∧ (s.port 4).st ≠ .opened ∧ s.branches = [] ∧
       s.flightsTo 3 = [(0, 1)] ∧ s.castsTo 3 = [] ∧
       fabOp (.rmld 4) (.sent 7 0 0) ∈ (s.core 0).fab.ops ∧ (s.port 3).peer = 3) ∧
    (let o := { fabOp (.mcst 64 4096 0) (.sent 7 0 0) with remote := castH, members := [(3, 0), (4, 0)], inc := 1 }
     let s := sG1 o
     s.flightsTo 3 = [] ∧ s.castsTo 3 = [(0, 1)] ∧ o ∈ (s.core 0).fab.ops ∧ o.acks = []) := by decide +kernel

def portSt (st : PortSt) (lanes : Nat) (spare : Bool) : State :=
  { sP with stage := 5, ports := [(3, { Port.init with st := st, lanes := lanes, spareUsed := spare })] }
def spdmA (n : Nat) : Spdm := { Spdm.none with stage := n, algs := true, peer := 3, policy := true, mutAuth := true }
def spdmAt (n : Nat) : State := { portSt .attesting 2 false with ports := [(3, { Port.init with st := .attesting, spdm := spdmA n })] }

theorem witness_LinksAndSessions :
    ((portSt .opened 2 false).port 3).lanes ≠ 0 ∧ ((portSt .opened 2 false).port 3).spareUsed = false ∧
    ((portSt .opened 2 false).port 3).spareBad = false ∧ 2 ≤ ((portSt .opened 2 true).port 3).lanes ∧ ((portSt .opened 1 true).port 3).lanes = 1 ∧
    ((portSt .opened 2 false).port 3).st = .opened ∧ ((portSt .recovery 2 false).port 3).st = .recovery ∧
    ((portSt .recovery 2 false).port 3).since + 2400000 ≤ { portSt .recovery 2 false with now := 2400000 }.now ∧
    (portSt .recovery 2 false).now < 0 + 2400000 ∧ (3 < 32 ∧ (sP.port 3).st = .down ∧ (sP.port 3).fenced = false) ∧ ((portSt .recovery 2 false).port 3).hold = [] ∧ ({ Port.init with fenced := true } : Port).fenced = true ∧
    (([1, 2, 3] : List Nat).filter fun n => decide (5 < n + 1024)).length = 3 ∧ (([1, 2, 3] : List Nat).filter fun n => decide (1026 < n + 1024)).length < 3 ∧
    ({ Port.init with tx := 5 } : Port).tx + 1 < 2 ^ 24 ∧ ({ Port.init with tx := 2 ^ 24 - 1 } : Port).tx + 1 = (0 + 1) * 2 ^ 24 ∧ sP.fabIdSet = false ∧
    (spdmAt 1).sessionUp (.port 3) = true ∧ ((spdmAt 1).spdm (.port 3)).stage + 1 = 2 ∧ ((spdmAt 6).spdm (.port 3)).stage + 1 = 7 ∧
    ((spdmAt 7).spdm (.port 3)).stage = 7 ∧ ((spdmAt 8).spdm (.port 3)).stage = 8 ∧
    (let s := { sP with stage := 5 }.setSpdm (.host 8) (spdmA 7)
     s.sessionUp (.host 8) = true ∧ (s.spdm (.host 8)).stage = 7 ∧ (s.spdm (.host 8)).algs = true) ∧
    (sA.me.getX 0).toNat ≤ 31 ∧
    (let v : FabQ := { FabQ.empty with assigned := 64, recs := [(1, ⟨0x38, 1, 1, 3⟩)] }
     (1 : Nat) ≠ 0 ∧ 1 ≤ v.assigned ∧ v.assigned < 1 + 64 ∧ tabFind v.recs 1 = some ⟨0x38, 1, 1, 3⟩) ∧
    tabFind sA.me.fab.recs 0 = none := by decide +kernel

/-! Lodestar. -/

/-- Supervisor mode in world 1 of berth 0, which holds cluster 0 and 1 GiB. -/
def sS (w : World) : State :=
  { sP with
    cores := [(0, { supv kP with x := [(1, 1024), (2, 10), (3, 11), (4, 12), (5, 2 ^ 32), (6, 0xFFFFFFFF), (7, 1), (8, 4096), (9, 3 + 4 * 2 ^ 16)] })],
    worlds := [(1, w)], berths := [(0, { Berth.free with desc := BitVec.ofNat 256 (2 ^ 184 + 2 ^ 102 + 2 ^ 61), freshDone := true })],
    mem := memPuts sP.mem ((upFrom (scrKey 1024) 32).zip (bytesOf 32 { imgP with serial := 0 }.image.toNat)) }
def liveR : World := { liveW with root := 0x1000 }
def access32 (s : State) (off : Int) (n : Nat) (k : Kind) (al : Nat) : Bool :=
  okay (s.access (s.accOf 0 .h) (s.me.getH 4) off n k al false [1, 2, 3] s.sectors)

/-- A sound template; the last serial and none left; registers that LSEAL refuses and one that it seals. -/
theorem witness_HandleMinting :
    (sS liveR).lodeIdle = true ∧ (sS liveR).me.hs.wait = none ∧ sA.me.status.getLsbD 0 = false ∧ (sS liveR).me.status.getLsbD 0 = true ∧ access32 (sS liveR) 1024 32 .load 32 = true ∧
    (let img := Handle.ofImage (BitVec.ofNat 256 (ofBytes ((upFrom (scrKey 1024) 32).map (memGet (sS liveR).mem))))
     img.world.toNat = 1 ∧ img.serial = 0 ∧ img.sealv = 0 ∧ img.format = 1 ∧ (sS liveR).inReach 1 img = true ∧
       (sS liveR).inReach 1 { img with format := 2, base := 16777216 } = false) ∧
    (let img := Handle.ofImage (BitVec.ofNat 256 (ofBytes ((upFrom (scrKey 2048) 32).map (memGet (sS liveR).mem))))
     img.world.toNat ≠ 1) ∧
    { liveR with nextSerial := 4294967295 }.nextSerial < 2 ^ 32 ∧ 2 ^ 32 ≤ { liveR with nextSerial := 4294967296 }.nextSerial ∧
    (scratch.revoked = false ∧ scratch.world.toNat = 1 ∧ scratch.rights.getLsbD 0 = true ∧ liveR.isRevoked scratch.serial.toNat = false) ∧
    codeH.rights.getLsbD 0 = false ∧ liveR.isRevoked 10 = true ∧ Handle.cleared.format = 0 := by decide +kernel

def sweepA : Sweep :=
  { world := 1, op := .revoke 5 3, todo := [.coreRegs 0, .copyEngine 0, .windows], at0 := 0, regs := 0, before := 0, cut := 0,
    images := 0, wins := 0, who := some 0, dst := [], marked := [] }
def sweepS : State :=
  { sS liveR with
    sweep := some sweepA }

/-- A serial range that ends at the last serial and one past it; a frozen list with room and a full one; an agent of a sweep with others
after it, one whose registers are done, and the last. -/
theorem witness_RevocationAndFreezing :
    ((sS liveR).me.status.getLsbD 0 = true ∧ (sS liveR).me.hs.wait = none ∧ (sS liveR).lodeIdle = true ∧
      access32 (sS liveR) 64 64 .store 8 = true ∧ access32 (sS liveR) 1024 32 .store 1 = true) ∧
    (((sS liveR).me.getX 0).toNat = 0 ∧ ((sS liveR).me.getX 6).toNat + 1 ≤ 2 ^ 32 ∧ 2 ^ 32 < ((sS liveR).me.getX 6).toNat + 2 ∧
      (liveR.addRevoked 10 11).ranges.length ≤ 4096 ∧ ((sS liveR).me.getX 7).toNat = 1) ∧
    (hbmH.format = 1 ∧ hbmH.revoked = false ∧ hbmH.world.toNat = 1 ∧ hbmH.rights.getLsbD 6 = true ∧ hbmH.rights.getLsbD 0 = true) ∧
    liveR.frozen.length < 256 ∧ 256 ≤ { liveR with frozen := List.replicate 256 (0, 1, 0) }.frozen.length ∧
    ((⟨.request, true, 7, [], 1⟩ : Wait).seen = 1 ∧ (⟨.request, true, 7, [], 1⟩ : Wait).done = true) ∧
    (sweepS.sweep = some sweepA ∧ sweepA.op = .revoke 5 3 ∧ .coreRegs 0 ∈ sweepA.todo ∧ .windows ∈ sweepA.todo ∧ .coreRegs 1 ∉ sweepA.todo ∧
      sweepS.lodeFenced = [] ∧ sweepS.lodeQ.length ≤ 1 ∧
      .copyEngine 0 ∈ { sweepA with todo := [.copyEngine 0, .windows] }.todo ∧
      .coreRegs 0 ∉ { sweepA with todo := [.copyEngine 0, .windows] }.todo) := by decide +kernel

def rotA (m : Nat) : Rot := { marks := m :: List.replicate 11 0, q := 89480192, share := 2 ^ 30, sig := none, left := 0 }

/-- A blob of an owner of world 1 in session 7, in role r: its header and nonce, a share, the share's tag under the session's key. -/
def shareKeyA : List Byte := digestBytes (Config.sessionSecret 0)
def shareHead (r : Byte) : List Byte := [1, 0, r, 0, 7, 0, 0, 0] ++ List.replicate 12 0
def shareBody : List Byte := List.replicate 32 0
def shareBlob (r : Byte) : List Byte :=
  shareHead r ++ (shareBody ++ (gcmTag shareKeyA (List.replicate 12 0) (shareHead r) shareBody ++ List.replicate 60 0))
def awaitW (n : Nat) : World := { liveR with st := .awaiting, owners := n, shares := [] }
def sShare : State :=
  { sS (awaitW 1) with
    owned := [(1, 3, { Spdm.none with stage := 8, sid := 7 })], mem := memPuts [] ((upFrom (scrKey 1024) 128).zip (shareBlob 3)) }

theorem share_blob_length (r : Byte) : (shareBlob r).length = 128 := by
  simp [shareBlob, shareHead, shareBody, gcmTag_length shareKeyA _ _ _ (bytesOf_length 32 _)]

theorem share_opens (r : Byte) (hr : r = 2 ∨ r = 3) : ∃ share, sShare.openShare (shareBlob r) = some share := by
  have ht := gcmTag_length shareKeyA (List.replicate 12 0) (shareHead r) shareBody (bytesOf_length 32 _)
  have h1 : ((shareBlob r).drop 52).take 16 = gcmTag shareKeyA (List.replicate 12 0) (shareHead r) shareBody := by
    rw [show (shareBlob r).drop 52 = gcmTag shareKeyA (List.replicate 12 0) (shareHead r) shareBody ++ List.replicate 60 0 from rfl,
      List.take_append_of_le_length (by omega), List.take_of_length_le (by omega)]
  have h2 : sShare.openShare (shareBlob r) = (gcmOpen shareKeyA (List.replicate 12 0) (shareHead r) shareBody (((shareBlob r).drop 52).take 16)).bind
      fun share => some (digestOf share) := by rcases hr with rfl | rfl <;> rfl
  rw [h2, h1, gcmOpen, if_pos rfl]
  exact ⟨_, rfl⟩

theorem share_blob_reads : (piecesKeys [⟨1024, scrKey 1024, 128⟩]).map (memGet sShare.mem) = shareBlob 3 := by
  have h := memGet_memPuts_upFrom [] (scrKey 1024) (shareBlob 3)
  rw [share_blob_length] at h
  have e : piecesKeys [⟨1024, scrKey 1024, 128⟩] = upFrom (scrKey 1024) 128 := List.append_nil _
  rw [e]
  exact h

/-- A blob that opens is read through the handle, as the last and as the first share of its world; the blob of zeros opens nowhere. -/
theorem witness_SharesAndRotation :
    (∃ tab, sShare.access (sShare.accOf 0 .h) (sShare.me.getH 4) 1024 128 .load 1 false [1, 2, 3] sShare.sectors =
      .ok ([⟨1024, scrKey 1024, 128⟩], tab)) ∧
    (sShare.lodeIdle = true ∧ sShare.me.hs.wait = none ∧ sShare.me.status.getLsbD 0 = true ∧ ((shareBlob 3).getD 2 0).toNat = 3 ∧
      (sShare.world 1).owners = 1 ∧ (sShare.world 1).shares = [] ∧ (sShare.world 1).st = .awaiting ∧ (sShare.berth 0).freshDone = true) ∧
    (sS liveR).openShare (List.replicate 128 0) = none := ⟨⟨_, rfl⟩, by decide⟩

/-- The roles and states of the other clauses. A mark inside its region and marks at every region's end. -/
theorem witness_SharesAndKeyRotation :
    ((sS liveR).me.getX 7).toNat < 4096 ∧ access32 (sS liveR) 1024 128 .load 1 = true ∧
    (awaitW 2).owners = 2 ∧ roleFits 2 1 = true ∧ roleFits 1 3 = true ∧ roleFits 1 1 = false ∧
    (tabFind [(1, (0 : BitVec 256))] 1 ≠ none) ∧ liveR.st ≠ .awaiting ∧ liveR.rot = none ∧
    ({ liveR with rot := some (rotA 0) } : World).rot ≠ none ∧ (rotA 0).marks.length = 12 ∧
    (rotA 256).marks[0]? = some 256 ∧ 256 < min (2 ^ 30) ((0 + 1) * (((2 ^ 30 + 11) / 12 + 4095) / 4096 * 4096)) ∧
    (let r := { rotA 0 with marks := (upFrom 1 12).map fun i => min (2 ^ 30) (i * (((2 ^ 30 + 11) / 12 + 4095) / 4096 * 4096)) }
     r.marks.length = 12 ∧ r.sig = none ∧
       (List.range 12).all (fun i => decide (min r.share ((i + 1) * (((r.share + 11) / 12 + 4095) / 4096 * 4096)) ≤ r.marks.getD i 0)) = true) := by
  decide +kernel

/-- A root at the last page of the share and one past it; regions 11 and 12; a core that has drained and one whose stream runs. -/
theorem witness_LodestarReports :
    (sS liveR).lodeIdle = true ∧ (sS liveR).me.hs.wait = none ∧ sweepS.lodeIdle = false ∧ sweepS.me.hs.wait = none ∧ sweepS.me.busy = false ∧
    sweepS.me.drained = true ∧ sweepS.me.status.getLsbD 0 = true ∧ (sS liveR).me.drained = true ∧ ((runL kP).strm .l).run = .running ∧ (1 : BitVec 4) ≠ 0 ∧
    ends.all (fun st => decide (((sS liveR).me.strm st).run = .absent)) = true ∧
    okay (do
      let r ← (sS liveR).access ((sS liveR).accOf 0 .h) scratch 4096 4116 .store 64 false [1, 2, 3] (sS liveR).sectors
      (sS liveR).access ((sS liveR).accOf 0 .h) scratch 64 64 .load 1 false [1, 2, 3] r.2) = true ∧
    access32 (sS liveR) 8 40 .store 8 = true ∧
    (let size := ((sS liveR).berth 0).desc.toNat / 2 ^ 102 % 2 ^ 10 * 2 ^ 30
     (2 ^ 30 - 4096) % 4096 = 0 ∧ 2 ^ 30 - 4096 < size ∧ size ≤ 2 ^ 30) ∧
    ((sS liveR).me.getX 3).toNat ≤ 11 ∧ 11 < ((sS liveR).me.getX 4).toNat ∧ liveR.rot = none ∧ sA.me.status.getLsbD 0 = false := by decide +kernel

def win5 : Window := ⟨true, hbmH, [(5, 4)]⟩
/-- A window not open and one open to another source; a device that is reached and one that is not; an import whose answer is out. -/
theorem witness_Windows :
    (let s := sS { liveR with windows := [(11, win5)] }
     s.lodeIdle = true ∧ s.me.status.getLsbD 0 = true ∧ (s.me.getX 2).toNat < 128 ∧ (s.me.getX 9).toNat / 2 ^ 10 % 2 ^ 6 = 0 ∧
       (s.me.getX 9).toNat < 2 ^ 28 ∧ (s.me.getX 9).toNat % 2 ^ 10 ≤ 992 ∧ tabFind (s.world 1).windows 10 = none ∧
       tabFind (s.world 1).windows 11 = some win5 ∧ (3, 4) ∉ win5.sources ∧
       (s.world 1).imports.length < 256 ∧ s.me.hs.wait = none ∧ s.reachable s.lodestar 3 = false ∧
       { s with routes := [(s.lodestar * 1024 + 3, 0x43)] }.reachable s.lodestar 3 = true) ∧
    (hbmH.isSealed = true ∧ hbmH.revoked = false ∧ hbmH.world.toNat = 1 ∧ hbmH.format = 1 ∧ hbmH.rights.getLsbD 3 = true) ∧
    codeH.isSealed = false ∧ { hbmH with serial := 4 }.serial ≠ hbmH.serial ∧ (⟨.request, true, 64, [], 1⟩ : Wait).done = true ∧
    (let s := { sS liveR with lodeQ := [⟨.core 0 (.importWin 10 262147), 0, true⟩] }.modStrm 0 .h fun v =>
       { v with wait := some ⟨.request, false, 0, [], 1⟩ }
     s.lodeQ = [⟨.core 0 (.importWin 10 262147), 0, true⟩] ∧ s.sweep = none ∧ s.lodeFenced = [] ∧
       (s.core 0).hs.wait = some ⟨.request, false, 0, [], 1⟩) := by decide +kernel

/-! Sections, and the events of a core. -/

def headed (st : Stream) (h : BitVec 64) : State :=
  let s := sOf (kA.setStrm st { StreamSt.idle with run := .running, pc := 40 })
  { s with mem := memPuts s.mem ((upFrom (imemKey 0 160) 8).zip (bytesOf 8 h.toNat)) }
def headWord (s : State) : BitVec 64 := BitVec.ofNat 64 (ofBytes ((upFrom (imemKey 0 160) 8).map (memGet s.mem)))

/-- A header that waits for H's next instance and one that waits for none; BK; a stream end on its last pass and before it; windows of
section numbers at both ends. -/
theorem witness_SectionsAndHeaders :
    ((headed .v 0xA002008080808000).strm 0 .v).run = .running ∧ ((headed .v 0xA002008080808000).strm 0 .v).sec = none ∧
    kA.absent = [] ∧ kA.ecc = [] ∧ sA.ecc2 = [] ∧ 40 + 2 ≤ codeLenOf kA.code ∧ kA.hasGran 40 = true ∧ kA.hasGran 41 = true ∧
    decodeHeader false (headWord (headed .v 0xA002008080808000)) = .sect 2 false [0x80, 0x80, 0x80, 0x80] ∧
    (headed .v 0xA002008080808000).waitsMet 0 .v [0x80, 0x80, 0x80, 0x80] = true ∧
    decodeHeader false (headWord (headed .v 0xA002010080808000)) = .sect 2 true [0, 0x80, 0x80, 0x80] ∧
    (headed .v 0xA002010080808000).waitsMet 0 .v [0, 0x80, 0x80, 0x80] = false ∧
    decodeHeader false (headWord (headed .v 0xB001000000000000)) = .endHdr 1 ∧ ((headed .v 0xB001000000000000).strm 0 .v).passes < 1 ∧
    decodeHeader false (headWord (headed .v 0xB000000000000000)) = .endHdr 0 ∧
    (let w : Word96 := 0xA00000808080800000000000
     isHelmHeader w = true ∧ decodeHeader true (w.extractLsb' 32 64) = .sect 0 false [0x80, 0x80, 0x80, 0x80] ∧
       decodeHeader true ((0xA00001808080800000000000 : Word96).extractLsb' 32 64) = .sect 0 true [0x80, 0x80, 0x80, 0x80]) ∧
    kA.hrun = .running ∧ 12 + 3 ≤ codeLenOf kA.code ∧ (upFrom 12 3).all kA.hasGran = true ∧ kA.hs.sec ≠ some 12 ∧
    kA.tvec.getLsbD 0 = true ∧ kA.status.getLsbD 2 = true ∧
    (let v := { StreamSt.idle with run := .running, count := 44 }
     v.count.toNat = 300 % 256 ∧ (172 : Int) + (0 : BitVec 8).toInt ≤ 300 ∧ (300 : Int) ≤ 172 + 0 + 128 ∧ (427 : Int) + 0 - 127 ≤ 300) := by
  decide +kernel

def pendA : Pend := ⟨⟨.align, 0, 4⟩, .l, 20⟩
theorem witness_CoreEvents :
    kA.hrun = .running ∧ kA.progress + 2 ^ 24 ≤ { sA with now := 2 ^ 24 }.now ∧ sA.now < kA.progress + 2 ^ 24 ∧ kA.pend = [] ∧
    (let k := { kA with pend := [pendA] }
     k.pend = pendA :: [] ∧ k.hs.wait = none ∧ k.status.getLsbD 2 = true ∧ k.tvec.getLsbD 0 = true ∧ pendA.flt.code ≠ .integrity ∧
       pendA.flt.sub < 256 ∧ ∀ q ∈ k.pend, q.flt.code ≠ .watchdog) ∧
    (⟨.future 0 7, false, 0, [], 0⟩ : Wait).kind = .future 0 7 ∧ (⟨.request, false, 0, [], 0⟩ : Wait).seen = 0 ∧
    (let k := kA.setSlate 1 ⟨1010, true, .filling⟩
     k.slates[1]? = some ⟨1010, true, .filling⟩ ∧ min 24 (codeLenOf k.code - 1010) = 14) ∧
    kA.hrun ≠ .idle ∧ (upFrom 0 300).all kA.hasGran = true := by decide +kernel

def fo1 : FollowOn := ⟨(encode (.mma ctl1 false 0 1 0 0 none false 0xF ⟨0, none⟩)).getD 0, [], .op 0 0 1, []⟩
def idleM : StreamSt := { StreamSt.idle with oqs := [[oqe 0x3F800000], [], [], []] }
def sFo (k : Core) : State := sOf { k with fos := [fo1], offers := [(0, 1, fo1)], ms := idleM }
def foIn (k : Core) : State := (sFo k).setCore 0 { ({ k with fos := [fo1], offers := [(0, 1, fo1)], ms := idleM } : Core).settle 5 with fos := [], passFo := 0 }

/-- A follow-on whose tile and slot are there, one whose slot is empty, and queues with eight words and with one. -/
theorem witness_FollowOnWords :
    (sFo kM).me.offers.find? (fun e => e.1 == 0 && e.2.1 == 1) = some (0, 1, fo1) ∧ (sFo kM).me.fos.length < 8 ∧ 8 ≤ (List.replicate 8 fo1).length ∧
    (sFo kM).me.fos = fo1 :: [] ∧ (sFo kM).me.absent = [] ∧ (sFo kM).me.ecc = [] ∧ (sFo kM).me.ms.run ≠ .running ∧ (sFo kM).me.mx.bucket = 20480 ∧
    ((sFo kM).foCharge 0).isSome = true ∧ okay ((foIn kM).foBody 0 fo1 { Grp.open 0 with charge := 1 }) = true ∧
    (match (foIn { kM with mx := Mx.init [] }).foBody 0 fo1 { Grp.open 0 with charge := 1 } with
     | .error (.fault _) => true
     | _ => false) = true ∧ ({ kM with inFlight := [true] } : Core).inFlight = true :: [] := by decide +kernel

def jobS (st : OpPhase) (j : Job) : State := sOf (withOps kP [opOf 1 (.job j) st])
def jobO (st : OpPhase) (j : Job) : CopyOp := opOf 1 (.job j) st
def bindS : State :=
  let k := withOps kP [opOf 1 (.job { jobA with kind := .bind 2, w := 512, r := 1 }) .running]
  sOf { k with binds := [(2, [(0, 1)])] }

/-- An operation with a wait and without; checks that pass, for no bytes and for 256, and one that fails; a row that ends at a 4 KiB
boundary; a stream register with room. -/
theorem witness_CopyEvents :
    (jobS .queued jobA).me.op 0 1 = some (jobO .queued jobA) ∧ ((jobS .queued jobA).me.cq 0).turnOf 1 = true ∧
    ((jobS .queued jobA).me.cq 0).mayStart 1 (.job jobA) = true ∧ (jobO .queued jobA).pre = none ∧ jobA.tileReady kP = true ∧
    ({ kind := .tileIn, race := true, src := 4, dst := 4, tile := 1, mode := 0, so := 0, dOff := 0, w := 0, r := 0, keep := false } : Job).tileReady kM
      = false ∧
    ((jobS .queued jobA).sem (semKey 1 0 0)).value = 0 ∧ ((jobS .queued jobA).sem (semKey 1 0 0)).waiters = [] ∧
    okay (jobA.check ((jobS .queued jobA).accCopy 0 0 (jobO .queued jobA)) [(4, scratch)]) = true ∧
    okay ({ jobA with so := 65536 }.check ((jobS .queued jobA).accCopy 0 0 (jobO .queued jobA)) [(4, scratch)]) = false ∧
    jobA.w * jobA.r ≠ 0 ∧ { jobA with r := 0 }.w * { jobA with r := 0 }.r = 0 ∧
    (jobO (.ending CStat.ok) jobA).k.se = false ∧ (jobO (.ending CStat.ok) jobA).bar.mode = .none ∧
    (1 : Nat) = ((jobS .queued jobA).me.cq 0).completed + 1 ∧ ((jobS .queued jobA).me.cq 0).done = [] ∧
    (let j := { jobA with dOff := 8192 + 3840 }
     (jobS .running j).me.op 0 1 = some (jobO .running j) ∧ (jobO .running j).prog = 0 ∧ j.race = true ∧ j.r = 1 ∧ 0 < j.w ∧ j.dst ≠ 2 ∧
       ((tabFind (jobO .running j).snap 4).getD .cleared).format = 2 ∧ (jobS .running j).ecc2 = [] ∧
       (scratch.base.toNat : Int) + j.dOff = 12032 ∧ 12032 % 4096 + 256 ≤ 4096) ∧
    bindS.me.op 0 1 = some (opOf 1 (.job { jobA with kind := .bind 2, w := 512, r := 1 }) .running) ∧
    tabFind bindS.me.binds 2 = some ((0, 1) :: []) ∧ (bindS.me.srq 2).length < 4 := by decide +kernel

def chainO : CopyOp := { opOf 1 (.chain 4 0) .running with p := 0 }
def chainS (e : List Byte) : State :=
  let s := sOf (withOps kP [chainO])
  { s with mem := memPuts s.mem ((upFrom (scrKey 0) 32).zip (e ++ List.replicate (32 - e.length) 0)) }
def chainKind (e : List Byte) : Option Nat :=
  match (chainS e).entryBytes 0 0 chainO with
  | .error _ => none
  | .ok (bs, _) =>
  match parseEntry bs 0 0 with
  | .ok (.copy j k _) => if k.we = false ∧ j.kind = .copy then some 1 else none
  | .ok (.loop _ trip _ _) => some (20 + trip)
  | .ok (.cond _ _ _ _ _) => some 3
  | .ok (.signal k bar store _ _ _) => if k.se ∧ bar.mode = .none ∧ store = false then some 4 else none
  | .ok (.matrix _) => some 5
  | .ok .done => some 6
  | .error x => some (100 + x.num)

/-- One entry of each kind as Table 8.5 lays it out, a LOOP with trip counts 0 and 3, an entry of no kind, a malformed COPY that signals, and a
read that fails. -/
theorem witness_ChainedCopies :
    (chainS []).me.op 0 1 = some chainO ∧ chainO.phase = .running ∧ chainO.cur = none ∧ chainO.levels = [] ∧
    chainKind [1, 0, 4, 4, 0, 0, 0, 0, 0, 0, 0, 1, 0, 0, 0, 0, 64, 0, 0, 0, 1] = some 1 ∧ chainKind [2, 0, 2, 0, 3] = some 23 ∧
    chainKind [2, 0, 2, 0, 0] = some 20 ∧ chainKind [3, 1, 4, 0, 64, 0, 0, 0, 0, 0, 1] = some 3 ∧ chainKind [4, 1, 9] = some 4 ∧
    chainKind ([5, 0, 0, 0] ++ bytesOf 12 fo1.word.toNat) = some 5 ∧ chainKind [6] = some 6 ∧
    100 ≤ (chainKind []).getD 0 ∧ 100 ≤ (chainKind ([1, 0, 4, 4] ++ (List.replicate 20 0 ++ [0, 9, 2, 0, 0, 0, 0, 1]))).getD 0 ∧
    okay ((chainS []).entryBytes 0 0 { chainO with p := 65536 }) = false ∧
    okay ((chainS []).load ((chainS []).accCopy 0 0 chainO) scratch 64 8 8 false [1, 2, 3]) = true ∧
    ((chainS []).sem (semKey 1 0 9)).waiters = [] ∧ ((chainS []).sem (semKey 1 0 9)).value.toNat + 1 < 2 ^ 32 ∧ (chainS []).me.fos.length < 8 := by
  decide +kernel

/-! Phases, placement, slices and worlds. -/

/-- Berth 0: cluster 0 moored, 1 GiB, slice of 1 ms, at most two worlds, function 9, ACTIVE. -/
def descA : BitVec 256 := BitVec.ofNat 256 (2 ^ 184 + 2 ^ 102 + 2 ^ 77 + 2 * 2 ^ 72 + 9 * 2 ^ 63 + 2 ^ 61)
def berthA : Berth := { Berth.free with desc := descA, order := [1, 2], cur := 1, inSlice := true, freshDone := true }
def idleK : Core := { Core.init with world := 1 }
def gangT (st : TaskSt) : Task :=
  { taskW st false with tcb := { tcbA with gsize := 1, n := 1 }, pri := 3, cores := [0], phase := 1, placed := true }
def sB (k : Core) (ts : List (Nat × Task)) : State :=
  { sP with cores := [(0, k)], berths := [(0, berthA)], worlds := [(1, liveR), (2, liveR)], tasks := ts, stage := 5 }
def onTask (k : Core) : Core := { k with task := some (0, 5) }

theorem witness_TaskPhases :
    (let t := { tcbA with stages := 3, n := 2 }
     1 ≤ t.stages ∧ t.stages ≤ 8 ∧ 0 < t.n ∧ t.n < t.stages ∧ 2 + 1 < t.n + t.stages - 1) ∧
    (let t := { tcbA with stages := 3, n := 3 }
     t.stages ≤ t.n ∧ ¬ 0 < t.n - t.stages) ∧ ({ tcbA with stages := 8, n := 0 } : Tcb).n = 0 ∧
    (let s := sB (onTask { idleK with hrun := .halted }) [(5, { gangT .running with tcb := { tcbA with gsize := 1, n := 2 } })]
     (s.taskAt 0 5).st = .running ∧ (s.taskAt 0 5).placed = true ∧ (s.taskAt 0 5).marked = false ∧ (s.core 0).hrun = .halted ∧
       (s.taskAt 0 5).phaseRegs = [] ∧ ((s.taskAt 0 5).tcb.nextPhase (s.taskAt 0 5).phase (s.taskAt 0 5).run).1 ≠ 3) ∧
    (let t := { gangT .running with placed := false, live := [[]], phaseRegs := [([1, 2, 3], List.replicate 8 0)] }
     t.placed = false ∧ t.cores.Nodup ∧ t.live ≠ [] ∧ t.phaseRegs.length = t.cores.length ∧
       (∀ r ∈ t.phaseRegs, r.1.length = 3 ∧ r.2.length = 8) ∧ t.tcb.resume = 0) ∧
    (let s := sB (onTask { idleK with hrun := .halted, haltLine := true }) [(5, { gangT .running with recAt := .viaHandle scratch 0 0 })]
     (s.core 0).haltLine = true ∧ (s.core 0).task = some (0, 5) ∧ (s.taskAt 0 5).refs = [] ∧ (s.taskAt 0 5).tcb.sigs = [] ∧
       okay (s.check { engineAcc 0 1 with lo := 0, hi := 16777216 } scratch 0x30 16 .store 1 [1, 2, 3]) = true ∧ (gangT .ready).st ≠ .running) := by
  decide +kernel

def placeS (ready : List Nat) : State :=
  { sB idleK [(9, { gangT .ready with cores := [] })] with ready := [(readyKey 0 1 3, ready)] }
theorem witness_TaskPlacement_place :
    (placeS [9]).inSlice 1 = true ∧ (placeS [9]).topReady 0 1 = some (3, 9) ∧ ((placeS [9]).taskAt 0 9).saved = false ∧
    ((placeS [9]).taskAt 0 9).world = 1 ∧ ((placeS [9]).taskAt 0 9).live = [] ∧ (placeS [9]).coresFor 0 9 = some [0] ∧
    ((placeS [9]).taskAt 0 9).tcb.n ≠ 0 ∧ ((placeS [9]).taskAt 0 9).tcb.narg ≤ 8 ∧
    { placeS [9] with berths := [(0, { berthA with desc := descA - BitVec.ofNat 256 (2 ^ 184) })] }.coresFor 0 9 = none := by decide +kernel

/-- A task at a boundary below a ready one of level 3, its core's granules all absent, so that nothing needs saving; and a saved task. -/
def preS : State :=
  let t := { gangT .running with pri := 1, tcb := { tcbA with gsize := 1, n := 2, save := 4096 } }
  { sB (onTask { idleK with hrun := .halted, absent := allGrans })
      [(5, t), (9, { gangT .ready with cores := [], tcb := { tcbA with gsize := 96, n := 1 } })] with ready := [(readyKey 0 1 3, [9])] }
/-- A core all of whose granules are absent needs no line written. -/
theorem saveCores_all_absent (s : State) (h : (s.core 0).absent = allGrans) (h2 : (s.core 0).savebase = (s.core 0).fillFrom)
    (h3 : (s.core 0).dropped = false) :
    s.saveCores [0] = some s := by
  have hg : (s.core 0).saveGrans = [] := by
    simp only [Core.saveGrans, h, List.filter_eq_nil_iff]
    intro o ho
    simp [ho]
  simp [State.saveCores, State.saveCore, Core.refill, State.fillGrans, h2, h3, hg, State.saveGo]

theorem witness_TaskPlacement_boundary :
    preS.preemptible 0 (preS.taskAt 0 5) = true ∧ (∀ e ∈ preS.tasks, preS.preemptible 0 e.2 = true → goesBefore e.2 (preS.taskAt 0 5) = false) ∧
    preS.preemptible 0 (preS.taskAt 0 9) = false ∧
    (let s := { placeS [9] with tasks := [(9, { gangT .ready with saved := true, areas := [4096] })] }
     (s.taskAt 0 9).saved = true ∧ (s.taskAt 0 9).st = .ready ∧ s.inSlice 1 = true ∧ s.topReady 0 1 = some (3, 9) ∧ 0 ∈ s.freeCores 0 1 ∧ (s.core 0).drained = true) := by
  decide +kernel

theorem preS_cores : (preS.taskAt 0 5).cores = [0] := by decide +kernel

theorem witness_TaskPlacement : preS.saveCores (preS.taskAt 0 5).cores = some preS ∧
    preS.preemptible 0 (preS.taskAt 0 5) = true ∧ (∀ e ∈ preS.tasks, e.1 / 4096 = 0 → e.2.world = (preS.taskAt 0 5).world →
      preS.preemptible 0 e.2 = true → goesBefore e.2 (preS.taskAt 0 5) = false) := by
  refine ⟨?_, witness_TaskPlacement_boundary.1, fun e he _ _ => witness_TaskPlacement_boundary.2.1 e he⟩
  rw [preS_cores]
  exact saveCores_all_absent preS rfl rfl rfl

theorem witness_SlicesAndReclamation :
    (let t := { gangT .held with cores := [], marked := true }
     t.refs = [] ∧ t.tcb.sigs = [] ∧ t.recAt = .none ∧ t.bars = [] ∧ t.tcb.res = false ∧ t.marked = true ∧ t.st = .held ∧ t.cores = []) ∧
    (let s := { sB (onTask idleK) [(5, { gangT .running with yieldPend := true })] with now := 4800000 }
     (s.taskAt 0 5).yieldPend = true ∧ (s.core 0).task = some (0, 5) ∧ (s.taskAt 0 5).yieldAt + 4800000 ≤ s.now ∧
       ([.h, .l, .s, .v, .m] : List Stream).all (fun st => decide (((s.core 0).strm st).wait = none)) = true) ∧
    (let s := sB idleK []
     (s.berth 0).inSlice = true ∧ s.takesSlices 1 = true ∧ s.takesSlices 2 = true ∧ (s.berth 0).sliceEnd ≤ s.lclock ∧
       s.lclock < { berthA with sliceEnd := 5 }.sliceEnd ∧ s.tasksIn 1 [.running, .ready] = [] ∧
       { s with worlds := [(1, liveR)] }.takesSlices 2 = false) ∧
    (let s := { sB (onTask { idleK with hrun := .yielding }) [(5, { gangT .running with yieldPend := true, yielded := [0] })] with
       berths := [(0, { berthA with inSlice := false })] }
     (s.taskAt 0 5).st = .running ∧ (s.core 0).hrun = .yielding ∧ (s.core 0).task = some (0, 5) ∧ s.inSlice 1 = false) ∧
    (let s := { sB idleK [(5, { gangT .yielded with world := 2 })] with berths := [(0, { berthA with inSlice := false })] }
     (s.berth 0).inSlice = false ∧ s.tasksIn 1 [.running] = [] ∧ nextWorld s.takesSlices (s.berth 0).order 1 = some 2 ∧ (s.taskAt 0 5).st = .yielded) ∧
    (let s := { sB idleK [] with berths := [(0, { berthA with cur := 2 })] }
     (s.core 0).task = none ∧ (s.core 0).hrun = .idle ∧ (s.core 0).drained = true ∧ (s.core 0).world ≠ 2 ∧ s.asksLode 0 = false ∧ s.retiring = [] ∧ s.inSlice 2 = true ∧
       0 / 8 ∈ s.clustersUsable (s.world 2).berth) := by decide +kernel

def ownedS (st : WorldSt) (ts : List (Nat × Task)) : State :=
  { sB idleK ts with worlds := [(1, { liveR with st := st })], owned := [(1, 3, { Spdm.none with stage := 9 })] }
theorem witness_WorldLifecycle :
    (ownedS .live []).ownerless 1 = true ∧ ((ownedS .live []).world 1).st = .live ∧ (ownedS .live []).lodeIdle = true ∧ (ownedS .live []).lodeFenced = [] ∧
    (ownedS .live []).tasksIn 1 [.waiting, .ready, .running, .held, .yielded] = [] ∧ sP.ownerless 1 = false ∧
    (ownedS .live [(5, gangT .running)]).tasksIn 1 [.waiting, .ready, .running, .held, .yielded] = [(0, 5)] ∧
    ((ownedS .ending []).world 1).st = .ending ∧ (ownedS .ending []).sweep = none ∧ (ownedS .ending []).lodeQ = [] ∧
    (∀ e ∈ (ownedS .ending []).tdis, e.2.stopping = false) ∧
    (sA.lclock < sA.reportAt + 100000000 ∧
      (let s := { ownedS .live [] with now := 120000000 }
       s.reportAt + 100000000 ≤ s.lclock ∧ s.worlds = [(1, { liveR with st := .live })])) ∧
    sP.standby = false ∧
    (let s := { ownedS .awaiting [] with berths := [(0, { berthA with freshDone := false })] }
     (s.berth 0).state ≠ 0 ∧ (s.berth 0).freshDone = false ∧ (s.world 1).st = .awaiting ∧ (s.world 1).shares.length = (s.world 1).owners) ∧
    Berth.free.state = 0 := by decide +kernel

/-! The host, and the package. -/

def hostS (st : TdiSt) (w : World) : State :=
  ({ sB idleK [] with worlds := [(1, w)], tdis := [(9, { Tdi.init with st := st })] }).setSpdm (.host 9) { Spdm.none with stage := 8, algs := true }
def manA : Manifest :=
  { srcDev := 3, prk := 0, gen := 1, root := 4096, floor := 0, ranges := [], frozen := [], nextSerial := 1, trT := 0, trCount := 0, moored := 1,
    share := 1, owners := 1, nonce := 0, tasks := [], lines := [], written := [], world := 2 }

/-- A free identifier and a full berth; manifests that fit and that do not; a world with its manifest out; a busy Lodestar; an interface that
stops; a buffer at its length and past it; a control block that checks. -/
theorem witness_MailboxServesRequests :
    (let s := hostS .run liveR
     (5 ≤ s.stage ∧ (s.tdi 9).mbx.getLsbD 0 = false ∧ (s.tdi 9).st = .run ∧ (s.tdi 9).stopping = false ∧ (s.spdm (.host 9)).stage = 8 ∧
        s.lodeIdle = true ∧ s.berthOf 9 = some 0) ∧
      (s.tasksIn 2 [.waiting, .ready, .running, .held, .yielded] = [] ∧ s.freeWorld = some 2 ∧
        (s.berth 0).short (s.berth 0).guarM (s.berth 0).guarS = false ∧ (s.worldsOf 0).length < (s.berth 0).wmax ∧
        { berthA with desc := descA + BitVec.ofNat 256 (2 ^ 61), guarM := 2 }.short 2 0 = true) ∧
      (manA.moored ≤ ((List.range 72).filter fun c => (s.berth 0).moored.testBit c).length ∧
        manA.share ≤ (s.berth 0).share ∧ (s.berth 0).share < { manA with share := 2 }.share ∧ manA.srcDev ≠ s.fabId ∧
        (s.berth 0).freshDone = true) ∧
      ((s.world 1).st = .live ∧ (s.world 1).berth = 0 ∧ (s.world 1).rot = none ∧ (s.world 1).manifest = none ∧
        (∀ v ∈ s.worldsOf 0, s.tasksIn v [.running, .ready] = []) ∧ (s.world 2).st = .none)) ∧
    ({ liveR with manifest := some manA } : World).manifest ≠ none ∧
    (let s := { hostS .run liveR with worlds := [(1, liveR), (2, liveR)] }
     (s.berth 0).wmax ≤ (s.worldsOf 0).length) ∧
    (let s := { hostS .run liveR with owned := [(1, 3, { Spdm.none with stage := 8 })], sweep := some sweepA }
     (∃ o ∈ s.owned, o.1 = 1 ∧ o.2.1 = 3 ∧ o.2.2.stage = 8) ∧ s.lodeIdle = false ∧ (∀ a ∈ s.lodeQ, a.who ≠ .host 9)) ∧
    (let t := { Tdi.init with mbx := 1, stopping := true }
     t.mbx.getLsbD 0 = true ∧ t.mbx.toNat / 2 ^ 32 ≠ 7 % 2 ^ 32 ∧ t.stopping = true) ∧
    ((hostS .error liveR).tdi 9).st = .error ∧ ((hostS .locked liveR).tdi 9).st = .locked ∧
    (List.replicate 7936 (0 : Byte)).length ≤ 7936 ∧ 7936 < (List.replicate 7937 (0 : Byte)).length := by decide +kernel

theorem witness_LaunchStartsWorld :
    (let s := { hostS .run liveR with mem := memPuts sP.mem ((upFrom 65536 384).zip { tcbA with gsize := 1 }.bytes ++
       (upFrom (131072 + 1024) 8).zip (bytesOf 8 (0x0004FFFF + 2 ^ 32 * 0xFFFF))) }
     okay (s.launchCheck 1 65536 131072 4096) = true ∧ s.freeEntry 0 = some 0 ∧ (s.world 1).nextSerial < 2 ^ 32) := by decide +kernel

/-- A share of a world of two owners through the mailbox: the blob opens. -/
theorem witness_MailboxServesRequests_share :
    ofBytes ((shareBlob 2).take 2) = 1 ∧ (((shareBlob 2).drop 2).headD 0).toNat = 2 ∧ (awaitW 2).owners = 2 ∧ (awaitW 2).shares = [] ∧
      (awaitW 2).st = .awaiting ∧ (shareBlob 2).length ≤ 7936 := ⟨rfl, rfl, rfl, rfl, rfl, by rw [share_blob_length]; decide⟩

/-- A descriptor that meets the conditions beside another, and one that shares a cluster with it. -/
theorem witness_HostAndPower :
    ((hostS .unlocked liveR).tdi 9).st = .unlocked ∧ (hostS .locked liveR).berthOf 9 = some 0 ∧
    { hostS .locked liveR with worlds := [] }.worldsOf 0 = [] ∧ ((hostS .locked liveR).tdi 9).st ≠ .unlocked ∧ 8 ≤ 9 ∧
    (hostS .locked liveR).lodeQ = [] ∧ ((hostS .locked liveR).tdi 9).stopping = false ∧ (hostS .locked liveR).lends = [] ∧
    (hostS .locked liveR).worldsOf 0 ≠ [] ∧ (∀ v < 256, sP.ownerOf v = 7 → (sP.tdi (8 + v)).st = .unlocked) ∧
    (Tdi.init.bars.getD 5 0 = 0 ∧ ({ Tdi.init with mbx := 1 } : Tdi).mbx.getLsbD 0 = true) ∧ 0x1FF8 + 8 ≤ 0x2000 ∧
    (let s := hostS .run liveR
     let new : Berth := { Berth.free with desc := BitVec.ofNat 256 (2 * 2 ^ 184 + 511 * 2 ^ 102 + 2 ^ 77 + 2 ^ 72 + 10 * 2 ^ 63) &&& descMask }
     (s.berth 1).desc = 0 ∧ (s.tdi new.tdi).st = .unlocked ∧ descOk new (s.others 1) = true ∧
       descOk { new with desc := new.desc + BitVec.ofNat 256 (2 ^ 102) } (s.others 1) = false) ∧
    sP.fabIdSet = false ∧ ¬ 992 < 992 ∧ 992 < 993 ∧ (2600 : X64).toNat ≤ 2600 ∧ 2600 < (2601 : X64).toNat ∧
    State.reset.power = true ∧ State.reset.stage = 0 ∧ State.reset.failed = 0 ∧ { State.reset with power := false }.power = false := by decide +kernel

/-- Berth 1 lends its slack cluster 1; berth 0's ready task needs more cores than berth 0 has. -/
def lendS (ls : List Lend) : State :=
  { sB idleK [(9, { gangT .ready with tcb := { tcbA with gsize := 16, n := 1 }, cores := [] })] with
    ready := [(readyKey 0 1 3, [9])], lends := ls,
    berths := [(0, berthA), (1, { Berth.free with desc := BitVec.ofNat 256 (2 ^ 113 + 2 ^ 102 + 2 ^ 61 + 2 ^ 60) })] }
def ownS (ls : List Lend) : State :=
  { lendS ls with
    berths := [(0, { berthA with inSlice := false }), (1, { berthA with desc := BitVec.ofNat 256 (2 ^ 113 + 2 ^ 102 + 2 ^ 61 + 2 ^ 60) })] }
theorem witness_LendingRetirementPower :
    (lendS []).slackOwner 1 = some 1 ∧ ((lendS []).berth 1).lend = true ∧ ((lendS []).berth 0).state = 1 ∧ 1 ∉ (lendS []).deadClusters ∧
    (lendS []).clusterIdle 1 = true ∧ (lendS []).noneReady 1 0 = true ∧ (lendS []).starved 0 0 ((lendS []).clustersHeld 0) = true ∧
    (lendS []).slackOwner 2 = none ∧ (lendS []).lends.find? (fun m => m.cluster == 1) = none ∧
    (lendS [⟨1, 1, 0, none⟩]).lends.find? (fun m => m.cluster == 1) = some ⟨1, 1, 0, none⟩ ∧
    (lendS [⟨1, 1, 0, none⟩]).starved 1 0 ((lendS [⟨1, 1, 0, none⟩]).clustersUsable 1) = false ∧
    (ownS [⟨1, 1, 0, none⟩]).starved 1 0 ((ownS [⟨1, 1, 0, none⟩]).clustersUsable 1) = true ∧ (ownS [⟨1, 1, 0, none⟩]).tasksOn 1 = [] ∧
    (let s := { ownS [⟨1, 1, 0, some 0⟩] with now := 3480000, cores := [(8, onTask idleK)], tasks := [(5, { gangT .running with cores := [8] })] }
     s.clusterIdle 1 = false ∧ s.tasksOn 1 = [(0, 5)] ∧ 0 + 3480000 ≤ s.now ∧ (s.taskAt 0 5).refs = [] ∧ (s.taskAt 0 5).bars = []) ∧
    ((lendS []).retiring = [] ∧ ∀ e ∈ (lendS []).tdis, e.2.stopping = false) := by decide +kernel

/-- Error counts at 62 and 63; an error an hour ago and one a nanosecond earlier; spares in use and free; a gang on a core, a core with no gang;
capacity left and none. How many spare banks a stack has is a value of Config, at which the last clause is met. -/
theorem witness_LendingRetirementPower_units :
    (let s := { lendS [] with spareCluster := [0] }
     0 / 8 ∉ s.spareCore ∧ 12 / 12 ∉ s.spareCluster ∧ 0 / 12 ∈ s.spareCluster ∧ s.mooredOwner 0 = some 0 ∧ s.reserve.length = 70 ∧
       ((List.range 48).map fun e => (s.berth e).share).sum + s.hbmTaken < 512 ∧
       512 ≤ ((List.range 48).map fun e => (s.berth e).share).sum + { s with hbmTaken := 510 }.hbmTaken) ∧
    ((62 : X64).toNat % 64 < 63 ∧ (63 : X64).toNat % 64 = 63 ∧ ¬ 5 + 3600000000000 < 3600000000005 ∧ 4 + 3600000000000 < 3600000000005) ∧
    (let s := { sB idleK [] with retiring := [.core 0], berths := [(0, { berthA with cur := 2 })] }
     (s.core 0).busy = false ∧ (s.core 0).drained = true ∧ s.asksLode 0 = false ∧ (s.core 0).world ≠ 2 ∧ s.inSlice 2 = true ∧
       0 / 8 ∈ s.clustersUsable (s.world 2).berth ∧ s.retiring = [.core 0]) ∧
    (let s := sB (onTask idleK) [(5, gangT .running)]
     s.tasks = [(0 * 4096 + 5, s.taskAt 0 5)] ∧ 0 ∈ (s.taskAt 0 5).cores ∧ (s.taskAt 0 5).tcb.sigs = [] ∧ (s.taskAt 0 5).recAt = .none ∧
       (s.core 0).task = some (0, 5) ∧ (∀ e ∈ s.tasks, e.2.st = .running → 1 ∉ e.2.cores)) ∧
    (5 < 5 + 120000000 ∧ 5 + 120000000 ≤ 120000005) := by decide +kernel

theorem witness_LendingRetirementPower_banks :
    let s := { lendS [] with banksUsed := [(0, Config.spareBanks 0)] }
    Config.spareBanks 0 ≤ (tabFind s.banksUsed 0).getD 0 := Nat.le_refl _

/-! Results by hand from the rules, one step or one operation each. -/

def xAfter (i : Instr) (s : State) (n : XReg) : Option X64 :=
  match exec i s with
  | .next t => some (t.me.getX n)
  | _ => none

/-- R133: the sum wraps; the source that is also the destination is read first. -/
theorem test_add_wraps : xAfter (.add 7 3 1 3) sA 3 = some 23 := by decide +kernel
theorem test_addi_sign : xAfter (.addi 7 2 1 0xFFFFFFFFFFFF) sA 2 = some 23 := by decide +kernel
/-- The signed high half of the most negative number by itself is 2^62, and unsigned by 2^64 - 1 it is 2^63 - 1. -/
theorem test_mulh_signed : xAfter (.mulh 7 6 5 5) sA 6 = some 0x4000000000000000 := by decide +kernel
theorem test_mulhn_unsigned : xAfter (.mulhn 7 6 5 3) sA 6 = some 0x7FFFFFFFFFFFFFFF := by decide +kernel
/-- A write to x0 is discarded. -/
theorem test_x0_reads_zero : xAfter (.add 7 0 1 1) sA 0 = some 0 := by decide +kernel

/-- R64, FP32 RNE: 1 + 2^-24 is a tie and goes to even, and a sticky residue above it rounds up. -/
theorem test_fadd_tie_to_even : fadd32 0x3F800000 0x33800000 = 0x3F800000 ∧ fadd32 0x3F800000 0x33800001 = 0x3F800001 := by decide +kernel
/-- One third, the square root of two, 2^0.5 and log2 of 10 in FP32, from their decimal expansions. -/
theorem test_fp32_values :
    rn32 (divF (decodeF fFP32 0x3F800000) (decodeF fFP32 0x40400000)) = 0x3EAAAAAB ∧
    rn32 (sqrtF (decodeF fFP32 0x40000000)) = 0x3FB504F3 ∧ rn32 (exp2F (decodeF fFP32 0x3F000000)) = 0x3FB504F3 ∧
    rn32 (log2F (decodeF fFP32 0x41200000)) = 0x40549A78 := by decide +kernel
/-- FP32 to BF16: ties to even, down and up. -/
theorem test_to_bf16 : convElem .f32 .bf16 .rne false 0x3F808000 = 0x3F80 ∧ convElem .f32 .bf16 .rne false 0x3F818000 = 0x3F82 := by
  decide +kernel
/-- R134: the quotient of -2^63 by -1 is -2^63 and the remainder 0. -/
theorem test_div_corner : xAfter (.div 7 6 5 3) sA 6 = some 0x8000000000000000 ∧ xAfter (.rem 7 6 5 3) sA 6 = some 0 := by decide +kernel

/-- The published vectors of FIPS 180-4 ("abc"), FIPS 197 (C.3), SP 800-38B (D.3, the empty message) and of GCM with a key and nonce of zeros. -/
theorem test_standard_functions :
    sha256 [97, 98, 99] = beBytes 32 0xba7816bf8f01cfea414140de5dae2223b00361a396177a9cb410ff61f20015ad ∧
    aes256 (beBytes 32 0x000102030405060708090a0b0c0d0e0f101112131415161718191a1b1c1d1e1f) (beBytes 16 0x00112233445566778899aabbccddeeff) =
      beBytes 16 0x8ea2b7ca516745bfeafc49904b496089 ∧
    cmac (beBytes 32 0x603deb1015ca71be2b73aef0857d77811f352c073b6108d72d9810a30914dff4) [] =
      beBytes 16 0x028962f61b7bf89efc6b551f4667d983 ∧
    gcmSeal (List.replicate 32 0) (List.replicate 12 0) [] (List.replicate 16 0) =
      (beBytes 16 0xcea7403d4d606b6e074ec5d3baf39d18, beBytes 16 0xd0d1c8a799996bf0265b98b5d48ab919) := by decide +kernel

/-! Steps, encodings and the memory's form. -/

def wordGrans (g : Nat) (i : Instr) : List (Nat × Nat) :=
  match encode i with
  | some w => [(g, (w.extractLsb' 0 32).toNat), (g + 1, (w.extractLsb' 32 32).toNat), (g + 2, (w.extractLsb' 64 32).toNat)]
  | none => []
def ctl0 : Ctl := ⟨false, false, false⟩
/-- V in a section that ends at granule 40, at granule 24. -/
def vIn (s : State) : State := s.setCore 0 ((s.core 0).setStrm .v { StreamSt.idle with run := .running, pc := 24, entry := 22, sec := some 40, passes := 1 })
def laterOf (s : State) : State := State.agePairs { s with now := s.now + Config.elapsed s.fresh, fresh := s.fresh + 1 }
def wordAt (t : State) (g : Nat) : Word96 := BitVec.ofNat 96 (ofBytes ((upFrom (imemKey 0 (4 * g)) 12).map (memGet t.mem)))

/-- An event turn; no power; a running Helm at a NOP, at a header, at an unlisted opcode, at a word of another stream and at a nonzero unused field. -/
theorem witness_StepRunsDecodedInstruction :
    isEvent (.powerGood 0 [] []) = true ∧ State.reset.power = true ∧ ({ State.reset with power := false } : State).agenda = [] ∧
    (let t := laterOf (withGran sA (wordGrans 12 (.nop 7)))
     (t.core 0).absent = [] ∧ (t.core 0).ecc = [] ∧ t.ecc2 = [] ∧ 12 + 3 ≤ codeLenOf (t.core 0).code ∧ (∀ j < 3, (t.core 0).hasGran (12 + j) = true) ∧ (t.core 0).hrun = .running ∧
       (t.core 0).pend = [] ∧ ((t.core 0).strm .h).pc = 12 ∧ isHelmHeader (wordAt t 12) = false ∧ decodeWord .h (wordAt t 12) = .ok (.nop 7)) ∧
    isHelmHeader (wordAt (withGran sA [(12, 0), (13, 0), (14, 0xA0000000)]) 12) = true ∧
    decodeWord .h (wordAt (withGran sA [(12, 0), (13, 0xE0000000), (14, 0x36000000)]) 12) = .illegal ∧
    decodeWord .h (wordAt (withGran sA [(12, 0x10000000), (13, 0x04000000), (14, 0x402C0000)]) 12) = .mismatch ∧
    decodeWord .h (wordAt (withGran sA [(12, 0xFFFFFFFF), (13, 0xE000FFFF), (14, 0x02001041)]) 12) = .reserved := by decide +kernel

/-- A stream at a word that ends its group, at one that stands alone, and at a group of two words. -/
theorem witness_StepRunsDecodedInstruction_groups :
    (let t := laterOf (vIn (withGran sA (wordGrans 24 (.kand ctl1 false 2 1 1))))
     let v := (t.core 0).strm .v
     (t.core 0).hrun ≠ .idle ∧ v.run = .running ∧ v.sec = some 40 ∧ decodeWord .v (wordAt t 24) = .ok (.kand ctl1 false 2 1 1) ∧
       endsGroup (wordAt t 24) = true ∧ latchesOf (wordAt t 24) = [] ∧ v.issues (wordAt t 24) = true ∧
       Instr.alone (.kand ctl1 false 2 1 1) = false) ∧
    (let t := laterOf (vIn (withGran sA (wordGrans 24 (.loop none 5))))
     decodeWord .v (wordAt t 24) = .ok (.loop none 5) ∧ endsGroup (wordAt t 24) = true ∧ Instr.alone (.loop none 5) = true) ∧
    (let t := laterOf (vIn (withGran sA (wordGrans 24 (.kand ctl0 false 2 1 1) ++ wordGrans 27 (.kand ctl1 false 3 1 1))))
     let k := t.core 0
     let v := k.strm .v
     (match t.groupAt 0 .v v.issues 40 24 with
     | .ok (ws, u) => decide (ws.length = 2 ∧ k.met v (t.groupNeeds 0 .v ws) = true ∧ k.yieldsTile .v (t.groupNeeds 0 .v ws) = false ∧ u.cores = t.cores ∧ u.mem = t.mem)
     | .error _ => false) = true) := by decide +kernel

theorem witness_EveryInstructionAnswers : State.reset.power = true := rfl

theorem witness_DecodeEncodeAgree : Instr.wf (.addi 7 1 1 0xFFFFFFFFFFFF) = true ∧ isEvent (.addi 7 1 1 0xFFFFFFFFFFFF) = false ∧
    decodeWord .l 0x402C00000400000010000000 = .ok (.tld ctl1 1 true 0 ⟨4, false, some 0, 0⟩) := by decide +kernel

/-- A store by the Helm in a state whose memory lists its code. -/
theorem witness_StepKeepsMemoryCanonical :
    (let s := withGran sA (wordGrans 12 (.st 7 .b8 false false 4 1 0 3))
     s.memWf = true ∧ (match step s with
       | .next t => t.memWf && decide (memGet t.mem (2 ^ 48 + 24) = 0xFF)
       | _ => false) = true) := by decide +kernel

/-! Further clauses: sweeps, arrivals, waits of streams, and values that a bad word or a busy device gives. -/

/-- The state after a packet for this device has come in by port 3, the one that is open. -/
def arr (s : State) : State := s.draw.2.draw.2.modPort 3 Port.accepted
theorem received_by (s : State) (bytes : Nat) (hb : bytes ≤ 256) (h : s.openPorts = [3]) (rx : (s.port 3).rx = 0) (ep : (s.port 3).rxEpoch = 0)
    (hk : (s.port 3).rxKey = linkKey0 (s.port 3).spdm.secret (1 - s.dirOf 3)) : s.received bytes = .ok (3, arr s) := by
  have st : (s.port 3).st = .opened := by
    have : 3 ∈ s.openPorts := by simp [h]
    simpa [State.openPorts] using this
  have n : packetsOf bytes = 0 + 1 := by unfold packetsOf; omega
  have c : (s.draw.2.wireIn 3 s.draw.2.fresh).counter = (s.port 3).rx := by
    show (s.port 3).rx - _ = _
    simp [rx]
  have o := opens_of_key s.draw.2 3 s.draw.2.fresh (by
    rw [c, rx]
    show (if 0 = (s.port 3).rxEpoch then some (s.port 3).rxKey else _) = some (linkKey0 (s.port 3).spdm.secret (1 - s.dirOf 3))
    rw [ep, if_pos rfl, hk])
  rw [received_single s bytes 3 h, n, arriveBy_opens 3 0 s.draw.2 st o]
  have a := acceptedAt_rx (s.port 3)
  rw [rx] at a
  simp only [State.arriveBy, Except.map, arr, c, rx]
  exact congrArg (fun v => Except.ok (3, s.draw.2.draw.2.setPort 3 v)) a

/-- Operations in flight that a sweep has met, of each kind, and one that it has not whose device is gone; the reply comes in. -/
theorem witness_RevocationAndFreezing_operations :
    (∀ o bytes, bytes ≤ 256 → (sF o).received bytes = .ok (3, arr (sF o))) ∧ (∀ o bytes, bytes ≤ 256 → (sG1 o).received bytes = .ok (3, arr (sG1 o))) ∧
    (let o := { fabOp (.rmst 64 0) (.sent 7 0 0) with cut := some 0x13 }
     let s := { sF o with now := 2097152 }
     o ∈ (s.core 0).fab.ops ∧ (∀ x ∈ (s.core 0).fab.ops, x.n = 1 ↔ x = o) ∧ o.kind.isMulticast = false ∧ o.flagOut = false ∧ 0 + 2097152 ≤ s.now ∧
       { s with routes := [] }.reachable (hubOf 0) (o.remote.base.toNat / 2 ^ 47) = false) ∧
    (let o := { fabOp (.rmld 64) (.sent 7 0 0) with cut := some 0x11, localH := { scratch with rights := 0xA1 } }
     let s := arr (sF o)
     o ∈ (s.core 0).fab.ops ∧ o.got = [] ∧
       okay (s.check (s.accFab 0 o) { o.localH with revoked := false, rights := (o.localH.rights ||| 0x40) &&& 0xFD } o.lo 64 .store 1 [1, 2]) = true) ∧
    (let o := { fabOp (.rmamo .add .w4 1 2 3) (.sent 7 0 0) with cut := some 0x13 }
     o ∈ ((arr (sF o)).core 0).fab.ops) ∧
    (let o := fabOp (.rmld 4) (.sent 7 0 0)
     let s := arr (sF o)
     o.cut = none ∧ okay (s.check (s.accFab 0 o) o.localH o.lo 4 .store 1 [1, 2]) = true) ∧
    (let o := { fabOp (.mcst 64 4096 0) (.sent 7 0 0) with remote := castH, members := [(3, 0), (4, 0)], inc := 1 }
     let s := [(⟨4, 5, []⟩ : MemberReply), ⟨3, 0, []⟩].foldl (fun s r => s.noteRefusal 0 r.reason) (arr (sG1 o))
     (sG1 o).openPorts = [3] ∧ s.castStale 0 o = false ∧ okay (s.check (s.accFab 0 o) o.localH (0 + 4096) 64 .store 1 [1, 2]) = true) :=
  ⟨fun _ _ h => received_by _ _ h rfl rfl rfl rfl, fun _ _ h => received_by _ _ h rfl rfl rfl rfl, by decide +kernel⟩

/-- The target's state after the request has come in. -/
def sWin : State := { sW with ports := [(3, { Port.init with st := .opened, rxKey := linkKey0 0 1 })] }
theorem witness_FabricTarget_arrival :
    (∀ bytes, bytes ≤ 256 → sWin.received bytes = .ok (3, arr sWin)) ∧
    (let s := arr sWin
     tabFind (s.world 1).windows 2 = some winA ∧ (s.world 1).st = .live ∧ 0 = s.incarnation ∧ s.branches = [] ∧ s.cached reqA = none ∧
       (∀ z ∈ s.incoming, z.id ≠ reqA) ∧ s.cached ⟨9, 1, 1⟩ = some (.ok []) ∧ s.reachable 0 reqA.dev = false ∧
       { s with routes := [(3, 0x63)] }.reachable 0 reqA.dev = true ∧
       okay (s.check (engineAcc 0 1) hbmH 16384 64 .load 1 [1, 2]) = true ∧ okay (s.check (engineAcc 0 1) hbmH 16384 64 .store 1 [1, 2]) = true ∧
       okay (s.check (engineAcc 0 1) hbmH 16448 8 .store 8 [1, 2]) = true ∧ okay (s.check (engineAcc 0 1) hbmH 16384 16 .atomic 16 [1, 2]) = true) :=
  ⟨fun _ h => received_by _ _ h rfl rfl rfl rfl, by decide +kernel⟩

/-- A recovery with a packet in the retry buffer and one that waits; a port that is open and none; trains before function 0 and after a failed
stage. -/
theorem witness_LinksAndSessions_packets :
    (let o : Out := .forward 3 (.packet 4)
     let s := { portSt .recovery 2 false with ports := [(3, { Port.init with st := .recovery, buf := [o], hold := [o] })] }
     s.sessionUp (.port 3) = true ∧ (s.port 3).st = .recovery ∧ (s.port 3).buf = [o] ∧ (s.port 3).hold = [o] ∧
       (∀ q < 32, (s.port q).st ≠ .opened)) ∧
    ((portSt .opened 2 false).port 3).st = .opened ∧ (portSt .opened 2 false).openPorts = [3] ∧
    (5 ≤ (portSt .down 2 false).stage ∧ (portSt .down 2 false).failed = 0 ∧ ((portSt .down 2 false).port 3).st = .down) ∧
    ¬ (5 ≤ sP.stage) ∧ ¬ ({ sP with failed := 6 }.failed = 0 ∨ { sP with failed := 6 }.failed = 7) := by decide +kernel

/-- Numbers 255 and 256, counts 65,535 and 65,536; a bad word and a good one. -/
theorem witness_SemaphoresAndHeaps_registers :
    256 ≤ (sA.me.getX 9).toNat ∧ (sA.me.getX 2).toNat < 256 ∧ 65536 ≤ (sA.me.getX 3).toNat ∧
    (sA.me.getX 2 = (10 : BitVec 8).setWidth 64 ∧ sA.me.getX 9 = (4096 : BitVec 16).setWidth 64) ∧
    { sA with semEcc := [semKey 1 0 3] }.semEcc.contains (semKey 1 0 3) = true ∧ sA.semEcc.contains (semKey 1 0 3) = false ∧
    (let s := { sG .v with sems := [(semKey 1 0 3, ⟨4, [], []⟩)] }
     s.curSt ≠ .h ∧ s.served.wait = none ∧ s.served.leavesOpen (s.served.pc + 3) = false ∧ s.served.sec ≠ some (s.served.pc + 3).toNat ∧
       (s.sem (semKey 1 0 3)).waiters = [] ∧ (4 : BitVec 16).toNat ≤ (s.sem (semKey 1 0 3)).value.toNat ∧
       (s.sem (semKey 1 0 3)).value.toNat < (5 : BitVec 16).toNat) := by decide +kernel

/-- An INT8 entry; an empty slot, and a slot of INT8 under another entry; a BF16 entry with tile 15. -/
theorem witness_MatrixMultiplication_faults :
    (Ent.ofBits 0x0035).a = 5 ∧ sM.served.grp = some g0 ∧
    (let m := g0.mxOf { kM with mx := Mx.init [] }
     (m.slot false).ty = 0) ∧
    (let m := g0.mxOf sM.me
     let e := m.pick sM.served.levels false none
     ¬ (e.a = 5 ↔ ({ m with ws0 := { m.ws0 with ty := 5 } } : Mx).ws0.ty = 5)) ∧
    (let m := g0.mxOf { kM with mx := { kM.mx with ftab := List.replicate 16 (BitVec.ofNat 16 0x0022) } }
     let e := m.pick sM.served.levels false none
     e.a = 2 ∧ (m.slot false).ty ≠ 0 ∧ ¬ (m.slot false).ty = 5) := by decide +kernel

/-- Tasks that wait and that have yielded. -/
theorem witness_TaskControlWords_cancel :
    (let s := { sT with tasks := [(8, taskW .waiting false), (9, taskW .yielded false)] }
     s.findTask s.me.world (s.me.getX 12) = some (0, 8) ∧ s.findTask s.me.world (s.me.getX 13) = some (0, 9) ∧ (s.taskAt 0 8).st = .waiting ∧
       (s.taskAt 0 9).st = .yielded ∧ (s.taskAt 0 8).refs = [] ∧ (s.taskAt 0 8).tcb.sigs = [] ∧ (s.taskAt 0 8).cores = [] ∧ (s.taskAt 0 8).recAt = .none) := by decide +kernel

/-- A copy whose source, and one whose destination, is revoked; one that a freeze has met; a fill in flight into the region of a freeze. -/
theorem witness_CopyEvents_swept :
    (let o := { jobO .running jobA with snap := [(4, { scratch with revoked := true })] }
     jobA.bursts = true ∧ jobA.reads = true ∧ ((tabFind o.snap jobA.src).getD .cleared).revoked = true) ∧
    (let o := { jobO .running { jobA with dst := 5 } with snap := [(4, scratch), (5, { scratch with revoked := true })] }
     ((tabFind o.snap 4).getD .cleared).revoked = false ∧ ((tabFind o.snap 5).getD .cleared).revoked = true ∧ jobA.writes = true) ∧
    (let o := { jobO .running jobA with cut := some 1 }
     (sOf (withOps kP [o])).me.op 0 1 = some o ∧ o.cut = some 1) ∧
    (let j := { jobA with kind := .fill 0, dst := 6 }
     let o := { jobO .running j with snap := [(6, hbmH)] }
     let w := { sweepA with op := .freeze 0 4096, todo := [.copyEngine 0, .windows] }
     let s := { sOf (withOps kP [o]) with sweep := some w }
     s.me.op 0 1 = some o ∧ o.phase = .running ∧ j.bursts = true ∧ j.reads = false ∧ j.writes = true ∧ s.lodeFenced = [] ∧
       .copyEngine 0 ∈ w.todo ∧ .copyEngine 0 ∉ w.marked ∧ .coreRegs 0 ∉ w.todo ∧ (∃ b ∈ w.todo, b ≠ .copyEngine 0) ∧ o.cut = none ∧
       hbmH.world.toNat = w.world ∧ hbmH.format = 1 ∧ hbmH.rights.getLsbD 6 = true ∧ 0 ≤ hbmH.base.toNat ∧ hbmH.base.toNat < 0 + 4096 ∧
       0 < hbmH.length.toNat) := by decide +kernel

/-- The fabric queue's turn in a sweep, with a load that the sweep has met in flight and without, before and after its handles are marked. -/
theorem witness_RevocationAndFreezing_fabric :
    (let w := { sweepA with todo := [.fabricQueue 0, .windows] }
     let m := { w with marked := [.fabricQueue 0] }
     let o := fabOp (.rmld 64) (.sent 7 0 0)
     let s := { sF o with sweep := some w }
     let t := { sF { o with cut := some 0x13 } with sweep := some m }
     s.sweep = some w ∧ .fabricQueue 0 ∈ w.todo ∧ .coreRegs 0 ∉ w.todo ∧ (∃ b ∈ w.todo, b ≠ .fabricQueue 0) ∧ .fabricQueue 0 ∉ w.marked ∧
       (∀ x ∈ (s.core 0).fab.ops, x.flagOut = false ∧ x.cut = none) ∧ .fabricQueue 0 ∈ m.marked ∧
       (∃ x ∈ (t.core 0).fab.ops, x.cut.isSome = true ∧ x.kind = .rmld 64)) ∧
    (.coreRegs 0 ∉ sweepA.marked ∧ .copyEngine 0 ∉ sweepA.marked ∧ .windows ∉ { sweepA with todo := [.windows] }.marked) := by decide +kernel

/-- A code handle at offset 0x3000 of a share, whose granule 300 is missing, and one that the page tree does not map; an idle core, and one whose
code handle is still to be restored. -/
theorem witness_CoreEvents_codeFill :
    (let k := { kP with h := [(2, codeH)], filled := [(0, 300)] }
     let s := { sP with cores := [(0, k)] }
     let u := { s with cores := [(0, { k with h := [(2, { codeH with base := BitVec.ofNat 57 (2 ^ 40) })] })] }
     k.hrun ≠ .idle ∧ k.absent = [] ∧ 300 < codeLenOf k.code ∧ k.hasGran 300 = false ∧
       okay (s.check (s.accOf 0 .h) k.code ((4 * 300 : Nat) : Int) 4 .fetch 4 [1]) = true ∧
       okay (u.check (u.accOf 0 .h) u.me.code ((4 * 300 : Nat) : Int) 4 .fetch 4 [1]) = false) ∧
    idleK.hrun = .idle ∧ ({ kP with absent := [0x300] } : Core).absent.contains 0x300 = true ∧ codeLenOf kP.code ≤ 1024 := by decide +kernel

/-- A trip count of 0 with its core free; a task whose wait read a bad word; a saved task with the timelines of its core. -/
theorem witness_TaskPlacement_ends :
    (let s := { placeS [9] with tasks := [(9, { gangT .ready with cores := [], tcb := { tcbA with gsize := 1, n := 0 } })] }
     let t := s.taskAt 0 9
     t.tcb.n = 0 ∧ s.coresFor 0 9 = some [0] ∧ t.waitBad = false ∧ t.st = .ready ∧ t.refs = [] ∧ t.tcb.sigs = [] ∧ t.recAt = .none ∧
       t.cores = [] ∧ t.saved = false ∧ t.live = [] ∧ s.topReady 0 1 = some (3, 9)) ∧
    (let s := { placeS [9] with tasks := [(9, { gangT .ready with cores := [], waitBad := true })] }
     (s.taskAt 0 9).waitBad = true ∧ s.topReady 0 1 = some (3, 9)) ∧
    (let t := { gangT .ready with saved := true, copies := [[{ CopyQ.empty with assigned := 3, completed := 2 }]] }
     t.cores.Nodup ∧ t.cores[0]? = some 0 ∧ (t.copies.getD 0 [])[0]? = some { CopyQ.empty with assigned := 3, completed := 2 }) ∧
    ({ tcbA with himg := [hbmH] } : Tcb).himg[0]? = some hbmH := by decide +kernel

/-- A world that ends with a core of its own idle and drained; a line that is there, one that is lost, and one on a channel that no one serves. -/
theorem witness_WorldLifecycle_scrub :
    (let s := ownedS .ending []
     s.retiring = [] ∧ (s.core 0).world = 1 ∧ (s.core 0).task = none ∧ (s.core 0).hrun = .idle ∧ (s.core 0).drained = true ∧
       (s.core 0).busy = false ∧ (s.cores.map (·.1)).Nodup ∧ (0, idleK) ∈ s.cores) ∧
    (let s := { sP with lines := [(1, .written 1 1 false)] }
     s.line 1 = .written 1 1 false ∧ s.lineGone 1 = false ∧ { s with lost := [1] }.lineGone 1 = true) := by decide +kernel

theorem tabFind_all {α : Type} (v : α) (n a i : Nat) (h1 : a ≤ i) (h2 : i < a + n) : tabFind ((upFrom a n).map fun j => (j, v)) i = some v := by
  induction n generalizing a with
  | zero => omega
  | succ n ih =>
    by_cases h : a = i
    · simp [upFrom, tabFind, h]
    · simp [upFrom, tabFind, ih (a + 1) (by omega) (by omega)]

/-- All 4,095 numbers taken; the number of a manifest free and taken. -/
theorem witness_MailboxServesRequests_numbers :
    { sP with worlds := (upFrom 1 4095).map fun i => (i, liveW) }.freeWorld = none ∧
    ((hostS .run liveR).freeFor manA = some 2 ∧ (hostS .run liveR).freeFor { manA with world := 1 } = some 2) := by
  refine ⟨?_, by decide +kernel⟩
  simp only [State.freeWorld, List.find?_eq_none]
  intro i hi
  have hb := (mem_upFrom 1 4095 i).1 hi
  have hw : ({ sP with worlds := (upFrom 1 4095).map fun i => (i, liveW) } : State).world i = liveW := by
    simp only [State.world, tabFind_all liveW 4095 1 i hb.1 hb.2, Option.getD_some]
  rw [hw]
  decide

/-- A channel that fails its self-test, and one with an error within the hour; no spare bank left, and capacity left and none. -/
theorem witness_LendingRetirementPower_channels :
    (let s := { lendS [] with banksUsed := [(Config.stackOf 5, Config.spareBanks (Config.stackOf 5))], unitErrs := [(.hbmChannel 5, 0)] }
     5 ∉ s.deadChans ∧ Config.spareBanks (Config.stackOf 5) ≤ (tabFind s.banksUsed (Config.stackOf 5)).getD 0 ∧
       (∃ e ∈ s.unitErrs, e.1 = .hbmChannel 5 ∧ s.lclock ≤ e.2 + 3600000000000)) ∧
    0 < ((lendS []).berth 0).share ∧ { lendS [] with failed := 1 }.failed ≠ 0 := by
  refine ⟨⟨by decide, by simp [tabFind], by decide⟩, by decide⟩

/-! A tree of three levels, an entry at a time; faults that are not taken; what a task that ends drops and signals. -/

/-- The tree of world 1 with another entry in its third table. -/
def treeS (e : Nat) : State := { sP with mem := memPuts sP.mem (le8 0x3000 e) }
def faultOf (r : Except Flt (List Piece)) : Option (Code × Nat × X64) :=
  match r with
  | .ok _ => none
  | .error f => some (f.code, f.sub, f.value)
def treeAt (e : Nat) (k : Kind) : Option (Code × Nat × X64) := faultOf ((treeS e).check (engineAcc 0 1) { hbmH with rights := 0xF9 } 16384 64 k 1 [1, 2])
theorem witness_TranslatedAccess :
    (hbmH.format = 1 ∧ hbmH.revoked = false ∧ hbmH.world.toNat = 1 ∧ [Kind.load, .store, .fetch].all { hbmH with rights := 0xF9 }.hasRights = true ∧
      16384 + 64 ≤ hbmH.length.toNat ∧ 0 + 16384 + 64 ≤ 2 ^ 57 ∧ 16384 % 4096 + 64 ≤ 4096 ∧ (sP.world 1).berth < 48 ∧
      sP.tlb1 = [] ∧ sP.tlb2 = [] ∧ ([0x1000, 0x2000] ++ [0x3000]).head? = some (sP.world 1).root) ∧
    (let entry (t : Nat) : Nat := sP.word64 (hbmKey 0 t)
     entry 0x1000 = 0x2001 ∧ entry 0x2000 = 0x3001 ∧ 0x2001 / 4096 % 2 ^ 36 * 4096 = 0x2000 ∧ 0x2001 / 2 ^ 48 = 0 ∧ 0x2001 / 8 % 64 = 0 ∧
       0x2001 / 512 % 8 = 0 ∧ 0x2001 / 2 % 4 = 0 ∧ 0x3000 < (sP.berth 0).desc.toNat / 2 ^ 102 % 2 ^ 10 * 2 ^ 30) := by decide +kernel

/-- What each entry of the third table answers. -/
theorem witness_TranslatedAccess_entries :
    ([0, 2 ^ 48 + 1, 9, 2 ^ 30 + 1, 0x63, 3, 0x11D3, 2 ^ 30 + 0x1D3].map fun e => treeAt e .load) =
      [0, 3, 3, 4, 3, 3, 3, 4].map (fun n => some (.translation, n, 16384)) ∧
    treeAt 0xD3 .store = some (.translation, 1, 16384) ∧ treeAt 0x153 .fetch = some (.translation, 2, 16384) ∧ treeAt 0x1D3 .load = none := by decide +kernel

/-- A line of a table, and of the page, that another world has written. -/
theorem witness_TranslatedAccess_lines :
    (let bad (l : Nat) : State := { sP with lines := [(l, .written 2 1 false)] }
     (bad 0x30).readable 1 (hbmKey 0 0x3000 / 256) = false ∧ (bad 64).readable 1 (hbmKey 0 16384 / 256) = false ∧
       faultOf ((bad 0x30).check (engineAcc 0 1) hbmH 16384 64 .load 1 [1, 2]) = some (.integrity, 0, 0x3000) ∧
       faultOf ((bad 64).check (engineAcc 0 1) hbmH 16384 64 .store 1 [1, 2]) = some (.integrity, 0, 16384) ∧
       faultOf ((bad 64).check (engineAcc 0 1) hbmH 16384 256 .store 1 [1, 2]) = none) := by decide +kernel

/-- Task 5 runs on core 0; task 9 of its world is a supervisor task or not. -/
def untakenS (hold fsig sup : Bool) : State :=
  sB (onTask { idleK with hrun := .running, status := 5 })
    [(5, { gangT .running with tcb := { tcbA with gsize := 1, n := 1, hold := hold, fsig := fsig, fs := 4 } }), (9, { gangT .waiting with tcb := { tcbA with sup := sup } })]
theorem witness_UntakenFaultStops :
    (let s := untakenS false true true
     (s.core 0).tvec.getLsbD 0 = false ∧ (s.core 0).task = some (0, 5) ∧ (s.taskAt 0 5).st = .running ∧ (s.taskAt 0 5).marked = false ∧
       (s.taskAt 0 5).recAt = .none ∧ (s.taskAt 0 5).refs = [] ∧ (s.taskAt 0 5).tcb.sigs = [] ∧ (s.sem (semKey 1 0 4)).waiters = [] ∧
       (∀ e ∈ (s.taskAt 0 5).cores, (s.core e).task = some (0, 5) ∧ (Stream.h :: ends).all (fun x => ((s.core e).strm x).wait.isNone) = true) ∧
       (s.taskAt 0 5).tcb.hold = false ∧ s.hasSupervisor 1 0 5 = true) ∧
    ((untakenS true false true).taskAt 0 5).tcb.hold = true ∧ semKey 1 0 4 ∉ (untakenS true true true).semEcc ∧
    (∀ e ∈ (untakenS false true false).tasks, e.2.world = 1 → e.2.tcb.sup = true → e.1 = 0 * 4096 + 5 ∨ e.2.st = .free ∨ e.2.st = .done) ∧
    ({ supv kA with status := 1 } : Core).status.getLsbD 2 = false := by decide +kernel

/-- Task 5 in some state with n references to future 6, which has some reach, and a list that names semaphore 3 twice and 7 once. -/
def dropS (st : TaskSt) (n : Nat) (rst : TaskSt) (reach : Nat) (marked : Bool) : State :=
  let t : Task := { gangT st with refs := [(idT 6 true, n)], marked := marked, cores := if st = .running then [0] else [],
                                  tcb := { tcbA with gsize := 1, n := 1, sigs := [3, 3, 7] } }
  { sB (onTask { idleK with hrun := .halted, haltLine := true }) [(5, t), (6, { taskW rst true with reach := reach })] with
    sems := [(semKey 1 0 3, ⟨0xFFFFFFFE, [], []⟩)] }
def dropEnds (s : State) : Bool :=
  decide (s.findTask ((idT 6 true).toNat / 2 ^ 52) (idT 6 true) = some (0, 6)) && [3, 3, 7].all fun m => decide (m < 256) && (s.sem (semKey 1 0 m)).waiters.isEmpty
theorem witness_CompletionDropsAndSignals :
    (let s := dropS .running 1 .running 2 false
     dropEnds s = true ∧ (s.taskAt 0 5).placed = true ∧ (s.taskAt 0 5).recAt = .none ∧ (s.taskAt 0 6).future = true ∧ s.semEcc = [] ∧
       ∀ c ∈ (s.taskAt 0 5).cores, (s.core c).hrun = .halted ∧ (s.core c).haltLine = true ∧ (s.core c).task = some (0, 5)) ∧
    [TaskSt.done, .running, .held, .waiting, .ready].all (fun r => dropEnds (dropS .running 2 r 2 false)) = true ∧
    (let r := (dropS .running 2 .waiting 2 false).taskAt 0 6
     r.refs = [] ∧ r.tcb.sigs = [] ∧ r.recAt = .none ∧ r.bars = [] ∧ r.tcb.res = false ∧ r.cores = [] ∧ r.st = .waiting) ∧
    [TaskSt.held, .yielded].all (fun st =>
      let s := dropS st 2 .held 2 true
      let t := s.taskAt 0 5
      dropEnds s && t.marked && t.cores.isEmpty && t.bars.isEmpty && !t.tcb.res) = true := by decide +kernel

/-- A packet that a port open to its peer takes in, and one that a port holding another key refuses. -/
theorem witness_PacketsAreSealed_receiver :
    (∀ bytes, bytes ≤ 256 → sWin.received bytes = .ok (3, arr sWin)) ∧ (sWin.port 3).st = .opened ∧ (sWin.port 3).rx = 0 ∧
    (sWin.port 3).rxKeyOf 0 = some (linkKey0 0 1) ∧ (sWin.port 4).st ≠ .opened ∧ State.reset.openPorts = [] ∧
    ({ Port.init with rx := 5, rxNew := 4094 } : Port).rx + 1 < (0 + 1) * 2 ^ 24 ∧ ({ Port.init with rx := 2 ^ 24 - 1 } : Port).rx + 1 = (0 + 1) * 2 ^ 24 :=
  ⟨fun _ h => received_by _ _ h rfl rfl rfl rfl, rfl, rfl, rfl, by decide +kernel⟩

/-- A store of more than a packet to a group; a KEY_UPDATE at its limit and past it; an entry held for 64 cycles and for 65. -/
theorem witness_FabricFurther :
    (let o := { fabOp (.mcst 300 4096 0) .queued with remote := castH }
     let s := { sG1 o with worlds := [(1, { liveW with root := 0x1000, groups := [(2, ⟨true, 1, 5, [(3, 0), (4, 0)]⟩)] })] }
     o.prog = 0 ∧ okay (s.check (s.accFab 0 o) o.localH o.lo 300 .load 1 [1, 2]) = true ∧ s.fabMayStart 0 o = true ∧ okay (s.fabCheck 0 o) = true ∧
       ((s.world (s.core 0).world).group 2).valid = true) ∧
    (let s := portSt .recovery 2 false
     s.sessionUp (.port 3) = true ∧ { s with now := 2400000 }.now ≤ (s.port 3).since + 2400000 ∧
       (s.port 3).since + 2400000 < { s with now := 2400001 }.now) ∧
    (let s := { sF (fabOp (.rmld 4) (.sent 7 0 0)) with merge := [pairE] }
     { s with now := 65 }.now = pairE.since + 64 + 1 ∧ ¬ pairE.since + 64 < { s with now := 64 }.now ∧
       s.reachable pairE.hub pairE.dst = true ∧ (s.port (rtMin (s.routeOf pairE.hub pairE.dst))).st = .opened) ∧
    (rtMin 0x10C0 :: rtOther 0x10C0 = [0, 4] ∧ (4 : Nat) ∉ [0]) := by decide +kernel

/-- A copy that counts at a record with a bad word; registers before function 0 and after it. -/
theorem witness_LateReview :
    (let o := { jobO (.ending ⟨0, 0, 0, 0, 0⟩) jobA with bar := ⟨.inb, 1⟩ }
     let word := (2 ^ 48 + o.home * 2097152 + 64 * o.bar.unit.toNat) / 8
     let s := { jobS (.ending ⟨0, 0, 0, 0, 0⟩) jobA with ecc2 := [word + 1] }
     o.k.se = false ∧ o.bar.mode ≠ .none ∧ word + 1 ∈ s.ecc2) ∧
    State.reset.stage < 5 ∧ ¬ { sP with stage := 5 }.stage < 5 ∧
    (let s := { lendS [] with spareCore := [0], swapping := [9] }
     0 / 8 ∈ s.spareCore ∧ 0 ∉ s.swapping ∧ 0 / 96 ∉ s.spareCluster ∧ { s with spareCluster := [0] }.spareCluster = [0] ∧
       ∀ e ∈ s.tasks, e.2.st = .running → 0 ∉ e.2.cores) := by decide +kernel

end Sys2Proof.Tests
end

/-! Rules of the state's operations: updates of a core and of a stream as one write of the core, and what that write leaves. -/
namespace Sys2Proof.Machine

theorem listPut_eq_set {α : Type} (xs : List α) (i : Nat) (v : α) : listPut xs i v = xs.set i v := by
  induction xs generalizing i with
  | nil => rfl
  | cons x xs ih =>
    cases i with
    | zero => rfl
    | succ i => rw [listPut, ih, List.set_cons_succ]

@[simp] theorem State.modCore_eq (s : State) (c : Nat) (f : Core → Core) : s.modCore c f = s.setCore c (f (s.core c)) := rfl

@[simp] theorem State.setStrm_eq (s : State) (c : Nat) (st : Stream) (v : StreamSt) :
    s.setStrm c st v = s.setCore c ((s.core c).setStrm st v) := rfl

@[simp] theorem State.modStrm_eq (s : State) (c : Nat) (st : Stream) (f : StreamSt → StreamSt) :
    s.modStrm c st f = s.setCore c ((s.core c).setStrm st (f ((s.core c).strm st))) := rfl

@[simp] theorem State.strm_setCore_same (s : State) (c : Nat) (k : Core) (st : Stream) : (s.setCore c k).strm c st = k.strm st := by
  simp [State.strm]

theorem State.strm_setCore_ne (s : State) {c d : Nat} (k : Core) (st : Stream) (h : d ≠ c) : (s.setCore c k).strm d st = s.strm d st := by
  simp [State.strm, State.core_setCore_ne s k h]

@[simp] theorem Core.setStrm_setStrm (k : Core) (st : Stream) (v w : StreamSt) : (k.setStrm st v).setStrm st w = k.setStrm st w := by
  cases st <;> rfl

theorem Core.setStrm_hs (k : Core) {st : Stream} (v : StreamSt) (h : st ≠ .h) : (k.setStrm st v).hs = k.hs := by
  cases st with
  | h => exact absurd rfl h
  | l | s | v | m => rfl

theorem State.learn_eq (s : State) (c : Nat) (st : Stream) (clk : Clock) :
    s.learn c st clk = s.setCore c ((s.core c).setStrm st
      { (s.core c).strm st with clk := clkJoin ((s.core c).strm st).clk clk, region := ((s.core c).strm st).region + 1 }) := rfl

@[simp] theorem State.setMe_eq (s : State) (k : Core) : s.setMe k = s.setCore s.cur k := rfl

/-- The core that is served, as one of the cores. -/
theorem State.me_eq (s : State) : s.me = s.core s.cur := rfl

/-- A fault that is no INTEGRITY counts nowhere (R387). -/
theorem State.noteIntegrity_of_ne (s : State) (w code : Nat) (h : code ≠ 0x1A) : s.noteIntegrity w code = s := by
  simp [State.noteIntegrity, h]

/-- A core one of whose streams has faulted: the stream stops where it is, and the fault waits for the Helm (R23). -/
def Core.faulted (k : Core) (st : Stream) (f : Flt) : Core :=
  { k.setStrm st { k.strm st with run := .stopped, grp := none, wait := none } with pend := k.pend ++ [⟨f, st, (k.strm st).pc⟩] }

@[simp] theorem Core.faulted_strm (k : Core) (st : Stream) (f : Flt) :
    (k.faulted st f).strm st = { k.strm st with run := .stopped, grp := none, wait := none } := by cases st <;> rfl

@[simp] theorem Core.faulted_pend (k : Core) (st : Stream) (f : Flt) : (k.faulted st f).pend = k.pend ++ [⟨f, st, (k.strm st).pc⟩] := rfl

/-- A fault of L, S, V or M that is no INTEGRITY changes its core alone. -/
theorem State.streamFault_eq (s : State) (c : Nat) (st : Stream) (f : Flt) (h : f.code ≠ .integrity) :
    s.streamFault c st f = s.setCore c ((s.core c).faulted st f) := by
  have hn : f.code.num ≠ 0x1A := by cases hf : f.code <;> simp_all [Code.num]
  simp [State.streamFault, State.noteIntegrity_of_ne _ _ _ hn, State.strm, Core.faulted]

/-! Translation buffers. -/

/-- Translations that are cached show in the translation buffers alone. -/
theorem State.cacheTlb_eq (s : State) (c w : Nat) (ps : List Piece) : ∃ t1 t2, s.cacheTlb c w ps = { s with tlb1 := t1, tlb2 := t2 } := by
  induction ps generalizing s with
  | nil => exact ⟨_, _, rfl⟩
  | cons p ps ih =>
    rw [State.cacheTlb, List.foldl_cons, ← State.cacheTlb]
    split
    · exact ih s
    · split
      · exact ih s
      · obtain ⟨t1, t2, h⟩ := ih _
        exact ⟨t1, t2, h⟩

@[simp] theorem State.cacheTlb_mem (s : State) (c w : Nat) (ps : List Piece) : (s.cacheTlb c w ps).mem = s.mem := by
  obtain ⟨t1, t2, h⟩ := s.cacheTlb_eq c w ps
  rw [h]

@[simp] theorem State.cacheTlb_sectors (s : State) (c w : Nat) (ps : List Piece) : (s.cacheTlb c w ps).sectors = s.sectors := by
  obtain ⟨t1, t2, h⟩ := s.cacheTlb_eq c w ps
  rw [h]

@[simp] theorem State.cacheTlb_core (s : State) (c w : Nat) (ps : List Piece) (d : Nat) : (s.cacheTlb c w ps).core d = s.core d := by
  obtain ⟨t1, t2, h⟩ := s.cacheTlb_eq c w ps
  rw [h]
  rfl

/-! Instruction memory: granules that are there are fetched as they stand (R36), and each is a part of what a fetch gives. -/

theorem upFrom_append (a m n : Nat) : upFrom a (m + n) = upFrom a m ++ upFrom (a + m) n := by
  induction m generalizing a with
  | zero => simp [upFrom]
  | succ m ih => rw [Nat.succ_add, upFrom, ih, upFrom, List.cons_append, Nat.succ_add_eq_add_succ]

/-- The number of two runs of bytes is made of the numbers of each. -/
theorem ofBytes_append (xs ys : List Byte) : ofBytes (xs ++ ys) = ofBytes xs + 256 ^ xs.length * ofBytes ys := by
  induction xs with
  | nil => simp [ofBytes]
  | cons b t ih =>
    simp only [List.cons_append, ofBytes, ih, List.length_cons, Nat.pow_succ]
    rw [Nat.mul_add, Nat.mul_comm (256 ^ t.length) 256, Nat.mul_assoc, Nat.add_assoc]

/-- A run of bytes in the midst of others, as a field of their number. -/
theorem ofBytes_field (xs ys zs : List Byte) : ofBytes (xs ++ ys ++ zs) / 256 ^ xs.length % 256 ^ ys.length = ofBytes ys := by
  have hx : ofBytes xs / 256 ^ xs.length = 0 := Nat.div_eq_of_lt (ofBytes_lt xs)
  rw [List.append_assoc, ofBytes_append, Nat.add_mul_div_left _ _ (Nat.pow_pos (by decide)), hx, Nat.zero_add, ofBytes_append, Nat.add_mul_mod_self_left,
    Nat.mod_eq_of_lt (ofBytes_lt ys)]

theorem imemKey_granule (c g i : Nat) : imemKey c (4 * (g + i)) = imemKey c (4 * g) + 4 * i := by
  simp only [imemKey]; omega

/-- The number that n granules hold, lowest first. -/
def State.granules (s : State) (c g n : Nat) : Nat := ofBytes ((upFrom (imemKey c (4 * g)) (4 * n)).map (memGet s.mem))

/-- Granule i of a run of granules is the one that instruction memory holds. -/
theorem State.granOf_granules (s : State) (c g : Nat) {n i : Nat} (h : i < n) : granOf (s.granules c g n) i = s.gran c (g + i) := by
  obtain ⟨m, rfl⟩ : ∃ m, n = i + 1 + m := ⟨n - (i + 1), by omega⟩
  have hsplit : upFrom (imemKey c (4 * g)) (4 * (i + 1 + m)) =
      upFrom (imemKey c (4 * g)) (4 * i) ++ upFrom (imemKey c (4 * (g + i))) 4 ++ upFrom (imemKey c (4 * (g + i)) + 4) (4 * m) := by
    rw [imemKey_granule, ← upFrom_append, Nat.add_assoc (imemKey c (4 * g)), ← upFrom_append]
    congr 1; omega
  have hf := ofBytes_field ((upFrom (imemKey c (4 * g)) (4 * i)).map (memGet s.mem)) ((upFrom (imemKey c (4 * (g + i))) 4).map (memGet s.mem))
    ((upFrom (imemKey c (4 * (g + i)) + 4) (4 * m)).map (memGet s.mem))
  rw [← List.map_append, ← List.map_append, ← hsplit] at hf
  simp only [List.length_map, upFrom_length, Nat.pow_mul] at hf
  rw [granOf, State.granules, Nat.shiftRight_eq_div_pow, Nat.pow_mul]
  exact hf

theorem State.gran_lt (s : State) (c g : Nat) : s.gran c g < 2 ^ 32 := by
  have h := ofBytes_lt ((upFrom (imemKey c (4 * g)) 4).map (memGet s.mem))
  simpa [State.gran] using h

/-- Nothing is filled where every granule is there. -/
theorem State.fillGo_present (s : State) (a : Acc) (c g n : Nat) (h : ∀ i < n, (s.core c).hasGran (g + i) = true) :
    s.fillGo a c g n = .ok s := by
  induction n generalizing g with
  | zero => rfl
  | succ n ih =>
    rw [State.fillGo, if_pos (by simpa using h 0 (by omega))]
    exact ih (g + 1) fun i hi => by simpa [Nat.add_assoc, Nat.add_comm 1] using h (i + 1) (by omega)

/-- Granules that are there, without an error, are fetched as they stand. -/
theorem State.fetch_present (s : State) (c : Nat) (st : Stream) (g n : Nat) (hlen : g + n ≤ codeLenOf (s.core c).code)
    (h : ∀ i < n, (s.core c).hasGran (g + i) = true) (hecc : s.ecc2 = []) :
    s.fetch c st g n = .ok (s.granules c g n, s) := by
  simp [State.fetch, Nat.not_lt.2 hlen, State.fillGo_present s _ c g n h, State.gransBad, hecc, State.granules]

/-- Nothing is wanted of a core that holds no absent granule and no error (R131). -/
theorem State.prepare_ready (s : State) (c : Nat) (st : Stream) (p : Prep) (ha : (s.core c).absent = []) (he : (s.core c).ecc = []) :
    State.prepare c st s p = .ok s := by
  simp [State.prepare, ha, he]

end Sys2Proof.Machine

/-! Every form of the opcode table answers a next state, and a step stops without power alone (O60). -/
namespace Sys2Proof.Machine

/-- The outcome is a next state. -/
def Answers (o : Out3) : Prop := ∃ t, o = .next t

@[simp] theorem answers_next (s : State) : Answers (.next s) := ⟨s, rfl⟩

@[simp] theorem answers_helm (s : State) (c : CReg) (r : HRes) : Answers (helm s c r) := ⟨_, rfl⟩

@[simp] theorem answers_helmC (s : State) (r : HRes) : Answers (helmC s r) := ⟨_, rfl⟩

@[simp] theorem answers_ctlFault (s : State) (f : Flt) : Answers (ctlFault s f) := ⟨_, rfl⟩

/-- A word of a group blocks, faults, commits, or joins its group; each is a next state. -/
theorem answers_groupWord (s : State) (ctl : Ctl) (i : Instr) (body : Core → StreamSt → Grp → W (Grp × Option Vec)) :
    Answers (groupWord s ctl i body) := by
  unfold groupWord
  dsimp only
  split
  · simp
  · simp
  · split <;> simp

theorem answers_accessWord (s : State) (ctl : Ctl) (i : Instr) (body : Body) : Answers (accessWord s ctl i body) :=
  answers_groupWord s ctl i _

theorem answers_vecWord (s : State) (ctl : Ctl) (i : Instr) (body : Body) : Answers (vecWord s ctl i body) := answers_groupWord s ctl i _

theorem answers_matWord (s : State) (ctl : Ctl) (i : Instr) (body : Body) : Answers (matWord s ctl i body) := answers_groupWord s ctl i _

@[simp] theorem answers_ctlCommit (s : State) (g : Grp) (levels : List Level) (next : Nat) : Answers (ctlCommit s g levels next) := by
  unfold ctlCommit
  dsimp only
  split <;> simp

@[simp] theorem answers_ctlPass (s : State) (g : Grp) (levels : List Level) (next last : Nat) :
    Answers (ctlPass s g levels next last) := by
  unfold ctlPass
  dsimp only
  split <;> simp

/-- LOOP faults, blocks, opens its level, or passes its words over. -/
theorem answers_execLoop (q : Option OQ) (imm : BitVec 30) (s : State) : Answers (execLoop q imm s) := by
  unfold execLoop
  dsimp only
  split
  · simp
  split
  · simp
  cases loopTrip (s.strm s.ctlAt.c s.ctlAt.st) (.open (s.strm s.ctlAt.c s.ctlAt.st).pc) q with
  | error e => cases e <;> simp
  | ok r =>
    dsimp only
    split
    · simp
    split
    · simp
    split
    · simp
    split <;> simp

theorem answers_execEndloop (s : State) : Answers (execEndloop s) := by
  unfold execEndloop
  dsimp only
  split
  · simp
  · split <;> simp

/-- SKIPZ faults, blocks, goes on, or passes its words over. -/
theorem answers_skipRes (s : State) (n : Nat) (test : StreamSt → W (Bool × Grp)) : Answers (skipRes s n test) := by
  unfold skipRes
  dsimp only
  split
  · simp
  split
  · simp
  · simp
  · simp
  · split <;> simp

theorem answers_execSkipz (q : OQ) (n : BitVec 12) (s : State) : Answers (execSkipz q n s) := by
  unfold execSkipz
  exact answers_skipRes ..

theorem answers_execSkipzMask (n : BitVec 12) (s : State) : Answers (execSkipzMask n s) := by
  unfold execSkipzMask
  exact answers_skipRes ..

theorem answers_execRdv (ctl : Ctl) (q : OQ) (s : State) : Answers (execRdv ctl q s) := by
  unfold execRdv
  exact answers_groupWord ..

/-- An instruction valid in every stream retires, waits or faults, as an item of the Helm or as a word alone in its group. -/
theorem answers_anyStream (s : State) (r : SRes) : Answers (anyStream s r) := by
  unfold anyStream
  cases r with
  | retire s' g | stall s' | fault f =>
    dsimp only
    split
    · simp
    · split <;> simp

/-- What runs once the registers of a trap are filled answers, or a fault is taken. -/
theorem answers_withTrapRegs (s : State) (prep : State → Prep → Except Flt State) (c : Nat) (go : State → Out3)
    (h : ∀ s', Answers (go s')) : Answers (s.withTrapRegs prep c go) := by
  unfold State.withTrapRegs
  split
  · simp
  · exact h _

theorem answers_withHelm (s : State) (c : Nat) (go : State → State) : Answers (s.withHelm c go) := by
  refine answers_withTrapRegs s _ c _ fun s' => ?_
  split <;> simp

theorem answers_execHSectionHeader (c : Nat) (s : State) : Answers (execHSectionHeader c s) := by
  unfold execHSectionHeader
  split
  · simp
  · exact answers_withHelm s c _

theorem answers_execTakeTrap (c : Nat) (s : State) : Answers (execTakeTrap c s) := by
  unfold execTakeTrap
  dsimp only
  split
  · exact answers_withHelm s c _
  · simp

/-- Every row of the opcode table answers: by the frame of the words of a group, by that of the words that any stream takes, by its own branches,
or because its meaning is a next state as it stands. -/
theorem answers_exec (i : Instr) (s : State) : Answers (exec i s) := by
  cases i with
  | tld | vld | vlds | vgather | padapplyL | tst | vst | vsts | vscatter | padapplyS => exact answers_accessWord ..
  | tfullL _ t | tfullS _ t => exact answers_accessWord s _ _ (tstateBody t true)
  | temptyL _ t | temptyS _ t => exact answers_accessWord s _ _ (tstateBody t false)
  | vadd | vsub | vmul | vfma | vfms | vdiv | vsqrt | vrsq | vrcp | vmin | vmax | vabs | vneg | vexp2 | vlog2 | viadd | visub | vimul
  | vimulh | vand | vor | vxor | vshl | vshr | vsra | vimin | vimax | vcmp | vsel | vcvt | vscale | vmov | vperm | vslide | vcompress
  | vexpand | vbcast | vindex | vredsum | vredmax | vredmin | vscansum | vscanmax | kset => exact answers_vecWord ..
  | kand _ inv kd ka kb | kor _ inv kd ka kb | kxor _ inv kd ka kb => exact answers_vecWord s _ _ (klogBody inv kd ka kb _)
  | kcount _ dst ka ty => exact answers_vecWord s _ _ (kcountBody dst ka ty)
  | mpush ctl ka => exact answers_vecWord s ctl (.mpush ctl ka) fun _ k _ g => .ok (g.add (.mpush (k.getK ka.toNat)), none)
  | minv ctl => exact answers_vecWord s ctl (.minv ctl) fun _ _ _ g => .ok (g.add .minv, none)
  | mpop ctl => exact answers_vecWord s ctl (.mpop ctl) fun _ _ _ g => .ok (g.add .mpop, none)
  | mldw | mlds | mzero | mrd | mwr | mfmt | msync => exact answers_matWord ..
  | mma _ cons row0 t sq n1 fent ws cbm pos =>
    exact answers_matWord s _ _ fun _ => mmaBody false cons row0 t sq n1 fent ws cbm pos
  | mmag _ n1 h sq idx fent ws cbm pos race =>
    exact answers_matWord s _ _ fun s k v g => mmagBody s (s.accGrp s.cur .m g) (k.getH h) false n1 sq idx fent ws cbm pos race k v g
  | mbud _ cls => exact answers_matWord s _ _ (mbudBody cls)
  | mstat _ dst => exact answers_matWord s _ _ (mstatBody dst)
  | nopStream ctl => exact answers_groupWord s ctl (.nopStream ctl) fun _ _ g => .ok (g, none)
  | rdv ctl q => exact answers_execRdv ctl q s
  | loop q imm => exact answers_execLoop q imm s
  | endloop => exact answers_execEndloop s
  | skipz q n => exact answers_execSkipz q n s
  | skipzMask n => exact answers_execSkipzMask n s
  | swait | tlwait => exact answers_anyStream ..
  | hSectionHeader c => exact answers_execHSectionHeader c s
  | takeTrap c => exact answers_execTakeTrap c s
  | _ => exact ⟨_, rfl⟩

/-! A turn answers wherever every instruction does. -/

section Turns

variable {ex : Instr → State → Out3} (hex : ∀ i s, Answers (ex i s))
include hex

theorem answers_runWords (prep : State → Prep → Except Flt State) (c : Nat) (st : Stream) (ws : List GWord) (s : State) :
    Answers (runWords ex prep c st ws s) := by
  induction ws generalizing s with
  | nil => simp [runWords]
  | cons w rest ih =>
    unfold runWords
    split
    · simp
    split
    · exact ih _
    split
    · simp
    next s' _ =>
      obtain ⟨t, ht⟩ := hex w.ins s'
      rw [ht]
      exact ih t

theorem answers_runGroup (prep : State → Prep → Except Flt State) (c : Nat) (st : Stream) (ws : List GWord) (bad : Option Flt)
    (s : State) : Answers (runGroup ex prep c st ws bad s) := by
  unfold runGroup
  dsimp only
  split
  · simp
  split
  · simp
  split
  · split
    · simp
    · exact hex _ _
  · split
    · simp
    · exact answers_runWords hex prep c st ws _

theorem answers_streamTurn (prep : State → Prep → Except Flt State) (c : Nat) (st : Stream) (s : State) :
    Answers (streamTurn ex prep c st s) := by
  unfold streamTurn
  dsimp only
  split
  · simp
  split
  · simp
  split
  · split
    · simp
    · simp
    · simp
    · exact hex _ _
    · exact hex _ _
  · split
    · simp
    split
    · simp
    · exact answers_runGroup hex prep c st _ _ _

theorem answers_helmTurn (prep : State → Prep → Except Flt State) (c : Nat) (s : State) : Answers (helmTurn ex prep c s) := by
  unfold helmTurn
  dsimp only
  split
  · simp
  refine answers_withTrapRegs s prep c _ fun s' => ?_
  split
  · simp
  split
  · exact hex _ _
  split
  · simp
  split
  · exact hex _ _
  split
  · simp
  · simp
  · simp
  split
  · exact hex _ _
  split
  · simp
  · exact hex _ _

theorem answers_serve (s : State) : Answers (serve ex s) := by
  unfold serve
  cases s.curSt with
  | h => exact answers_helmTurn hex _ _ _
  | l | s | v | m => exact answers_streamTurn hex _ _ _ _

theorem answers_turn (s : State) : Answers (turn ex s) := by
  unfold turn
  split
  · exact answers_serve hex s
  · exact answers_serve hex _
  · split
    · exact hex _ _
    · simp

end Turns

/-- With power, time passes and the turn answers. -/
theorem answers_step_of_power (s : State) (h : s.power = true) : Answers (step s) := by
  rw [step, if_pos h]
  exact answers_turn answers_exec _

/-- A power-good answers without power. -/
theorem answers_step_of_powerGood (s : State) (n : Nat) (bs : List Nat) (us : List HwUnit) (rest : List Turn)
    (h : s.agenda = .event (.powerGood n bs us) :: rest) : Answers (step s) := by
  cases hp : s.power with
  | true => exact answers_step_of_power s hp
  | false => simp [step, hp, h, exec, execPowerGood]

/-- Without power, and with another turn than a power-good, the step stops. -/
theorem step_eq_poweredDown (s : State) (hp : s.power = false)
    (h : ∀ n bs us rest, s.agenda ≠ .event (.powerGood n bs us) :: rest) : step s = .fault .poweredDown := by
  rw [step, if_neg (by simp [hp])]
  split
  · next n bs us rest ha => exact absurd ha (h n bs us rest)
  · rfl

/-- Settles O60: each arm of the dispatcher ends in a next state, a turn does where every arm does, and `step` asks for power alone. -/
theorem everyInstructionAnswers : Obligations.EveryInstructionAnswers := by
  refine ⟨answers_exec, fun s => ?_⟩
  by_cases h : s.power = true ∨ ∃ n bs us rest, s.agenda = .event (.powerGood n bs us) :: rest
  · have ha : Answers (step s) := by
      obtain hp | ⟨n, bs, us, rest, hg⟩ := h
      · exact answers_step_of_power s hp
      · exact answers_step_of_powerGood s n bs us rest hg
    exact ⟨iff_of_true ha h, .inl ha⟩
  · have hs : step s = .fault .poweredDown :=
      step_eq_poweredDown s (by simpa using fun hp => h (.inl hp)) fun n bs us rest hg => h (.inr ⟨n, bs, us, rest, hg⟩)
    exact ⟨iff_of_false (by simp [hs]) h, .inr hs⟩

end Sys2Proof.Machine

/-! FORK and JOIN (O10). -/
namespace Sys2Proof.Machine

theorem StreamSt.active_iff (v : StreamSt) : v.active = true ↔ v.run = .running ∨ v.run = .stopped := by
  simp [StreamSt.active]

/-- A core is busy exactly where one of L, S, V and M runs or has stopped (R13). -/
theorem Core.busy_iff (k : Core) : k.busy = true ↔ ∃ st, st ≠ .h ∧ ((k.strm st).run = .running ∨ (k.strm st).run = .stopped) := by
  simp only [Core.busy, Bool.or_eq_true, StreamSt.active_iff]
  constructor
  · rintro (((h | h) | h) | h)
    · exact ⟨.l, by simp, h⟩
    · exact ⟨.s, by simp, h⟩
    · exact ⟨.v, by simp, h⟩
    · exact ⟨.m, by simp, h⟩
  · rintro ⟨st, hst, h⟩
    cases st with
    | h => exact absurd rfl hst
    | l => exact .inl (.inl (.inl h))
    | s => exact .inl (.inl (.inr h))
    | v => exact .inl (.inr h)
    | m => exact .inr h

theorem Core.not_busy {k : Core} (h : ∀ st, st ≠ .h → ¬ ((k.strm st).run = .running ∨ (k.strm st).run = .stopped)) : k.busy = false := by
  rw [← Bool.not_eq_true, Core.busy_iff]
  rintro ⟨st, hst, hr⟩
  exact h st hst hr

theorem exec_fork (c : CReg) (imm : BitVec 48) (s : State) : exec (.fork c imm) s = helm s c (forkRes s imm) := rfl
theorem exec_join (c : CReg) (s : State) : exec (.join c) s = helm s c (joinRes s) := rfl
theorem exec_joinAbandon (c : CReg) (s : State) : exec (.joinAbandon c) s = helm s c (.retire (s.abandon s.cur).joined) := rfl

/-! The record of a FORK. -/

/-- The place of a stream's granule in a fork record (R150); the Helm has none. -/
def forkPlace : Stream → Nat
  | .l => 0 | .s => 1 | .v => 2 | .m => 3 | .h => 4

theorem forkP_iff {g : Nat} (h : g < 2 ^ 32) : forkP g = true ↔ 2 ^ 31 ≤ g := by
  simp only [forkP, bitOf, Nat.shiftRight_eq_div_pow, beq_iff_eq]; omega

theorem forkEntry_toNat (g : Nat) : (forkEntry g).toNat = g % 2 ^ 16 := BitVec.toNat_ofNat g 16

theorem forkReserved (g : Nat) : fieldOf g 30 16 = g / 2 ^ 16 % 2 ^ 15 := by simp [fieldOf, Nat.shiftRight_eq_div_pow]

/-- A stream after the start that FORK gives, by its granule (R13, R40, R151). -/
theorem Core.forkTo_strm (k : Core) (gs : Nat → Nat) (clk : Clock) {st : Stream} (h : st ≠ .h) :
    ∃ edges, (k.forkTo gs clk).strm st = (k.strm st).forked (forkP (gs (forkPlace st))) (forkEntry (gs (forkPlace st))) edges clk := by
  cases st with
  | h => exact absurd rfl h
  | l | s => exact ⟨true, rfl⟩
  | v | m => exact ⟨false, rfl⟩

theorem StreamSt.forked_present (v : StreamSt) (entry : BitVec 16) (edges : Bool) (clk : Clock) :
    let w := v.forked true entry edges clk
    w.run = .running ∧ w.pc = entry ∧ w.sec = none ∧ w.levels = [] ∧ w.grp = none := by simp [StreamSt.forked]

theorem StreamSt.forked_absent (v : StreamSt) (entry : BitVec 16) (edges : Bool) (clk : Clock) :
    (v.forked false entry edges clk).run = .absent := rfl

theorem StreamSt.forked_counts (v : StreamSt) (present : Bool) (entry : BitVec 16) (edges : Bool) (clk : Clock) :
    let w := v.forked present entry edges clk
    w.count = 0 ∧ w.early = true ∧ w.oqs = v.oqs := by cases present <;> simp [StreamSt.forked]

/-- A record within the code handle whose granules are there is read as it stands. -/
theorem State.record_present (s : State) (imm : BitVec 48) {t n : Nat} (ht : (s.me.hs.pc.toNat : Int) + imm.toInt = t)
    (hlen : t + n ≤ codeLenOf s.me.code) (h : ∀ i < n, s.me.hasGran (t + i) = true) (hecc : s.ecc2 = []) :
    s.record imm n = .ok (s.granules s.cur t n, s) := by
  have hpc : (s.hpc : Int) + imm.toInt = t := ht
  have hin : ¬ ((t : Int) < 0 ∨ (s.codeLen : Int) < (t : Int) + n) := by
    have : s.codeLen = codeLenOf s.me.code := rfl
    omega
  simp only [State.record, hpc, if_neg hin, Int.toNat_natCast]
  exact s.fetch_present s.cur .h t n hlen h hecc

/-- FORK over a well-formed record retires with the start that the record gives. -/
theorem forkRes_starts (s : State) (imm : BitVec 48) (t : Nat) (hbusy : s.me.busy = false)
    (ht : (s.me.hs.pc.toNat : Int) + imm.toInt = t) (hlen : t + 4 ≤ codeLenOf s.me.code) (hecc : s.ecc2 = [])
    (hrec : ∀ i < 4, s.me.hasGran (t + i) = true ∧ s.gran s.cur (t + i) / 2 ^ 16 % 2 ^ 15 = 0 ∧
      (2 ^ 31 ≤ s.gran s.cur (t + i) → s.gran s.cur (t + i) % 2 ^ 16 < codeLenOf s.me.code)) :
    forkRes s imm = .retire (s.modMe fun k => k.forkTo (granOf (s.granules s.cur t 4)) (s.clkOf s.cur .h)) := by
  have hgran : ∀ i < 4, granOf (s.granules s.cur t 4) i = s.gran s.cur (t + i) := fun i hi => s.granOf_granules s.cur t hi
  have hres : ((List.range 4).any fun i => fieldOf (granOf (s.granules s.cur t 4) i) 30 16 != 0) = false := by
    rw [List.any_eq_false]
    intro i hi
    rw [List.mem_range] at hi
    obtain ⟨-, hres, -⟩ := hrec i hi
    rw [hgran i hi, forkReserved, hres]
    decide
  have hin : ((List.range 4).any fun i => forkP (granOf (s.granules s.cur t 4) i) &&
      decide (s.codeLen ≤ (forkEntry (granOf (s.granules s.cur t 4) i)).toNat)) = false := by
    rw [List.any_eq_false]
    intro i hi
    rw [List.mem_range] at hi
    obtain ⟨-, -, hentry⟩ := hrec i hi
    rw [hgran i hi, forkEntry_toNat, Bool.and_eq_true, decide_eq_true_eq, forkP_iff (s.gran_lt _ _)]
    rintro ⟨hp, hle⟩
    exact absurd (hentry hp) (Nat.not_lt.2 hle)
  simp [forkRes, hbusy, s.record_present imm ht hlen (fun i hi => (hrec i hi).1) hecc, HRes.of, hres, hin]

theorem forkStartsStreams : Claims.ForkStartsStreams := by
  intro c imm s t hc g runs place
  refine ⟨fun hr => ?_, fun hr ht hlen hecc hrec => ?_⟩
  · rw [exec_fork, forkRes, if_pos ((Core.busy_iff _).2 hr), helm_stall s s c hc]
  have hfork := forkRes_starts s imm t (Core.not_busy hr) ht hlen hecc hrec
  rw [exec_fork, hfork, helm_retire s c _ hc]
  let k := s.me.forkTo (granOf (s.granules s.cur t 4)) (s.clkOf s.cur .h)
  have hme : (s.retired k (s.me.hs.pc + 3)).me = { k with progress := s.now, hs := { k.hs with pc := s.me.hs.pc + 3 } } := State.me_setMe ..
  refine ⟨_, rfl, ?_⟩
  rw [hme]
  refine ⟨rfl, rfl, rfl, fun st hst => ?_, rfl, rfl, rfl, rfl, rfl⟩
  obtain ⟨edges, hs⟩ := s.me.forkTo_strm (granOf (s.granules s.cur t 4)) (s.clkOf s.cur .h) hst
  have hlt : forkPlace st < 4 := by
    cases st with
    | h => exact absurd rfl hst
    | l | s | v | m => decide
  have hstrm : ({ k with progress := s.now, hs := { k.hs with pc := s.me.hs.pc + 3 } } : Core).strm st = k.strm st := by
    cases st with
    | h => exact absurd rfl hst
    | l | s | v | m => rfl
  have hplace : place st = forkPlace st := by cases st <;> rfl
  rw [hstrm, hs, hplace, s.granOf_granules s.cur t hlt]
  refine ⟨fun hp => ?_, fun hp => ?_, ?_⟩
  · rw [(forkP_iff (s.gran_lt _ _)).2 hp]
    obtain ⟨hrun, hpc, hsec, hlev, hgrp⟩ := (s.me.strm st).forked_present (forkEntry (s.gran s.cur (t + forkPlace st))) edges (s.clkOf s.cur .h)
    exact ⟨hrun, by rw [hpc, forkEntry_toNat], hsec, hlev, hgrp⟩
  · rw [Bool.eq_false_iff.2 fun h => absurd ((forkP_iff (s.gran_lt _ _)).1 h) (Nat.not_le.2 hp)]
    exact StreamSt.forked_absent ..
  · exact StreamSt.forked_counts ..

/-! JOIN. -/

@[simp] theorem Core.setStrm_self (k : Core) (st : Stream) : k.setStrm st (k.strm st) = k := by cases st <;> rfl

theorem StreamSt.withoutWait {v : StreamSt} (h : v.wait = none) : { v with wait := none } = v := by
  cases v; simp_all

/-- A stream that waits for nothing has no wait to drop. -/
theorem State.dropWait_of_none (s : State) (c : Nat) (st : Stream) (h : ((s.core c).strm st).wait = none) :
    s.dropWait c st = s.setCore c (s.core c) := by
  have hw : s.withdraw c st = s := by simp [State.withdraw, State.strm, h]
  simp [State.dropWait, hw, State.strm, h, StreamSt.withoutWait h]

/-- A core after JOIN 1 (R152). -/
def Core.abandoned (k : Core) : Core :=
  { k with ls := k.ls.abandon, ss := k.ss.abandon, vs := k.vs.abandon, ms := k.ms.abandon,
           pend := k.pend.filter fun p => p.st == .h || (k.strm p.st).run == .absent
           dropped := true }

/-- JOIN 1 on a core whose streams wait for nothing changes that core alone. -/
theorem State.abandon_of_noWaits (s : State) (c : Nat) (h : ∀ st, ((s.core c).strm st).wait = none) :
    s.abandon c = s.setCore c (s.core c).abandoned := by
  have hl : s.dropWait c .l = s.setCore c (s.core c) := s.dropWait_of_none c .l (h .l)
  have hdrop : ∀ st, (s.setCore c (s.core c)).dropWait c st = s.setCore c (s.core c) := fun st => by
    rw [State.dropWait_of_none _ c st (by simpa using h st)]
    simp
  simp [State.abandon, hl, hdrop, Core.abandoned]

theorem Core.abandoned_strm (k : Core) {st : Stream} (h : st ≠ .h) : k.abandoned.strm st = (k.strm st).abandon := by
  cases st with
  | h => exact absurd rfl h
  | l | s | v | m => rfl

/-- What the Helm learns at a meeting changes its clock and its region alone (R13). -/
theorem State.joined_eq (s : State) : ∃ clk, s.joined =
    s.setMe { s.me with hs := { s.me.hs with clk := clkJoin s.me.hs.clk clk, region := s.me.hs.region + 1 } } := ⟨_, rfl⟩

/-- The Helm retires from a meeting: its own core alone changes. -/
theorem State.retireAt_joined (s : State) (pc : BitVec 16) :
    ∃ clk, s.joined.retireAt pc = s.setMe { s.me with
      progress := s.now
      hs := { s.me.hs with clk := clkJoin s.me.hs.clk clk, region := s.me.hs.region + 1, pc := pc } } := by
  obtain ⟨clk, hj⟩ := s.joined_eq
  exact ⟨clk, by rw [hj, State.retireAt_setMe, State.retired]⟩

theorem Core.strm_withHelm (k : Core) (n : Nat) (v : StreamSt) {st : Stream} (h : st ≠ .h) :
    ({ k with progress := n, hs := v } : Core).strm st = k.strm st := by
  cases st with
  | h => exact absurd rfl h
  | l | s | v | m => rfl

theorem joinMeetsStreams : Claims.JoinMeetsStreams := by
  intro c s hc runs
  refine ⟨fun hr => ?_, fun hr => ?_, fun hw => ?_⟩
  · rw [exec_join, joinRes, if_pos ((Core.busy_iff _).2 hr), helm_stall s s c hc]
  · obtain ⟨clk, ht⟩ := s.retireAt_joined (s.me.hs.pc + 3)
    have hexec : exec (.join c) s = .next (s.joined.retireAt (s.me.hs.pc + 3)) := by
      simp [exec_join, joinRes, Core.not_busy hr, helm, hc, State.finishHelm]
    refine ⟨_, hexec, ?_⟩
    rw [ht, State.me_setMe]
    exact ⟨rfl, fun st hst => Core.strm_withHelm _ _ _ hst, rfl, rfl, rfl⟩
  · have hab : s.abandon s.cur = s.setMe s.me.abandoned := s.abandon_of_noWaits s.cur hw
    obtain ⟨clk, ht⟩ := (s.setMe s.me.abandoned).retireAt_joined (s.me.hs.pc + 3)
    have hexec : exec (.joinAbandon c) s = .next ((s.setMe s.me.abandoned).joined.retireAt (s.me.hs.pc + 3)) := by
      simp only [exec_joinAbandon, hab, helm, hc, if_true, State.finishHelm]
    refine ⟨_, hexec, ?_⟩
    rw [ht, State.me_setMe, State.me_setMe]
    refine ⟨rfl, List.filter_congr fun p _ => Bool.eq_iff_iff.2 (by simp), fun st hst => ?_, rfl, rfl, rfl, rfl, rfl⟩
    rw [Core.strm_withHelm _ _ _ hst, Core.abandoned_strm _ hst]
    refine ⟨fun hrun => ?_, fun hrun => ?_, rfl, rfl, rfl⟩
    · rcases hrun with h | h <;> simp [StreamSt.abandon, h]
    · cases h : (s.me.strm st).run <;> simp_all [StreamSt.abandon, runs]

/-- Settles O10: a busy core stalls either word; FORK over a well-formed record gives `Core.forkTo`, JOIN 1 gives `Core.abandoned`. -/
theorem forkAndJoin : Obligations.ForkAndJoin := ⟨forkStartsStreams, joinMeetsStreams⟩

end Sys2Proof.Machine

/-! Section waits and headers (O43). -/
namespace Sys2Proof.Machine

/-! Section waits (R17, R41). -/

theorem waitSatisfied_self (n : Nat) (early : Bool) (v : StreamSt) (helm : Bool) : waitSatisfied n early 0x80 v helm = true := by
  simp [waitSatisfied]

theorem waitSatisfied_idle (n : Nat) (early : Bool) (d : BitVec 8) (v : StreamSt) (h : v.run = .absent ∨ v.run = .ended) :
    waitSatisfied n early d v false = true := by
  have hidle : v.idle? = true := by simpa [StreamSt.idle?] using h
  simp [waitSatisfied, hidle]

/-- The comparison of R41 on the 8-bit counts: exact for a difference of counts within the window. -/
theorem countReached_iff {x e : Int} (hlo : x - 127 ≤ e) (hhi : e ≤ x + 128) : (e % 256 - x % 256 - 1) % 256 < 128 ↔ x < e := by
  omega

/-- A wait toward a stream that is not idle is satisfied before the FORK or once what it names has retired. -/
theorem waitSatisfied_iff {n e : Nat} {d : BitVec 8} {v : StreamSt} {helm : Bool} (hd : d ≠ 0x80)
    (hrun : helm = false → v.run = .running ∨ v.run = .stopped) (hcount : v.count.toNat = e % 256)
    (hlo : (n : Int) + d.toInt - 127 ≤ e) (hhi : (e : Int) ≤ n + d.toInt + 128) :
    waitSatisfied (n % 256) (decide (n < 128)) d v helm = true ↔ (n : Int) + d.toInt < 0 ∨ (n : Int) + d.toInt < e := by
  have hidle : (!helm && v.idle?) = false := by
    cases helm with
    | true => rfl
    | false => rcases hrun rfl with h | h <;> simp [StreamSt.idle?, h]
  have hd' : (d == 0x80) = false := by simpa using hd
  have hdge : -127 ≤ d.toInt := by
    have hne : d.toInt ≠ -128 := fun h128 => hd (BitVec.eq_of_toInt_eq (by rw [h128]; decide))
    have hle := BitVec.le_toInt d
    omega
  have hmod : (((n % 256 : Nat) : Int) + d.toInt) % 256 = ((n : Int) + d.toInt) % 256 := by omega
  have hreach := countReached_iff hlo hhi
  simp only [waitSatisfied, hd', hidle, Bool.false_or, Bool.or_eq_true, Bool.and_eq_true, decide_eq_true_eq, hmod, hcount]
  rw [show (((e % 256 : Nat) : Int)) = (e : Int) % 256 by omega, hreach]
  omega

theorem sectionWaitsAreExact : Claims.SectionWaitsAreExact := by
  intro n e d v helm
  refine ⟨?_, ?_, fun hd hrun hcount hlo hhi => waitSatisfied_iff hd hrun hcount hlo hhi⟩
  · rintro rfl m early
    exact waitSatisfied_self m early v helm
  · rintro rfl h m early
    exact waitSatisfied_idle m early d v h

/-! Headers of L, S, V and M (R33, R34, R37 to R41). -/

/-- A header whose two granules are there is read as it stands. -/
theorem State.headerAt_present (s : State) (c : Nat) (st : Stream) (hlen : (s.strm c st).pc.toNat + 2 ≤ codeLenOf (s.core c).code)
    (h0 : (s.core c).hasGran (s.strm c st).pc.toNat = true) (h1 : (s.core c).hasGran ((s.strm c st).pc.toNat + 1) = true)
    (hecc : s.ecc2 = []) :
    s.headerAt c st = .ok (decodeHeader false (BitVec.ofNat 64 (s.granules c (s.strm c st).pc.toNat 2)), s) := by
  have hg : ∀ i < 2, (s.core c).hasGran ((s.strm c st).pc.toNat + i) = true := by
    intro i hi
    obtain rfl | rfl : i = 0 ∨ i = 1 := by omega
    · exact h0
    · exact h1
  simp only [State.headerAt, s.fetch_present c st _ 2 hlen hg hecc]
  rfl

/-- A stream that is at a header, with no section open. -/
def State.atHeader (s : State) (c : Nat) (st : Stream) (h : Header) : Prop :=
  st ≠ .h ∧ (s.strm c st).run = .running ∧ (s.strm c st).sec = none ∧ (s.core c).absent = [] ∧ (s.core c).ecc = [] ∧
    s.headerAt c st = .ok (h, s)

/-- SECTION_ISSUE at a section header: it waits, breaks, or opens the section. -/
theorem exec_sectionIssue (s : State) (c : Nat) (st : Stream) (n : Nat) (bk : Bool) (offs : List (BitVec 8))
    (h : s.atHeader c st (.sect n bk offs)) :
    exec (.sectionIssue c st) s = .next (
      let v := s.strm c st
      if !s.waitsMet c st offs then s
      else if bk ∧ !v.broke then
        (s.modStrm c st fun v => { v with broke := true }).streamFault c st ⟨.debug, 0, v.pc.setWidth 64⟩
      else (s.modStrm c st fun v => { v with sec := some (v.pc.toNat + 2 + 3 * n), pc := v.pc + 2 }).learn c st (s.waitsClk c st offs)) := by
  obtain ⟨hst, hrun, hsec, habs, hecc, hhdr⟩ := h
  change execSectionIssue c st s = _
  simp [execSectionIssue, hst, hrun, hsec, State.withCode, s.prepare_ready c st .code habs hecc, hhdr]

/-- STREAM_END at a stream-end header: another pass, or the end. -/
theorem exec_streamEnd (s : State) (c : Nat) (st : Stream) (rep : Nat) (h : s.atHeader c st (.endHdr rep)) :
    exec (.streamEnd c st) s = .next (s.modStrm c st fun v =>
      if v.passes < rep then { v with passes := v.passes + 1, pc := v.entry } else { v with run := .ended }) := by
  obtain ⟨hst, hrun, hsec, habs, hecc, hhdr⟩ := h
  change execStreamEnd c st s = _
  simp [execStreamEnd, hst, hrun, hsec, State.withCode, s.prepare_ready c st .code habs hecc, hhdr]

theorem sectionsOpenAndEnd : Claims.SectionsOpenAndEnd := by
  intro s c st hst habs hecc hecc2 v pc word hrun hsec hlen h0 h1
  have hhdr : ∀ h, decodeHeader false word = h → s.atHeader c st h := fun h hw =>
    ⟨hst, hrun, hsec, habs, hecc, hw ▸ s.headerAt_present c st hlen h0 h1 hecc2⟩
  refine ⟨fun n bk offs hw => ⟨fun hwait => ?_, fun hwait hbk => ?_, fun hwait hbk hbroke => ?_⟩,
    fun rep hw => ⟨fun hlt => ?_, fun hle => ?_⟩⟩
  · simp [exec_sectionIssue s c st n bk offs (hhdr _ hw), hwait]
  · have hno : ¬ (bk = true ∧ (!(s.strm c st).broke) = true) := by rcases hbk with h | h <;> simp_all [v]
    rw [exec_sectionIssue s c st n bk offs (hhdr _ hw)]
    refine ⟨_, rfl, ?_⟩
    simp only [hwait, Bool.not_true, Bool.false_eq_true, if_false, if_neg hno, State.learn_eq, State.modStrm_eq,
      State.core_setCore_same, State.setCore_setCore, State.strm_setCore_same, Core.setStrm_strm, Core.setStrm_setStrm]
    exact ⟨rfl, rfl, rfl, hrun, rfl, fun st' hne => Core.setStrm_strm_ne _ _ hne⟩
  · have hyes : bk = true ∧ (!(s.strm c st).broke) = true := ⟨hbk, by simp_all [v]⟩
    rw [exec_sectionIssue s c st n bk offs (hhdr _ hw)]
    refine ⟨_, rfl, ?_⟩
    simp only [hwait, Bool.not_true, Bool.false_eq_true, if_false, if_pos hyes, State.modStrm_eq]
    rw [State.streamFault_eq _ _ _ _ (by simp)]
    simp only [State.core_setCore_same, State.strm_setCore_same, Core.faulted_strm, Core.faulted_pend, Core.setStrm_strm, Core.setStrm_pend, true_and]
    exact ⟨rfl, rfl⟩
  · rw [exec_streamEnd s c st rep (hhdr _ hw)]
    refine ⟨_, rfl, ?_, rfl⟩
    rw [State.modStrm_eq, State.strm_setCore_same, Core.setStrm_strm]
    exact if_pos hlt
  · rw [exec_streamEnd s c st rep (hhdr _ hw)]
    refine ⟨_, rfl, ?_, rfl⟩
    rw [State.modStrm_eq, State.strm_setCore_same, Core.setStrm_strm]
    exact if_neg (Nat.not_lt.2 hle)

/-! Headers that the Helm executes (R35, R38, R40). -/

/-- The low 96 bits of a fetched item, as the decoder's word, and its upper two granules, as the decoder's header. -/
theorem ofNat_div_eq_extract (n : Nat) (h : n < 2 ^ 96) : BitVec.ofNat 64 (n / 2 ^ 32) = (BitVec.ofNat 96 n).extractLsb' 32 64 := by
  apply BitVec.eq_of_toNat_eq
  rw [BitVec.extractLsb'_toNat, BitVec.toNat_ofNat, BitVec.toNat_ofNat, Nat.mod_eq_of_lt h, Nat.shiftRight_eq_div_pow]

theorem State.granules_lt (s : State) (c g n : Nat) : s.granules c g n < 256 ^ (4 * n) := by
  simpa [State.granules] using ofBytes_lt ((upFrom (imemKey c (4 * g)) (4 * n)).map (memGet s.mem))

/-- Offsets of 0x80 are waits that always hold. -/
theorem State.waitsMet_none (s : State) (c : Nat) (st : Stream) : s.waitsMet c st [0x80, 0x80, 0x80, 0x80] = true := by
  simp only [State.waitsMet, List.all_eq_true]
  rintro ⟨st', d⟩ hmem
  have hd : d ∈ [(0x80 : BitVec 8), 0x80, 0x80, 0x80] := (List.of_mem_zip hmem).2
  have hd' : d = 0x80 := by simpa using hd
  rw [hd']
  exact waitSatisfied_self ..

/-- A stream whose section has retired (R40). -/
def StreamSt.retireSection (v : StreamSt) (own : Clock) : StreamSt :=
  { v with
    sec := none, broke := false, count := v.count + 1, early := v.early && decide (v.count.toNat + 1 ≠ 128)
    rets := (v.count.toNat, own) :: v.rets.take 255, region := v.region + 1 }

theorem State.retireSection_eq (s : State) (c : Nat) (st : Stream) :
    s.retireSection c st = s.setCore c ((s.core c).setStrm st (((s.core c).strm st).retireSection (s.clkOf c st))) := rfl

/-- The Helm's stream once a header has retired its section and control stands after it. -/
def StreamSt.pastHeader (v : StreamSt) (clk own : Clock) : StreamSt :=
  { v.retireSection own with pc := v.pc + 3, clk := clkJoin v.clk clk, region := v.region + 1 + 1 }

/-- H_SECTION_HEADER at a header that is there and waits for nothing: the section retires, control goes on, and BK traps there. -/
theorem exec_hSectionHeader (s : State) (c n : Nat) (bk : Bool) (habs : (s.core c).absent = []) (hecc : (s.core c).ecc = [])
    (hecc2 : s.ecc2 = []) (hrun : (s.core c).hrun = .running) (hlen : (s.core c).hs.pc.toNat + 3 ≤ codeLenOf (s.core c).code)
    (hg : ∀ i < 3, (s.core c).hasGran ((s.core c).hs.pc.toNat + i) = true)
    (hhdr : isHelmHeader (BitVec.ofNat 96 (s.granules c (s.core c).hs.pc.toNat 3)) = true)
    (hdec : decodeHeader true ((BitVec.ofNat 96 (s.granules c (s.core c).hs.pc.toNat 3)).extractLsb' 32 64) =
      .sect n bk [0x80, 0x80, 0x80, 0x80])
    (hsec : (s.core c).hs.sec ≠ some (s.core c).hs.pc.toNat) :
    ∃ clk own, exec (.hSectionHeader c) s = .next (
      let t := s.setCore c ((s.core c).setStrm .h ((s.core c).hs.pastHeader clk own))
      if bk then t.takeTrap c ⟨.debug, 0, (s.core c).hs.pc.setWidth 64⟩ .h ((s.core c).hs.pc + 3) 0 else t) := by
  have hfetch := s.fetch_present c .h _ 3 hlen hg hecc2
  have hlt : s.granules c (s.core c).hs.pc.toNat 3 < 2 ^ 96 := s.granules_lt c _ 3
  have hword := ofNat_div_eq_extract _ hlt
  let t := s.setCore c ((s.core c).setStrm .h
    { ((s.core c).strm .h).retireSection (s.clkOf c .h) with sec := some (s.core c).hs.pc.toNat })
  refine ⟨t.waitsClk c .h [0x80, 0x80, 0x80, 0x80], s.clkOf c .h, ?_⟩
  change execHSectionHeader c s = _
  simp only [execHSectionHeader, hrun, ne_eq, not_true_eq_false, if_false, State.withHelm, State.withTrapRegs,
    s.prepare_ready c .h _ habs hecc, hfetch, hhdr, Bool.not_true, Bool.false_eq_true, hword, hdec, if_neg hsec, State.waitsMet_none,
    State.retireSection_eq, State.learn_eq, State.modStrm_eq, State.core_setCore_same, State.setCore_setCore, Core.setStrm_strm,
    Core.setStrm_setStrm]
  rfl

/-- A Helm that takes traps enters the handler of a fault of its own that is no INTEGRITY (R127). -/
theorem State.takeTrap_enters (s : State) (c : Nat) (f : Flt) (resume group : BitVec 16) (hf : f.code.num ≠ 0x1A)
    (hon : (s.core c).trapsOn = true) (hie : (s.core c).ie = true) :
    s.takeTrap c f .h resume group = s.setCore c
      { s.core c with
        epc := resume.setWidth 64
        cause := mkCause f.code.num f.sub 0 (!(s.core c).pend.isEmpty) group
        etval := f.value
        status := (s.core c).trapStatus
        hs := { (s.core c).hs with pc := (s.core c).handler } } := by
  rw [State.takeTrap, State.noteIntegrity_of_ne _ _ _ hf]
  simp [State.enterTrap, hon, hie, streamNum]

theorem mkCause_toNat {code sub stream : Nat} {more : Bool} {group : BitVec 16} (hcode : code < 256) (hsub : sub < 256) (hst : stream < 8) :
    (mkCause code sub stream more group).toNat = code + sub * 2 ^ 8 + stream * 2 ^ 16 + natOf more * 2 ^ 19 + group.toNat * 2 ^ 32 := by
  have hg := group.isLt
  have hm : natOf more ≤ 1 := by cases more <;> decide
  rw [mkCause, BitVec.toNat_ofNat, Nat.mod_eq_of_lt hcode, Nat.mod_eq_of_lt hsub, Nat.mod_eq_of_lt]
  omega

theorem helmHeaderRetiresInstance : Claims.HelmHeaderRetiresInstance := by
  intro s c n bk habs hecc hecc2 k pc word hrun hlen hg hhdr hdec hsec
  obtain ⟨clk, own, hexec⟩ := exec_hSectionHeader s c n bk habs hecc hecc2 hrun hlen hg hhdr hdec hsec
  rw [hexec]
  refine ⟨fun hbk => ⟨_, rfl, ?_⟩, fun hbk hon hie => ⟨_, rfl, ?_⟩⟩
  · simp only [hbk, Bool.false_eq_true, if_false, State.core_setCore_same]
    refine ⟨rfl, rfl, ?_, rfl, rfl, rfl⟩
    simp [Core.setStrm, StreamSt.pastHeader, StreamSt.retireSection, k]
  · simp only [hbk, if_true]
    rw [State.takeTrap_enters _ _ _ _ _ (by simp [Code.num]) (by rw [State.core_setCore_same]; exact hon)
      (by rw [State.core_setCore_same]; exact hie)]
    simp only [State.core_setCore_same]
    refine ⟨rfl, rfl, rfl, ?_, rfl, rfl, rfl⟩
    rw [mkCause_toNat (by simp [Code.num]) (by decide) (by decide)]
    simp only [Code.num]
    omega

/-- Settles O43: the waits by arithmetic on counts modulo 256, the headers by running their micro steps over granules that are there. -/
theorem sectionsAndHeaders : Obligations.SectionsAndHeaders := ⟨sectionWaitsAreExact, sectionsOpenAndEnd, helmHeaderRetiresInstance⟩

end Sys2Proof.Machine

/-! Monitors, pending traps, withdrawn waiters, fills and drowsy banks (O44). -/
namespace Sys2Proof.Machine

/-! Granules of instruction memory and what writes them. -/

/-- A core with n more granules from g on written, its slate buffers empty. -/
def Core.filledOver (k : Core) (g n : Nat) : Core := { k.dropBuffers with filled := (g, n) :: k.filled }

theorem State.core_putImem_same (s : State) (c : Nat) (bs : List (Nat × Byte)) (g n : Nat) :
    (s.putImem c bs g n).core c = (s.core c).filledOver g n := State.core_setCore_same ..

theorem State.core_putImem_ne (s : State) {c d : Nat} (bs : List (Nat × Byte)) (g n : Nat) (h : d ≠ c) :
    (s.putImem c bs g n).core d = s.core d := State.core_setCore_ne _ _ h

theorem Core.hasGran_filledOver (k : Core) (g n o : Nat) :
    (k.filledOver g n).hasGran o = (decide (g ≤ o) && decide (o < g + n) || k.hasGran o) := rfl

/-- What the fetch agent leaves of a core: more granules there, and the registers and the Helm as they were. -/
structure Core.MoreFilled (k k' : Core) : Prop where
  x : k'.x = k.x
  h : k'.h = k.h
  hs : k'.hs = k.hs
  grans : ∀ o, k.hasGran o = true → k'.hasGran o = true

theorem Core.MoreFilled.refl (k : Core) : k.MoreFilled k := ⟨rfl, rfl, rfl, fun _ h => h⟩

theorem Core.MoreFilled.trans {k k' k'' : Core} (h : k.MoreFilled k') (h' : k'.MoreFilled k'') : k.MoreFilled k'' :=
  ⟨h'.x.trans h.x, h'.h.trans h.h, h'.hs.trans h.hs, fun o ho => h'.grans o (h.grans o ho)⟩

theorem Core.moreFilled_filledOver (k : Core) (g n : Nat) : k.MoreFilled (k.filledOver g n) :=
  ⟨rfl, rfl, rfl, fun o ho => by rw [Core.hasGran_filledOver, ho, Bool.or_true]⟩

/-- A fill that succeeds leaves every granule of its range there. -/
theorem State.fillGo_ok {s t : State} {a : Acc} {c g n : Nat} (h : s.fillGo a c g n = .ok t) :
    (s.core c).MoreFilled (t.core c) ∧ ∀ o, g ≤ o → o < g + n → (t.core c).hasGran o = true := by
  induction n generalizing s g with
  | zero =>
    obtain rfl : s = t := by simpa [State.fillGo] using h
    exact ⟨.refl _, fun o hlo hhi => by omega⟩
  | succ n ih =>
    rw [State.fillGo] at h
    split at h
    case isTrue hgran =>
      obtain ⟨hmore, hrest⟩ := ih h
      refine ⟨hmore, fun o hlo hhi => ?_⟩
      rcases Nat.eq_or_lt_of_le hlo with rfl | hlt
      · exact hmore.grans _ hgran
      · exact hrest o hlt (by omega)
    case isFalse =>
      split at h
      · cases h
      · next ps _ =>
        obtain ⟨hmore, hrest⟩ := ih h
        rw [State.core_putImem_same, State.cacheTlb_core] at hmore
        refine ⟨(Core.moreFilled_filledOver _ g 1).trans hmore, fun o hlo hhi => ?_⟩
        rcases Nat.eq_or_lt_of_le hlo with rfl | hlt
        · exact hmore.grans _ (by simp [Core.hasGran_filledOver])
        · exact hrest o hlt (by omega)

/-! The bytes of one granule of the code object. -/

theorem checkHandle_ok {w : Nat} {h : Handle} {off : Int} {k : Kind} {formats : List Nat} {u : Unit}
    (hok : checkHandle w h off k formats = .ok u) : h.format.toNat ∈ formats := by
  simp only [checkHandle] at hok
  split at hok
  · cases hok
  split at hok
  · cases hok
  split at hok
  · cases hok
  split at hok
  · cases hok
  next hformat => exact Decidable.not_not.1 hformat

/-- What the checks of an access that succeeds say of it. -/
theorem State.check_ok {s : State} {a : Acc} {h : Handle} {off : Int} {size align : Nat} {k : Kind} {formats : List Nat} {ps : List Piece}
    (hok : s.check a h off size k align formats = .ok ps) :
    h.format.toNat ∈ formats ∧ (h.base.toNat + off) % (align : Int) = 0 ∧ s.locate a h off size k = .ok ps := by
  simp only [State.check, bind, Except.bind] at hok
  split at hok
  · cases hok
  next hhandle =>
  split at hok
  · cases hok
  split at hok
  · cases hok
  next halign =>
  split at hok
  · cases hok
  next hloc =>
  split at hok
  · cases hok
  cases hok
  exact ⟨checkHandle_ok hhandle, Decidable.not_not.1 halign, hloc⟩

/-- An access of four bytes at a multiple of four that succeeds is one piece of four bytes: no page boundary parts it. -/
theorem State.check_granule {s : State} {a : Acc} {h : Handle} {off : Nat} {ps : List Piece}
    (hok : s.check a h (off : Int) 4 .fetch 4 [1] = .ok ps) : ∃ va key, ps = [⟨va, key, 4⟩] := by
  obtain ⟨hformat, halign, hloc⟩ := State.check_ok hok
  have hne : h.format ≠ 2 := by rintro heq; simp [heq] at hformat
  have hva : ((h.base.toNat : Int) + off).toNat = h.base.toNat + off := by omega
  have hmin : min 4 (4096 - (h.base.toNat + off) % 4096) = 4 := by omega
  simp only [State.locate, if_neg hne, hva, State.translateRange, hmin, bind, Except.bind] at hloc
  simp only [if_neg (show (4 : Nat) ≠ 0 by decide), Nat.sub_self, if_true] at hloc
  split at hloc
  · cases hloc
  · cases hloc
    exact ⟨_, _, rfl⟩

/-! Monitors and traps (R22, R23, R127, R281). -/

/-- The streams before a stream, in the order that takes pending faults, have lower numbers. -/
theorem streams_split (st : Stream) : ∃ pre post, [Stream.h, .l, .s, .v, .m] = pre ++ st :: post ∧ ∀ u ∈ pre, streamNum u < streamNum st := by
  cases st with
  | h => exact ⟨[], [.l, .s, .v, .m], rfl, by decide⟩
  | l => exact ⟨[.h], [.s, .v, .m], rfl, by decide⟩
  | s => exact ⟨[.h, .l], [.v, .m], rfl, by decide⟩
  | v => exact ⟨[.h, .l, .s], [.m], rfl, by decide⟩
  | m => exact ⟨[.h, .l, .s, .v], [], rfl, by decide⟩

/-- The head of a list of pending faults is the first that is taken, where none after it is of an earlier stream (R23). -/
theorem firstPend_head (p : Pend) (ps : List Pend) (h : ∀ q ∈ ps, streamNum p.st ≤ streamNum q.st) : firstPend (p :: ps) = some p := by
  have hnone : ∀ st, streamNum st < streamNum p.st → (p :: ps).find? (fun q => q.st == st) = none := by
    intro st hst
    rw [List.find?_eq_none]
    intro q hq heq
    obtain rfl : q.st = st := by simpa using heq
    rcases List.mem_cons.1 hq with rfl | hq
    · exact absurd hst (Nat.lt_irrefl _)
    · exact absurd hst (Nat.not_lt.2 (h q hq))
  have hsome : (p :: ps).find? (fun q => q.st == p.st) = some p := List.find?_cons_of_pos (by simp)
  obtain ⟨pre, post, hsplit, hpre⟩ := streams_split p.st
  exact List.findSome?_eq_some_iff.2 ⟨pre, p.st, post, hsplit, hsome, fun st hst => hnone st (hpre st hst)⟩

theorem Core.trapStatus_mode (k : Core) : k.trapStatus.getLsbD 0 = true := by
  cases hs : k.supervisor <;> cases hi : k.ie <;> cases hv : k.vftz <;> simp [Core.trapStatus, hs, hi, hv, mkStatus, natOf]

theorem Core.trapStatus_ie (k : Core) : k.trapStatus.getLsbD 2 = false := by
  cases hs : k.supervisor <;> cases hi : k.ie <;> cases hv : k.vftz <;> simp [Core.trapStatus, hs, hi, hv, mkStatus, natOf]

/-- A core whose Helm has entered its handler for a pending fault of a stream (R127). -/
def Core.trapped (k : Core) (p : Pend) (ps : List Pend) : Core :=
  { k with
    pend := ps
    epc := k.hs.pc.setWidth 64
    cause := mkCause p.flt.code.num p.flt.sub (streamNum p.st) (!ps.isEmpty) p.group
    etval := p.flt.value
    status := k.trapStatus
    hs := { k.hs with pc := k.handler } }

/-- The first pending fault is taken by a Helm that takes traps. -/
theorem State.takePending_head (s : State) (c : Nat) (p : Pend) (ps : List Pend) (hpend : (s.core c).pend = p :: ps)
    (hfirst : ∀ q ∈ ps, streamNum p.st ≤ streamNum q.st) (hon : (s.core c).trapsOn = true) (hie : (s.core c).ie = true) :
    s.takePending c = s.setCore c ((s.core c).trapped p ps) := by
  have hon' : Core.trapsOn { s.core c with pend := ps } = true := hon
  have hie' : Core.ie { s.core c with pend := ps } = true := hie
  simp only [State.takePending, hpend, firstPend_head p ps hfirst, List.erase_cons_head, State.modCore_eq, State.enterTrap,
    State.core_setCore_same, hon', hie', State.setCore_setCore]
  simp only [Bool.not_true, Bool.false_eq_true, and_false, or_false, if_false]
  rfl

/-- TAKE_TRAP with a pending fault, on a Helm that runs, waits for nothing and takes traps. -/
theorem exec_takeTrap (s : State) (c : Nat) (p : Pend) (ps : List Pend) (hrun : (s.core c).hrun = .running)
    (habs : (s.core c).absent = []) (hecc : (s.core c).ecc = []) (hwait : (s.core c).hs.wait = none) (hpend : (s.core c).pend = p :: ps)
    (hfirst : ∀ q ∈ ps, streamNum p.st ≤ streamNum q.st) (hon : (s.core c).trapsOn = true) (hie : (s.core c).ie = true) :
    exec (.takeTrap c) s = .next (s.setCore c ((s.core c).trapped p ps)) := by
  have hint : (s.core c).hs.interruptible = true := by simp [StreamSt.interruptible, hwait]
  have hwd : s.withdraw c .h = s := by simp [State.withdraw, State.strm, Core.strm, hwait]
  change execTakeTrap c s = _
  simp only [execTakeTrap, hrun, hpend, List.isEmpty_cons, Bool.not_false, and_self, if_true, State.withHelm, State.withTrapRegs,
    s.prepare_ready c .h _ habs hecc, hie, hint, hwd, s.takePending_head c p ps hpend hfirst hon hie]

theorem exec_stallMonitorExpiry (s : State) (c : Nat) : exec (.stallMonitorExpiry c) s = .next (
    if (s.core c).hrun = .running ∧ (s.core c).progress + 2 ^ 24 ≤ s.now ∧ !(s.core c).pend.any (fun p => p.flt.code == .watchdog) then
      s.setCore c { s.core c with
        pend := (s.core c).pend ++ [⟨⟨.watchdog, 0, Config.freeEtval s.fresh⟩, .h, 0⟩], progress := s.now }
    else s) := rfl

theorem exec_waitiDeadline (s : State) (c : Nat) : exec (.waitiDeadline c) s = .next (
    match (s.core c).hs.wait with
    | some w => if w.kind = .request ∧ w.seen = 0 ∧ s.waitiDone c w.value then { s with agenda := .stream c .h :: s.agenda } else s
    | none => s) := rfl

/-- A Helm whose wait for a future is interrupted waits no more. -/
theorem exec_waiterWithdraw_future (s : State) (c die idx : Nat) (w : Wait) (hwait : (s.core c).hs.wait = some w)
    (hkind : w.kind = .future die idx) (hdone : w.done = false) (hpend : (s.core c).pend ≠ []) (hie : (s.core c).ie = true) :
    exec (.waiterWithdraw c .h) s = .next (s.setCore c ((s.core c).setStrm .h { (s.core c).hs with wait := none })) := by
  have hint : (s.core c).hs.interruptible = true := by simp [StreamSt.interruptible, hwait, hdone, hkind]
  have hwd : s.withdraw c .h = s.setCore c ((s.core c).setStrm .h { (s.core c).hs with wait := none }) := by
    simp only [State.withdraw, State.strm, Core.strm, hwait, hdone, hkind, Bool.false_eq_true, if_false]
    rfl
  change execWaiterWithdraw c .h s = _
  simp only [execWaiterWithdraw, if_true, hie, hint, hwd, Bool.and_true, Bool.not_eq_true', List.isEmpty_eq_false_iff, hpend, ne_eq,
    not_false_eq_true]

theorem monitorAndPendingTraps : Claims.MonitorAndPendingTraps := by
  intro s c st p ps k
  refine ⟨fun hrun hlate hno => ?_, fun hearly => ?_, fun hrun habs hecc hwait hie hon hpend hfirst hsub => ?_, fun hpend => ?_,
    fun die idx w hwait hkind hdone hpend hie => ?_, fun w hwait hkind hseen hpend => ?_, fun hwait => ?_, rfl⟩
  · have hany : (s.core c).pend.any (fun p => p.flt.code == .watchdog) = false := by simpa using hno
    rw [exec_stallMonitorExpiry, if_pos ⟨hrun, hlate, by rw [hany]; rfl⟩]
    exact ⟨_, _, rfl, State.core_setCore_same .., rfl, fun d hd => State.core_setCore_ne _ _ hd⟩
  · rw [exec_stallMonitorExpiry, if_neg fun h => absurd h.2.1 (Nat.not_le.2 hearly)]
  · refine ⟨_, exec_takeTrap s c p ps hrun habs hecc hwait hpend hfirst hon hie, ?_⟩
    rw [State.core_setCore_same]
    refine ⟨rfl, rfl, ?_, rfl, rfl, Core.trapStatus_mode k, Core.trapStatus_ie k, rfl, rfl⟩
    have hcode : p.flt.code.num < 256 := by cases p.flt.code <;> decide
    have hst : streamNum p.st < 8 := by cases p.st <;> decide
    change (mkCause p.flt.code.num p.flt.sub (streamNum p.st) (!ps.isEmpty) p.group).toNat = _
    rw [mkCause_toNat hcode hsub hst]
    cases ps <;> simp [natOf]
  · change execTakeTrap c s = _
    simp [execTakeTrap, show (s.core c).pend = [] from hpend]
  · exact ⟨_, exec_waiterWithdraw_future s c die idx w hwait hkind hdone hpend hie, State.core_setCore_same .., rfl, rfl⟩
  · rw [exec_waitiDeadline, show (s.core c).hs.wait = some w from hwait]
    exact congrArg _ (if_pos ⟨hkind, hseen, by simp [State.waitiDone, show (s.core c).pend ≠ [] from hpend]⟩)
  · rw [exec_waitiDeadline, show (s.core c).hs.wait = none from hwait]

/-! Fills (R27, R32, R122, R123, R198). -/

theorem getElem?_upFrom (a : Nat) {n j : Nat} (h : j < n) : (upFrom a n)[j]? = some (a + j) := by
  induction n generalizing a j with
  | zero => omega
  | succ n ih =>
    cases j with
    | zero => rfl
    | succ j => rw [upFrom, List.getElem?_cons_succ, ih (a + 1) (by omega)]; congr 1; omega

/-- What a fill puts into a slate's buffer: the granules of its target, within the code handle. -/
def State.slateGrans (s : State) (c : Nat) (target : BitVec 16) : List (BitVec 32) :=
  (upFrom target.toNat (min 24 (codeLenOf (s.core c).code - target.toNat))).map fun g => BitVec.ofNat 32 (s.gran c g)

theorem State.slateGrans_length (s : State) (c : Nat) (target : BitVec 16) :
    (s.slateGrans c target).length = min 24 (codeLenOf (s.core c).code - target.toNat) := by
  rw [State.slateGrans, List.length_map, upFrom_length]

theorem State.getElem?_slateGrans (s : State) (c : Nat) (target : BitVec 16) {j : Nat}
    (h : j < min 24 (codeLenOf (s.core c).code - target.toNat)) :
    (s.slateGrans c target)[j]? = some (BitVec.ofNat 32 (s.gran c (target.toNat + j))) := by
  rw [State.slateGrans, List.getElem?_map, getElem?_upFrom _ h, Option.map_some]

/-- SLATE_FILL_DONE of a slate that fills: its buffer holds the granules of the target. -/
theorem exec_slateFillDone (s : State) (c i : Nat) (target : BitVec 16) (v : Bool) (h : (s.core c).slates[i]? = some ⟨target, v, .filling⟩) :
    exec (.slateFillDone c i) s = .next (s.setCore c { s.core c with
      slates := listPut (s.core c).slates i ⟨target, v, .full (s.slateGrans c target)⟩ }) := by
  change execSlateFillDone c i s = _
  simp only [execSlateFillDone, h]
  rfl

/-- CODE_FILL on a core whose code handle is there: the granules of the range within the handle, or nothing. -/
theorem exec_codeFill (s : State) (c gran count : Nat) (hrun : (s.core c).hrun ≠ .idle) (habs : (s.core c).absent.contains 0x300 = false) :
    exec (.codeFill c gran count) s = .next (
      match s.fillGo (s.accOf c .h) c gran (min count (codeLenOf (s.core c).code - gran)) with
      | .ok s' => s'
      | .error _ => s) := by
  change execCodeFill c gran count s = _
  exact congrArg Host.Outcome.next (if_neg fun h => h.elim hrun (Bool.eq_false_iff.1 habs))

/-- CODE_FILL while the core is idle or its code handle is not there does nothing. -/
theorem exec_codeFill_waits (s : State) (c gran count : Nat) (h : (s.core c).hrun = .idle ∨ (s.core c).absent.contains 0x300 = true) :
    exec (.codeFill c gran count) s = .next s := by
  change execCodeFill c gran count s = _
  simp only [execCodeFill, if_pos h]

/-- A state with one more granule of a core's instruction memory, of the bytes that an access reads. -/
def State.withGranule (s : State) (c w g : Nat) (ps : List Piece) : State :=
  (s.cacheTlb c w ps).putImem c ((upFrom (4 * g) 4).zip (s.readBytes ps)) g 1

/-- A fill of one granule that is not there. -/
theorem State.fillGo_absent (s : State) (a : Acc) (c g : Nat) (h : (s.core c).hasGran g = false) :
    s.fillGo a c g 1 = match s.check a (s.core c).code (4 * g : Nat) 4 .fetch 4 [1] with
      | .error f => .error f
      | .ok ps => .ok (s.withGranule c a.world g ps) := by
  simp only [State.fillGo, h, Bool.false_eq_true, if_false]
  rfl

/-- CODE_FILL of one granule within the code handle that is not there: its bytes where the access holds, and nothing where it fails. -/
theorem exec_codeFill_absent (s : State) (c g : Nat) (hrun : (s.core c).hrun ≠ .idle) (habs : (s.core c).absent = [])
    (hlen : g < codeLenOf (s.core c).code) (hgran : (s.core c).hasGran g = false) :
    exec (.codeFill c g 1) s = .next (
      match s.check (s.accOf c .h) (s.core c).code ((4 * g : Nat) : Int) 4 .fetch 4 [1] with
      | .error _ => s
      | .ok ps => s.withGranule c (s.core c).world g ps) := by
  have hone : min 1 (codeLenOf (s.core c).code - g) = 1 := by omega
  rw [exec_codeFill s c g 1 hrun (by rw [habs]; rfl), hone, s.fillGo_absent _ c g hgran]
  cases s.check (s.accOf c .h) (s.core c).code ((4 * g : Nat) : Int) 4 .fetch 4 [1] <;> rfl

theorem upFrom_map_imemKey (c g n : Nat) : (upFrom g n).map (imemKey c) = upFrom (imemKey c g) n := by
  induction n generalizing g with
  | zero => rfl
  | succ n ih => rw [upFrom, List.map_cons, ih, upFrom]; rfl

theorem State.withGranule_mem (s : State) (c w g : Nat) (ps : List Piece) :
    (s.withGranule c w g ps).mem = memPuts s.mem ((upFrom (imemKey c (4 * g)) 4).zip (s.readBytes ps)) := by
  have hkeys : ((upFrom (4 * g) 4).zip (s.readBytes ps)).map (fun b => (imemKey c b.1, b.2)) =
      (upFrom (imemKey c (4 * g)) 4).zip (s.readBytes ps) := by
    rw [← upFrom_map_imemKey, List.zip_map_left]
    rfl
  change memPuts (s.cacheTlb c w ps).mem _ = _
  rw [State.cacheTlb_mem, hkeys]

/-- The granule reads as the four bytes of its piece, and no other byte of memory changes. -/
theorem State.memGet_withGranule (s : State) (c w g va key : Nat) {j : Nat} (hj : j < 4) :
    memGet (s.withGranule c w g [⟨va, key, 4⟩]).mem (imemKey c (4 * g) + j) = (s.readBytes [⟨va, key, 4⟩]).getD j 0 := by
  have hlen : (s.readBytes [⟨va, key, 4⟩]).length = 4 := rfl
  have h := memGet_memPuts_upFrom s.mem (imemKey c (4 * g)) (s.readBytes [⟨va, key, 4⟩])
  rw [hlen, ← s.withGranule_mem c w g] at h
  rw [← h, List.getD_eq_getElem?_getD, List.getElem?_map, getElem?_upFrom _ hj]
  rfl

theorem State.memGet_withGranule_ne (s : State) (c w g : Nat) (ps : List Piece) {a : Nat}
    (ha : a < imemKey c (4 * g) ∨ imemKey c (4 * g) + 4 ≤ a) : memGet (s.withGranule c w g ps).mem a = memGet s.mem a := by
  rw [s.withGranule_mem]
  refine memGet_memPuts_ne _ _ _ fun e he => ?_
  have hmem := (mem_upFrom _ _ _).1 (List.of_mem_zip he).1
  omega

theorem State.core_withGranule_same (s : State) (c w g : Nat) (ps : List Piece) :
    (s.withGranule c w g ps).core c = (s.core c).filledOver g 1 := by
  rw [State.withGranule, State.core_putImem_same, State.cacheTlb_core]

theorem State.core_withGranule_ne (s : State) {c d : Nat} (w g : Nat) (ps : List Piece) (h : d ≠ c) :
    (s.withGranule c w g ps).core d = s.core d := by
  rw [State.withGranule, State.core_putImem_ne _ _ _ _ h, State.cacheTlb_core]

theorem fillsAndBanks : Claims.FillsAndBanks := by
  intro s c i bank gran count target v k n
  refine ⟨fun hslate => ?_, fun hrun hgran => ?_, fun hrun habs hlen hgran => ⟨fun ps hps => ?_, fun f hf => ?_⟩, ?_, fun hwait => ?_, ?_⟩
  · have hi : i < (s.core c).slates.length := (List.getElem?_eq_some_iff.1 hslate).1
    refine ⟨_, s.slateGrans c target, exec_slateFillDone s c i target v hslate, ?_⟩
    rw [State.core_setCore_same]
    refine ⟨?_, s.slateGrans_length c target, fun j hj => s.getElem?_slateGrans c target hj, fun j hj => ?_, rfl, rfl, rfl⟩
    · exact (congrArg (·[i]?) (listPut_eq_set _ _ _)).trans (List.getElem?_set_self hi)
    · exact (congrArg (·[j]?) (listPut_eq_set _ _ _)).trans (List.getElem?_set_ne (Ne.symm hj))
  · by_cases habs : (s.core c).absent.contains 0x300 = true
    · exact exec_codeFill_waits s c gran count (.inr habs)
    · rw [exec_codeFill s c gran count hrun (by simpa using habs), s.fillGo_present]
      exact fun o ho => hgran _ (by omega) (by omega)
  · obtain ⟨va, key, rfl⟩ := State.check_granule hps
    have hexec := exec_codeFill_absent s c gran hrun habs hlen hgran
    rw [hps] at hexec
    refine ⟨_, hexec, ?_, fun j hj => s.memGet_withGranule c _ gran va key hj, fun a ha => s.memGet_withGranule_ne c _ gran _ ha, ?_⟩
    · rw [State.core_withGranule_same, Core.hasGran_filledOver]
      simp
    · rw [State.core_withGranule_same]
      exact ⟨rfl, rfl, rfl, fun d hd => s.core_withGranule_ne _ gran _ hd⟩
  · rw [exec_codeFill_absent s c gran hrun habs hlen hgran, hf]
  · by_cases hwait : (s.core c).hrun = .idle ∨ (s.core c).absent.contains 0x300 = true
    · exact ⟨s, exec_codeFill_waits s c gran count hwait, rfl, rfl, rfl, .inl rfl⟩
    · obtain ⟨hrun, habs⟩ := not_or.1 hwait
      rw [exec_codeFill s c gran count hrun (by simpa using habs)]
      cases hfill : s.fillGo (s.accOf c .h) c gran (min count (codeLenOf (s.core c).code - gran)) with
      | error f => exact ⟨s, rfl, rfl, rfl, rfl, .inl rfl⟩
      | ok t =>
        obtain ⟨hmore, hrange⟩ := State.fillGo_ok hfill
        exact ⟨t, rfl, hmore.x, hmore.h, hmore.hs, .inr fun g hlo hhi (hlen : g < codeLenOf (s.core c).code) => hrange g hlo (by omega)⟩
  · by_cases hidle : (s.core c).hrun = .idle ∨ (s.core c).absent.contains 0x300 = true
    · exact exec_codeFill_waits s c gran count hidle
    · obtain ⟨hrun, habs⟩ := not_or.1 hidle
      have hlen : codeLenOf (s.core c).code ≤ gran := by
        rcases hwait with h | h | h
        · exact absurd h hrun
        · exact absurd h habs
        · exact h
      rw [exec_codeFill s c gran count hrun (by simpa using habs), Nat.sub_eq_zero_of_le hlen, Nat.min_zero]
      rfl
  · exact ⟨_, rfl, State.core_setCore_same .. |>.trans (by rw [State.modCore_eq, State.core_setCore_same]),
      fun d hd => State.core_setCore_ne _ _ hd, rfl⟩

/-- Settles O44: a rule for each event, with the granules of instruction memory read through `memGet_memPuts_upFrom`. -/
theorem coreEvents : Obligations.CoreEvents := ⟨monitorAndPendingTraps, fillsAndBanks⟩

end Sys2Proof.Machine

/-! Commits of issue groups (O12): queues, staged effects, and what ends a commit. -/
namespace Sys2Proof.Machine

/-! Consumed entries leave their queues. -/

/-- A queue of a table after one entry of it was dropped for each time that a list names it. -/
theorem dropEach_getD {α : Type} (t : Tab (List α)) (qs : List Nat) (q : Nat) :
    (tabFind (dropEach t qs) q).getD [] = ((tabFind t q).getD []).drop (qs.count q) := by
  induction qs generalizing t with
  | nil => rfl
  | cons p qs ih =>
    rw [dropEach, List.foldl_cons, ← dropEach, ih]
    by_cases hp : p = q
    · rw [hp, tabFind_tabSet_same, Option.getD_some, List.drop_drop, List.count_cons_self, Nat.add_comm]
    · rw [tabFind_tabSet_ne _ _ (Ne.symm hp), List.count_cons_of_ne hp]

/-- An operand queue after one entry of it was dropped for each time that a list names it. -/
theorem dropOqs_getD (oqs : List (List OqEnt)) (qs : List Nat) (q : Nat) :
    (dropOqs oqs qs).getD q [] = (oqs.getD q []).drop (qs.count q) := by
  induction qs generalizing oqs with
  | nil => rfl
  | cons p qs ih =>
    rw [dropOqs, List.foldl_cons, ← dropOqs, ih, listPut_eq_set]
    by_cases hp : p = q
    · subst hp
      rw [List.count_cons_self, Nat.add_comm, ← List.drop_drop]
      congr 1
      by_cases hlen : p < oqs.length
      · simp [List.getD_eq_getElem?_getD, hlen]
      · simp [List.getD_eq_getElem?_getD, hlen]
    · rw [List.count_cons_of_ne hp]
      simp [List.getD_eq_getElem?_getD, List.getElem?_set_ne hp]

/-! Staged effects, one after the other. -/

/-- A core once a group's staged effects have been applied in order. -/
def Core.applied (now : Nat) (clk : Clock) (st : Stream) (k : Core) (es : List Eff) : Core := es.foldl (fun k e => applyEff now clk st k e) k

theorem Core.applied_cons (now : Nat) (clk : Clock) (st : Stream) (k : Core) (e : Eff) (es : List Eff) :
    Core.applied now clk st k (e :: es) = Core.applied now clk st (applyEff now clk st k e) es := rfl

theorem vqueue_applyEff (now : Nat) (clk : Clock) (st : Stream) (k : Core) (e : Eff) (q : Nat) :
    (applyEff now clk st k e).vqueue q = k.vqueue q ++ entriesOn q now [e] := by
  cases e with
  | push p v short =>
    by_cases hp : p = q
    · subst hp
      simp [applyEff, Core.vqueue, entriesOn, tabFind_tabSet_same]
    · simp [applyEff, Core.vqueue, entriesOn, tabFind_tabSet_ne _ _ (Ne.symm hp), hp]
  | tileState t full =>
    rw [applyEff]
    split <;> exact (List.append_nil _).symm
  | minv =>
    rw [applyEff]
    split <;> exact (List.append_nil _).symm
  | cedge n | redge n =>
    cases st <;> exact (List.append_nil _).symm
  | write | tile | pred | mpush | mpop | present => exact (List.append_nil _).symm

theorem Core.vqueue_applied (now : Nat) (clk : Clock) (st : Stream) (k : Core) (es : List Eff) (q : Nat) :
    (Core.applied now clk st k es).vqueue q = k.vqueue q ++ entriesOn q now es := by
  induction es generalizing k with
  | nil => exact (List.append_nil _).symm
  | cons e es ih =>
    rw [Core.applied_cons, ih, vqueue_applyEff, List.append_assoc]
    congr 1
    exact (List.filterMap_append (l := [e]) (l' := es)).symm

/-- A tile's bytes and full bit. -/
def Core.tileBits (k : Core) (n : Nat) : TileBits × Bool := ((k.tile n).bits, (k.tile n).full)

theorem Core.tile_setTile_same (k : Core) (n : Nat) (v : TileSt) : (k.setTile n v).tile n = v := by
  simp [Core.tile, Core.setTile, tabFind_tabSet_same]

theorem Core.tile_setTile_ne (k : Core) {n t : Nat} (v : TileSt) (h : n ≠ t) : (k.setTile t v).tile n = k.tile n := by
  simp [Core.tile, Core.setTile, tabFind_tabSet_ne _ _ h]

theorem tile_applyEff (now : Nat) (clk : Clock) (st : Stream) (k : Core) (e : Eff) (n : Nat) :
    (applyEff now clk st k e).tileBits n = tileAfter n [e] (k.tileBits n) ∧ ((applyEff now clk st k e).tile n).held = (k.tile n).held := by
  cases e with
  | tile t bits =>
    by_cases ht : t = n
    · subst ht
      rw [applyEff, Core.tileBits, Core.tile_setTile_same]
      simp [tileAfter]
    · rw [applyEff, Core.tileBits, Core.tile_setTile_ne _ _ (Ne.symm ht)]
      simp only [tileAfter, List.foldl_cons, List.foldl_nil, if_neg ht]
      exact ⟨rfl, rfl⟩
  | tileState t full =>
    rw [applyEff]
    by_cases hfull : (k.tile t).full = full
    · rw [if_pos hfull]
      by_cases ht : t = n
      · subst ht
        simp [tileAfter, Core.tileBits, hfull]
      · simp [tileAfter, Core.tileBits, ht]
    · rw [if_neg hfull]
      by_cases ht : t = n
      · subst ht
        rw [Core.tileBits, Core.tile_setTile_same]
        simp [tileAfter, Core.tileBits]
      · rw [Core.tileBits, Core.tile_setTile_ne _ _ (Ne.symm ht)]
        simp [tileAfter, Core.tileBits, ht]
  | minv =>
    rw [applyEff]
    split <;> exact ⟨rfl, rfl⟩
  | cedge m | redge m => cases st <;> exact ⟨rfl, rfl⟩
  | write | push | pred | mpush | mpop | present => exact ⟨rfl, rfl⟩

theorem Core.tile_applied (now : Nat) (clk : Clock) (st : Stream) (k : Core) (es : List Eff) (n : Nat) :
    (Core.applied now clk st k es).tileBits n = tileAfter n es (k.tileBits n) ∧
      ((Core.applied now clk st k es).tile n).held = (k.tile n).held := by
  induction es generalizing k with
  | nil => exact ⟨rfl, rfl⟩
  | cons e es ih =>
    obtain ⟨hbits, hheld⟩ := tile_applyEff now clk st k e n
    rw [Core.applied_cons, (ih _).1, (ih _).2, hbits, hheld]
    exact ⟨rfl, rfl⟩

theorem Core.getK_setK_same (k : Core) {n : Nat} (v : Pred) (hn : n ≠ 0) : (k.setK n v).getK n = v := by
  rw [Core.getK, if_neg hn, Core.setK, tabFind_tabSet_same, Option.getD_some]

theorem Core.getK_setK_ne (k : Core) {n m : Nat} (v : Pred) (h : n ≠ m) : (k.setK m v).getK n = k.getK n := by
  rw [Core.getK, Core.getK, Core.setK, tabFind_tabSet_ne _ _ h]

theorem getK_applyEff (now : Nat) (clk : Clock) (st : Stream) (k : Core) (e : Eff) {n : Nat} (hn : n ≠ 0) :
    (applyEff now clk st k e).getK n = predAfter n [e] (k.getK n) := by
  rw [predAfter, if_neg hn]
  cases e with
  | pred m v =>
    by_cases hm : m = n
    · subst hm
      rw [applyEff, Core.getK_setK_same _ _ hn]
      exact (if_pos rfl).symm
    · rw [applyEff, Core.getK_setK_ne _ _ (Ne.symm hm)]
      exact (if_neg hm).symm
  | tileState t full =>
    rw [applyEff]
    split <;> rfl
  | minv =>
    rw [applyEff]
    split <;> rfl
  | cedge m | redge m => cases st <;> rfl
  | write | push | tile | mpush | mpop | present => rfl

theorem Core.getK_applied (now : Nat) (clk : Clock) (st : Stream) (k : Core) (es : List Eff) (n : Nat) :
    (Core.applied now clk st k es).getK n = predAfter n es (k.getK n) := by
  by_cases hn : n = 0
  · simp [Core.getK, predAfter, hn]
  · induction es generalizing k with
    | nil => simp [Core.applied, predAfter, hn]
    | cons e es ih =>
      rw [Core.applied_cons, ih, getK_applyEff now clk st k e hn]
      simp [predAfter, hn]

theorem Core.mask_applied (now : Nat) (clk : Clock) (st : Stream) (k : Core) (es : List Eff) :
    (Core.applied now clk st k es).mask = maskAfter es k.mask := by
  induction es generalizing k with
  | nil => rfl
  | cons e es ih =>
    rw [Core.applied_cons, ih]
    cases e with
    | minv =>
      rw [applyEff]
      split
      next hmask => rw [hmask]; rfl
      next x m hmask => rw [hmask]; rfl
    | tileState t full =>
      rw [applyEff]
      split <;> rfl
    | cedge m | redge m => cases st <;> rfl
    | write | push | tile | pred | mpush | mpop | present => rfl

/-- A core with the general registers, conditions, handles, STATUS and pending faults of another. -/
structure Core.SameRegs (k k' : Core) : Prop where
  x : k'.x = k.x
  c : k'.c = k.c
  h : k'.h = k.h
  status : k'.status = k.status
  pend : k'.pend = k.pend

theorem Core.SameRegs.refl (k : Core) : k.SameRegs k := ⟨rfl, rfl, rfl, rfl, rfl⟩

theorem Core.SameRegs.trans {k k' k'' : Core} (h : k.SameRegs k') (h' : k'.SameRegs k'') : k.SameRegs k'' :=
  ⟨h'.x.trans h.x, h'.c.trans h.c, h'.h.trans h.h, h'.status.trans h.status, h'.pend.trans h.pend⟩

theorem Core.sameRegs_setStrm (k : Core) (st : Stream) (v : StreamSt) : k.SameRegs (k.setStrm st v) :=
  ⟨Core.setStrm_x .., Core.setStrm_c .., Core.setStrm_h .., Core.setStrm_status .., Core.setStrm_pend ..⟩

/-- What staged effects leave of a core: its registers, its stream registers, its array, the streams of other groups, and of the group's own
stream everything but its edges. -/
structure Core.EffectFrame (st : Stream) (k k' : Core) : Prop where
  regs : k.SameRegs k'
  sr : k'.sr = k.sr
  mx : k'.mx = k.mx
  others : ∀ u, u ≠ st → k'.strm u = k.strm u
  own : k'.strm st = { k.strm st with cedge := (k'.strm st).cedge, redge := (k'.strm st).redge }

theorem Core.EffectFrame.refl (st : Stream) (k : Core) : k.EffectFrame st k := ⟨.refl _, rfl, rfl, fun _ _ => rfl, rfl⟩

theorem Core.EffectFrame.trans {st : Stream} {k k' k'' : Core} (h : k.EffectFrame st k') (h' : k'.EffectFrame st k'') : k.EffectFrame st k'' where
  regs := h.regs.trans h'.regs
  sr := h'.sr.trans h.sr
  mx := h'.mx.trans h.mx
  others u hu := (h'.others u hu).trans (h.others u hu)
  own := by
    have hown := h'.own
    rw [h.own] at hown
    exact hown

theorem Core.effectFrame_setStrm (st : Stream) (k : Core) (a b : Nat) :
    k.EffectFrame st (k.setStrm st { k.strm st with cedge := a, redge := b }) where
  regs := k.sameRegs_setStrm ..
  sr := Core.setStrm_sr ..
  mx := Core.setStrm_mx ..
  others _ hu := Core.setStrm_strm_ne k _ hu
  own := by rw [Core.setStrm_strm]

theorem applyEff_frame (now : Nat) (clk : Clock) (st : Stream) (k : Core) (e : Eff) : k.EffectFrame st (applyEff now clk st k e) := by
  cases e with
  | minv =>
    rw [applyEff]
    split <;> exact ⟨⟨rfl, rfl, rfl, rfl, rfl⟩, rfl, rfl, fun _ _ => rfl, rfl⟩
  | tileState t full =>
    rw [applyEff]
    split <;> exact ⟨⟨rfl, rfl, rfl, rfl, rfl⟩, rfl, rfl, fun _ _ => rfl, rfl⟩
  | cedge n => exact k.effectFrame_setStrm st n (k.strm st).redge
  | redge n => exact k.effectFrame_setStrm st (k.strm st).cedge n
  | write | push | tile | pred | mpush | mpop | present => exact ⟨⟨rfl, rfl, rfl, rfl, rfl⟩, rfl, rfl, fun _ _ => rfl, rfl⟩

theorem Core.applied_frame (now : Nat) (clk : Clock) (st : Stream) (k : Core) (es : List Eff) :
    k.EffectFrame st (Core.applied now clk st k es) := by
  induction es generalizing k with
  | nil => exact .refl st k
  | cons e es ih => exact (applyEff_frame now clk st k e).trans (ih _)

theorem Core.edges_applied (now : Nat) (clk : Clock) (st : Stream) (k : Core) (es : List Eff) :
    (((Core.applied now clk st k es).strm st).cedge, ((Core.applied now clk st k es).strm st).redge) =
      edgesAfter es ((k.strm st).cedge, (k.strm st).redge) := by
  induction es generalizing k with
  | nil => rfl
  | cons e es ih =>
    rw [Core.applied_cons, ih]
    cases e with
    | minv =>
      rw [applyEff]
      split <;> rfl
    | tileState t full =>
      rw [applyEff]
      split <;> rfl
    | cedge n | redge n =>
      rw [applyEff, Core.modStrm, Core.setStrm_strm]
      rfl
    | write | push | tile | pred | mpush | mpop | present => cases st <;> rfl

/-! What ends a commit: the bytes, what the group teaches its stream, and the sequencer. -/

/-- A stream whose items are those of another: operand queues, edges, group, levels, and where and whether it runs. -/
structure StreamSt.SameItems (v v' : StreamSt) : Prop where
  oqs : v'.oqs = v.oqs
  run : v'.run = v.run
  pc : v'.pc = v.pc
  grp : v'.grp = v.grp
  levels : v'.levels = v.levels
  cedge : v'.cedge = v.cedge
  redge : v'.redge = v.redge

theorem StreamSt.SameItems.refl (v : StreamSt) : v.SameItems v := ⟨rfl, rfl, rfl, rfl, rfl, rfl, rfl⟩

theorem StreamSt.SameItems.trans {v v' v'' : StreamSt} (h : v.SameItems v') (h' : v'.SameItems v'') : v.SameItems v'' :=
  ⟨h'.oqs.trans h.oqs, h'.run.trans h.run, h'.pc.trans h.pc, h'.grp.trans h.grp, h'.levels.trans h.levels, h'.cedge.trans h.cedge,
    h'.redge.trans h.redge⟩

/-- A core whose queues, tiles, registers and array are those of another, and the items of its streams. -/
structure Core.SameItems (k k' : Core) : Prop where
  regs : k.SameRegs k'
  vq : k'.vq = k.vq
  sr : k'.sr = k.sr
  tiles : k'.tiles = k.tiles
  preds : k'.k = k.k
  mask : k'.mask = k.mask
  mx : k'.mx = k.mx
  strm : ∀ st, (k.strm st).SameItems (k'.strm st)

theorem Core.SameItems.refl (k : Core) : k.SameItems k := ⟨.refl k, rfl, rfl, rfl, rfl, rfl, rfl, fun _ => .refl _⟩

theorem Core.SameItems.trans {k k' k'' : Core} (h : k.SameItems k') (h' : k'.SameItems k'') : k.SameItems k'' :=
  ⟨h.regs.trans h'.regs, h'.vq.trans h.vq, h'.sr.trans h.sr, h'.tiles.trans h.tiles, h'.preds.trans h.preds, h'.mask.trans h.mask,
    h'.mx.trans h.mx, fun st => (h.strm st).trans (h'.strm st)⟩

/-- A core one of whose streams keeps its items. -/
theorem Core.sameItems_setStrm (k : Core) (st : Stream) {v : StreamSt} (h : (k.strm st).SameItems v) : k.SameItems (k.setStrm st v) where
  regs := k.sameRegs_setStrm ..
  vq := Core.setStrm_vq ..
  sr := Core.setStrm_sr ..
  tiles := Core.setStrm_tiles ..
  preds := Core.setStrm_k ..
  mask := Core.setStrm_mask ..
  mx := Core.setStrm_mx ..
  strm u := by
    by_cases hu : u = st
    · subst hu
      rw [Core.setStrm_strm]
      exact h
    · rw [Core.setStrm_strm_ne k v hu]
      exact .refl _

/-- A stream at another granule. -/
def Core.withPc (k : Core) (st : Stream) (pc : BitVec 16) : Core := k.setStrm st { k.strm st with pc := pc }

theorem Core.SameItems.withPc {k k' : Core} (h : k.SameItems k') (st : Stream) (pc : BitVec 16) :
    (k.withPc st pc).SameItems (k'.withPc st pc) where
  regs := ⟨by simpa [Core.withPc] using h.regs.x, by simpa [Core.withPc] using h.regs.c, by simpa [Core.withPc] using h.regs.h,
    by simpa [Core.withPc] using h.regs.status, by simpa [Core.withPc] using h.regs.pend⟩
  vq := by simpa [Core.withPc] using h.vq
  sr := by simpa [Core.withPc] using h.sr
  tiles := by simpa [Core.withPc] using h.tiles
  preds := by simpa [Core.withPc] using h.preds
  mask := by simpa [Core.withPc] using h.mask
  mx := by simpa [Core.withPc] using h.mx
  strm u := by
    by_cases hu : u = st
    · subst hu
      rw [Core.withPc, Core.withPc, Core.setStrm_strm, Core.setStrm_strm]
      have hs := h.strm u
      exact ⟨hs.oqs, hs.run, rfl, hs.grp, hs.levels, hs.cedge, hs.redge⟩
    · rw [Core.withPc, Core.withPc, Core.setStrm_strm_ne _ _ hu, Core.setStrm_strm_ne _ _ hu]
      exact h.strm u

/-- A flag waiter that looks again keeps all but its wait. -/
theorem State.wakeFlag_sameItems (s : State) (keys : List Nat) (v : StreamSt) : v.SameItems (s.wakeFlag keys v) := by
  rw [State.wakeFlag]
  split
  · split
    · dsimp only
      split
      · exact ⟨rfl, rfl, rfl, rfl, rfl, rfl, rfl⟩
      · exact .refl v
    · exact .refl v
  · exact .refl v

theorem tabFind_map {α : Type} (t : Tab α) (f : α → α) (a : Nat) : tabFind (t.map fun e => (e.1, f e.2)) a = (tabFind t a).map f := by
  induction t with
  | nil => rfl
  | cons e t ih =>
    obtain ⟨b, w⟩ := e
    rw [List.map_cons, tabFind, tabFind, ih]
    split <;> rfl

/-- A core whose streams wait for flags and have looked again. -/
def State.wakeCore (s : State) (keys : List Nat) (k : Core) : Core :=
  { k with hs := s.wakeFlag keys k.hs, ls := s.wakeFlag keys k.ls, ss := s.wakeFlag keys k.ss, vs := s.wakeFlag keys k.vs
           ms := s.wakeFlag keys k.ms }

theorem State.wakeFlags_sameItems {s u : State} (h : u.cores = s.cores) (keys : List Nat) (c : Nat) :
    (s.core c).SameItems ((u.wakeFlags keys).core c) := by
  have hcore : (u.wakeFlags keys).core c = ((tabFind s.cores c).map (u.wakeCore keys)).getD .init := by
    rw [← h, ← tabFind_map]
    rfl
  rw [hcore, State.core]
  cases tabFind s.cores c with
  | none => exact .refl _
  | some k =>
    refine ⟨⟨rfl, rfl, rfl, rfl, rfl⟩, rfl, rfl, rfl, rfl, rfl, rfl, fun st => ?_⟩
    cases st <;> exact u.wakeFlag_sameItems keys _

/-- Bytes are written, and what waits for flags looks again. -/
theorem State.putMem_eq (s : State) (w : Nat) (bs : List (Nat × Byte)) : ∃ u : State, s.putMem w bs = u.wakeFlags (bs.map (·.1)) ∧
    u.cores = s.cores ∧ u.mem = memPuts s.mem bs ∧ u.sectors = s.sectors ∧ u.now = s.now := ⟨_, rfl, rfl, rfl, rfl, rfl⟩

theorem State.putBytes_sameItems (s : State) (w : Nat) (bs : List (Nat × Byte)) (c : Nat) : (s.core c).SameItems ((s.putBytes w bs).core c) := by
  obtain ⟨u, hput, hcores, -⟩ := State.putMem_eq { s with flagClks := s.flagClks.filter fun e => !bs.any fun b => b.1 / 8 == e.1 } w bs
  rw [State.putBytes, hput]
  exact State.wakeFlags_sameItems hcores _ c

theorem memPuts_append (m : Tab Byte) (xs ys : List (Nat × Byte)) : memPuts m (xs ++ ys) = memPuts (memPuts m xs) ys := by
  induction xs generalizing m with
  | nil => rfl
  | cons x xs ih => exact ih _

/-- The bytes that staged effects write, put in order. -/
def State.putEffects (s : State) (w : Nat) (es : List Eff) : State :=
  es.foldl (fun s e =>
    match e with
    | .write bytes => s.putBytes w bytes
    | _ => s) s

theorem State.putEffects_cons_write (s : State) (w : Nat) (bs : List (Nat × Byte)) (es : List Eff) :
    s.putEffects w (.write bs :: es) = (s.putBytes w bs).putEffects w es := rfl

/-- What staged bytes leave: memory with all of them, the detection table, and the items of every core. -/
theorem State.putEffects_spec (s : State) (w : Nat) (es : List Eff) (c : Nat) :
    (s.putEffects w es).mem = memPuts s.mem (bytesStored es) ∧ (s.putEffects w es).sectors = s.sectors ∧
      (s.core c).SameItems ((s.putEffects w es).core c) := by
  induction es generalizing s with
  | nil => exact ⟨rfl, rfl, .refl _⟩
  | cons e es ih =>
    cases e with
    | write bs =>
      obtain ⟨hmem, hsec, hcore⟩ := ih (s.putBytes w bs)
      rw [State.putEffects_cons_write, hmem, hsec]
      exact ⟨(memPuts_append s.mem bs (bytesStored es)).symm, rfl, (s.putBytes_sameItems w bs c).trans hcore⟩
    | _ => exact ih s

/-- A retired section changes no item of its stream. -/
theorem StreamSt.retireSection_sameItems (v : StreamSt) (own : Clock) : v.SameItems (v.retireSection own) := ⟨rfl, rfl, rfl, rfl, rfl, rfl, rfl⟩

/-- The sequencer moves a stream to a granule; nothing else of the core's items changes. -/
theorem State.sequence_spec (s : State) (c : Nat) (st : Stream) (pc : BitVec 16) :
    (s.sequence c st pc).mem = s.mem ∧ (s.sequence c st pc).sectors = s.sectors ∧
      ((s.core c).withPc st pc).SameItems ((s.sequence c st pc).core c) := by
  have hmoved : ((s.core c).withPc st pc).SameItems (((s.setPc c st pc).progressed c).core c) := by
    rw [State.progressed, State.modCore_eq, State.core_setCore_same, State.setPc, State.modStrm_eq, State.core_setCore_same]
    exact ⟨⟨rfl, rfl, rfl, rfl, rfl⟩, rfl, rfl, rfl, rfl, rfl, rfl, fun u => .refl _⟩
  rw [State.sequence]
  split
  · refine ⟨rfl, rfl, hmoved.trans ?_⟩
    rw [State.retireSection_eq, State.core_setCore_same]
    exact Core.sameItems_setStrm _ st (StreamSt.retireSection_sameItems _ _)
  · exact ⟨rfl, rfl, hmoved⟩

/-- What a stream learns changes none of its items. -/
theorem State.learn_sameItems (s : State) (c : Nat) (st : Stream) (clk : Clock) : (s.core c).SameItems ((s.learn c st clk).core c) := by
  rw [State.learn_eq, State.core_setCore_same]
  exact Core.sameItems_setStrm _ st ⟨rfl, rfl, rfl, rfl, rfl, rfl, rfl⟩

/-! The commit of a group. -/

/-- A core from which a group has taken what it consumes, its stream free of the group, before its staged effects. -/
def Core.committing (k : Core) (now : Nat) (st : Stream) (g : Grp) : Core :=
  let k' := { k.settle now with heads := moveHeads k g.pops, vq := dropEach k.vq g.pops, sr := dropEach k.sr g.spops }
  let k' := match g.mx with
    | some m => { k' with mx := { m with bucket := k'.mx.bucket, refilled := k'.mx.refilled } }
    | none => k'
  let k' := k'.setStrm st { k.strm st with grp := none, wait := none, blocked := none, oqs := dropOqs (k.strm st).oqs g.opops }
  { k'.touch now st g with drowsy := [] }

/-- A core with every staged effect of a group. -/
def State.groupCore (s : State) (c : Nat) (st : Stream) (g : Grp) : Core :=
  Core.applied s.now (clkJoin (s.clkOf c st) g.clk) st ((s.core c).committing s.now st g) g.effs

/-- A state whose core has a group's effects, with the group's traces in the detection table and the translations that it used. -/
def State.withGroupCore (s : State) (c : Nat) (g : Grp) (k : Core) : State :=
  ({ s.setCore c k with sectors := g.tab.getD s.sectors }).cacheTlb c k.world (g.pcs.map fun (p : Nat × Nat × Nat) => ⟨p.1, p.2.1, p.2.2⟩)

/-- A stream has learned what its group read, where the group was the destination of an edge. -/
def State.taught (s : State) (c : Nat) (st : Stream) (g : Grp) : State := if g.edge then s.learn c st g.clk else s

/-- What ends a commit once the core has its effects: detection, translations, bytes, knowledge, and the sequencer. -/
def State.endCommit (s : State) (c : Nat) (st : Stream) (g : Grp) (k : Core) : State :=
  (((s.withGroupCore c g k).putEffects k.world g.effs).taught c st g).sequence c st g.after

/-- A group whose last checks hold commits whole. -/
theorem State.commitGroup_eq (s : State) (c : Nat) (st : Stream) (g : Grp) (h : (s.core c).mayCommit s.now st g) :
    s.commitGroup c st g = s.endCommit c st g (s.groupCore c st g) := by
  obtain ⟨-, hlevels, hover, hmask⟩ := h
  rw [State.commitGroup]
  simp only [show (Core.strm (s.core c) st).leavesOpen (g.start + BitVec.ofNat 16 (3 * g.lats.length)) = false from hlevels, hover, hmask,
    Bool.false_eq_true, if_false]
  rfl

theorem State.withGroupCore_spec (s : State) (c : Nat) (g : Grp) (k : Core) :
    (s.withGroupCore c g k).mem = s.mem ∧ (s.withGroupCore c g k).sectors = g.tab.getD s.sectors ∧ (s.withGroupCore c g k).core c = k :=
  ⟨State.cacheTlb_mem .., State.cacheTlb_sectors .., (State.cacheTlb_core ..).trans (State.core_setCore_same s c k)⟩

theorem State.taught_spec (s : State) (c : Nat) (st : Stream) (g : Grp) :
    (s.taught c st g).mem = s.mem ∧ (s.taught c st g).sectors = s.sectors ∧ (s.core c).SameItems ((s.taught c st g).core c) := by
  rw [State.taught]
  split
  · exact ⟨rfl, rfl, s.learn_sameItems c st g.clk⟩
  · exact ⟨rfl, rfl, .refl _⟩

/-- What the end of a commit leaves: the bytes, the detection table, and the core with its effects, its stream past the group. -/
theorem State.endCommit_spec (s : State) (c : Nat) (st : Stream) (g : Grp) (k : Core) :
    (s.endCommit c st g k).mem = memPuts s.mem (bytesStored g.effs) ∧ (s.endCommit c st g k).sectors = g.tab.getD s.sectors ∧
      (k.withPc st g.after).SameItems ((s.endCommit c st g k).core c) := by
  obtain ⟨hmem1, hsec1, hcore1⟩ := s.withGroupCore_spec c g k
  obtain ⟨hmem2, hsec2, hcore2⟩ := (s.withGroupCore c g k).putEffects_spec k.world g.effs c
  obtain ⟨hmem3, hsec3, hcore3⟩ := ((s.withGroupCore c g k).putEffects k.world g.effs).taught_spec c st g
  obtain ⟨hmem4, hsec4, hcore4⟩ := (((s.withGroupCore c g k).putEffects k.world g.effs).taught c st g).sequence_spec c st g.after
  rw [hcore1] at hcore2
  rw [State.endCommit, hmem4, hmem3, hmem2, hmem1, hsec4, hsec3, hsec2, hsec1]
  exact ⟨rfl, rfl, ((hcore2.trans hcore3).withPc st g.after).trans hcore4⟩

/-- What a group takes leaves its queues and stream registers, and its stream is free of it. -/
theorem Core.committing_takes (k : Core) (now : Nat) (st : Stream) (g : Grp) :
    (k.committing now st g).vq = dropEach k.vq g.pops ∧ (k.committing now st g).sr = dropEach k.sr g.spops ∧
      (k.committing now st g).strm st =
        { k.strm st with grp := none, wait := none, blocked := none, oqs := dropOqs (k.strm st).oqs g.opops } := by
  rw [Core.committing]
  cases g.mx <;> exact ⟨Core.setStrm_vq .., Core.setStrm_sr .., Core.setStrm_strm ..⟩

/-- Its tiles, predicates, mask stack and registers and the other streams stay. -/
theorem Core.committing_keeps (k : Core) (now : Nat) (st : Stream) (g : Grp) :
    (k.committing now st g).tiles = k.tiles ∧ (k.committing now st g).k = k.k ∧ (k.committing now st g).mask = k.mask ∧
      k.SameRegs (k.committing now st g) ∧ ∀ u, u ≠ st → (k.committing now st g).strm u = k.strm u := by
  rw [Core.committing]
  cases g.mx <;> exact ⟨Core.setStrm_tiles .., Core.setStrm_k .., Core.setStrm_mask ..,
    ⟨Core.setStrm_x .., Core.setStrm_c .., Core.setStrm_h .., Core.setStrm_status .., Core.setStrm_pend ..⟩,
    fun _ hu => Core.setStrm_strm_ne _ _ hu⟩

/-- The array of a group that stages one, or the core's own, with the bucket as it stands at the commit. -/
theorem Core.committing_mx (k : Core) (now : Nat) (st : Stream) (g : Grp) :
    (k.committing now st g).mx =
      { g.mx.getD k.mx with bucket := (k.settle now).mx.bucket, refilled := now } := by
  rw [Core.committing]
  cases g.mx <;> exact Core.setStrm_mx ..

section groupCore

variable (s : State) (c : Nat) (st : Stream) (g : Grp)

theorem State.groupCore_frame : ((s.core c).committing s.now st g).EffectFrame st (s.groupCore c st g) := Core.applied_frame ..

theorem State.groupCore_vqueue (q : Nat) :
    (s.groupCore c st g).vqueue q = ((s.core c).vqueue q).drop (g.pops.count q) ++ entriesOn q s.now g.effs := by
  obtain ⟨hvq, -, -⟩ := (s.core c).committing_takes s.now st g
  rw [State.groupCore, Core.vqueue_applied, Core.vqueue, hvq, dropEach_getD]
  rfl

theorem State.groupCore_srq (n : Nat) : (s.groupCore c st g).srq n = ((s.core c).srq n).drop (g.spops.count n) := by
  obtain ⟨-, hsr, -⟩ := (s.core c).committing_takes s.now st g
  rw [Core.srq, (s.groupCore_frame c st g).sr, hsr, dropEach_getD]
  rfl

theorem State.groupCore_tile (n : Nat) : (s.groupCore c st g).tileBits n = tileAfter n g.effs ((s.core c).tileBits n) ∧
    ((s.groupCore c st g).tile n).held = ((s.core c).tile n).held := by
  obtain ⟨htiles, -⟩ := (s.core c).committing_keeps s.now st g
  have h := Core.tile_applied s.now (clkJoin (s.clkOf c st) g.clk) st ((s.core c).committing s.now st g) g.effs n
  rw [Core.tileBits.eq_def ((s.core c).committing s.now st g), Core.tile.eq_def ((s.core c).committing s.now st g), htiles] at h
  exact h

theorem State.groupCore_getK (n : Nat) : (s.groupCore c st g).getK n = predAfter n g.effs ((s.core c).getK n) := by
  obtain ⟨-, hpreds, -⟩ := (s.core c).committing_keeps s.now st g
  rw [State.groupCore, Core.getK_applied, Core.getK, hpreds]
  rfl

theorem State.groupCore_mask : (s.groupCore c st g).mask = maskAfter g.effs (s.core c).mask := by
  obtain ⟨-, -, hmask, -⟩ := (s.core c).committing_keeps s.now st g
  rw [State.groupCore, Core.mask_applied, hmask]

theorem State.groupCore_regs : (s.core c).SameRegs (s.groupCore c st g) := by
  obtain ⟨-, -, -, hregs, -⟩ := (s.core c).committing_keeps s.now st g
  exact hregs.trans (s.groupCore_frame c st g).regs

theorem State.groupCore_others {u : Stream} (hu : u ≠ st) : (s.groupCore c st g).strm u = (s.core c).strm u := by
  obtain ⟨-, -, -, -, hothers⟩ := (s.core c).committing_keeps s.now st g
  rw [(s.groupCore_frame c st g).others u hu, hothers u hu]

/-- The group's stream is free of it, has lost the operands that it took, and has the edges that it left. -/
theorem State.groupCore_own :
    ((s.groupCore c st g).strm st).oqs = dropOqs ((s.core c).strm st).oqs g.opops ∧ ((s.groupCore c st g).strm st).grp = none ∧
      ((s.groupCore c st g).strm st).levels = ((s.core c).strm st).levels ∧
      (((s.groupCore c st g).strm st).cedge, ((s.groupCore c st g).strm st).redge) =
        edgesAfter g.effs (((s.core c).strm st).cedge, ((s.core c).strm st).redge) := by
  obtain ⟨-, -, hown⟩ := (s.core c).committing_takes s.now st g
  have hedges := Core.edges_applied s.now (clkJoin (s.clkOf c st) g.clk) st ((s.core c).committing s.now st g) g.effs
  have hframe := (s.groupCore_frame c st g).own
  rw [hown] at hedges hframe
  refine ⟨?_, ?_, ?_, hedges⟩
  · rw [hframe]
  · rw [hframe]
  · rw [hframe]

end groupCore

/-- A core that has all of a group's effects and whose stream is past the group is what the commit leaves. -/
theorem State.committed_of_sameItems {s t : State} {c : Nat} {st : Stream} {g : Grp} (hst : st ≠ .h)
    (hmem : t.mem = memPuts s.mem (bytesStored g.effs)) (hsec : t.sectors = g.tab.getD s.sectors)
    (hcore : ((s.groupCore c st g).withPc st g.after).SameItems (t.core c)) : s.committed t c st g := by
  obtain ⟨hregs, hvq, hsr, htiles, hpreds, hmask, -, hstrm⟩ := hcore
  obtain ⟨hx, hc, hh, hstatus, hpend⟩ := ((s.groupCore_regs c st g).trans (Core.sameRegs_setStrm ..)).trans hregs
  rw [Core.withPc, Core.setStrm_vq] at hvq
  rw [Core.withPc, Core.setStrm_sr] at hsr
  rw [Core.withPc, Core.setStrm_tiles] at htiles
  rw [Core.withPc, Core.setStrm_k] at hpreds
  rw [Core.withPc, Core.setStrm_mask] at hmask
  have hown := hstrm st
  rw [Core.withPc, Core.setStrm_strm] at hown
  have hothers : ∀ u, u ≠ st → ((s.core c).strm u).SameItems ((t.core c).strm u) := by
    intro u hu
    have h := hstrm u
    rwa [Core.withPc, Core.setStrm_strm_ne _ _ hu, s.groupCore_others c st g hu] at h
  obtain ⟨hoqs, hgrp, hlevels, hedges⟩ := s.groupCore_own c st g
  refine ⟨fun q => ?_, fun n => ?_, fun q => ?_, fun n => ?_, fun n => ?_, ?_, ?_, hown.pc, hown.grp.trans hgrp, hown.levels.trans hlevels, hmem,
    fun a ha => ?_, hsec, hx, hc, hh, hstatus, (hothers .h (Ne.symm hst)).pc, hpend,
    fun u hu => ⟨(hothers u hu).oqs, (hothers u hu).pc, (hothers u hu).run⟩⟩
  · rw [← s.groupCore_vqueue c st g, Core.vqueue, hvq]
    rfl
  · rw [← s.groupCore_srq c st g, Core.srq, hsr]
    rfl
  · rw [← dropOqs_getD, hown.oqs]
    exact congrArg (fun o => o.getD q []) hoqs
  · have h := s.groupCore_tile c st g n
    rw [Core.tileBits, Core.tile, ← htiles] at h
    exact h
  · rw [← s.groupCore_getK c st g, Core.getK, hpreds]
    rfl
  · rw [hmask, s.groupCore_mask c st g]
  · rw [hown.cedge, hown.redge]
    exact hedges
  · rw [hmem]
    exact memGet_memPuts_ne _ _ _ fun e he heq => ha (List.mem_map.2 ⟨e, he, heq⟩)

/-- A group whose last checks hold commits whole. -/
theorem State.committed_commitGroup {s : State} {c : Nat} {st : Stream} {g : Grp} (hst : st ≠ .h) (h : (s.core c).mayCommit s.now st g) :
    s.committed (s.commitGroup c st g) c st g := by
  rw [s.commitGroup_eq c st g h]
  obtain ⟨hmem, hsec, hcore⟩ := s.endCommit_spec c st g (s.groupCore c st g)
  exact State.committed_of_sameItems hst hmem hsec hcore

theorem groupCommits : Claims.GroupCommits := by
  intro s c st g hst hm h
  have hnow : (s.core c).tooLate s.now st g = false := h.1
  rw [State.finishGroup, hnow, if_neg Bool.false_ne_true, if_neg hm]
  exact State.committed_commitGroup hst h

/-! The array takes an M group, or passes over it (R269, R271, R273). -/

/-- The bucket at a commit, in fifths of a unit. -/
def Core.bucketAt (k : Core) (now : Nat) : Nat := min 20480 (k.mx.bucket + refillRate (max k.mx.cls k.minCls) * (now - k.mx.refilled))

/-- The array once it has taken an M group of a charge. -/
def Core.mxTaken (k : Core) (now charge : Nat) : Mx := (k.settle now).mx.take now charge

/-- A core with another array and other counts of passes passed over. -/
def Core.withArray (k : Core) (m : Mx) (p f : Nat) : Core := { k with mx := m, passOver := p, passFo := f }

/-- A core whose array takes an M group, before the group's commit. -/
def State.takingCore (s : State) (c charge : Nat) : Core :=
  (s.core c).withArray ((s.core c).mxTaken s.now charge) 0
    (if (s.foCharge c).isSome then (s.core c).passFo + 1 else (s.core c).passFo)

/-- A group of the array as it stands once its charge is taken. -/
def Grp.charged (g : Grp) (m : Mx) : Grp :=
  { g with mx := g.mx.map fun x => { x with charged := m.charged, waited := m.waited, waitSince := none } }

/-- An M group whose last checks hold is passed over, waits for the bucket, or is taken. -/
theorem State.takeGroup_eq (s : State) (c : Nat) (g : Grp) (h : (s.core c).mayCommit s.now .m g) :
    s.takeGroup c g =
      if s.yieldsTo c g.charge then s.setCore c { (s.core c).settle s.now with ms := { (s.core c).ms with grp := none } }
      else if (s.core c).bucketAt s.now < chargeNeed g.charge then
        s.setCore c { (s.core c).settle s.now with
          ms := { (s.core c).ms with grp := none }
          mx := { ((s.core c).settle s.now).mx with waitSince := some ((s.core c).mx.waitSince.getD s.now) } }
      else (s.setCore c (s.takingCore c g.charge)).commitGroup c .m (g.charged ((s.core c).mxTaken s.now g.charge)) := by
  obtain ⟨-, hlevels, hover, -⟩ := h
  have hno : ¬ ((s.core c).ms.leavesOpen (g.start + BitVec.ofNat 16 (3 * g.lats.length)) = true ∨ ((s.core c).overfull g).isSome = true) := by
    rw [show (s.core c).ms.leavesOpen (g.start + BitVec.ofNat 16 (3 * g.lats.length)) = false from hlevels, hover]
    simp
  rw [State.takeGroup]
  exact if_neg hno

/-- The array after a commit: what the group staged of it, with the bucket as it stands. -/
theorem State.mx_commitGroup (s : State) (c : Nat) (st : Stream) (g : Grp) (h : (s.core c).mayCommit s.now st g) :
    ((s.commitGroup c st g).core c).mx = { g.mx.getD (s.core c).mx with bucket := (s.core c).bucketAt s.now, refilled := s.now } := by
  obtain ⟨-, -, hcore⟩ := s.endCommit_spec c st g (s.groupCore c st g)
  rw [s.commitGroup_eq c st g h, hcore.mx, Core.withPc, Core.setStrm_mx, (s.groupCore_frame c st g).mx, Core.committing_mx]
  rfl

/-- Nothing flows into the bucket between the taking of a group and its commit. -/
theorem State.bucketAt_takingCore (s : State) (c charge : Nat) :
    (s.takingCore c charge).bucketAt s.now = (s.core c).bucketAt s.now - 5 * charge := by
  have hle : (s.core c).bucketAt s.now ≤ 20480 := Nat.min_le_left ..
  have hbucket : (s.takingCore c charge).mx.bucket = (s.core c).bucketAt s.now - 5 * charge := rfl
  have hrefilled : (s.takingCore c charge).mx.refilled = s.now := rfl
  rw [Core.bucketAt, hbucket, hrefilled, Nat.sub_self, Nat.mul_zero]
  omega

/-- The last checks look at no part of the array. -/
theorem Core.mayCommit_withArray {k : Core} {now : Nat} {st : Stream} {g : Grp} (h : k.mayCommit now st g) (m : Mx) (p f : Nat)
    (x : Option Mx) : (k.withArray m p f).mayCommit now st { g with mx := x } := by
  obtain ⟨hlate, hlevels, hover, hmask⟩ := h
  have hstrm : (k.withArray m p f).strm st = k.strm st := by cases st <;> rfl
  exact ⟨hlate, hstrm ▸ hlevels, hover, hmask⟩

/-- What a group commits, beside the array, does not depend on it. -/
theorem State.committed_withArray {s : State} {c : Nat} {g : Grp} (h : (s.core c).mayCommit s.now .m g) (m : Mx) (p f : Nat) (x : Option Mx) :
    s.committed ((s.setCore c ((s.core c).withArray m p f)).commitGroup c .m { g with mx := x }) c .m g := by
  have hmay : ((s.setCore c ((s.core c).withArray m p f)).core c).mayCommit s.now .m { g with mx := x } := by
    rw [State.core_setCore_same]
    exact Core.mayCommit_withArray h m p f x
  have hdone := State.committed_commitGroup (by decide) hmay
  rw [State.committed, State.core_setCore_same] at hdone
  exact hdone

/-- The array once an M group has been taken: its charge has left the bucket, and the counters have grown. -/
theorem State.mx_taken {s : State} {c : Nat} {g : Grp} (h : (s.core c).mayCommit s.now .m g) :
    (((s.setCore c (s.takingCore c g.charge)).commitGroup c .m (g.charged ((s.core c).mxTaken s.now g.charge))).core c).mx =
      { g.mx.getD (s.core c).mx with
        bucket := (s.core c).bucketAt s.now - 5 * g.charge, refilled := s.now
        charged := ((s.core c).mx.charged + g.charge) % 2 ^ 64
        waited := (s.core c).mx.waited + (s.now - (s.core c).mx.waitSince.getD s.now), waitSince := none } := by
  have hmay : ((s.setCore c (s.takingCore c g.charge)).core c).mayCommit s.now .m (g.charged ((s.core c).mxTaken s.now g.charge)) := by
    rw [State.core_setCore_same]
    exact Core.mayCommit_withArray h ..
  have hmx := State.mx_commitGroup (s.setCore c (s.takingCore c g.charge)) c .m _ hmay
  rw [State.core_setCore_same, show (s.setCore c (s.takingCore c g.charge)).now = s.now from rfl, s.bucketAt_takingCore] at hmx
  rw [hmx, Grp.charged]
  cases g.mx <;> rfl

theorem matrixGroupCommits : Claims.MatrixGroupCommits := by
  intro s c g h k t m held need
  have hnow : (s.core c).tooLate s.now .m g = false := h.1
  have ht : t = s.takeGroup c g := by
    rw [show t = s.finishGroup c .m g from rfl, State.finishGroup, hnow, if_neg Bool.false_ne_true, if_pos rfl]
  rw [s.takeGroup_eq c g h] at ht
  refine ⟨fun hyield hneed => ?_, fun hwait => ?_⟩
  · have henough : ¬ (s.core c).bucketAt s.now < chargeNeed g.charge := Nat.not_lt.2 hneed
    rw [if_neg (by simp [hyield]), if_neg henough] at ht
    rw [show m = (t.core c).mx from rfl, ht]
    exact ⟨State.committed_withArray h .., State.mx_taken h⟩
  · by_cases hyield : s.yieldsTo c g.charge = true
    · rw [if_pos hyield] at ht
      rw [show m = (t.core c).mx from rfl, ht, State.core_setCore_same]
      exact ⟨rfl, rfl, rfl, rfl, rfl, rfl, rfl, rfl, rfl, rfl, fun hno => absurd hyield (by simp [hno])⟩
    · have hlow : (s.core c).bucketAt s.now < chargeNeed g.charge := hwait.resolve_left hyield
      rw [if_neg hyield, if_pos hlow] at ht
      rw [show m = (t.core c).mx from rfl, ht, State.core_setCore_same]
      exact ⟨rfl, rfl, rfl, rfl, rfl, rfl, rfl, rfl, rfl, rfl, fun _ => rfl⟩

/-! A commit whose last checks fail (R16, R23). -/

/-- A check that faults, or else what the rest of the checks say. -/
theorem code_ne_of_ite {p : Prop} [Decidable p] {e f : Flt} {rest : Option Flt} (he : e.code ≠ .integrity)
    (hrest : rest = some f → f.code ≠ .integrity) (h : (if p then some e else rest) = some f) : f.code ≠ .integrity := by
  by_cases hp : p
  · rw [if_pos hp] at h
    cases h
    exact he
  · rw [if_neg hp] at h
    exact hrest h

/-- A mask word's fault is of the stack's depth. -/
theorem maskFault_code {es : List Eff} {d : Nat} {f : Flt} (h : maskFault es d = some f) : f.code ≠ .integrity := by
  induction es generalizing d with
  | nil => cases h
  | cons e es ih =>
    cases e with
    | mpush | minv | mpop => exact code_ne_of_ite (by decide) ih h
    | push | write | tile | tileState | pred | cedge | redge | present => exact ih h

/-- A group that would leave a level open faults at its start. -/
theorem State.commitGroup_leavesOpen (s : State) (c : Nat) (st : Stream) (g : Grp) (h : ((s.core c).strm st).leavesOpen g.after = true) :
    s.commitGroup c st g = s.setCore c ((s.core c).faulted st ⟨.reservedField, 0, (g.after - 3).setWidth 64⟩) := by
  rw [← s.streamFault_eq _ _ _ (by simp), State.commitGroup]
  exact if_pos h

/-- A group that would overfill a queue faults at its start. -/
theorem State.commitGroup_overfull (s : State) (c : Nat) (st : Stream) (g : Grp) {q : Nat} (h : ((s.core c).strm st).leavesOpen g.after = false)
    (hq : (s.core c).overfull g = some q) :
    s.commitGroup c st g = s.setCore c ((s.core c).faulted st ⟨.queueOverflow, 0, BitVec.ofNat 64 q⟩) := by
  rw [← s.streamFault_eq _ _ _ (by simp), State.commitGroup, hq]
  exact if_neg (Bool.eq_false_iff.1 h)

/-- A group whose mask words break the stack's depth faults at its start. -/
theorem State.commitGroup_maskFault (s : State) (c : Nat) (st : Stream) (g : Grp) {f : Flt} (h : ((s.core c).strm st).leavesOpen g.after = false)
    (hq : (s.core c).overfull g = none) (hf : maskFault g.effs (s.core c).mask.length = some f) :
    s.commitGroup c st g = s.setCore c ((s.core c).faulted st f) := by
  rw [← s.streamFault_eq _ _ _ (maskFault_code hf), State.commitGroup, hq, hf]
  exact if_neg (Bool.eq_false_iff.1 h)

/-- The last checks of levels and queues come first, for M as for the other streams. -/
theorem State.finishGroup_eq_commitGroup (s : State) (c : Nat) (st : Stream) (g : Grp) (hlate : (s.core c).tooLate s.now st g = false)
    (h : st = .m → ((s.core c).strm st).leavesOpen g.after = true ∨ ((s.core c).overfull g).isSome = true) :
    s.finishGroup c st g = s.commitGroup c st g := by
  rw [State.finishGroup, hlate, if_neg Bool.false_ne_true]
  by_cases hm : st = .m
  · subst hm
    rw [if_pos rfl, State.takeGroup]
    exact if_pos (h rfl)
  · rw [if_neg hm]

theorem failedGroupCommitsNothing : Claims.FailedGroupCommitsNothing := by
  intro s c st g hst k v pc fails
  refine ⟨fun hlate => ?_, fun hlate => ⟨fun hlevels => ?_, fun hlevels q hq => ?_, fun hm hlevels hq f hf => ?_⟩⟩
  · rw [State.finishGroup, if_pos hlate]
    exact State.modStrm_eq ..
  · exact (s.finishGroup_eq_commitGroup c st g hlate fun _ => .inl hlevels).trans (s.commitGroup_leavesOpen c st g hlevels)
  · exact (s.finishGroup_eq_commitGroup c st g hlate fun _ => .inr (by rw [hq]; rfl)).trans (s.commitGroup_overfull c st g hlevels hq)
  · exact (s.finishGroup_eq_commitGroup c st g hlate fun h => absurd h hm).trans (s.commitGroup_maskFault c st g hlevels hq hf)

/-- Settles O12: each staged effect has one lemma for one step and one for the list, and what ends a commit keeps every core's items. -/
theorem groupsCommitWhole : Obligations.GroupsCommitWhole := ⟨groupCommits, matrixGroupCommits, failedGroupCommitsNothing⟩

end Sys2Proof.Machine

/-! A completion frees a future before its signals reach a waiter that names it (O48). -/
namespace Sys2Proof.Machine

/-- Task 5 of die 0, all of whose (no) cores have halted, holds the one reference to future 6 and signals semaphore 3. -/
def signallingTask : Task :=
  { Task.free with st := .running, placed := true, refs := [(taskId 0 0 0 true 6, 1)], tcb := { Tcb.blank with sigs := [3] } }

/-- Future 6, DONE, with one reference left. -/
def doneFuture : Task := { Task.free with st := .done, future := true, reach := 1, waitsLeft := 1 }

/-- Both tasks, with future 6 still in the queue of the semaphore that task 5 signals. -/
def staleWaiterState : State :=
  { State.reset with
    tasks := [(taskKey 0 5, signallingTask), (taskKey 0 6, doneFuture)]
    sems := [(semKey 0 0 3, { Sem.zero with waiters := [.task 0 6 0] })] }

/-- The completion of task 5 frees future 6; its signal then grants the waiter that names the future, and the future is READY. -/
theorem staleWaiterState_completes :
    ∃ u, exec (.taskComplete 0 5) staleWaiterState = .next u ∧ (u.taskAt 0 6).st = .ready := by
  refine ⟨_, rfl, ?_⟩
  decide +kernel

theorem not_completionDropsAndSignals : ¬ Claims.CompletionDropsAndSignals := by
  intro h
  obtain ⟨hcomplete, -⟩ := h staleWaiterState 0 5 0 6 1 (taskId 0 0 0 true 6) rfl (by decide) (by decide +kernel) rfl (by decide +kernel)
    (by decide) (by decide) rfl
  obtain ⟨u, hu, ⟨-, -, hlast, -⟩, -⟩ := hcomplete rfl rfl (by intro c hc; cases hc)
  obtain ⟨v, hv, hready⟩ := staleWaiterState_completes
  obtain rfl : v = u := by simpa [hu] using hv.symm
  have hfree : (v.taskAt 0 6).st = .free := (hlast rfl).1 rfl
  rw [hready] at hfree
  cases hfree

/-- Refutes O48: it asks that a DONE future whose last reference goes with the completing task be free afterwards, and no hypothesis keeps
that future out of the queues of the semaphores that the task then signals. Where it stands in one, the signal grants it and it is READY. -/
theorem not_taskPhases : ¬ Obligations.TaskPhases := fun ⟨_, _, h, _⟩ => not_completionDropsAndSignals h

end Sys2Proof.Machine

/-! Argument images over a frozen region reach a task without W (O49). -/
namespace Sys2Proof.Machine

/-- An image of world 1 with R and W over the first 4 KiB. -/
def writableArg : Handle :=
  { format := 1, rights := 0xC0, world := 1, serial := 0, base := 0, length := 4096, shape := plainShape, sealv := 0, isSealed := true
    revoked := false }

/-- Task 9 of die 0 and world 1, READY, with one core to take and that image among its arguments. -/
def argTask : Task :=
  { Task.free with st := .ready, world := 1, tcb := { Tcb.blank with gsize := 1, n := 1, himg := [writableArg] } }

/-- Cluster 0 stands in berth 0, whose slice world 1 has. The world has frozen its first 4 KiB since the task was armed, and no sweep is on. -/
def frozenArgState : State :=
  { State.reset with
    tasks := [(taskKey 0 9, argTask)]
    ready := [(readyKey 0 1 0, [9])]
    worlds := [(1, { World.blank with st := .live, frozen := [(0, 4096, 0)] })]
    berths := [(0, { Berth.free with desc := BitVec.ofNat 256 (2 ^ 184), order := [1], cur := 1, inSlice := true })] }

/-- Task 9 is placed on core 0, and h4 has lost the W of its image. -/
theorem frozenArgState_places :
    ∃ u, exec (.taskPlace 0 1) frozenArgState = .next u ∧ ((u.core 0).getH 4).rights ≠ writableArg.rights := by
  refine ⟨_, rfl, ?_⟩
  decide +kernel

/-- Images that agree have the same rights. -/
theorem Handle.rights_eq_of_image_eq {a b : Handle} (h : a.image = b.image) : a.rights = b.rights := by
  simpa [Handle.ofImage_image] using congrArg (fun w => (Handle.ofImage w).rights) h

theorem not_tasksArePlaced : ¬ Claims.TasksArePlaced := by
  intro h
  obtain ⟨-, -, hplace⟩ := h frozenArgState 0 1 0 9 (by decide +kernel) (by decide +kernel) rfl rfl rfl
  obtain ⟨u, gid, hu, -, -, -, -, -, -, hcore⟩ := hplace [0] rfl (by decide +kernel) (by decide) (by decide)
  obtain ⟨-, -, -, -, -, -, -, -, -, -, -, -, -, -, -, -, -, -, -, -, -, -, himg, -⟩ := hcore 0 0 rfl
  obtain ⟨v, hv, hne⟩ := frozenArgState_places
  obtain rfl : v = u := by simpa [hu] using hv.symm
  exact hne (Handle.rights_eq_of_image_eq ((himg rfl).2 0 writableArg rfl (by decide)))

/-- Refutes O49: it asks that a task's handle registers hold its argument images as they were armed where no sweep is on, while placement
clears W and sets Z of an image over a region that the world has frozen meanwhile, as h2's clause of the same statement asks of its own. -/
theorem not_taskPlacement : ¬ Obligations.TaskPlacement := fun ⟨h, _⟩ => not_tasksArePlaced h

end Sys2Proof.Machine

/-! Elements of vectors and predicates: a list of elements is a table over the element numbers, packed and read back (R188, R204, R205). -/
namespace Sys2Proof.Machine

theorem elemSize_pos (ty : Ty) : 0 < ty.size := by cases ty <;> decide

theorem elemOf_zero (v e : Nat) : elemOf v e 0 = v % 2 ^ (8 * e) := rfl

theorem elemOf_succ (v e k : Nat) : elemOf v e (k + 1) = elemOf (v >>> (8 * e)) e k := by
  simp only [elemOf, ← Nat.shiftRight_add, Nat.mul_succ, Nat.add_comm (8 * e * k)]

theorem elemsOf_eq_map (v e n : Nat) : elemsOf v e n = (List.range n).map (elemOf v e) := by
  induction n generalizing v with
  | zero => rfl
  | succ n ih => simp [elemsOf, ih, List.range_succ_eq_map, elemOf_zero, elemOf_succ, Function.comp_def]

/-- The elements of a vector are its lanes. -/
theorem vecElems_eq_map (v : Vec) (e : Nat) : vecElems v e = (List.range (512 / e)).map (lane v e) := elemsOf_eq_map ..

@[simp] theorem lane_mod (v : Vec) (e j : Nat) : lane v e j % 2 ^ (8 * e) = lane v e j := Nat.mod_mod ..

theorem packElems_lt (e : Nat) (xs : List Nat) : packElems e xs < 2 ^ (8 * e * xs.length) := by
  induction xs with
  | nil => simp [packElems]
  | cons x t ih =>
    have hx : x % 2 ^ (8 * e) < 2 ^ (8 * e) := Nat.mod_lt _ (Nat.two_pow_pos _)
    calc x % 2 ^ (8 * e) + 2 ^ (8 * e) * packElems e t
        < 2 ^ (8 * e) * (packElems e t + 1) := by rw [Nat.mul_succ]; omega
      _ ≤ 2 ^ (8 * e) * 2 ^ (8 * e * t.length) := Nat.mul_le_mul_left _ ih
      _ = 2 ^ (8 * e * (t.length + 1)) := by rw [← Nat.pow_add, Nat.mul_succ, Nat.add_comm]

theorem elemOf_packElems (e : Nat) (xs : List Nat) (k : Nat) : elemOf (packElems e xs) e k = xs.getD k 0 % 2 ^ (8 * e) := by
  induction xs generalizing k with
  | nil => simp [packElems, elemOf]
  | cons x t ih =>
    cases k with
    | zero => simp [packElems, elemOf_zero]
    | succ k =>
      have hrest : packElems e (x :: t) >>> (8 * e) = packElems e t := by
        rw [Nat.shiftRight_eq_div_pow, packElems, Nat.add_mul_div_left _ _ (Nat.two_pow_pos _), Nat.div_eq_of_lt (Nat.mod_lt _ (Nat.two_pow_pos _)),
          Nat.zero_add]
      rw [elemOf_succ, hrest, ih]
      rfl

/-- The vector of elements of e bytes whose element j is `f j`. -/
def vecLanes (e : Nat) (f : Nat → Nat) : Vec := vecOf e ((List.range (512 / e)).map f)

/-- An element packed into a vector is read back modulo its size. -/
theorem lane_vecLanes (f : Nat → Nat) {e j : Nat} (h : j < 512 / e) : lane (vecLanes e f) e j = f j % 2 ^ (8 * e) := by
  have hlen : 8 * e * ((List.range (512 / e)).map f).length ≤ 4096 := by
    have := Nat.mul_div_le 512 e
    simp only [List.length_map, List.length_range, Nat.mul_assoc]
    omega
  have hfits := Nat.lt_of_lt_of_le (packElems_lt e _) (Nat.pow_le_pow_right (n := 2) (by decide) hlen)
  rw [lane, vecLanes, vecOf, BitVec.toNat_ofNat, Nat.mod_eq_of_lt hfits, elemOf_packElems]
  simp [h]

theorem vecSplat_eq (e x : Nat) : vecSplat e x = vecLanes e fun _ => x := by
  rw [vecSplat, vecLanes, List.map_const', List.length_range]

theorem selActive_table (act : Nat → Bool) (f p : Nat → Nat) (n : Nat) :
    selActive ((List.range n).map act) ((List.range n).map f) ((List.range n).map p) = (List.range n).map fun j => if act j then f j else p j := by
  induction n generalizing act f p with
  | zero => rfl
  | succ n ih => simp [List.range_succ_eq_map, selActive, ih, Function.comp_def]

theorem bitPlace_lt {e j n : Nat} (hj : j < 512 / e) (hn : n < e) : j * e + n < 512 :=
  calc j * e + n < (j + 1) * e := by rw [Nat.succ_mul]; omega
    _ ≤ 512 / e * e := Nat.mul_le_mul_right e hj
    _ ≤ 512 := Nat.div_mul_le_self 512 e

theorem activeBits_getLsbD (k : Core) (p : PSel) {e j : Nat} (he : 0 < e) (h : j < 512 / e) :
    (activeBits k p).getLsbD (j * e) = activeAt k p e j := by
  have hbit : j * e < 512 := bitPlace_lt h he
  cases hneg : p.neg <;> simp [activeBits, activeAt, maskTop, hneg, hbit]

/-- The activity of a word's elements, in order. -/
theorem actOf_eq_map (k : Core) (p : PSel) (ty : Ty) : actOf k p ty = (List.range (512 / ty.size)).map (activeAt k p ty.size) :=
  List.map_congr_left fun _ hj => activeBits_getLsbD k p (elemSize_pos ty) (List.mem_range.1 hj)

/-- Bit n of element j of a packed predicate is element j's value. -/
theorem testBit_predFold (e : Nat) (xs : List Bool) (j : Nat) {n : Nat} (hn : n < e) :
    (xs.foldr (fun (b : Bool) acc => (if b then 2 ^ e - 1 else 0) + 2 ^ e * acc) 0).testBit (j * e + n) = xs.getD j false := by
  induction xs generalizing j with
  | nil => simp
  | cons b t ih =>
    have hb : (if b then 2 ^ e - 1 else 0) < 2 ^ e := by
      have : 0 < 2 ^ e := Nat.two_pow_pos _
      split <;> omega
    rw [List.foldr_cons, Nat.add_comm, Nat.testBit_two_pow_mul_add _ hb]
    cases j with
    | zero => cases b <;> simp [hn, Nat.testBit_two_pow_sub_one]
    | succ j =>
      rw [if_neg (by rw [Nat.succ_mul]; omega), show (j + 1) * e + n - e = j * e + n by rw [Nat.succ_mul]; omega, ih]
      rfl

theorem predOf_getLsbD (f : Nat → Bool) {e j n : Nat} (hj : j < 512 / e) (hn : n < e) :
    (predOf e ((List.range (512 / e)).map f)).getLsbD (j * e + n) = f j := by
  rw [predOf, BitVec.getLsbD_ofNat, testBit_predFold e _ j hn]
  simp [bitPlace_lt hj hn, hj]

/-- The latch of a predicate has 0xFF in the bytes of true bits (R204). -/
theorem lane_predVec (p : Pred) {n : Nat} (h : n < 512) : lane (predVec p) 1 n = if p.getLsbD n then 255 else 0 := by
  have hlane : lane (predVec p) 1 n = (if p.getLsbD n then 255 else 0) % 2 ^ 8 := lane_vecLanes (e := 1) _ h
  rw [hlane]
  split <;> rfl

end Sys2Proof.Machine

/-! Words of V on a group, element by element (R205, R209). -/
namespace Sys2Proof.Machine

/-- A word whose body goes through in the open group leaves what its body leaves. -/
theorem vecWord_ok {s : State} {g g1 : Grp} {lat : Option Vec} {body : Body} (ctl : Ctl) (i : Instr) (hg : s.inGroup g)
    (h : body s s.me s.served g = .ok (g1, lat)) : vecWord s ctl i body = .next (s.wordDone ctl g1 lat) := by
  simp only [State.inGroup, State.served, State.me] at hg h
  simp only [vecWord, groupWord, hg, Option.getD_some, h]
  cases hc : ctl.g <;> simp [State.wordDone, State.me, hc]

/-- The outcome `o` leaves the group `g` with a result whose element j of e bytes is `val j`, latched and sent to its destination. -/
def State.GivesLanes (s : State) (ctl : Ctl) (g : Grp) (dst : VDst) (e : Nat) (o : Out3) (val : Nat → Nat) : Prop :=
  ∃ r : Vec, o = .next (s.wordDone ctl (g.dest dst r) (some r)) ∧ ∀ j < 512 / e, lane r e j = val j

theorem State.GivesLanes.congr {s : State} {ctl : Ctl} {g : Grp} {dst : VDst} {e : Nat} {o : Out3} {f f' : Nat → Nat}
    (h : s.GivesLanes ctl g dst e o f) (hf : ∀ j < 512 / e, f j = f' j) : s.GivesLanes ctl g dst e o f' := by
  obtain ⟨r, ho, hr⟩ := h
  exact ⟨r, ho, fun j hj => (hr j hj).trans (hf j hj)⟩

/-- A body that sends out packed elements gives them modulo their size. -/
theorem vecWord_givesLanes {s : State} {g g1 : Grp} {ctl : Ctl} {dst : VDst} {e : Nat} {body : Body} {f : Nat → Nat} (i : Instr)
    (hg : s.inGroup g) (h : body s s.me s.served g = vout g1 dst (vecLanes e f)) :
    s.GivesLanes ctl g1 dst e (vecWord s ctl i body) fun j => f j % 2 ^ (8 * e) :=
  ⟨vecLanes e f, vecWord_ok ctl i hg h, fun _ hj => lane_vecLanes f hj⟩

/-- Active elements hold `f` modulo their size, the others their passive value `p` (R205). -/
def activeOr (k : Core) (pred : PSel) (e : Nat) (f p : Nat → Nat) (j : Nat) : Nat :=
  if activeAt k pred e j then f j % 2 ^ (8 * e) else p j

theorem State.GivesLanes.congr_active {s : State} {ctl : Ctl} {g : Grp} {pred : PSel} {dst : VDst} {e : Nat} {o : Out3} {f f' p : Nat → Nat}
    (h : s.GivesLanes ctl g dst e o (activeOr s.me pred e f p)) (hf : ∀ j, f j = f' j) :
    s.GivesLanes ctl g dst e o (activeOr s.me pred e f' p) := h.congr fun j _ => by simp only [activeOr, hf]

/-- A body that sends out `f` at active elements and `p` at the others gives them so. -/
theorem vecWord_givesActive {s : State} {g g1 : Grp} {ctl : Ctl} {pred : PSel} {dst : VDst} {e : Nat} {body : Body} {f p : Nat → Nat}
    (i : Instr) (hg : s.inGroup g) (hp : ∀ j, p j % 2 ^ (8 * e) = p j)
    (h : body s s.me s.served g = vout g1 dst (vecLanes e fun j => if activeAt s.me pred e j then f j else p j)) :
    s.GivesLanes ctl g1 dst e (vecWord s ctl i body) (activeOr s.me pred e f p) := by
  refine (vecWord_givesLanes i hg h).congr fun j _ => ?_
  cases hact : activeAt s.me pred e j <;> simp [activeOr, hact, hp]

theorem vecOf_selActive (k : Core) (pred : PSel) (ty : Ty) (f p : Nat → Nat) :
    vecOf ty.size (selActive (actOf k pred ty) ((List.range (512 / ty.size)).map f) ((List.range (512 / ty.size)).map p)) =
      vecLanes ty.size fun j => if activeAt k pred ty.size j then f j else p j := by
  rw [actOf_eq_map, selActive_table, vecLanes]

theorem table_of_length {α : Type} {xs : List α} {n : Nat} (h : xs.length = n) (d : α) : (List.range n).map (xs.getD · d) = xs :=
  List.ext_getElem (by simp [h]) (by simp +contextual)

/-- VSCALE has an exponent for each element (R196). -/
theorem scaleExps_length {k : Core} {now : Nat} {v : StreamSt} {g g' : Grp} {ty : Ty} {o : VOpd} {ns : List Int}
    (h : scaleExps k now v g ty o = .ok (ns, g')) : ns.length = 512 / ty.size := by
  cases o with
  | vec src =>
    simp only [scaleExps, bind, Except.bind] at h
    split at h
    · cases h
    · cases h
      simp [vecElems_eq_map]
  | imm i =>
    cases h
    simp
  | oq q keep =>
    simp only [scaleExps, bind, Except.bind] at h
    split at h
    · cases h
    · cases h
      simp

section
variable {s : State} {g g1 g2 g3 : Grp} {a b z : Vec} (i : Instr) (hg : s.inGroup g)
include hg

/-- A word of one source works on each active element and keeps the others. -/
theorem unWord_gives {w : VUn} (f : Core → Nat → Nat) (ha : readSrc s.me s.now g w.a = .ok (a, g1)) :
    s.GivesLanes w.ctl g1 w.dst w.ty.size (vecWord s w.ctl i (unBody w f))
      (activeOr s.me w.pred w.ty.size (fun j => f s.me (lane a w.ty.size j)) (lane a w.ty.size)) :=
  vecWord_givesActive i hg (lane_mod a _)
    (by simp [unBody, ha, bind, Except.bind, vecElems_eq_map, vecOf_selActive, Function.comp_def])

/-- VMOV takes the source where it is active, and zero elsewhere. -/
theorem vmovWord_gives {ctl : Ctl} {pred : PSel} {dst : VDst} {o : VOpd} {ty : Ty} (hb : readOpd s.me s.now s.served g ty o = .ok (b, g1)) :
    s.GivesLanes ctl g1 dst ty.size (vecWord s ctl i (vmovBody pred dst o ty)) (activeOr s.me pred ty.size (lane b ty.size) fun _ => 0) :=
  vecWord_givesActive i hg (fun _ => Nat.zero_mod _)
    (by simp only [vmovBody, hb, bind, Except.bind, vecElems_eq_map, List.map_map, Function.comp_def, vecOf_selActive])

variable {w : VBin} (ha : readSrc s.me s.now g w.a = .ok (a, g1))
include ha

/-- VSCALE rounds each active element times a power of two, its exponent the element of the second source (R196). -/
theorem vscaleWord_gives {ns : List Int} (hn : scaleExps s.me s.now s.served g1 w.ty w.b = .ok (ns, g2)) :
    s.GivesLanes w.ctl g2 w.dst w.ty.size (vecWord s w.ctl i (vscaleBody w))
      (activeOr s.me w.pred w.ty.size
        (fun j => vround s.me w.ty w.rnd (scaleF (vread s.me w.ty (lane a w.ty.size j)) (ns.getD j 0))) (lane a w.ty.size)) := by
  refine vecWord_givesActive i hg (lane_mod a _) ?_
  rw [← table_of_length (scaleExps_length hn) 0] at hn
  simp [vscaleBody, ha, hn, bind, Except.bind, vecElems_eq_map, vecOf_selActive]

variable (hb : readOpd s.me s.now s.served g1 w.ty w.b = .ok (b, g2))
include hb

/-- A word of two sources works on each active element and leaves the first source's elsewhere. -/
theorem binWord_gives (f : Core → Nat → Nat → Nat) :
    s.GivesLanes w.ctl g2 w.dst w.ty.size (vecWord s w.ctl i (binBody w f))
      (activeOr s.me w.pred w.ty.size (fun j => f s.me (lane a w.ty.size j) (lane b w.ty.size j)) (lane a w.ty.size)) :=
  vecWord_givesActive i hg (lane_mod a _) (by simp [binBody, ha, hb, bind, Except.bind, vecElems_eq_map, vecOf_selActive])

/-- A word of three sources likewise. -/
theorem triWord_gives {cc : VSrc} (f : Core → Nat → Nat → Nat → Nat) (hz : readSrc s.me s.now g2 cc = .ok (z, g3)) :
    s.GivesLanes w.ctl g3 w.dst w.ty.size (vecWord s w.ctl i (triBody w cc f))
      (activeOr s.me w.pred w.ty.size
        (fun j => f s.me (lane a w.ty.size j) (lane b w.ty.size j) (lane z w.ty.size j)) (lane a w.ty.size)) :=
  vecWord_givesActive i hg (lane_mod a _)
    (by simp [triBody, ha, hb, hz, bind, Except.bind, vecElems_eq_map, vecOf_selActive, List.zip_map'])

/-- VSEL takes the first source where its predicate is true, else the second. -/
theorem vselWord_gives (ks : KReg) :
    s.GivesLanes w.ctl g2 w.dst w.ty.size (vecWord s w.ctl i (vselBody w ks))
      (activeOr s.me w.pred w.ty.size
        (fun j => if (s.me.getK ks.toNat).getLsbD (j * w.ty.size) then lane a w.ty.size j else lane b w.ty.size j) (lane a w.ty.size)) :=
  vecWord_givesActive i hg (lane_mod a _)
    (by simp [vselBody, ha, hb, bind, Except.bind, vecElems_eq_map, vecOf_selActive, actList, selActive_table])

end

theorem floatWords : Claims.FloatWords := by
  intro w cc s g g1 g2 a b hg ha hb
  have gives (i : Instr) {f : Core → Nat → Nat → Nat} := binWord_gives i hg ha hb f
  refine ⟨gives (.vadd w), gives (.vsub w), gives (.vmul w), gives (.vdiv w), gives (.vmin w), gives (.vmax w), fun z g3 hz => ?_⟩
  exact ⟨triWord_gives (.vfma w cc) hg ha hb _ hz, triWord_gives (.vfms w cc) hg ha hb _ hz⟩

theorem vabs_float {w : VUn} (h : w.ty.isFloat = true) (x : Nat) : vabs w x = x % 2 ^ (8 * w.ty.size - 1) := if_pos h

theorem vneg_float {w : VUn} (h : w.ty.isFloat = true) (x : Nat) : vneg w x = Nat.xor x (2 ^ (8 * w.ty.size - 1)) := if_pos h

theorem vabs_int {w : VUn} (h : w.ty.isFloat = false) (x : Nat) :
    vabs w x = fitInt w.ty w.sat (if intVal w.ty x < 0 then -intVal w.ty x else intVal w.ty x) := by
  have habs : ((intVal w.ty x).natAbs : Int) = if intVal w.ty x < 0 then -intVal w.ty x else intVal w.ty x := by split <;> omega
  simp [vabs, h, ← habs]

theorem vneg_int {w : VUn} (h : w.ty.isFloat = false) (x : Nat) : vneg w x = fitInt w.ty w.sat (-intVal w.ty x) := by simp [vneg, h]

theorem oneSourceWords : Claims.OneSourceWords := by
  intro w s g g1 a hg ha
  have gives (i : Instr) {f : Core → Nat → Nat} := unWord_gives i hg f ha
  refine ⟨gives (.vsqrt w), gives (.vrsq w), gives (.vrcp w), gives (.vexp2 w), gives (.vlog2 w), fun hf => ⟨?_, ?_⟩, fun hf => ⟨?_, ?_⟩⟩
  · exact (gives (.vabs w) (f := fun _ => vabs w)).congr_active fun _ => vabs_float hf _
  · exact (gives (.vneg w) (f := fun _ => vneg w)).congr_active fun _ => vneg_float hf _
  · exact (gives (.vabs w) (f := fun _ => vabs w)).congr_active fun _ => vabs_int hf _
  · exact (gives (.vneg w) (f := fun _ => vneg w)).congr_active fun _ => vneg_int hf _

theorem integerWords : Claims.IntegerWords := by
  intro w s g g1 g2 a b hg ha hb
  have gives (i : Instr) {f : Core → Nat → Nat → Nat} := binWord_gives i hg ha hb f
  have hshr := (gives (.vshr w) (f := fun _ x y => x >>> shAmt y)).congr_active fun _ => Nat.shiftRight_eq_div_pow ..
  exact ⟨gives (.viadd w), gives (.visub w), gives (.vimul w), gives (.vimulh w), gives (.vimin w), gives (.vimax w), gives (.vand w),
    gives (.vor w), gives (.vxor w), gives (.vshl w), hshr, gives (.vsra w)⟩

theorem selectScaleMove : Claims.SelectScaleMove := by
  intro w ks s g g1 g2 a b hg
  exact ⟨fun ha hb => vselWord_gives (.vsel w ks) hg ha hb ks, fun ns ha hn => vscaleWord_gives (.vscale w) hg ha hn,
    fun bv gb hb => vmovWord_gives (.vmov w.ctl w.pred w.dst w.b w.ty) hg hb⟩

/-- Settles O15: every word of one, two or three sources has one lemma, `unWord_gives`, `binWord_gives` or `triWord_gives`. -/
theorem floatAndOneSourceWords : Obligations.FloatAndOneSourceWords := ⟨floatWords, oneSourceWords⟩

end Sys2Proof.Machine

/-! VCMP: the relation on each pair of elements, packed into a predicate (R204, R211). -/
namespace Sys2Proof.Machine

/-- The relations of Table 7.7 as sets of orders. -/
theorem VRel.holds_eq (r : VRel) (o : Option Ordering) :
    VRel.holds r o = match r with
      | .eq => o == some .eq
      | .ne => o != some .eq
      | .lt => o == some .lt
      | .le => o == some .lt || o == some .eq
      | .gt => o == some .gt
      | .ge => o == some .gt || o == some .eq
      | .un => o == none := by
  rcases o with _ | _ | _ | _ <;> cases r <;> rfl

/-- The predicate of VCMP: the active elements of which the relation holds. -/
def comparePred (k : Core) (pred : PSel) (ty : Ty) (rel : VRel) (x y : Vec) : Pred :=
  predOf ty.size ((List.range (512 / ty.size)).map fun j =>
    activeAt k pred ty.size j && VRel.holds rel (vorder k ty (lane x ty.size j) (lane y ty.size j)))

theorem vcmpBody_ok {s : State} {k : Core} {v : StreamSt} {g g1 g2 : Grp} {a : VSrc} {b : VOpd} {ty : Ty} {x y : Vec} (pred : PSel)
    (kd : Option KReg) (rel : VRel) (ha : readSrc k s.now g a = .ok (x, g1)) (hb : readOpd k s.now v g1 ty b = .ok (y, g2)) :
    vcmpBody pred kd a b ty rel s k v g = kout g2 kd (comparePred k pred ty rel x y) := by
  simp [vcmpBody, ha, hb, bind, Except.bind, vecElems_eq_map, actOf_eq_map, comparePred]

theorem compareWritesPredicate : Claims.CompareWritesPredicate := by
  intro ctl pred kd a b ty rel s g g1 g2 x y hg ha hb
  refine ⟨comparePred s.me pred ty rel x y, vecWord_ok ctl _ hg (vcmpBody_ok pred kd rel ha hb), fun j hj n hn => ?_,
    fun n hn => lane_predVec _ hn⟩
  rw [comparePred, predOf_getLsbD _ hj hn, VRel.holds_eq]
  rfl

/-- Settles O16: `binWord_gives` for the integer words, a lemma each for VSEL, VSCALE and VMOV, and the packed predicate of VCMP. -/
theorem integerSelectAndCompareWords : Obligations.IntegerSelectAndCompareWords := ⟨integerWords, selectScaleMove, compareWritesPredicate⟩

/-! Reductions: the tree of R74, one result in every element (R214). -/

theorem elemCount_pos (ty : Ty) : 0 < 512 / ty.size := by cases ty <;> decide

theorem pairUp_none (f : Nat → Nat → Nat) {xs : List (Option Nat)} (h : ∀ x ∈ xs, x = none) : ∀ x ∈ pairUp f xs, x = none := by
  induction xs using pairUp.induct with
  | case1 a b t ih =>
    obtain ⟨rfl, rfl, ht⟩ : a = none ∧ b = none ∧ ∀ x ∈ t, x = none := by simpa using h
    simpa [pairUp, combine] using ih ht
  | case2 t ht => simpa [pairUp] using h

/-- A tree without active elements has no value. -/
theorem treeGo_none (f : Nat → Nat → Nat) (n : Nat) {xs : List (Option Nat)} (h : ∀ x ∈ xs, x = none) : treeGo f n xs = none := by
  induction n generalizing xs with
  | zero => cases xs with
    | nil => rfl
    | cons x t => simpa [treeGo] using h x (by simp)
  | succ n ih => exact ih (pairUp_none f h)

/-- The elements that a reduction combines: the active ones as read, the others absent. -/
def redElems (k : Core) (w : VUn) (x : Vec) : List (Option Nat) :=
  (List.range (512 / w.ty.size)).map fun j => if activeAt k w.pred w.ty.size j then some (redRead k w.ty (lane x w.ty.size j)) else none

theorem treeGo_redElems_none (f : Nat → Nat → Nat) (n : Nat) {k : Core} {w : VUn} (x : Vec)
    (h : ∀ j < 512 / w.ty.size, activeAt k w.pred w.ty.size j = false) : treeGo f n (redElems k w x) = none :=
  treeGo_none f n (by simpa [redElems] using fun j hj => h j hj)

/-! Scans: the elements in order (R75, R215). -/

/-- What a scan carries on past an active element (log 17). -/
def scanStep (rd : Nat → Nat) (f : Nat → Nat → Nat) (run : Option Nat) (v : Nat) : Option Nat :=
  match run with
  | none => some (rd v)
  | some u => some (f u v)

/-- What a scan has combined once it is past element j. -/
def scannedTo (rd : Nat → Nat) (f : Nat → Nat → Nat) (run : Option Nat) (act : Nat → Bool) (x : Nat → Nat) (j : Nat) : Option Nat :=
  (((List.range (j + 1)).filter act).map x).foldl (scanStep rd f) run

theorem scannedTo_zero (rd : Nat → Nat) (f : Nat → Nat → Nat) (run : Option Nat) (act : Nat → Bool) (x : Nat → Nat) :
    scannedTo rd f run act x 0 = if act 0 then scanStep rd f run (x 0) else run := by
  cases h : act 0 <;> simp [scannedTo, h]

theorem scannedTo_succ (rd : Nat → Nat) (f : Nat → Nat → Nat) (run : Option Nat) (act : Nat → Bool) (x : Nat → Nat) (j : Nat) :
    scannedTo rd f run act x (j + 1) =
      scannedTo rd f (if act 0 then scanStep rd f run (x 0) else run) (fun i => act (i + 1)) (fun i => x (i + 1)) j := by
  rw [scannedTo, List.range_succ_eq_map, List.filter_cons, List.filter_map]
  cases h : act 0 <;> simp [scannedTo, Function.comp_def]

/-- A scan gives each active element what it has combined so far, and keeps the others. -/
theorem scanGo_table (rd : Nat → Nat) (f : Nat → Nat → Nat) (run : Option Nat) (act : Nat → Bool) (x : Nat → Nat) (n : Nat) :
    scanGo rd f run ((List.range n).map act) ((List.range n).map x) =
      (List.range n).map fun j => if act j then (scannedTo rd f run act x j).getD 0 else x j := by
  induction n generalizing run act x with
  | zero => rfl
  | succ n ih =>
    have htail (r : Option Nat) := ih r (fun i => act (i + 1)) (fun i => x (i + 1))
    simp only [List.range_succ_eq_map, List.map_cons, List.map_map, Function.comp_def, scannedTo_zero, scannedTo_succ]
    cases hact : act 0 with
    | false => simp [scanGo, htail]
    | true => cases run <;> simp [scanGo, htail, scanStep]

section
variable {s : State} {g g1 : Grp} {x : Vec} (i : Instr) (hg : s.inGroup g) {w : VUn} (ha : readSrc s.me s.now g w.a = .ok (x, g1))
include hg ha

theorem redWord_gives (o : RedOp) :
    s.GivesLanes w.ctl g1 w.dst w.ty.size (vecWord s w.ctl i (redBody w o)) fun _ =>
      (treeGo (redOp s.me w o) 10 (redElems s.me w x)).getD (redIdentity w.ty o) % 2 ^ (8 * w.ty.size) :=
  vecWord_givesLanes i hg (by simp [redBody, ha, bind, Except.bind, vecElems_eq_map, actOf_eq_map, vecSplat_eq, redElems])

theorem scanWord_gives (o : RedOp) :
    s.GivesLanes w.ctl g1 w.dst w.ty.size (vecWord s w.ctl i (scanBody w o))
      (activeOr s.me w.pred w.ty.size
        (fun j => (scannedTo (fun v => if w.ty.isFloat then readFtz w.ty.fmt s.me.vftz v else v) (redOp s.me w o) none
          (activeAt s.me w.pred w.ty.size) (lane x w.ty.size) j).getD 0) (lane x w.ty.size)) := by
  refine vecWord_givesActive i hg (lane_mod x _) ?_
  simp [scanBody, ha, bind, Except.bind, vecElems_eq_map, actOf_eq_map, scanGo_table, vecLanes]

end

/-- A result that is the tree's in every element is the same in all, and the identity where none is active. -/
theorem State.GivesLanes.reduction {s : State} {ctl : Ctl} {g : Grp} {dst : VDst} {out : Out3} {w : VUn} {x : Vec} {o : RedOp}
    (h : s.GivesLanes ctl g dst w.ty.size out fun _ =>
      (treeGo (redOp s.me w o) 10 (redElems s.me w x)).getD (redIdentity w.ty o) % 2 ^ (8 * w.ty.size)) :
    ∃ r : Vec, out = .next (s.wordDone ctl (g.dest dst r) (some r)) ∧ (∀ j < 512 / w.ty.size, lane r w.ty.size j = lane r w.ty.size 0) ∧
      lane r w.ty.size 0 = (treeGo (redOp s.me w o) 10 (redElems s.me w x)).getD (redIdentity w.ty o) % 2 ^ (8 * w.ty.size) ∧
      ((∀ j < 512 / w.ty.size, activeAt s.me w.pred w.ty.size j = false) →
        lane r w.ty.size 0 = redIdentity w.ty o % 2 ^ (8 * w.ty.size)) := by
  obtain ⟨r, ho, hr⟩ := h
  have hfirst := hr 0 (elemCount_pos w.ty)
  exact ⟨r, ho, fun j hj => (hr j hj).trans hfirst.symm, hfirst, fun hnone => by rw [hfirst, treeGo_redElems_none _ _ x hnone]; rfl⟩

/-- A result that is `f` where active and `p` elsewhere, said of the two kinds of element apart. -/
theorem State.GivesLanes.split_active {s : State} {ctl : Ctl} {g : Grp} {pred : PSel} {dst : VDst} {e : Nat} {out : Out3} {f p : Nat → Nat}
    (h : s.GivesLanes ctl g dst e out (activeOr s.me pred e f p)) :
    ∃ r : Vec, out = .next (s.wordDone ctl (g.dest dst r) (some r)) ∧
      (∀ j < 512 / e, activeAt s.me pred e j = false → lane r e j = p j) ∧
      (∀ j < 512 / e, activeAt s.me pred e j = true → lane r e j = f j % 2 ^ (8 * e)) := by
  obtain ⟨r, ho, hr⟩ := h
  exact ⟨r, ho, fun j hj hact => by simp [hr j hj, activeOr, hact], fun j hj hact => by simp [hr j hj, activeOr, hact]⟩

theorem reductionsAndScans : Claims.ReductionsAndScans := by
  intro w s g g1 x hg ha
  exact ⟨(redWord_gives (.vredsum w) hg ha .sum).reduction, (redWord_gives (.vredmax w) hg ha .max).reduction,
    (redWord_gives (.vredmin w) hg ha .min).reduction,
    (scanWord_gives (.vscansum w) hg ha .sum).split_active, (scanWord_gives (.vscanmax w) hg ha .max).split_active⟩

/-! Predicate words over all 512 bits, and the mask words (R206, R207, R216). -/

/-- The elements of a predicate, counted. -/
theorem actList_count (p : Pred) (e : Nat) :
    ((actList p e).filter id).length = ((List.range (512 / e)).filter fun j => p.getLsbD (j * e)).length := by
  simp [actList, List.filter_map]

theorem actList_count_le (p : Pred) (e : Nat) : ((actList p e).filter id).length ≤ 512 :=
  calc ((actList p e).filter id).length ≤ (actList p e).length := List.length_filter_le ..
    _ ≤ 512 := by simpa [actList] using Nat.div_le_self 512 e

theorem kcountWord_gives {s : State} {g : Grp} (ctl : Ctl) (dst : VDst) (i : Instr) (ka : KReg) (ty : Ty) (hg : s.inGroup g) :
    s.GivesLanes ctl g dst 4 (vecWord s ctl i (kcountBody dst ka ty)) fun _ =>
      ((List.range (512 / ty.size)).filter fun j => (s.me.getK ka.toNat).getLsbD (j * ty.size)).length := by
  have hbody : kcountBody dst ka ty s s.me s.served g =
      vout g dst (vecLanes 4 fun _ => ((actList (s.me.getK ka.toNat) ty.size).filter id).length) := by rw [kcountBody, vecSplat_eq]
  refine (vecWord_givesLanes i hg hbody).congr fun j _ => ?_
  have hle := actList_count_le (s.me.getK ka.toNat) ty.size
  rw [← actList_count, Nat.mod_eq_of_lt (by omega)]

theorem exec_kand (ctl : Ctl) (inv : Bool) (kd ka kb : KReg) (s : State) :
    exec (.kand ctl inv kd ka kb) s = vecWord s ctl (.kand ctl inv kd ka kb) (klogBody inv kd ka kb (· &&& ·)) := rfl

theorem exec_kor (ctl : Ctl) (inv : Bool) (kd ka kb : KReg) (s : State) :
    exec (.kor ctl inv kd ka kb) s = vecWord s ctl (.kor ctl inv kd ka kb) (klogBody inv kd ka kb (· ||| ·)) := rfl

theorem exec_kxor (ctl : Ctl) (inv : Bool) (kd ka kb : KReg) (s : State) :
    exec (.kxor ctl inv kd ka kb) s = vecWord s ctl (.kxor ctl inv kd ka kb) (klogBody inv kd ka kb (· ^^^ ·)) := rfl

theorem exec_kset (ctl : Ctl) (kd : KReg) (n : KCnt) (ty : Ty) (s : State) :
    exec (.kset ctl kd n ty) s = vecWord s ctl (.kset ctl kd n ty) (ksetBody kd n ty) := rfl

theorem exec_mpush (ctl : Ctl) (ka : KReg) (s : State) :
    exec (.mpush ctl ka) s = vecWord s ctl (.mpush ctl ka) fun _ k _ g => .ok (g.add (.mpush (k.getK ka.toNat)), none) := rfl

theorem exec_minv (ctl : Ctl) (s : State) :
    exec (.minv ctl) s = vecWord s ctl (.minv ctl) fun _ _ _ g => .ok (g.add .minv, none) := rfl

theorem exec_mpop (ctl : Ctl) (s : State) :
    exec (.mpop ctl) s = vecWord s ctl (.mpop ctl) fun _ _ _ g => .ok (g.add .mpop, none) := rfl

/-- KSET over a count that is read: the elements below it are true. -/
theorem ksetWord_ok {s : State} {g g1 : Grp} {n : KCnt} {m : Nat} (ctl : Ctl) (kd : KReg) (ty : Ty) (hg : s.inGroup g)
    (hbody : ksetBody kd n ty s s.me s.served g =
      kout g1 (some kd) (predOf ty.size ((List.range (512 / ty.size)).map fun i => decide (i < m)))) :
    ∃ v : Pred, exec (.kset ctl kd n ty) s = .next (s.wordDone ctl (g1.add (.pred kd.toNat v)) (some (predVec v))) ∧
      ∀ j < 512 / ty.size, ∀ b < ty.size, v.getLsbD (j * ty.size + b) = decide (j < m) :=
  ⟨_, (exec_kset ..).trans (vecWord_ok ctl _ hg hbody), fun _ hj _ hb => predOf_getLsbD _ hj hb⟩

theorem predicateWords : Claims.PredicateWords := by
  intro ctl inv kd ka kb dst ty s g hg
  refine ⟨?_, ?_, ?_, fun n => ksetWord_ok ctl kd ty hg rfl, fun o keep x g1 hx => ksetWord_ok ctl kd ty hg ?_,
    kcountWord_gives ctl dst _ ka ty hg, ?_, ?_, ?_⟩
  · exact (exec_kand ..).trans (vecWord_ok ctl _ hg rfl)
  · exact (exec_kor ..).trans (vecWord_ok ctl _ hg rfl)
  · exact (exec_kxor ..).trans (vecWord_ok ctl _ hg rfl)
  · simp only [ksetBody, hx]
  · exact (exec_mpush ..).trans (vecWord_ok ctl _ hg rfl)
  · exact (exec_minv ..).trans (vecWord_ok ctl _ hg rfl)
  · exact (exec_mpop ..).trans (vecWord_ok ctl _ hg rfl)

/-- Settles O18: a reduction's and a scan's elements are read off the packed result, the scan by `scanGo_table`; the other words stage. -/
theorem reductionsScansPredicates : Obligations.ReductionsScansPredicates := ⟨reductionsAndScans, predicateWords⟩

end Sys2Proof.Machine
